-- ==== Sys2Proof/Word.lean ====
section
/-! DEFINITION. The two widths of the core: 8-bit bytes and 16-bit words (00_scope.md R5, R10). -/

namespace Sys2Proof

/-- A byte: the data bus and A, X, Y, SP and P (R5). Byte arithmetic is modulo 256 (R10). -/
abbrev Byte := BitVec 8

/-- A word: PC, the address bus and every effective address (R5). Word arithmetic is modulo 2^16 (R10). -/
abbrev Word := BitVec 16

end Sys2Proof
end

