-- ==== Sys2Proof/Config.lean ====
section
/-! DEFINITION. The parameters a model takes (00_scope.md R6) with their defaults, and the free values: the values
the spec leaves open, as constants without a body. -/

namespace Sys2Proof.Machine

/-! ### What a device is told, and what a platform can describe (`DEVICES`, R6; 20_memory.md R72, R73, R97) -/

/-- One call on the registered devices. -/
inductive BusEvent where
  /-- `SetRW(cpuWantsToRead)`, on every device, before each access (20_memory.md R84). -/
  | setRw (wantsToRead : Bool)
  /-- `Read(a, readOnly = false)`, on the device registered at this priority (R80). -/
  | read (priority : Int) (a : Word)
  /-- `Write(a, v)`, on every device (R81). -/
  | write (a : Word) (v : Byte)
  /-- `Clock()`, on every device once, in the host's order (R91). -/
  | clock
deriving DecidableEq, Repr

/-- The operators of a device's expressions, on natural numbers; `eq` and `lt` give 1 or 0. -/
inductive DeviceOp where
  | add | sub | mul | div | mod
  | land | lor | xor | shl | shr
  | eq | lt
deriving DecidableEq, Repr

/-- An expression over what a device is told and the bytes it keeps. -/
inductive DeviceExpr where
  | lit (n : Nat)
  /-- the address of the access -/
  | addr
  /-- the byte written; for `SetRW`, 1 when the core wants to read -/
  | data
  /-- a byte of the device's own state -/
  | cell (index : DeviceExpr)
  /-- the k-th free byte of this call: how a relation leaves a choice open (R97) -/
  | draw (k : Nat)
  | ite (condition whenTrue whenFalse : DeviceExpr)
  | op (f : DeviceOp) (left right : DeviceExpr)
deriving DecidableEq, Repr

/-- A call's effect: `cell[index] <- value`, one assignment after the other. -/
abbrev DeviceEffect := List (DeviceExpr × DeviceExpr)

/-- A behaviour the platform describes (R97): how many bytes of state the device keeps, what its `Read` answers, and
what each call does to its state. -/
structure DeviceProgram where
  cells   : Nat
  answer  : DeviceExpr
  onRead  : DeviceEffect
  onWrite : DeviceEffect
  onClock : DeviceEffect
  onSetRw : DeviceEffect
deriving DecidableEq, Repr

end Sys2Proof.Machine

namespace Sys2Proof.Config

/-- `SBX_MODE` (R6): what opcode 0xCB means (47_undocumented.md R328). -/
inductive SbxMode where
  | unsupported
  | silicon
deriving DecidableEq, Repr

/-- `BRANCH_PAGE_PENALTY` (R6): for each of the eight branches, whether a taken branch to another page takes a
fourth cycle (70_reset_and_hazards.md R512). -/
structure BranchPagePenalty where
  bcc : Bool
  bcs : Bool
  beq : Bool
  bne : Bool
  bmi : Bool
  bpl : Bool
  bvc : Bool
  bvs : Bool
deriving DecidableEq, Repr

/-- The parameters of R6 other than `DEVICES` (which stands in State with the devices' contents). -/
structure Params where
  irqNmiPresent     : Bool
  sbxMode           : SbxMode
  branchPagePenalty : BranchPagePenalty
  /-- `PIN_LEVEL_MODE`: no effect on any rule (20_memory.md R86). -/
  pinLevelMode      : Bool
deriving DecidableEq, Repr

/-- The defaults of R6. -/
def Params.default : Params where
  irqNmiPresent := true
  sbxMode := .unsupported
  branchPagePenalty := ⟨true, true, true, true, true, true, true, true⟩
  pinLevelMode := false

/-- FREE VALUE (log 6): the k-th byte that the device at this priority draws in a call, the call being the head of all
the calls so far, newest first. An undescribed device answers draw 0 (20_memory.md R97, "any byte (a draw)"). -/
opaque deviceByte : Int → List Machine.BusEvent → Nat → Byte

/-- FREE VALUE (log 9): how the consumed cycles split between the addressing-mode and the instruction counter
(10_state.md R52, R150). -/
opaque cycleSplit : Nat → Nat

/-- FREE VALUE (log 9): AMIP after an intermediate clock of an instruction (40_fetch_execute.md R145). -/
opaque flightAmip : Nat → Bool

/-- FREE VALUE (log 9): OPIP after an intermediate clock of an instruction, where AMIP is true (R145). -/
opaque flightOpip : Nat → Bool

/-- FREE VALUE (log 9): the scratch byte `lo` at an instruction boundary (10_state.md R53). -/
opaque scratchLo : Nat → Byte

/-- FREE VALUE (log 9): the scratch byte `hi` at an instruction boundary (R53). -/
opaque scratchHi : Nat → Byte

/-- FREE VALUE (log 9): `tempAddr` at an instruction boundary (R53). -/
opaque scratchTemp : Nat → Word

/-- FREE VALUE (log 9): `relAddr` at an instruction boundary (R53). -/
opaque scratchRel : Nat → Word

end Sys2Proof.Config
end

