-- ==== Sys2Proof/Syntax.lean ====
section
/-! DEFINITION. The instructions: 77 mnemonics, each with its addressing mode and operand bytes
(30_encoding.md R110 to R130, 41_addressing_modes.md). -/

namespace Sys2Proof

/-- The thirteen addressing modes (41_addressing_modes.md). -/
inductive Mode where
  | imp | acc | imm | zpa | zpx | zpy | rel | abs | abx | aby | ind | izx | izy
deriving DecidableEq, Repr

/-- The instruction length of a mode (R112). -/
def Mode.length : Mode → Nat
  | .imp | .acc => 1
  | .imm | .zpa | .zpx | .zpy | .izx | .izy | .rel => 2
  | .abs | .abx | .aby | .ind => 3

/-- `fields.class` of the opcode table (R123, R181): how the instruction uses its mode. -/
inductive OpClass where
  | read | write | rmw | implied | branch | jump | special
deriving DecidableEq, Repr

/-- The 77 mnemonics of the operation table (R120), spelled as the table spells them. -/
inductive Mnemonic where
  | ADC | ALR | ANC | AND | ANE | ARR | ASL | BCC | BCS | BEQ | BIT | BMI | BNE | BPL | BRK | BVC | BVS
  | CLC | CLD | CLI | CLV | CMP | CPX | CPY | DCP | DEC | DEX | DEY | EOR | INC | INX | INY | ISC | JAM
  | JMP | JSR | LAS | LAX | LDA | LDX | LDY | LSR | LXA | NOP | ORA | PHA | PHP | PLA | PLP | RLA | ROL
  | ROR | RRA | RTI | RTS | SAX | SBC | SBX | SEC | SED | SEI | SHA | SHX | SHY | SLO | SRE | STA | STX
  | STY | TAS | TAX | TAY | TSX | TXA | TXS | TYA | USBC
deriving DecidableEq, Repr

/-- The operand of a mode that computes an effective address (R113, R185 to R193): a zero-page address, an absolute
address, or a zero-page pointer. -/
inductive MemMode where
  | zpa (zp : Byte)
  | zpx (zp : Byte)
  | zpy (zp : Byte)
  | abs (addr : Word)
  | abx (addr : Word)
  | aby (addr : Word)
  | izx (ptr : Byte)
  | izy (ptr : Byte)
deriving DecidableEq, Repr

/-- The operand of a read instruction that has an immediate form: `imm8` or a memory mode (R113, R184). -/
inductive ReadOperand where
  | imm (value : Byte)
  | mem (m : MemMode)
deriving DecidableEq, Repr

/-- The operand of a shift or rotate: the accumulator or a memory mode (R183, R249). -/
inductive ShiftOperand where
  | acc
  | mem (m : MemMode)
deriving DecidableEq, Repr

/-- The operand of a NOP: none, an immediate or a memory mode (R128, R301). -/
inductive NopOperand where
  | implied
  | imm (value : Byte)
  | mem (m : MemMode)
deriving DecidableEq, Repr

/-- The operand of JMP: a target (ABS) or a pointer to one (IND) (R270). -/
inductive JumpOperand where
  | abs (target : Word)
  | ind (ptr : Word)
deriving DecidableEq, Repr

/-- The instructions. A row of the opcode table is a constructor together with the form of its operand; where the
table gives one mnemonic and mode several opcode bytes (NOP, ANC, JAM), `opcode` says which byte it is. -/
inductive Instr where
  -- 42_load_store_transfer.md
  | lda (o : ReadOperand)
  | ldx (o : ReadOperand)
  | ldy (o : ReadOperand)
  | sta (m : MemMode)
  | stx (m : MemMode)
  | sty (m : MemMode)
  | tax | tay | txa | tya | tsx | txs
  -- 43_arithmetic_logic.md
  | adc (o : ReadOperand)
  | sbc (o : ReadOperand)
  | and (o : ReadOperand)
  | ora (o : ReadOperand)
  | eor (o : ReadOperand)
  | bit (m : MemMode)
  | cmp (o : ReadOperand)
  | cpx (o : ReadOperand)
  | cpy (o : ReadOperand)
  | inc (m : MemMode)
  | dec (m : MemMode)
  | inx | iny | dex | dey
  -- 44_shift_rotate.md
  | asl (o : ShiftOperand)
  | lsr (o : ShiftOperand)
  | rol (o : ShiftOperand)
  | ror (o : ShiftOperand)
  -- 45_control_transfer.md
  | bcc (off : Byte)
  | bcs (off : Byte)
  | beq (off : Byte)
  | bne (off : Byte)
  | bmi (off : Byte)
  | bpl (off : Byte)
  | bvc (off : Byte)
  | bvs (off : Byte)
  | jmp (o : JumpOperand)
  | jsr (target : Word)
  | rts | rti | brk
  -- 46_stack_status.md
  | pha | php | pla | plp
  | clc | sec | cli | sei | cld | sed | clv
  | nop (opcode : Byte) (o : NopOperand)
  -- 47_undocumented.md
  | slo (m : MemMode)
  | rla (m : MemMode)
  | sre (m : MemMode)
  | rra (m : MemMode)
  | sax (m : MemMode)
  | lax (m : MemMode)
  | dcp (m : MemMode)
  | isc (m : MemMode)
  | anc (opcode : Byte) (value : Byte)
  | alr (value : Byte)
  | arr (value : Byte)
  | usbc (value : Byte)
  | ane (value : Byte)
  | lxa (value : Byte)
  | sha (m : MemMode)
  | tas (m : MemMode)
  | shy (m : MemMode)
  | shx (m : MemMode)
  | las (m : MemMode)
  | sbx (value : Byte)
  | jam (opcode : Byte)
deriving DecidableEq, Repr

/-- The mode of an effective-address operand. -/
def MemMode.mode : MemMode → Mode
  | .zpa _ => .zpa
  | .zpx _ => .zpx
  | .zpy _ => .zpy
  | .abs _ => .abs
  | .abx _ => .abx
  | .aby _ => .aby
  | .izx _ => .izx
  | .izy _ => .izy

/-- The mode of a read operand. -/
def ReadOperand.mode : ReadOperand → Mode
  | .imm _ => .imm
  | .mem m => m.mode

/-- The mode of a shift operand. -/
def ShiftOperand.mode : ShiftOperand → Mode
  | .acc => .acc
  | .mem m => m.mode

/-- The mode of a NOP's operand. -/
def NopOperand.mode : NopOperand → Mode
  | .implied => .imp
  | .imm _ => .imm
  | .mem m => m.mode

/-- The mode of JMP's operand. -/
def JumpOperand.mode : JumpOperand → Mode
  | .abs _ => .abs
  | .ind _ => .ind

/-- The addressing mode of an instruction. -/
def Instr.mode : Instr → Mode
  | .lda o | .ldx o | .ldy o | .adc o | .sbc o | .and o | .ora o | .eor o | .cmp o | .cpx o | .cpy o => o.mode
  | .sta m | .stx m | .sty m | .bit m | .inc m | .dec m | .slo m | .rla m | .sre m | .rra m | .sax m | .lax m
  | .dcp m | .isc m | .sha m | .tas m | .shy m | .shx m | .las m => m.mode
  | .asl o | .lsr o | .rol o | .ror o => o.mode
  | .nop _ o => o.mode
  | .jmp o => o.mode
  | .jsr _ => .abs
  | .bcc _ | .bcs _ | .beq _ | .bne _ | .bmi _ | .bpl _ | .bvc _ | .bvs _ => .rel
  | .anc _ _ | .alr _ | .arr _ | .usbc _ | .ane _ | .lxa _ | .sbx _ => .imm
  | .tax | .tay | .txa | .tya | .tsx | .txs | .inx | .iny | .dex | .dey | .rts | .rti | .brk | .pha | .php | .pla
  | .plp | .clc | .sec | .cli | .sei | .cld | .sed | .clv | .jam _ => .imp

/-- The mnemonic of an instruction, as the operation table spells it. -/
def Instr.mnemonic : Instr → Mnemonic
  | .lda _ => .LDA | .ldx _ => .LDX | .ldy _ => .LDY | .sta _ => .STA | .stx _ => .STX | .sty _ => .STY
  | .tax => .TAX | .tay => .TAY | .txa => .TXA | .tya => .TYA | .tsx => .TSX | .txs => .TXS
  | .adc _ => .ADC | .sbc _ => .SBC | .and _ => .AND | .ora _ => .ORA | .eor _ => .EOR | .bit _ => .BIT
  | .cmp _ => .CMP | .cpx _ => .CPX | .cpy _ => .CPY | .inc _ => .INC | .dec _ => .DEC
  | .inx => .INX | .iny => .INY | .dex => .DEX | .dey => .DEY
  | .asl _ => .ASL | .lsr _ => .LSR | .rol _ => .ROL | .ror _ => .ROR
  | .bcc _ => .BCC | .bcs _ => .BCS | .beq _ => .BEQ | .bne _ => .BNE
  | .bmi _ => .BMI | .bpl _ => .BPL | .bvc _ => .BVC | .bvs _ => .BVS
  | .jmp _ => .JMP | .jsr _ => .JSR | .rts => .RTS | .rti => .RTI | .brk => .BRK
  | .pha => .PHA | .php => .PHP | .pla => .PLA | .plp => .PLP
  | .clc => .CLC | .sec => .SEC | .cli => .CLI | .sei => .SEI | .cld => .CLD | .sed => .SED | .clv => .CLV
  | .nop _ _ => .NOP
  | .slo _ => .SLO | .rla _ => .RLA | .sre _ => .SRE | .rra _ => .RRA | .sax _ => .SAX | .lax _ => .LAX
  | .dcp _ => .DCP | .isc _ => .ISC | .anc _ _ => .ANC | .alr _ => .ALR | .arr _ => .ARR | .usbc _ => .USBC
  | .ane _ => .ANE | .lxa _ => .LXA | .sha _ => .SHA | .tas _ => .TAS | .shy _ => .SHY | .shx _ => .SHX
  | .las _ => .LAS | .sbx _ => .SBX | .jam _ => .JAM

end Sys2Proof
end

