-- ==== Sys2Proof/WellFormed.lean ====
section
/-! DEFINITION. Which operand forms each instruction has: the addressing modes of the "Encoding" line of its rule
(42_ to 47_ files), and for NOP, ANC and JAM the opcode bytes of their lists (R125, R128, R319). -/

namespace Sys2Proof

/-- The eight modes of LDA, ADC, SBC, AND, ORA, EOR and CMP (R200, R223 to R229). -/
def accumulatorModes : List Mode := [.imm, .zpa, .zpx, .abs, .abx, .aby, .izx, .izy]

/-- The seven modes of the read-modify-write composites (R310). -/
def compositeModes : List Mode := [.izx, .zpa, .abs, .izy, .zpx, .aby, .abx]

/-- The memory modes of the shifts, INC and DEC (R232, R233, R250 to R253). -/
def modifyModes : List Mode := [.zpa, .zpx, .abs, .abx]

/-- The NOP bytes of each mode (R128). -/
def nopBytes : Mode → List Byte
  | .imp => [0xEA, 0x1A, 0x3A, 0x5A, 0x7A, 0xDA, 0xFA]
  | .imm => [0x80, 0x82, 0x89, 0xC2, 0xE2]
  | .zpa => [0x04, 0x44, 0x64]
  | .zpx => [0x14, 0x34, 0x54, 0x74, 0xD4, 0xF4]
  | .abs => [0x0C]
  | .abx => [0x1C, 0x3C, 0x5C, 0x7C, 0xDC, 0xFC]
  | _ => []

/-- The two ANC bytes (R319). -/
def ancBytes : List Byte := [0x0B, 0x2B]

/-- The twelve JAM bytes (R125). -/
def jamBytes : List Byte := [0x02, 0x12, 0x22, 0x32, 0x42, 0x52, 0x62, 0x72, 0x92, 0xB2, 0xD2, 0xF2]

/-- The instruction has the operand form (and the opcode byte) its rule lists. -/
def Instr.wf : Instr → Bool
  | .lda o | .adc o | .sbc o | .and o | .ora o | .eor o | .cmp o => accumulatorModes.contains o.mode
  | .ldx o => [Mode.imm, .zpa, .zpy, .abs, .aby].contains o.mode
  | .ldy o => [Mode.imm, .zpa, .zpx, .abs, .abx].contains o.mode
  | .sta m => [Mode.zpa, .zpx, .abs, .abx, .aby, .izx, .izy].contains m.mode
  | .stx m => [Mode.zpa, .zpy, .abs].contains m.mode
  | .sty m => [Mode.zpa, .zpx, .abs].contains m.mode
  | .bit m => [Mode.zpa, .abs].contains m.mode
  | .cpx o | .cpy o => [Mode.imm, .zpa, .abs].contains o.mode
  | .inc m | .dec m => modifyModes.contains m.mode
  | .asl o | .lsr o | .rol o | .ror o => (Mode.acc :: modifyModes).contains o.mode
  | .nop opcode o => (nopBytes o.mode).contains opcode
  | .slo m | .rla m | .sre m | .rra m | .dcp m | .isc m => compositeModes.contains m.mode
  | .sax m => [Mode.izx, .zpa, .abs, .zpy].contains m.mode
  | .lax m => [Mode.izx, .zpa, .abs, .izy, .zpy, .aby].contains m.mode
  | .anc opcode _ => ancBytes.contains opcode
  | .sha m => [Mode.izy, .aby].contains m.mode
  | .tas m | .shx m | .las m => [Mode.aby].contains m.mode
  | .shy m => [Mode.abx].contains m.mode
  | .jam opcode => jamBytes.contains opcode
  | .tax | .tay | .txa | .tya | .tsx | .txs | .inx | .iny | .dex | .dey => true
  | .bcc _ | .bcs _ | .beq _ | .bne _ | .bmi _ | .bpl _ | .bvc _ | .bvs _ => true
  | .jmp _ | .jsr _ | .rts | .rti | .brk | .pha | .php | .pla | .plp => true
  | .clc | .sec | .cli | .sei | .cld | .sed | .clv => true
  | .alr _ | .arr _ | .usbc _ | .ane _ | .lxa _ | .sbx _ => true

end Sys2Proof
end

