-- ==== Sys2Proof/Decode.lean ====
section
/-! DEFINITION. The byte-order helpers, the operation table (30_encoding.md R120), the decoder and the encoder. -/

namespace Sys2Proof

/-- `hi(w) = w[15:8]` (R10). -/
def hiByte (w : Word) : Byte := w.extractLsb' 8 8

/-- `lo(w) = w[7:0]` (R10). -/
def loByte (w : Word) : Byte := w.extractLsb' 0 8

/-- `{h, l}`: the word with high byte `h` and low byte `l` (R9). -/
def wordOf (h l : Byte) : Word := h ++ l

/-- `zext_16(b)` (R10). -/
def zext16 (b : Byte) : Word := b.zeroExtend 16

/-- `sext_16(b)`: `b | 0xFF00` if bit 7 is set (R10). -/
def sext16 (b : Byte) : Word := if b.msb then zext16 b ||| 0xFF00 else zext16 b

/-- An entry of the operation table (R120, R123): the columns `mnemonic`, `mode`, `cycles` (none for JAM),
`page_penalty`, `class` and `documented`. -/
structure Operation where
  mnemonic    : Mnemonic
  mode        : Mode
  cycles      : Option Nat
  pagePenalty : Bool
  cls         : OpClass
  documented  : Bool
deriving DecidableEq, Repr

/-- Opcodes 0x00 to 0x0F of the map of R120. -/
def row0 : List Operation :=
  [⟨.BRK, .imp, some 7, false, .special, true⟩,
   ⟨.ORA, .izx, some 6, false, .read, true⟩,
   ⟨.JAM, .imp, none, false, .special, false⟩,
   ⟨.SLO, .izx, some 8, false, .rmw, false⟩,
   ⟨.NOP, .zpa, some 3, false, .read, false⟩,
   ⟨.ORA, .zpa, some 3, false, .read, true⟩,
   ⟨.ASL, .zpa, some 5, false, .rmw, true⟩,
   ⟨.SLO, .zpa, some 5, false, .rmw, false⟩,
   ⟨.PHP, .imp, some 3, false, .special, true⟩,
   ⟨.ORA, .imm, some 2, false, .read, true⟩,
   ⟨.ASL, .acc, some 2, false, .implied, true⟩,
   ⟨.ANC, .imm, some 2, false, .read, false⟩,
   ⟨.NOP, .abs, some 4, false, .read, false⟩,
   ⟨.ORA, .abs, some 4, false, .read, true⟩,
   ⟨.ASL, .abs, some 6, false, .rmw, true⟩,
   ⟨.SLO, .abs, some 6, false, .rmw, false⟩]

/-- Opcodes 0x10 to 0x1F of the map of R120. -/
def row1 : List Operation :=
  [⟨.BPL, .rel, some 2, false, .branch, true⟩,
   ⟨.ORA, .izy, some 5, true, .read, true⟩,
   ⟨.JAM, .imp, none, false, .special, false⟩,
   ⟨.SLO, .izy, some 8, false, .rmw, false⟩,
   ⟨.NOP, .zpx, some 4, false, .read, false⟩,
   ⟨.ORA, .zpx, some 4, false, .read, true⟩,
   ⟨.ASL, .zpx, some 6, false, .rmw, true⟩,
   ⟨.SLO, .zpx, some 6, false, .rmw, false⟩,
   ⟨.CLC, .imp, some 2, false, .implied, true⟩,
   ⟨.ORA, .aby, some 4, true, .read, true⟩,
   ⟨.NOP, .imp, some 2, false, .implied, false⟩,
   ⟨.SLO, .aby, some 7, false, .rmw, false⟩,
   ⟨.NOP, .abx, some 4, true, .read, false⟩,
   ⟨.ORA, .abx, some 4, true, .read, true⟩,
   ⟨.ASL, .abx, some 7, false, .rmw, true⟩,
   ⟨.SLO, .abx, some 7, false, .rmw, false⟩]

/-- Opcodes 0x20 to 0x2F of the map of R120. -/
def row2 : List Operation :=
  [⟨.JSR, .abs, some 6, false, .special, true⟩,
   ⟨.AND, .izx, some 6, false, .read, true⟩,
   ⟨.JAM, .imp, none, false, .special, false⟩,
   ⟨.RLA, .izx, some 8, false, .rmw, false⟩,
   ⟨.BIT, .zpa, some 3, false, .read, true⟩,
   ⟨.AND, .zpa, some 3, false, .read, true⟩,
   ⟨.ROL, .zpa, some 5, false, .rmw, true⟩,
   ⟨.RLA, .zpa, some 5, false, .rmw, false⟩,
   ⟨.PLP, .imp, some 4, false, .special, true⟩,
   ⟨.AND, .imm, some 2, false, .read, true⟩,
   ⟨.ROL, .acc, some 2, false, .implied, true⟩,
   ⟨.ANC, .imm, some 2, false, .read, false⟩,
   ⟨.BIT, .abs, some 4, false, .read, true⟩,
   ⟨.AND, .abs, some 4, false, .read, true⟩,
   ⟨.ROL, .abs, some 6, false, .rmw, true⟩,
   ⟨.RLA, .abs, some 6, false, .rmw, false⟩]

/-- Opcodes 0x30 to 0x3F of the map of R120. -/
def row3 : List Operation :=
  [⟨.BMI, .rel, some 2, false, .branch, true⟩,
   ⟨.AND, .izy, some 5, true, .read, true⟩,
   ⟨.JAM, .imp, none, false, .special, false⟩,
   ⟨.RLA, .izy, some 8, false, .rmw, false⟩,
   ⟨.NOP, .zpx, some 4, false, .read, false⟩,
   ⟨.AND, .zpx, some 4, false, .read, true⟩,
   ⟨.ROL, .zpx, some 6, false, .rmw, true⟩,
   ⟨.RLA, .zpx, some 6, false, .rmw, false⟩,
   ⟨.SEC, .imp, some 2, false, .implied, true⟩,
   ⟨.AND, .aby, some 4, true, .read, true⟩,
   ⟨.NOP, .imp, some 2, false, .implied, false⟩,
   ⟨.RLA, .aby, some 7, false, .rmw, false⟩,
   ⟨.NOP, .abx, some 4, true, .read, false⟩,
   ⟨.AND, .abx, some 4, true, .read, true⟩,
   ⟨.ROL, .abx, some 7, false, .rmw, true⟩,
   ⟨.RLA, .abx, some 7, false, .rmw, false⟩]

/-- Opcodes 0x40 to 0x4F of the map of R120. -/
def row4 : List Operation :=
  [⟨.RTI, .imp, some 6, false, .special, true⟩,
   ⟨.EOR, .izx, some 6, false, .read, true⟩,
   ⟨.JAM, .imp, none, false, .special, false⟩,
   ⟨.SRE, .izx, some 8, false, .rmw, false⟩,
   ⟨.NOP, .zpa, some 3, false, .read, false⟩,
   ⟨.EOR, .zpa, some 3, false, .read, true⟩,
   ⟨.LSR, .zpa, some 5, false, .rmw, true⟩,
   ⟨.SRE, .zpa, some 5, false, .rmw, false⟩,
   ⟨.PHA, .imp, some 3, false, .special, true⟩,
   ⟨.EOR, .imm, some 2, false, .read, true⟩,
   ⟨.LSR, .acc, some 2, false, .implied, true⟩,
   ⟨.ALR, .imm, some 2, false, .read, false⟩,
   ⟨.JMP, .abs, some 3, false, .jump, true⟩,
   ⟨.EOR, .abs, some 4, false, .read, true⟩,
   ⟨.LSR, .abs, some 6, false, .rmw, true⟩,
   ⟨.SRE, .abs, some 6, false, .rmw, false⟩]

/-- Opcodes 0x50 to 0x5F of the map of R120. -/
def row5 : List Operation :=
  [⟨.BVC, .rel, some 2, false, .branch, true⟩,
   ⟨.EOR, .izy, some 5, true, .read, true⟩,
   ⟨.JAM, .imp, none, false, .special, false⟩,
   ⟨.SRE, .izy, some 8, false, .rmw, false⟩,
   ⟨.NOP, .zpx, some 4, false, .read, false⟩,
   ⟨.EOR, .zpx, some 4, false, .read, true⟩,
   ⟨.LSR, .zpx, some 6, false, .rmw, true⟩,
   ⟨.SRE, .zpx, some 6, false, .rmw, false⟩,
   ⟨.CLI, .imp, some 2, false, .implied, true⟩,
   ⟨.EOR, .aby, some 4, true, .read, true⟩,
   ⟨.NOP, .imp, some 2, false, .implied, false⟩,
   ⟨.SRE, .aby, some 7, false, .rmw, false⟩,
   ⟨.NOP, .abx, some 4, true, .read, false⟩,
   ⟨.EOR, .abx, some 4, true, .read, true⟩,
   ⟨.LSR, .abx, some 7, false, .rmw, true⟩,
   ⟨.SRE, .abx, some 7, false, .rmw, false⟩]

/-- Opcodes 0x60 to 0x6F of the map of R120. -/
def row6 : List Operation :=
  [⟨.RTS, .imp, some 6, false, .special, true⟩,
   ⟨.ADC, .izx, some 6, false, .read, true⟩,
   ⟨.JAM, .imp, none, false, .special, false⟩,
   ⟨.RRA, .izx, some 8, false, .rmw, false⟩,
   ⟨.NOP, .zpa, some 3, false, .read, false⟩,
   ⟨.ADC, .zpa, some 3, false, .read, true⟩,
   ⟨.ROR, .zpa, some 5, false, .rmw, true⟩,
   ⟨.RRA, .zpa, some 5, false, .rmw, false⟩,
   ⟨.PLA, .imp, some 4, false, .special, true⟩,
   ⟨.ADC, .imm, some 2, false, .read, true⟩,
   ⟨.ROR, .acc, some 2, false, .implied, true⟩,
   ⟨.ARR, .imm, some 2, false, .read, false⟩,
   ⟨.JMP, .ind, some 5, false, .jump, true⟩,
   ⟨.ADC, .abs, some 4, false, .read, true⟩,
   ⟨.ROR, .abs, some 6, false, .rmw, true⟩,
   ⟨.RRA, .abs, some 6, false, .rmw, false⟩]

/-- Opcodes 0x70 to 0x7F of the map of R120. -/
def row7 : List Operation :=
  [⟨.BVS, .rel, some 2, false, .branch, true⟩,
   ⟨.ADC, .izy, some 5, true, .read, true⟩,
   ⟨.JAM, .imp, none, false, .special, false⟩,
   ⟨.RRA, .izy, some 8, false, .rmw, false⟩,
   ⟨.NOP, .zpx, some 4, false, .read, false⟩,
   ⟨.ADC, .zpx, some 4, false, .read, true⟩,
   ⟨.ROR, .zpx, some 6, false, .rmw, true⟩,
   ⟨.RRA, .zpx, some 6, false, .rmw, false⟩,
   ⟨.SEI, .imp, some 2, false, .implied, true⟩,
   ⟨.ADC, .aby, some 4, true, .read, true⟩,
   ⟨.NOP, .imp, some 2, false, .implied, false⟩,
   ⟨.RRA, .aby, some 7, false, .rmw, false⟩,
   ⟨.NOP, .abx, some 4, true, .read, false⟩,
   ⟨.ADC, .abx, some 4, true, .read, true⟩,
   ⟨.ROR, .abx, some 7, false, .rmw, true⟩,
   ⟨.RRA, .abx, some 7, false, .rmw, false⟩]

/-- Opcodes 0x80 to 0x8F of the map of R120. -/
def row8 : List Operation :=
  [⟨.NOP, .imm, some 2, false, .read, false⟩,
   ⟨.STA, .izx, some 6, false, .write, true⟩,
   ⟨.NOP, .imm, some 2, false, .read, false⟩,
   ⟨.SAX, .izx, some 6, false, .write, false⟩,
   ⟨.STY, .zpa, some 3, false, .write, true⟩,
   ⟨.STA, .zpa, some 3, false, .write, true⟩,
   ⟨.STX, .zpa, some 3, false, .write, true⟩,
   ⟨.SAX, .zpa, some 3, false, .write, false⟩,
   ⟨.DEY, .imp, some 2, false, .implied, true⟩,
   ⟨.NOP, .imm, some 2, false, .read, false⟩,
   ⟨.TXA, .imp, some 2, false, .implied, true⟩,
   ⟨.ANE, .imm, some 2, false, .read, false⟩,
   ⟨.STY, .abs, some 4, false, .write, true⟩,
   ⟨.STA, .abs, some 4, false, .write, true⟩,
   ⟨.STX, .abs, some 4, false, .write, true⟩,
   ⟨.SAX, .abs, some 4, false, .write, false⟩]

/-- Opcodes 0x90 to 0x9F of the map of R120. -/
def row9 : List Operation :=
  [⟨.BCC, .rel, some 2, false, .branch, true⟩,
   ⟨.STA, .izy, some 6, false, .write, true⟩,
   ⟨.JAM, .imp, none, false, .special, false⟩,
   ⟨.SHA, .izy, some 6, false, .write, false⟩,
   ⟨.STY, .zpx, some 4, false, .write, true⟩,
   ⟨.STA, .zpx, some 4, false, .write, true⟩,
   ⟨.STX, .zpy, some 4, false, .write, true⟩,
   ⟨.SAX, .zpy, some 4, false, .write, false⟩,
   ⟨.TYA, .imp, some 2, false, .implied, true⟩,
   ⟨.STA, .aby, some 5, false, .write, true⟩,
   ⟨.TXS, .imp, some 2, false, .implied, true⟩,
   ⟨.TAS, .aby, some 5, false, .write, false⟩,
   ⟨.SHY, .abx, some 5, false, .write, false⟩,
   ⟨.STA, .abx, some 5, false, .write, true⟩,
   ⟨.SHX, .aby, some 5, false, .write, false⟩,
   ⟨.SHA, .aby, some 5, false, .write, false⟩]

/-- Opcodes 0xA0 to 0xAF of the map of R120. -/
def rowA : List Operation :=
  [⟨.LDY, .imm, some 2, false, .read, true⟩,
   ⟨.LDA, .izx, some 6, false, .read, true⟩,
   ⟨.LDX, .imm, some 2, false, .read, true⟩,
   ⟨.LAX, .izx, some 6, false, .read, false⟩,
   ⟨.LDY, .zpa, some 3, false, .read, true⟩,
   ⟨.LDA, .zpa, some 3, false, .read, true⟩,
   ⟨.LDX, .zpa, some 3, false, .read, true⟩,
   ⟨.LAX, .zpa, some 3, false, .read, false⟩,
   ⟨.TAY, .imp, some 2, false, .implied, true⟩,
   ⟨.LDA, .imm, some 2, false, .read, true⟩,
   ⟨.TAX, .imp, some 2, false, .implied, true⟩,
   ⟨.LXA, .imm, some 2, false, .read, false⟩,
   ⟨.LDY, .abs, some 4, false, .read, true⟩,
   ⟨.LDA, .abs, some 4, false, .read, true⟩,
   ⟨.LDX, .abs, some 4, false, .read, true⟩,
   ⟨.LAX, .abs, some 4, false, .read, false⟩]

/-- Opcodes 0xB0 to 0xBF of the map of R120. -/
def rowB : List Operation :=
  [⟨.BCS, .rel, some 2, false, .branch, true⟩,
   ⟨.LDA, .izy, some 5, true, .read, true⟩,
   ⟨.JAM, .imp, none, false, .special, false⟩,
   ⟨.LAX, .izy, some 5, true, .read, false⟩,
   ⟨.LDY, .zpx, some 4, false, .read, true⟩,
   ⟨.LDA, .zpx, some 4, false, .read, true⟩,
   ⟨.LDX, .zpy, some 4, false, .read, true⟩,
   ⟨.LAX, .zpy, some 4, false, .read, false⟩,
   ⟨.CLV, .imp, some 2, false, .implied, true⟩,
   ⟨.LDA, .aby, some 4, true, .read, true⟩,
   ⟨.TSX, .imp, some 2, false, .implied, true⟩,
   ⟨.LAS, .aby, some 4, true, .read, false⟩,
   ⟨.LDY, .abx, some 4, true, .read, true⟩,
   ⟨.LDA, .abx, some 4, true, .read, true⟩,
   ⟨.LDX, .aby, some 4, true, .read, true⟩,
   ⟨.LAX, .aby, some 4, true, .read, false⟩]

/-- Opcodes 0xC0 to 0xCF of the map of R120. -/
def rowC : List Operation :=
  [⟨.CPY, .imm, some 2, false, .read, true⟩,
   ⟨.CMP, .izx, some 6, false, .read, true⟩,
   ⟨.NOP, .imm, some 2, false, .read, false⟩,
   ⟨.DCP, .izx, some 8, false, .rmw, false⟩,
   ⟨.CPY, .zpa, some 3, false, .read, true⟩,
   ⟨.CMP, .zpa, some 3, false, .read, true⟩,
   ⟨.DEC, .zpa, some 5, false, .rmw, true⟩,
   ⟨.DCP, .zpa, some 5, false, .rmw, false⟩,
   ⟨.INY, .imp, some 2, false, .implied, true⟩,
   ⟨.CMP, .imm, some 2, false, .read, true⟩,
   ⟨.DEX, .imp, some 2, false, .implied, true⟩,
   ⟨.SBX, .imm, some 2, false, .read, false⟩,
   ⟨.CPY, .abs, some 4, false, .read, true⟩,
   ⟨.CMP, .abs, some 4, false, .read, true⟩,
   ⟨.DEC, .abs, some 6, false, .rmw, true⟩,
   ⟨.DCP, .abs, some 6, false, .rmw, false⟩]

/-- Opcodes 0xD0 to 0xDF of the map of R120. -/
def rowD : List Operation :=
  [⟨.BNE, .rel, some 2, false, .branch, true⟩,
   ⟨.CMP, .izy, some 5, true, .read, true⟩,
   ⟨.JAM, .imp, none, false, .special, false⟩,
   ⟨.DCP, .izy, some 8, false, .rmw, false⟩,
   ⟨.NOP, .zpx, some 4, false, .read, false⟩,
   ⟨.CMP, .zpx, some 4, false, .read, true⟩,
   ⟨.DEC, .zpx, some 6, false, .rmw, true⟩,
   ⟨.DCP, .zpx, some 6, false, .rmw, false⟩,
   ⟨.CLD, .imp, some 2, false, .implied, true⟩,
   ⟨.CMP, .aby, some 4, true, .read, true⟩,
   ⟨.NOP, .imp, some 2, false, .implied, false⟩,
   ⟨.DCP, .aby, some 7, false, .rmw, false⟩,
   ⟨.NOP, .abx, some 4, true, .read, false⟩,
   ⟨.CMP, .abx, some 4, true, .read, true⟩,
   ⟨.DEC, .abx, some 7, false, .rmw, true⟩,
   ⟨.DCP, .abx, some 7, false, .rmw, false⟩]

/-- Opcodes 0xE0 to 0xEF of the map of R120. -/
def rowE : List Operation :=
  [⟨.CPX, .imm, some 2, false, .read, true⟩,
   ⟨.SBC, .izx, some 6, false, .read, true⟩,
   ⟨.NOP, .imm, some 2, false, .read, false⟩,
   ⟨.ISC, .izx, some 8, false, .rmw, false⟩,
   ⟨.CPX, .zpa, some 3, false, .read, true⟩,
   ⟨.SBC, .zpa, some 3, false, .read, true⟩,
   ⟨.INC, .zpa, some 5, false, .rmw, true⟩,
   ⟨.ISC, .zpa, some 5, false, .rmw, false⟩,
   ⟨.INX, .imp, some 2, false, .implied, true⟩,
   ⟨.SBC, .imm, some 2, false, .read, true⟩,
   ⟨.NOP, .imp, some 2, false, .implied, true⟩,
   ⟨.USBC, .imm, some 2, false, .read, false⟩,
   ⟨.CPX, .abs, some 4, false, .read, true⟩,
   ⟨.SBC, .abs, some 4, false, .read, true⟩,
   ⟨.INC, .abs, some 6, false, .rmw, true⟩,
   ⟨.ISC, .abs, some 6, false, .rmw, false⟩]

/-- Opcodes 0xF0 to 0xFF of the map of R120. -/
def rowF : List Operation :=
  [⟨.BEQ, .rel, some 2, false, .branch, true⟩,
   ⟨.SBC, .izy, some 5, true, .read, true⟩,
   ⟨.JAM, .imp, none, false, .special, false⟩,
   ⟨.ISC, .izy, some 8, false, .rmw, false⟩,
   ⟨.NOP, .zpx, some 4, false, .read, false⟩,
   ⟨.SBC, .zpx, some 4, false, .read, true⟩,
   ⟨.INC, .zpx, some 6, false, .rmw, true⟩,
   ⟨.ISC, .zpx, some 6, false, .rmw, false⟩,
   ⟨.SED, .imp, some 2, false, .implied, true⟩,
   ⟨.SBC, .aby, some 4, true, .read, true⟩,
   ⟨.NOP, .imp, some 2, false, .implied, false⟩,
   ⟨.ISC, .aby, some 7, false, .rmw, false⟩,
   ⟨.NOP, .abx, some 4, true, .read, false⟩,
   ⟨.SBC, .abx, some 4, true, .read, true⟩,
   ⟨.INC, .abx, some 7, false, .rmw, true⟩,
   ⟨.ISC, .abx, some 7, false, .rmw, false⟩]

/-- The operation table: 256 entries, the opcode byte is the index (R120). -/
def operationTable : List Operation :=
  row0 ++ row1 ++ row2 ++ row3 ++ row4 ++ row5 ++ row6 ++ row7 ++
  row8 ++ row9 ++ rowA ++ rowB ++ rowC ++ rowD ++ rowE ++ rowF

/-- The operation of an opcode byte. Every byte has one (R124), so the default is never taken
(Laws/Decode.lean, `operationTable_length`). -/
def operation (opcode : Byte) : Operation :=
  operationTable.getD opcode.toNat ⟨.JAM, .imp, none, false, .special, false⟩

/-- `fields.decimal_unsupported` (R123): the mnemonics that raise `Unsupported` when P.D = 1 (R221). -/
def Mnemonic.decimalUnsupported : Mnemonic → Bool
  | .ADC | .SBC | .USBC | .RRA | .ISC | .ARR => true
  | _ => false

/-- `fields.status` is `unsupported` (R123, R126): the mnemonics that always raise `Unsupported` (R330). -/
def Mnemonic.unstable : Mnemonic → Bool
  | .ANE | .LXA | .SHA | .TAS | .SHY | .SHX | .LAS => true
  | _ => false

/-- The declared cycles of an opcode byte (R120); JAM, which never completes, has none and counts as 0 here. -/
def declaredCycles (opcode : Byte) : Nat := (operation opcode).cycles.getD 0

/-- The operand of an effective-address mode, from the bytes after the opcode (R113). -/
def memMode (mode : Mode) (b1 b2 : Byte) : Option MemMode :=
  match mode with
  | .zpa => some (.zpa b1)
  | .zpx => some (.zpx b1)
  | .zpy => some (.zpy b1)
  | .abs => some (.abs (wordOf b2 b1))
  | .abx => some (.abx (wordOf b2 b1))
  | .aby => some (.aby (wordOf b2 b1))
  | .izx => some (.izx b1)
  | .izy => some (.izy b1)
  | _ => none

/-- The operand of a read instruction (R113, R184). -/
def readOperand (mode : Mode) (b1 b2 : Byte) : Option ReadOperand :=
  match mode with
  | .imm => some (.imm b1)
  | m => (memMode m b1 b2).map .mem

/-- The operand of a shift (R183, R249). -/
def shiftOperand (mode : Mode) (b1 b2 : Byte) : Option ShiftOperand :=
  match mode with
  | .acc => some .acc
  | m => (memMode m b1 b2).map .mem

/-- The operand of a NOP (R128). -/
def nopOperand (mode : Mode) (b1 b2 : Byte) : Option NopOperand :=
  match mode with
  | .imp => some .implied
  | .imm => some (.imm b1)
  | m => (memMode m b1 b2).map .mem

/-- The operand of JMP (R188, R191). -/
def jumpOperand (mode : Mode) (b1 b2 : Byte) : Option JumpOperand :=
  match mode with
  | .abs => some (.abs (wordOf b2 b1))
  | .ind => some (.ind (wordOf b2 b1))
  | _ => none

/-- The instruction of a table entry, its opcode byte and its operand bytes. -/
def instrOf (mn : Mnemonic) (mode : Mode) (opcode b1 b2 : Byte) : Option Instr :=
  match mn with
  | .LDA => (readOperand mode b1 b2).map .lda
  | .LDX => (readOperand mode b1 b2).map .ldx
  | .LDY => (readOperand mode b1 b2).map .ldy
  | .STA => (memMode mode b1 b2).map .sta
  | .STX => (memMode mode b1 b2).map .stx
  | .STY => (memMode mode b1 b2).map .sty
  | .TAX => some .tax
  | .TAY => some .tay
  | .TXA => some .txa
  | .TYA => some .tya
  | .TSX => some .tsx
  | .TXS => some .txs
  | .ADC => (readOperand mode b1 b2).map .adc
  | .SBC => (readOperand mode b1 b2).map .sbc
  | .AND => (readOperand mode b1 b2).map .and
  | .ORA => (readOperand mode b1 b2).map .ora
  | .EOR => (readOperand mode b1 b2).map .eor
  | .BIT => (memMode mode b1 b2).map .bit
  | .CMP => (readOperand mode b1 b2).map .cmp
  | .CPX => (readOperand mode b1 b2).map .cpx
  | .CPY => (readOperand mode b1 b2).map .cpy
  | .INC => (memMode mode b1 b2).map .inc
  | .DEC => (memMode mode b1 b2).map .dec
  | .INX => some .inx
  | .INY => some .iny
  | .DEX => some .dex
  | .DEY => some .dey
  | .ASL => (shiftOperand mode b1 b2).map .asl
  | .LSR => (shiftOperand mode b1 b2).map .lsr
  | .ROL => (shiftOperand mode b1 b2).map .rol
  | .ROR => (shiftOperand mode b1 b2).map .ror
  | .BCC => some (.bcc b1)
  | .BCS => some (.bcs b1)
  | .BEQ => some (.beq b1)
  | .BNE => some (.bne b1)
  | .BMI => some (.bmi b1)
  | .BPL => some (.bpl b1)
  | .BVC => some (.bvc b1)
  | .BVS => some (.bvs b1)
  | .JMP => (jumpOperand mode b1 b2).map .jmp
  | .JSR => some (.jsr (wordOf b2 b1))
  | .RTS => some .rts
  | .RTI => some .rti
  | .BRK => some .brk
  | .PHA => some .pha
  | .PHP => some .php
  | .PLA => some .pla
  | .PLP => some .plp
  | .CLC => some .clc
  | .SEC => some .sec
  | .CLI => some .cli
  | .SEI => some .sei
  | .CLD => some .cld
  | .SED => some .sed
  | .CLV => some .clv
  | .NOP => (nopOperand mode b1 b2).map (.nop opcode)
  | .SLO => (memMode mode b1 b2).map .slo
  | .RLA => (memMode mode b1 b2).map .rla
  | .SRE => (memMode mode b1 b2).map .sre
  | .RRA => (memMode mode b1 b2).map .rra
  | .SAX => (memMode mode b1 b2).map .sax
  | .LAX => (memMode mode b1 b2).map .lax
  | .DCP => (memMode mode b1 b2).map .dcp
  | .ISC => (memMode mode b1 b2).map .isc
  | .ANC => some (.anc opcode b1)
  | .ALR => some (.alr b1)
  | .ARR => some (.arr b1)
  | .USBC => some (.usbc b1)
  | .ANE => some (.ane b1)
  | .LXA => some (.lxa b1)
  | .SHA => (memMode mode b1 b2).map .sha
  | .TAS => (memMode mode b1 b2).map .tas
  | .SHY => (memMode mode b1 b2).map .shy
  | .SHX => (memMode mode b1 b2).map .shx
  | .LAS => (memMode mode b1 b2).map .las
  | .SBX => some (.sbx b1)
  | .JAM => some (.jam opcode)

/-- The instruction an opcode byte and the two bytes after it stand for; bytes beyond the instruction's length are
ignored. -/
def decodeBytes (opcode b1 b2 : Byte) : Option Instr :=
  instrOf (operation opcode).mnemonic (operation opcode).mode opcode b1 b2

/-- Why bytes are no instruction. -/
inductive DecodeError where
  /-- There is no byte. -/
  | noBytes
  /-- There are fewer bytes than the opcode's mode takes (R112). -/
  | truncated (opcode : Byte)
  /-- The table has no such operation; no opcode byte is rejected so (R124). -/
  | reserved (opcode : Byte)
deriving DecidableEq, Repr

/-- The bytes of one instruction, taken off the front of a list: its opcode and its two possible operand bytes (0
where the mode has none), and what is left (R110, R112). -/
def splitInstr (opcode : Byte) (rest : List Byte) : Option (Byte × Byte × List Byte) :=
  match (operation opcode).mode.length, rest with
  | 1, rest => some (0, 0, rest)
  | 2, b1 :: rest => some (b1, 0, rest)
  | 3, b1 :: b2 :: rest => some (b1, b2, rest)
  | _, _ => none

/-- The decoder: total on any bytes, it gives the instruction at the front of the list and the rest of the list, or
says why there is none. -/
def decode : List Byte → Except DecodeError (Instr × List Byte)
  | [] => .error .noBytes
  | opcode :: rest =>
    match splitInstr opcode rest with
    | none => .error (.truncated opcode)
    | some (b1, b2, rest) =>
      match decodeBytes opcode b1 b2 with
      | some i => .ok (i, rest)
      | none => .error (.reserved opcode)

/-- The opcode bytes of each mnemonic by mode, from the "Encoding" line of its rule. NOP, ANC and JAM, which have
several bytes in one mode, carry theirs in the instruction. -/
def Mnemonic.encodings : Mnemonic → List (Mode × Byte)
  | .LDA => [(.imm, 0xA9), (.zpa, 0xA5), (.zpx, 0xB5), (.abs, 0xAD), (.abx, 0xBD), (.aby, 0xB9), (.izx, 0xA1), (.izy, 0xB1)] -- R200
  | .LDX => [(.imm, 0xA2), (.zpa, 0xA6), (.zpy, 0xB6), (.abs, 0xAE), (.aby, 0xBE)] -- R201
  | .LDY => [(.imm, 0xA0), (.zpa, 0xA4), (.zpx, 0xB4), (.abs, 0xAC), (.abx, 0xBC)] -- R202
  | .STA => [(.zpa, 0x85), (.zpx, 0x95), (.abs, 0x8D), (.abx, 0x9D), (.aby, 0x99), (.izx, 0x81), (.izy, 0x91)] -- R203
  | .STX => [(.zpa, 0x86), (.zpy, 0x96), (.abs, 0x8E)] -- R204
  | .STY => [(.zpa, 0x84), (.zpx, 0x94), (.abs, 0x8C)] -- R205
  | .TAX => [(.imp, 0xAA)] -- R206
  | .TAY => [(.imp, 0xA8)] -- R207
  | .TXA => [(.imp, 0x8A)] -- R208
  | .TYA => [(.imp, 0x98)] -- R209
  | .TSX => [(.imp, 0xBA)] -- R210
  | .TXS => [(.imp, 0x9A)] -- R211
  | .ADC => [(.imm, 0x69), (.zpa, 0x65), (.zpx, 0x75), (.abs, 0x6D), (.abx, 0x7D), (.aby, 0x79), (.izx, 0x61), (.izy, 0x71)] -- R223
  | .SBC => [(.imm, 0xE9), (.zpa, 0xE5), (.zpx, 0xF5), (.abs, 0xED), (.abx, 0xFD), (.aby, 0xF9), (.izx, 0xE1), (.izy, 0xF1)] -- R224
  | .AND => [(.imm, 0x29), (.zpa, 0x25), (.zpx, 0x35), (.abs, 0x2D), (.abx, 0x3D), (.aby, 0x39), (.izx, 0x21), (.izy, 0x31)] -- R225
  | .ORA => [(.imm, 0x09), (.zpa, 0x05), (.zpx, 0x15), (.abs, 0x0D), (.abx, 0x1D), (.aby, 0x19), (.izx, 0x01), (.izy, 0x11)] -- R226
  | .EOR => [(.imm, 0x49), (.zpa, 0x45), (.zpx, 0x55), (.abs, 0x4D), (.abx, 0x5D), (.aby, 0x59), (.izx, 0x41), (.izy, 0x51)] -- R227
  | .BIT => [(.zpa, 0x24), (.abs, 0x2C)] -- R228
  | .CMP => [(.imm, 0xC9), (.zpa, 0xC5), (.zpx, 0xD5), (.abs, 0xCD), (.abx, 0xDD), (.aby, 0xD9), (.izx, 0xC1), (.izy, 0xD1)] -- R229
  | .CPX => [(.imm, 0xE0), (.zpa, 0xE4), (.abs, 0xEC)] -- R230
  | .CPY => [(.imm, 0xC0), (.zpa, 0xC4), (.abs, 0xCC)] -- R231
  | .INC => [(.zpa, 0xE6), (.zpx, 0xF6), (.abs, 0xEE), (.abx, 0xFE)] -- R232
  | .DEC => [(.zpa, 0xC6), (.zpx, 0xD6), (.abs, 0xCE), (.abx, 0xDE)] -- R233
  | .INX => [(.imp, 0xE8)] -- R234
  | .INY => [(.imp, 0xC8)] -- R235
  | .DEX => [(.imp, 0xCA)] -- R236
  | .DEY => [(.imp, 0x88)] -- R237
  | .ASL => [(.acc, 0x0A), (.zpa, 0x06), (.zpx, 0x16), (.abs, 0x0E), (.abx, 0x1E)] -- R250
  | .LSR => [(.acc, 0x4A), (.zpa, 0x46), (.zpx, 0x56), (.abs, 0x4E), (.abx, 0x5E)] -- R251
  | .ROL => [(.acc, 0x2A), (.zpa, 0x26), (.zpx, 0x36), (.abs, 0x2E), (.abx, 0x3E)] -- R252
  | .ROR => [(.acc, 0x6A), (.zpa, 0x66), (.zpx, 0x76), (.abs, 0x6E), (.abx, 0x7E)] -- R253
  | .BCC => [(.rel, 0x90)] -- R261
  | .BCS => [(.rel, 0xB0)] -- R262
  | .BEQ => [(.rel, 0xF0)] -- R263
  | .BNE => [(.rel, 0xD0)] -- R264
  | .BMI => [(.rel, 0x30)] -- R265
  | .BPL => [(.rel, 0x10)] -- R266
  | .BVC => [(.rel, 0x50)] -- R267
  | .BVS => [(.rel, 0x70)] -- R268
  | .JMP => [(.abs, 0x4C), (.ind, 0x6C)] -- R270
  | .JSR => [(.abs, 0x20)] -- R271
  | .RTS => [(.imp, 0x60)] -- R273
  | .RTI => [(.imp, 0x40)] -- R275
  | .BRK => [(.imp, 0x00)] -- R276
  | .PHA => [(.imp, 0x48)] -- R290
  | .PHP => [(.imp, 0x08)] -- R291
  | .PLA => [(.imp, 0x68)] -- R292
  | .PLP => [(.imp, 0x28)] -- R293
  | .CLC => [(.imp, 0x18)] -- R294
  | .SEC => [(.imp, 0x38)] -- R295
  | .CLI => [(.imp, 0x58)] -- R296
  | .SEI => [(.imp, 0x78)] -- R297
  | .CLD => [(.imp, 0xD8)] -- R298
  | .SED => [(.imp, 0xF8)] -- R299
  | .CLV => [(.imp, 0xB8)] -- R300
  | .SLO => [(.izx, 0x03), (.zpa, 0x07), (.abs, 0x0F), (.izy, 0x13), (.zpx, 0x17), (.aby, 0x1B), (.abx, 0x1F)] -- R311
  | .RLA => [(.izx, 0x23), (.zpa, 0x27), (.abs, 0x2F), (.izy, 0x33), (.zpx, 0x37), (.aby, 0x3B), (.abx, 0x3F)] -- R312
  | .SRE => [(.izx, 0x43), (.zpa, 0x47), (.abs, 0x4F), (.izy, 0x53), (.zpx, 0x57), (.aby, 0x5B), (.abx, 0x5F)] -- R313
  | .RRA => [(.izx, 0x63), (.zpa, 0x67), (.abs, 0x6F), (.izy, 0x73), (.zpx, 0x77), (.aby, 0x7B), (.abx, 0x7F)] -- R314
  | .SAX => [(.izx, 0x83), (.zpa, 0x87), (.abs, 0x8F), (.zpy, 0x97)] -- R315
  | .LAX => [(.izx, 0xA3), (.zpa, 0xA7), (.abs, 0xAF), (.izy, 0xB3), (.zpy, 0xB7), (.aby, 0xBF)] -- R316
  | .DCP => [(.izx, 0xC3), (.zpa, 0xC7), (.abs, 0xCF), (.izy, 0xD3), (.zpx, 0xD7), (.aby, 0xDB), (.abx, 0xDF)] -- R317
  | .ISC => [(.izx, 0xE3), (.zpa, 0xE7), (.abs, 0xEF), (.izy, 0xF3), (.zpx, 0xF7), (.aby, 0xFB), (.abx, 0xFF)] -- R318
  | .ALR => [(.imm, 0x4B)] -- R320
  | .ARR => [(.imm, 0x6B)] -- R321
  | .USBC => [(.imm, 0xEB)] -- R322
  | .ANE => [(.imm, 0x8B)] -- R323
  | .LXA => [(.imm, 0xAB)] -- R324
  | .SHA => [(.izy, 0x93), (.aby, 0x9F)] -- R325
  | .TAS => [(.aby, 0x9B)] -- R326
  | .SHY => [(.abx, 0x9C)] -- R327
  | .SBX => [(.imm, 0xCB)] -- R328
  | .SHX => [(.aby, 0x9E)] -- R329
  | .LAS => [(.aby, 0xBB)] -- R331
  | .NOP | .ANC | .JAM => []

/-- The opcode byte of a well-formed instruction; none where the instruction has no such form. -/
def Instr.opcode (i : Instr) : Option Byte :=
  match i with
  | .nop opcode _ | .anc opcode _ | .jam opcode => if i.wf then some opcode else none
  | i => i.mnemonic.encodings.lookup i.mode

/-- The two bytes of a word in the order of R113: low byte first. -/
def wordBytes (w : Word) : List Byte := [loByte w, hiByte w]

/-- The operand bytes of an effective-address mode (R113). -/
def MemMode.bytes : MemMode → List Byte
  | .zpa b | .zpx b | .zpy b | .izx b | .izy b => [b]
  | .abs w | .abx w | .aby w => wordBytes w

/-- The operand bytes of a read operand (R113). -/
def ReadOperand.bytes : ReadOperand → List Byte
  | .imm b => [b]
  | .mem m => m.bytes

/-- The operand bytes of a shift operand (R113). -/
def ShiftOperand.bytes : ShiftOperand → List Byte
  | .acc => []
  | .mem m => m.bytes

/-- The operand bytes of a NOP (R113). -/
def NopOperand.bytes : NopOperand → List Byte
  | .implied => []
  | .imm b => [b]
  | .mem m => m.bytes

/-- The operand bytes of JMP (R113). -/
def JumpOperand.bytes : JumpOperand → List Byte
  | .abs w | .ind w => wordBytes w

/-- The bytes after the opcode byte (R113). -/
def Instr.operandBytes : Instr → List Byte
  | .lda o | .ldx o | .ldy o | .adc o | .sbc o | .and o | .ora o | .eor o | .cmp o | .cpx o | .cpy o => o.bytes
  | .sta m | .stx m | .sty m | .bit m | .inc m | .dec m | .slo m | .rla m | .sre m | .rra m | .sax m | .lax m
  | .dcp m | .isc m | .sha m | .tas m | .shy m | .shx m | .las m => m.bytes
  | .asl o | .lsr o | .rol o | .ror o => o.bytes
  | .nop _ o => o.bytes
  | .jmp o => o.bytes
  | .jsr w => wordBytes w
  | .bcc b | .bcs b | .beq b | .bne b | .bmi b | .bpl b | .bvc b | .bvs b => [b]
  | .anc _ b | .alr b | .arr b | .usbc b | .ane b | .lxa b | .sbx b => [b]
  | .tax | .tay | .txa | .tya | .tsx | .txs | .inx | .iny | .dex | .dey | .rts | .rti | .brk | .pha | .php | .pla
  | .plp | .clc | .sec | .cli | .sei | .cld | .sed | .clv | .jam _ => []

/-- The encoder: the bytes of a well-formed instruction, in address order (R110); none for an ill-formed one. -/
def encode (i : Instr) : Option (List Byte) :=
  i.opcode.map (· :: i.operandBytes)

/-- The k-th byte of an instruction whose bits are `w`, numbered as the opcode table numbers them, when only the
low `nbits` bits are given and the others are 0. -/
def tableByte (nbits w k : Nat) : Byte := BitVec.ofNat 8 ((w % 2 ^ nbits) / 256 ^ k)

/-- The instruction the decoder reads from an instruction whose bits are `w` (the host's question about a table
row): its bytes in address order, every bit above `nbits` 0. -/
def decodeTableWord (nbits w : Nat) : Option Instr :=
  match decode [tableByte nbits w 0, tableByte nbits w 1, tableByte nbits w 2] with
  | .ok (i, _) => some i
  | .error _ => none

end Sys2Proof
end

