-- ==== Sys2Proof/Machine/State.lean ====
section
/-! DEFINITION. The state of the core and its bus (10_state.md, 20_memory.md), the reasons a step can stop, and the
state after reset. -/

namespace Sys2Proof.Machine

open Sys2Proof.Config (Params)

/-- The cells that are unwritten at power-on (10_state.md R58; DB: 20_memory.md R83; SP and PC: 70 R503). `opc`
stands for opc, op and pc0, which the first fetch writes together. -/
inductive Cell where
  | a | x | y | c | z | d | v | n | b | db | sp | pc | opc
deriving DecidableEq, Repr

/-- The status register P: 8 independent one-bit flags (R37). -/
structure Status where
  n : Bool
  v : Bool
  r : Bool
  b : Bool
  d : Bool
  i : Bool
  z : Bool
  c : Bool
deriving DecidableEq, Repr

/-- The contents of a RAM: the bytes that are not 0x00, at strictly rising addresses (log 5). -/
abbrev Memory := List Host.Cell

/-- What a device does when it is read, written, clocked and told the direction (20_memory.md R73, R97): a plain RAM
keeps bytes; a described device runs its program from its initial state; a device the platform does not describe
answers any byte. -/
inductive Behaviour where
  | ram (bytes : Memory)
  | described (program : DeviceProgram) (initial : Memory)
  | undescribed
deriving DecidableEq, Repr

/-- The two capabilities a device can be registered for (R75). -/
inductive Capability where
  | address
  | data
deriving DecidableEq, Repr

/-- A set of capabilities. -/
structure Capabilities where
  address : Bool
  data    : Bool
deriving DecidableEq, Repr

/-- Both capabilities. -/
def Capabilities.both : Capabilities := ⟨true, true⟩

/-- A registered bus device: its priority, its half-open range `[min, max)` with 17-bit bounds, its behaviour
(R72, R74), the capabilities it implements and those it is tracked for (R75). -/
structure Device where
  priority   : Int
  min        : Nat
  max        : Nat
  behaviour  : Behaviour
  implements : Capabilities
  tracked    : Capabilities
deriving DecidableEq, Repr

/-- A device with both capabilities. -/
def Device.of (priority : Int) (min max : Nat) (behaviour : Behaviour) : Device :=
  ⟨priority, min, max, behaviour, .both, .both⟩

/-- A plain RAM. -/
def Device.ram (priority : Int) (min max : Nat) (bytes : Memory) : Device := .of priority min max (.ram bytes)

/-- The two interrupt inputs (60_exceptions.md R411, R413). -/
inductive Interrupt where
  | nmi
  | irq
deriving DecidableEq, Repr

/-- The fault record of the core (10_state.md R56, 60_exceptions.md R401). -/
inductive FaultRecord where
  | none
  | unsupported (opc : Byte) (pc0 : Word)
  | unwrittenRead (cell : Cell)
deriving DecidableEq, Repr

/-- The state of the core, its bus interface, its driver and the devices on its bus (10_state.md R30 to R58,
20_memory.md R72 to R76). -/
structure State where
  /-- A, X, Y (R30) -/
  a : Byte
  x : Byte
  y : Byte
  /-- SP (R34) -/
  sp : Byte
  /-- PC (R35) -/
  pc : Word
  /-- P (R37) -/
  p : Status
  /-- the cells never written since construction (R58), in the order of Cell, no repeats -/
  unwritten : List Cell
  /-- the address bus AB, the data-bus latch DB, the read/write line RW, true = read (R54) -/
  ab : Word
  db : Byte
  rw : Bool
  /-- AddressingModeInProgress and OpCodeInProgress (R50) -/
  amip : Bool
  opip : Bool
  /-- the current opcode byte and its address (R51) -/
  opc : Byte
  pc0 : Word
  /-- the four cycle counters (R52) -/
  amCycle : Nat
  opCycle : Nat
  prevAmCycles : Nat
  prevOpCycles : Nat
  /-- the four scratch values (R53) -/
  scratchLo : Byte
  scratchHi : Byte
  tempAddr : Word
  relAddr : Word
  /-- the interrupt inputs and the NMI edge latch (R57) -/
  irqLine : Bool
  nmiLine : Bool
  nmiPending : Bool
  /-- the model's own: an NMI edge came during the NMI entry in flight (60_exceptions.md R414; log 14) -/
  nmiAgain : Bool
  /-- the model's own: the interrupt whose entry sequence is in flight between two clocks (log 14) -/
  entering : Option Interrupt
  /-- the fault record (R56) -/
  fault : FaultRecord
  /-- true after a JAM opcode (47_undocumented.md R332) -/
  jammed : Bool
  /-- the parameters of the run (00_scope.md R6) -/
  params : Params
  /-- the registered devices, ascending priority (20_memory.md R74) -/
  devices : List Device
  /-- every call on the devices since construction, newest first: what the states of the devices other than plain RAM
  follow from (R97; log 6) -/
  busLog : List BusEvent
  /-- the model's own: how many implementation-internal values were drawn (log 9) -/
  internalDraws : Nat
deriving DecidableEq, Repr

/-- Why a step stops with a fault (60_exceptions.md R401). Each carries the state the fault leaves (R402, R403; log
8), whose `fault` field is the same record. -/
inductive Fault where
  /-- `Unsupported(opc, pc0)` (R402). Raised by ANE, LXA, SHA, TAS, SHY, SHX, LAS always, by SBX when `SBX_MODE` is
  `unsupported`, and by ADC, SBC, USBC, RRA, ISC, ARR when P.D = 1. Safe: it is the spec's own stop. -/
  | unsupported (opc : Byte) (pc0 : Word) (left : State)
  /-- `UnwrittenRead(cell)` (R403). Raised by any instruction or interrupt entry that reads a cell never written since
  construction, and by an open-bus read before DB was set. Safe: it is the spec's own stop. -/
  | unwrittenRead (cell : Cell) (left : State)
deriving DecidableEq, Repr

/-- Why a step has no meaning. -/
inductive Refusal where
  /-- An instruction that has no meaning yet, by its mnemonic; raised by `exec` alone. Safe. -/
  | notModelled (mnemonic : String)
  /-- `Clock()` before the first `RES()` (70_reset_and_hazards.md R503); raised by `step` and `clock`. Safe. -/
  | clockBeforeReset
  /-- A faulted core has no step (60_exceptions.md R404); raised by `step` and `clock`. Safe. -/
  | faulted (record : FaultRecord)
  /-- A jammed core has no instruction-level step (40 R153, R154); raised by `step`, where `clock` goes on. Safe. -/
  | jammed
  /-- The instruction-level step begins at an instruction boundary only (10_state.md R50, 40 R153); raised by `step`
  between the clocks of an instruction, where `clock` goes on. Safe. -/
  | midInstruction
  /-- A fetched byte the table has no operation for; raised by `step` and never reached (30_encoding.md R124). Safe. -/
  | undecodable (opcode : Byte)
  /-- `SetIRQ` or `SetNMI` when `IRQ_NMI_PRESENT` is false (60 R430, 93 row 23); raised by the host actions. Safe. -/
  | noInterruptInputs
  /-- Registration of a device at a priority another device has (20_memory.md R75, 93 row 20); raised by the host's
  construction. Safe. -/
  | priorityTaken
  /-- A clock of an instruction that its schedule does not have (60_exceptions.md R406); raised by `clock` on states
  no run reaches. Safe. -/
  | contractViolation
deriving DecidableEq, Repr

/-- The platform of State.reset: one RAM at priority 1 that owns `[0x0000, 0x10000)`, nothing written
(DESIGN CHOICE, logs 4 and 5; the platform of 95_test_vectors.md section 0). -/
def defaultPlatform : List Device := [.ram 1 0 0x10000 []]

/-- The machine right after `RES()` (10_state.md R59) on `defaultPlatform`: the values of R59, and for the cells R59
leaves unchanged the values log 3 names (DESIGN CHOICE). -/
def State.reset : State where
  a := 0
  x := 0
  y := 0
  sp := 0xFD
  pc := 0
  p := { n := false, v := false, r := true, b := false, d := false, i := true, z := false, c := false }
  unwritten := []
  ab := 0
  db := 0
  rw := true
  amip := false
  opip := false
  opc := 0
  pc0 := 0
  amCycle := 0
  opCycle := 0
  prevAmCycles := 0
  prevOpCycles := 0
  scratchLo := 0
  scratchHi := 0
  tempAddr := 0
  relAddr := 0
  irqLine := false
  nmiLine := false
  nmiPending := false
  nmiAgain := false
  entering := none
  fault := .none
  jammed := false
  params := Params.default
  devices := defaultPlatform
  busLog := [.read 1 0xFFFD, .setRw true, .read 1 0xFFFC, .setRw true]
  internalDraws := 0

end Sys2Proof.Machine
end

