-- ==== Sys2Proof/Machine/Flags.lean ====
section
/-! DEFINITION. The packed view of P and every flag and ALU computation of the spec (10_state.md R38, 43 R220 to
R224, 44 R250 to R253), as functions of bytes and flags. -/

namespace Sys2Proof.Machine

/-- A one-bit flag as a number. -/
def bitOf (f : Bool) : Nat := if f then 1 else 0

/-- A flag at bit `k` of a byte. -/
def flagAt (f : Bool) (k : Nat) : Byte := if f then 1#8 <<< k else 0#8

/-- `pack(P)`: N V R B D I Z C from bit 7 to bit 0 (R38). -/
def Status.pack (p : Status) : Byte :=
  flagAt p.n 7 ||| flagAt p.v 6 ||| flagAt p.r 5 ||| flagAt p.b 4 ||| flagAt p.d 3 ||| flagAt p.i 2 ||| flagAt p.z 1
    ||| flagAt p.c 0

/-- `unpack(b)`: each flag is its bit of the byte (R38). -/
def Status.unpack (b : Byte) : Status where
  n := b.getLsbD 7
  v := b.getLsbD 6
  r := b.getLsbD 5
  b := b.getLsbD 4
  d := b.getLsbD 3
  i := b.getLsbD 2
  z := b.getLsbD 1
  c := b.getLsbD 0

/-- The byte BRK pushes: P with B = 1 (45 R276). -/
def Status.packBrk (p : Status) : Byte := { p with b := true }.pack

/-- The byte PHP pushes: `pack(P) | 0x30` (46 R291). -/
def Status.packPhp (p : Status) : Byte := p.pack ||| 0x30#8

/-- The byte an interrupt entry pushes: `(pack(P) & ~0x10) | 0x20` (60 R412). -/
def Status.packInterrupt (p : Status) : Byte := (p.pack &&& 0xEF#8) ||| 0x20#8

/-- What PLP and RTI leave in P: the pulled byte with B = 0 and R = 1 (46 R293, 45 R275). -/
def Status.restore (b : Byte) : Status := { Status.unpack b with b := false, r := true }

/-- The result of an add or a subtract: the byte, the carry and the overflow. -/
structure Sum where
  r : Byte
  c : Bool
  v : Bool
deriving DecidableEq, Repr

/-- The binary adder (R220): the 9-bit sum, its low byte, its bit 8, and the sign-overflow test. -/
def add (a m : Byte) (cin : Bool) : Sum :=
  let sum9 := a.toNat + m.toNat + bitOf cin
  let r := BitVec.ofNat 8 sum9
  { r := r, c := decide (0xFF < sum9), v := (((a ^^^ r) &&& (m ^^^ r)) &&& 0x80#8) != 0#8 }

/-- The subtraction of SBC (R224): the exact difference, its low byte, no-borrow, and the sign-overflow test. -/
def subtract (a m : Byte) (c : Bool) : Sum :=
  let d : Int := (a.toNat : Int) - m.toNat - (1 - bitOf c)
  let r := BitVec.ofInt 8 d
  { r := r, c := decide (0 ≤ d), v := (((a ^^^ r) &&& (~~~m ^^^ r)) &&& 0x80#8) != 0#8 }

/-- ASL (R250): the result and the bit shifted out. -/
def aslByte (m : Byte) : Byte × Bool := (m <<< 1, m.getLsbD 7)

/-- LSR (R251): the result and the bit shifted out. -/
def lsrByte (m : Byte) : Byte × Bool := (m >>> 1, m.getLsbD 0)

/-- ROL (R252): the old C enters bit 0. -/
def rolByte (m : Byte) (c : Bool) : Byte × Bool := ((m <<< 1) ||| flagAt c 0, m.getLsbD 7)

/-- ROR (R253): the old C enters bit 7. -/
def rorByte (m : Byte) (c : Bool) : Byte × Bool := (flagAt c 7 ||| (m >>> 1), m.getLsbD 0)

end Sys2Proof.Machine
end

