-- ==== Sys2Proof/Machine/Ops.lean ====
section
/-! DEFINITION. The named operations over memory, the bus, the registers and the driver (00_scope.md R12,
20_memory.md R80 to R83, 40_fetch_execute.md R141, R150), the fetch of an instruction, taking an exception and
returning from one. -/

namespace Sys2Proof.Machine

/-! ### Memory: the contents of a RAM -/

/-- What a byte of RAM that nothing has written reads as (DESIGN CHOICE, log 5). -/
def unwrittenByte : Byte := 0x00

/-- Read one byte of a RAM's contents. -/
def Memory.read : Memory → Nat → Byte
  | [], _ => unwrittenByte
  | (k, v) :: rest, a => if k = a then v else Memory.read rest a

/-- Write one byte of a RAM's contents, keeping the canonical form. -/
def Memory.write : Memory → Nat → Byte → Memory
  | [], a, v => if v = unwrittenByte then [] else [(a, v)]
  | (k, w) :: rest, a, v =>
    if a < k then (if v = unwrittenByte then (k, w) :: rest else (a, v) :: (k, w) :: rest)
    else if a = k then (if v = unwrittenByte then rest else (a, v) :: rest)
    else (k, w) :: Memory.write rest a v

/-- The canonical form, for addresses from `lo` up to but not including `hi`: strictly rising, and no entry equal to
what an unlisted address reads as. -/
def Memory.wfIn (lo hi : Nat) : Memory → Bool
  | [] => true
  | (k, v) :: rest => decide (lo ≤ k) && decide (k < hi) && (v != unwrittenByte) && Memory.wfIn (k + 1) hi rest

/-- The canonical form over the whole address space. -/
def Memory.wf (m : Memory) : Bool := Memory.wfIn 0 0x10000 m

/-! ### Devices -/

/-- Device d owns address a exactly when `Min_d <= a < Max_d` (R72). -/
def Device.owns (d : Device) (a : Word) : Bool := decide (d.min ≤ a.toNat) && decide (a.toNat < d.max)

/-- A device is offered a write: a plain RAM stores the byte if it owns the address (R73, R81). What a write does to
any other device follows from the calls made on it (`Device.stateAfter`). -/
def Device.write (d : Device) (a : Word) (v : Byte) : Device :=
  if d.owns a then
    match d.behaviour with
    | .ram bytes => { d with behaviour := .ram (Memory.write bytes a.toNat v) }
    | .described _ _ => d
    | .undescribed => d
  else d

/-- An operator of a device's expressions. -/
def DeviceOp.apply (f : DeviceOp) (x y : Nat) : Nat :=
  match f with
  | .add => x + y
  | .sub => x - y
  | .mul => x * y
  | .div => x / y
  | .mod => x % y
  | .land => x &&& y
  | .lor => x ||| y
  | .xor => x ^^^ y
  | .shl => x <<< y
  | .shr => x >>> y
  | .eq => if x = y then 1 else 0
  | .lt => if x < y then 1 else 0

/-- The address a call carries, 0 where it carries none. -/
def BusEvent.address : BusEvent → Nat
  | .read _ a => a.toNat
  | .write a _ => a.toNat
  | .setRw _ => 0
  | .clock => 0

/-- The datum a call carries, 0 where it carries none. -/
def BusEvent.datum : BusEvent → Nat
  | .write _ v => v.toNat
  | .setRw wantsToRead => bitOf wantsToRead
  | .read _ _ => 0
  | .clock => 0

/-- The value of a device's expression in a state of the device, for a call and its draws. -/
def DeviceExpr.eval (cells : Memory) (call : BusEvent) (draw : Nat → Byte) : DeviceExpr → Nat
  | .lit n => n
  | .addr => call.address
  | .data => call.datum
  | .cell index => (Memory.read cells (index.eval cells call draw)).toNat
  | .draw k => (draw k).toNat
  | .ite condition whenTrue whenFalse =>
    if condition.eval cells call draw = 0 then whenFalse.eval cells call draw else whenTrue.eval cells call draw
  | .op f left right => f.apply (left.eval cells call draw) (right.eval cells call draw)

/-- What the program does at a call. -/
def DeviceProgram.effect (p : DeviceProgram) : BusEvent → DeviceEffect
  | .setRw _ => p.onSetRw
  | .read _ _ => p.onRead
  | .write _ _ => p.onWrite
  | .clock => p.onClock

/-- One call on a described device (R97: its `read`, `write` and `clock`, and `SetRW`): its assignments, one after the
other. An assignment outside the device's cells has no effect. -/
def DeviceProgram.react (p : DeviceProgram) (call : BusEvent) (draw : Nat → Byte) (cells : Memory) : Memory :=
  (p.effect call).foldl
    (fun m assignment =>
      let index := assignment.1.eval m call draw
      if index < p.cells then Memory.write m index (BitVec.ofNat 8 (assignment.2.eval m call draw)) else m)
    cells

/-- The call reaches the device: every device is told the direction and clocked, the one read is read, and a write
counts where the device owns the address (R73, R80, R81, R84, R91). -/
def Device.sees (d : Device) : BusEvent → Bool
  | .setRw _ => true
  | .read priority _ => priority == d.priority
  | .write a _ => d.owns a
  | .clock => true

/-- The draws of a device in the last of these calls (log 6). -/
def Device.draws (d : Device) (log : List BusEvent) : Nat → Byte := Config.deviceByte d.priority log

/-- The state of a device that runs a program, after the calls made so far, newest first (R97). -/
def Device.stateAfter (d : Device) (p : DeviceProgram) (initial : Memory) : List BusEvent → Memory
  | [] => initial
  | call :: earlier =>
    let cells := d.stateAfter p initial earlier
    if d.sees call then p.react call (d.draws (call :: earlier)) cells else cells

/-- What a device's `Read` of an address it owns answers, after the calls made so far (R73, R97): a plain RAM the byte
it keeps, a described device what its program says, an undescribed device any byte. -/
def Device.answer (d : Device) (log : List BusEvent) (a : Word) : Byte :=
  let call := BusEvent.read d.priority a
  match d.behaviour with
  | .ram bytes => Memory.read bytes a.toNat
  | .described p initial =>
    BitVec.ofNat 8 (p.answer.eval (d.stateAfter p initial log) call (d.draws (call :: log)))
  | .undescribed => d.draws (call :: log) 0

/-- A device's bounds are 17-bit (R74), and its contents canonical and inside its range. -/
def Device.wf (d : Device) : Bool :=
  decide (d.max ≤ 0x10000) &&
    match d.behaviour with
    | .ram bytes => Memory.wfIn d.min d.max bytes
    | .described p initial => Memory.wfIn 0 p.cells initial
    | .undescribed => true

/-- The program of a ROM of `size` bytes from address `base`: a read answers the byte kept, a write changes nothing. -/
def DeviceProgram.rom (base size : Nat) : DeviceProgram where
  cells := size
  answer := .cell (.op .sub .addr (.lit base))
  onRead := []
  onWrite := []
  onClock := []
  onSetRw := []

/-- The registered devices are well formed, in ascending priority, no two sharing one (R74, R75). -/
def devicesWf (ds : List Device) : Bool :=
  ds.all Device.wf && decide (ds.Pairwise (fun d e => d.priority < e.priority))

/-- The first owner of an address by priority (R80). -/
def firstOwner (ds : List Device) (a : Word) : Option Device := ds.find? (·.owns a)

/-! ### Register updates. A write marks its cell as written (R58). -/

/-- The cells are written from now on. -/
def State.wrote (s : State) (cs : List Cell) : State :=
  { s with unwritten := s.unwritten.filter (fun cell => !cs.contains cell) }

/-- `A <- v`. -/
def State.setA (s : State) (v : Byte) : State := { s.wrote [.a] with a := v }

/-- `X <- v`. -/
def State.setX (s : State) (v : Byte) : State := { s.wrote [.x] with x := v }

/-- `Y <- v`. -/
def State.setY (s : State) (v : Byte) : State := { s.wrote [.y] with y := v }

/-- `SP <- v`. -/
def State.setSp (s : State) (v : Byte) : State := { s.wrote [.sp] with sp := v }

/-- `PC <- v`. -/
def State.setPc (s : State) (v : Word) : State := { s.wrote [.pc] with pc := v }

/-- `P.C <- f`. -/
def State.setC (s : State) (f : Bool) : State := { s.wrote [.c] with p := { s.p with c := f } }

/-- `P.V <- f`. -/
def State.setV (s : State) (f : Bool) : State := { s.wrote [.v] with p := { s.p with v := f } }

/-- `P.D <- f`. -/
def State.setD (s : State) (f : Bool) : State := { s.wrote [.d] with p := { s.p with d := f } }

/-- `P.B <- f`. -/
def State.setB (s : State) (f : Bool) : State := { s.wrote [.b] with p := { s.p with b := f } }

/-- `P.I <- f`. -/
def State.setI (s : State) (f : Bool) : State := { s with p := { s.p with i := f } }

/-- `P.N <- n; P.Z <- z`. -/
def State.setFlagsNZ (s : State) (n z : Bool) : State := { s.wrote [.n, .z] with p := { s.p with n := n, z := z } }

/-- `setNZ(v)`: `P.N <- v[7]; P.Z <- (v = 0)` (R11). -/
def State.setNZ (s : State) (v : Byte) : State := s.setFlagsNZ (v.getLsbD 7) (v == 0)

/-- All eight flags are written at once (R38). -/
def State.setStatus (s : State) (q : Status) : State := { s.wrote [.c, .z, .d, .b, .v, .n] with p := q }

/-- The forcing at the start of every clock: `P.R <- 1; P.I <- 1` (R141). -/
def State.force (s : State) : State := { s with p := { s.p with r := true, i := true } }

/-! ### Faults -/

/-- The fault `Unsupported(opc, pc0)`, with the state it leaves (R402). -/
def State.unsupported (s : State) : Fault :=
  .unsupported s.opc s.pc0 { s with fault := .unsupported s.opc s.pc0 }

/-- The fault `UnwrittenRead(cell)`, with the state it leaves (R403). -/
def State.unwrittenRead (s : State) (cell : Cell) : Fault :=
  .unwrittenRead cell { s with fault := .unwrittenRead cell }

/-- An instruction needs the cell: `UnwrittenRead` if it was never written (R58, R403). -/
def State.need (s : State) (cell : Cell) : Except Fault Unit :=
  if s.unwritten.contains cell then .error (s.unwrittenRead cell) else .ok ()

/-- Pushing P counts as reading C, Z, D, V and N, in this order (R58, R408). -/
def State.needStatus (s : State) : Except Fault Unit := do
  s.need .c
  s.need .z
  s.need .d
  s.need .v
  s.need .n

/-- The decimal test (R221): `UnwrittenRead(D)` if D was never written, `Unsupported` if D = 1. -/
def State.needBinary (s : State) : Except Fault Unit := do
  s.need .d
  if s.p.d then .error s.unsupported else .ok ()

/-! ### The bus -/

/-- The data-bus latch takes a value. -/
def State.latch (s : State) (v : Byte) : State := { s.wrote [.db] with db := v }

/-- The start of a read (R80, R84): the address and the direction go out, and every device is told the direction with
`SetRW`. -/
def State.driveRead (s : State) (a : Word) : State :=
  { s with ab := a, rw := true, busLog := .setRw true :: s.busLog }

/-- `MemRead(a, 1)`: one bus read cycle (R80). The first owner answers; an unowned address reads as the data-bus
latch (R82), which faults if the latch was never written (R83). -/
def State.busRead (s : State) (a : Word) : Except Fault (Byte × State) :=
  let s := s.driveRead a
  match firstOwner s.devices a with
  | some d =>
    let v := d.answer s.busLog a
    .ok (v, { s.latch v with busLog := .read d.priority a :: s.busLog })
  | none => if s.unwritten.contains .db then .error (s.unwrittenRead .db) else .ok (s.db, s)

/-- `MemWrite(a, 1, v)`: one bus write cycle (R81, R84). Every device is told the direction and offered the write. -/
def State.busWrite (s : State) (a : Word) (v : Byte) : State :=
  { s.latch v with
    ab := a
    rw := false
    busLog := .write a v :: .setRw false :: s.busLog
    devices := s.devices.map (·.write a v) }

/-- The byte at an address where a plain RAM is the first owner: what a read there would answer, without a bus cycle.
None elsewhere. -/
def State.peek (s : State) (a : Word) : Option Byte :=
  match (firstOwner s.devices a).map Device.behaviour with
  | some (.ram bytes) => some (Memory.read bytes a.toNat)
  | _ => none

/-- A host's peek, `Read(a, readOnly = true)` (R85, 60_exceptions.md R431): what the first owner would answer, without a
bus cycle and without a side effect. None where the platform describes no answer (log 15). -/
def State.hostPeek (s : State) (a : Word) : Option Byte :=
  match firstOwner s.devices a with
  | some d =>
    match d.behaviour with
    | .ram _ => some (d.answer s.busLog a)
    | .described _ _ => some (d.answer s.busLog a)
    | .undescribed => none
  | none => none

/-- `FetchByte()`: read at PC, then `PC <- PC + 1` modulo 2^16 (R12, R35). -/
def State.fetchByte (s : State) : Except Fault (Byte × State) := do
  let (v, s) ← s.busRead s.pc
  .ok (v, s.setPc (s.pc + 1))

/-- The stack byte addressed by SP: `0x0100 | SP` (R34). -/
def stackAddr (sp : Byte) : Word := 0x0100#16 ||| zext16 sp

/-- `Push(v)`: write at `0x0100 | SP`, then `SP <- SP - 1` modulo 256 (R12). -/
def State.push (s : State) (v : Byte) : State :=
  let t := s.busWrite (stackAddr s.sp) v
  t.setSp (t.sp - 1)

/-- `Pull()`: `SP <- SP + 1` modulo 256, then read at `0x0100 | SP` (R12). -/
def State.pull (s : State) : Except Fault (Byte × State) :=
  let t := s.setSp (s.sp + 1)
  t.busRead (stackAddr t.sp)

/-! ### The driver -/

/-- `Complete()` of an instruction that consumed `n` clocks (R150): the previous counts take a split of `n`, the
counters and the in-flight flags clear, and AB re-converges on PC. The split and the scratch values are free (log 9). -/
def State.complete (s : State) (n : Nat) : State :=
  let am := Config.cycleSplit s.internalDraws % (n + 1)
  { s with
    prevAmCycles := am
    prevOpCycles := n - am
    amCycle := 0
    opCycle := 0
    amip := false
    opip := false
    entering := none
    ab := s.pc
    scratchLo := Config.scratchLo s.internalDraws
    scratchHi := Config.scratchHi s.internalDraws
    tempAddr := Config.scratchTemp s.internalDraws
    relAddr := Config.scratchRel s.internalDraws
    internalDraws := s.internalDraws + 1 }

/-- The declared cycles of the current opcode, plus one where it carries the page penalty and its indexed address
crossed a page (R121, R151, R513). -/
def State.clocks (s : State) (crossed : Bool) : Nat :=
  declaredCycles s.opc + bitOf ((operation s.opc).pagePenalty && crossed)

/-- The outcome of a meaning. -/
def finish : Except Fault State → Host.Outcome State Fault Refusal
  | .ok s => .next s
  | .error f => .fault f

/-- The opcode fetch (R143): `pc0 <- PC`, the opcode byte, the counters to 0, AMIP set. -/
def State.fetchOpcode (s : State) : Except Fault (Byte × State) := do
  let (opcode, s) ← { s with pc0 := s.pc }.fetchByte
  .ok (opcode, { s.wrote [.opc] with opc := opcode, amCycle := 0, opCycle := 0, amip := true })

/-- The operand bytes of the opcode, fetched with `FetchByte()` (R180), and the instruction they are. JSR fetches only
its low operand byte here (R153, R271); the high byte of its `target` is what a read of PC would answer at this point,
and no state keeps that read (log 10). -/
def State.fetchOperands (s : State) (opcode : Byte) : Except Fault (Option Instr × State) :=
  match (operation opcode).mode.length with
  | 1 => .ok (decodeBytes opcode 0 0, s)
  | 2 => do
    let (b1, s) ← s.fetchByte
    .ok (decodeBytes opcode b1 0, s)
  | _ => do
    let (b1, s) ← s.fetchByte
    if (operation opcode).mnemonic = .JSR then
      let (b2, _) ← s.busRead s.pc
      .ok (decodeBytes opcode b1 b2, s)
    else
      let (b2, s) ← s.fetchByte
      .ok (decodeBytes opcode b1 b2, s)

/-- The fetch of one instruction at PC: the instruction and the state its meaning starts from. -/
def State.fetchInstr (s : State) : Except Fault (Option Instr × State) := do
  let (opcode, s) ← s.fetchOpcode
  s.fetchOperands opcode

/-! ### Taking an exception and returning from one -/

/-- The vector an interrupt enters through (R415). -/
def Interrupt.vector : Interrupt → Word
  | .nmi => 0xFFFA
  | .irq => 0xFFFE

/-- The BRK vector (R276, R415). -/
def brkVector : Word := 0xFFFE

/-- The reset vector (R415, R500). -/
def resetVector : Word := 0xFFFC

/-- A little-endian 16-bit value read from two consecutive bytes (R87). -/
def State.readVector (s : State) (vector : Word) : Except Fault (Word × State) := do
  let (l, s) ← s.busRead vector
  let (h, s) ← s.busRead (vector + 1)
  .ok (wordOf h l, s)

/-- Taking an exception (BRK: R276; NMI and IRQ: R412): push the return address, high byte first, then the packed P,
and read the new PC from the vector. The caller commits PC and P. -/
def State.takeException (s : State) (returnTo : Word) (frame : Status → Byte) (vector : Word) :
    Except Fault (Word × State) := do
  let s := s.push (hiByte returnTo)
  let s := s.push (loByte returnTo)
  s.needStatus
  let s := s.push (frame s.p)
  s.readVector vector

/-- The start of an interrupt's entry (R412): OPIP is set, and no edge has come during the entry. -/
def State.beginEntry (s : State) : State := { s with opip := true, nmiAgain := false }

/-- The end of an interrupt's entry (R412): I is set, PC comes from the vector, and an NMI entry clears the edge latch;
an edge that came during the entry stays latched (R414; log 14). -/
def State.commitEntry (s : State) (k : Interrupt) (target : Word) : State :=
  { (s.setI true).setPc target with
    nmiPending := if k = Interrupt.nmi then s.nmiAgain else s.nmiPending
    nmiAgain := false }

/-- Interrupt entry (R412): seven clocks, the frame with B = 0 and R = 1, I set, PC from the vector. -/
def State.enterInterrupt (s : State) (k : Interrupt) : Except Fault State := do
  let s := s.beginEntry
  let (target, s) ← s.takeException s.pc Status.packInterrupt k.vector
  .ok ((s.commitEntry k target).complete 7)

/-- The return from BRK, IRQ and NMI (RTI: R275, R417): pull P, then PC low, then PC high; B = 0 and R = 1. -/
def State.returnFromInterrupt (s : State) : Except Fault State := do
  let (b, s) ← s.pull
  let (l, s) ← s.pull
  let (h, s) ← s.pull
  .ok ((s.setStatus (Status.restore b)).setPc (wordOf h l))

/-! ### The instruction boundary -/

/-- The core is idle: a fetch may only begin when neither in-flight flag is true (R50). -/
def State.idle (s : State) : Bool := !s.amip && !s.opip

/-- The interrupt taken at this boundary, if any (R411, R413, R414): a pending NMI before an IRQ, an IRQ only while
P.I = 0, neither when the inputs do not exist (R410). -/
def State.interruptTaken (s : State) : Option Interrupt :=
  if s.params.irqNmiPresent && s.nmiPending then some .nmi
  else if s.params.irqNmiPresent && s.irqLine && !s.p.i then some .irq
  else none

/-! ### Loading a program from outside (log 16) -/

/-- The host puts a byte into every device that owns the address, without a bus cycle. -/
def State.loadByte (s : State) (a : Word) (v : Byte) : State :=
  { s with devices := s.devices.map (·.write a v) }

/-- The state made ready to fetch at PC: reset has happened, no fault, no jam, no instruction in flight, no pending
NMI, and RAM at the three bytes from PC (the default platform where the registered devices have none there). -/
def State.readyToFetch (s : State) : State :=
  { s.wrote [.sp, .pc] with
    fault := .none
    jammed := false
    amip := false
    opip := false
    nmiPending := false
    nmiAgain := false
    devices :=
      if (s.peek s.pc).isSome && (s.peek (s.pc + 1)).isSome && (s.peek (s.pc + 2)).isSome then s.devices
      else defaultPlatform }

end Sys2Proof.Machine
end

