-- ==== Sys2Proof/Machine/Operands.lean ====
section
/-! DEFINITION. The addressing modes (41_addressing_modes.md R180 to R195) and the four ways an instruction uses its
mode (R181). The operand bytes stand in the instruction; each mode's further accesses are made here. -/

namespace Sys2Proof.Machine

/-- What a mode computes: the effective address and whether the index crossed a page (R180, R195). -/
structure Resolved where
  ea      : Word
  crossed : Bool
deriving DecidableEq, Repr

/-- An address that cannot cross a page. -/
def Resolved.fixed (ea : Word) : Resolved := ⟨ea, false⟩

/-- A base address plus an index, modulo 2^16; it crosses when the high bytes differ (R189, R195). -/
def Resolved.indexed (base : Word) (index : Byte) : Resolved :=
  let ea := base + zext16 index
  ⟨ea, hiByte base != hiByte ea⟩

/-- X, as an instruction reads it. -/
def State.readX (s : State) : Except Fault Byte := do
  s.need .x
  .ok s.x

/-- Y, as an instruction reads it. -/
def State.readY (s : State) : Except Fault Byte := do
  s.need .y
  .ok s.y

/-- A, as an instruction reads it. -/
def State.readA (s : State) : Except Fault Byte := do
  s.need .a
  .ok s.a

/-- P.C, as an instruction reads it. -/
def State.readC (s : State) : Except Fault Bool := do
  s.need .c
  .ok s.p.c

/-- A 16-bit pointer in page zero: both bytes are read in page zero (R192, R193). -/
def State.readZeroPagePointer (s : State) (ptr : Byte) : Except Fault (Word × State) := do
  let (l, s) ← s.busRead (zext16 ptr)
  let (h, s) ← s.busRead (zext16 (ptr + 1))
  .ok (wordOf h l, s)

/-- The effective address of each mode (R185 to R190, R192, R193), with the pointer reads of IZX and IZY. DESIGN CHOICE
(log 11): an unstable opcode's mode runs in full (R330), so its read of a never-written index register faults before the
opcode's own `Unsupported`, although R408 says these opcodes read no register. -/
def resolve (m : MemMode) (s : State) : Except Fault (Resolved × State) :=
  match m with
  | .zpa zp => .ok (Resolved.fixed (zext16 zp), s)
  | .zpx zp => do
    let x ← s.readX
    .ok (Resolved.fixed (zext16 (zp + x)), s)
  | .zpy zp => do
    let y ← s.readY
    .ok (Resolved.fixed (zext16 (zp + y)), s)
  | .abs addr => .ok (Resolved.fixed addr, s)
  | .abx addr => do
    let x ← s.readX
    .ok (Resolved.indexed addr x, s)
  | .aby addr => do
    let y ← s.readY
    .ok (Resolved.indexed addr y, s)
  | .izx ptr => do
    let x ← s.readX
    let (ea, s) ← s.readZeroPagePointer (ptr + x)
    .ok (Resolved.fixed ea, s)
  | .izy ptr => do
    let (base, s) ← s.readZeroPagePointer ptr
    let y ← s.readY
    .ok (Resolved.indexed base y, s)

/-- The page-wrapped address of the high byte of an IND pointer: the high byte of the pointer never carries (R191). -/
def indirectHigh (ptr : Word) : Word := wordOf (hiByte ptr) (loByte ptr + 1)

/-- IND: the target read through the pointer (R191). -/
def State.readIndirect (s : State) (ptr : Word) : Except Fault (Word × State) := do
  let (l, s) ← s.busRead ptr
  let (h, s) ← s.busRead (indirectHigh ptr)
  .ok (wordOf h l, s)

/-- REL: the branch target, from the address after the branch (R194). -/
def branchTarget (next : Word) (off : Byte) : Word := next + sext16 off

/-- `M <- MemRead(EA, 1)`, the last access of the mode for classes read and rmw (R181): EA, M and the crossing. -/
def accessMem (m : MemMode) (s : State) : Except Fault (Resolved × Byte × State) := do
  let (r, s) ← resolve m s
  let (value, s) ← s.busRead r.ea
  .ok (r, value, s)

/-- The operand M of a read instruction (R181, R184): the immediate, or the byte read at EA; and the crossing. -/
def accessOperand (o : ReadOperand) (s : State) : Except Fault (Byte × Bool × State) :=
  match o with
  | .imm value => .ok (value, false, s)
  | .mem m => do
    let (r, value, s) ← accessMem m s
    .ok (value, r.crossed, s)

/-- Class read (R181): the mode's read of M is the last access; the operation makes no further one. -/
def readInstr (o : ReadOperand) (op : Byte → State → Except Fault State) (s : State) :
    Host.Outcome State Fault Refusal :=
  finish (do
    let (value, crossed, s) ← accessOperand o s
    let s ← op value s
    .ok (s.complete (s.clocks crossed)))

/-- Class write (R181): EA is not read; exactly one write, of the value the instruction stores. For SHA, TAS, SHY and SHX
the mode's `UnwrittenRead` of the index comes before their `Unsupported` (R330, R408; DESIGN CHOICE, log 11). -/
def writeInstr (m : MemMode) (value : State → Except Fault Byte) (s : State) : Host.Outcome State Fault Refusal :=
  finish (do
    let (r, s) ← resolve m s
    let v ← value s
    let s := s.busWrite r.ea v
    .ok (s.complete (s.clocks r.crossed)))

/-- Class rmw (R181): M is read at EA, and the operation writes the same EA exactly once. -/
def rmwInstr (m : MemMode) (op : Word → Byte → State → Except Fault State) (s : State) :
    Host.Outcome State Fault Refusal :=
  finish (do
    let (r, value, s) ← accessMem m s
    let s ← op r.ea value s
    .ok (s.complete (s.clocks r.crossed)))

/-- Class implied (R181), and the stack instructions: the operation, then `Complete()`. -/
def impliedInstr (op : State → Except Fault State) (s : State) : Host.Outcome State Fault Refusal :=
  finish (do
    let s ← op s
    .ok (s.complete (s.clocks false)))

end Sys2Proof.Machine
end

