-- ==== Sys2Proof/Machine/Arithmetic.lean ====
section
/-! DEFINITION. Arithmetic, logic, compare, increment and decrement (43_arithmetic_logic.md R220 to R237). -/

namespace Sys2Proof.Machine

/-- The commit of ADC and SBC: A, C, V, N and Z from the sum (R223, R224). -/
def State.setSum (s : State) (t : Sum) : State := (((s.setA t.r).setC t.c).setV t.v).setNZ t.r

/-- The comparator (R222): C from the unsigned comparison, N and Z from the 8-bit difference, no register written. -/
def State.compare (s : State) (r m : Byte) : State := (s.setC (decide (m.toNat ≤ r.toNat))).setNZ (r - m)

/-- ADC (R223): the decimal test, then A, then C. -/
def adcOp (value : Byte) (s : State) : Except Fault State := do
  s.needBinary
  let a ← s.readA
  let carry ← s.readC
  .ok (s.setSum (add a value carry))

/-- SBC (R224): the decimal test, then A, then C. -/
def sbcOp (value : Byte) (s : State) : Except Fault State := do
  s.needBinary
  let a ← s.readA
  let carry ← s.readC
  .ok (s.setSum (subtract a value carry))

/-- AND (R225). -/
def andOp (value : Byte) (s : State) : Except Fault State := do
  let a ← s.readA
  .ok ((s.setA (a &&& value)).setNZ (a &&& value))

/-- ORA (R226). -/
def oraOp (value : Byte) (s : State) : Except Fault State := do
  let a ← s.readA
  .ok ((s.setA (a ||| value)).setNZ (a ||| value))

/-- EOR (R227). -/
def eorOp (value : Byte) (s : State) : Except Fault State := do
  let a ← s.readA
  .ok ((s.setA (a ^^^ value)).setNZ (a ^^^ value))

/-- BIT (R228): Z from A & M, N and V from bits 7 and 6 of M itself. -/
def bitOp (value : Byte) (s : State) : Except Fault State := do
  let a ← s.readA
  .ok ((s.setFlagsNZ (value.getLsbD 7) ((a &&& value) == 0)).setV (value.getLsbD 6))

/-- `Compare(A, M)` (R229). -/
def cmpOp (value : Byte) (s : State) : Except Fault State := do
  let r ← s.readA
  .ok (s.compare r value)

/-- `Compare(X, M)` (R230). -/
def cpxOp (value : Byte) (s : State) : Except Fault State := do
  let r ← s.readX
  .ok (s.compare r value)

/-- `Compare(Y, M)` (R231). -/
def cpyOp (value : Byte) (s : State) : Except Fault State := do
  let r ← s.readY
  .ok (s.compare r value)

/-- INC (R232): one write of M + 1, then `setNZ`. -/
def incOp (ea : Word) (value : Byte) (s : State) : Except Fault State :=
  .ok ((s.busWrite ea (value + 1)).setNZ (value + 1))

/-- DEC (R233): one write of M - 1, then `setNZ`. -/
def decOp (ea : Word) (value : Byte) (s : State) : Except Fault State :=
  .ok ((s.busWrite ea (value - 1)).setNZ (value - 1))

/-- INX (R234). -/
def inxOp (s : State) : Except Fault State := do
  let v ← s.readX
  .ok ((s.setX (v + 1)).setNZ (v + 1))

/-- INY (R235). -/
def inyOp (s : State) : Except Fault State := do
  let v ← s.readY
  .ok ((s.setY (v + 1)).setNZ (v + 1))

/-- DEX (R236). -/
def dexOp (s : State) : Except Fault State := do
  let v ← s.readX
  .ok ((s.setX (v - 1)).setNZ (v - 1))

/-- DEY (R237). -/
def deyOp (s : State) : Except Fault State := do
  let v ← s.readY
  .ok ((s.setY (v - 1)).setNZ (v - 1))

/-- ADC (R223). -/
def execAdc (o : ReadOperand) (s : State) : Host.Outcome State Fault Refusal := readInstr o adcOp s

/-- SBC (R224). -/
def execSbc (o : ReadOperand) (s : State) : Host.Outcome State Fault Refusal := readInstr o sbcOp s

/-- AND (R225). -/
def execAnd (o : ReadOperand) (s : State) : Host.Outcome State Fault Refusal := readInstr o andOp s

/-- ORA (R226). -/
def execOra (o : ReadOperand) (s : State) : Host.Outcome State Fault Refusal := readInstr o oraOp s

/-- EOR (R227). -/
def execEor (o : ReadOperand) (s : State) : Host.Outcome State Fault Refusal := readInstr o eorOp s

/-- CMP (R229). -/
def execCmp (o : ReadOperand) (s : State) : Host.Outcome State Fault Refusal := readInstr o cmpOp s

/-- CPX (R230). -/
def execCpx (o : ReadOperand) (s : State) : Host.Outcome State Fault Refusal := readInstr o cpxOp s

/-- CPY (R231). -/
def execCpy (o : ReadOperand) (s : State) : Host.Outcome State Fault Refusal := readInstr o cpyOp s

/-- BIT (R228). -/
def execBit (m : MemMode) (s : State) : Host.Outcome State Fault Refusal := readInstr (.mem m) bitOp s

/-- INC (R232). -/
def execInc (m : MemMode) (s : State) : Host.Outcome State Fault Refusal := rmwInstr m incOp s

/-- DEC (R233). -/
def execDec (m : MemMode) (s : State) : Host.Outcome State Fault Refusal := rmwInstr m decOp s

/-- INX (R234). -/
def execInx (s : State) : Host.Outcome State Fault Refusal := impliedInstr inxOp s

/-- INY (R235). -/
def execIny (s : State) : Host.Outcome State Fault Refusal := impliedInstr inyOp s

/-- DEX (R236). -/
def execDex (s : State) : Host.Outcome State Fault Refusal := impliedInstr dexOp s

/-- DEY (R237). -/
def execDey (s : State) : Host.Outcome State Fault Refusal := impliedInstr deyOp s

end Sys2Proof.Machine
end

