-- ==== Sys2Proof/Machine/Control.lean ====
section
/-! DEFINITION. Branches, jumps, subroutines, BRK and RTI (45_control_transfer.md R259 to R276). -/

namespace Sys2Proof.Machine

/-- The clocks of a branch (R151, R512): the declared 2, one more when taken, one more again when taken to another
page than `pc0 + 2` under the branch's penalty. -/
def branchClocks (declared : Nat) (taken penalty : Bool) (next target : Word) : Nat :=
  declared + bitOf taken + bitOf (taken && penalty && hiByte next != hiByte target)

/-- Every branch (R260): PC is the address after the branch; it reads one flag cell and takes the target when the
flag has the wanted value. No flag is written. -/
def branchInstr (cell : Cell) (flag : Status → Bool) (want : Bool) (penalty : Config.BranchPagePenalty → Bool)
    (off : Byte) (s : State) : Host.Outcome State Fault Refusal :=
  finish (do
    s.need cell
    let taken := flag s.p == want
    let target := branchTarget s.pc off
    let n := branchClocks (declaredCycles s.opc) taken (penalty s.params.branchPagePenalty) s.pc target
    .ok ((if taken then s.setPc target else s).complete n))

/-- BCC: `Branch(P.C = 0)` (R261). -/
def execBcc (off : Byte) (s : State) : Host.Outcome State Fault Refusal := branchInstr .c Status.c false (·.bcc) off s

/-- BCS: `Branch(P.C = 1)` (R262). -/
def execBcs (off : Byte) (s : State) : Host.Outcome State Fault Refusal := branchInstr .c Status.c true (·.bcs) off s

/-- BEQ: `Branch(P.Z = 1)` (R263). -/
def execBeq (off : Byte) (s : State) : Host.Outcome State Fault Refusal := branchInstr .z Status.z true (·.beq) off s

/-- BNE: `Branch(P.Z = 0)` (R264). -/
def execBne (off : Byte) (s : State) : Host.Outcome State Fault Refusal := branchInstr .z Status.z false (·.bne) off s

/-- BMI: `Branch(P.N = 1)` (R265). -/
def execBmi (off : Byte) (s : State) : Host.Outcome State Fault Refusal := branchInstr .n Status.n true (·.bmi) off s

/-- BPL: `Branch(P.N = 0)` (R266). -/
def execBpl (off : Byte) (s : State) : Host.Outcome State Fault Refusal := branchInstr .n Status.n false (·.bpl) off s

/-- BVC: `Branch(P.V = 0)` (R267). -/
def execBvc (off : Byte) (s : State) : Host.Outcome State Fault Refusal := branchInstr .v Status.v false (·.bvc) off s

/-- BVS: `Branch(P.V = 1)` (R268). -/
def execBvs (off : Byte) (s : State) : Host.Outcome State Fault Refusal := branchInstr .v Status.v true (·.bvs) off s

/-- JMP (R270): ABS takes its operand, with no read at the target; IND reads the target through the pointer. -/
def execJmp (o : JumpOperand) (s : State) : Host.Outcome State Fault Refusal :=
  match o with
  | .abs target => finish (.ok ((s.setPc target).complete (s.clocks false)))
  | .ind ptr => finish (do
      let (target, s) ← s.readIndirect ptr
      .ok ((s.setPc target).complete (s.clocks false)))

/-- The work of JSR after its low operand byte (R271): push the address of JSR's last byte, high byte first, then read
the high operand byte there. -/
def jsrOp (low : Byte) (s : State) : Except Fault State := do
  let s := s.push (hiByte s.pc)
  let s := s.push (loByte s.pc)
  let (high, s) ← s.busRead s.pc
  .ok (s.setPc (wordOf high low))

/-- JSR (R271). The meaning starts with PC = pc0 + 2; the high byte of the target is what the bus answers after the
pushes, not the high byte of `target` (log 10). -/
def execJsr (target : Word) (s : State) : Host.Outcome State Fault Refusal := impliedInstr (jsrOp (loByte target)) s

/-- The work of RTS (R273): pull the low byte, then the high byte, and add 1. -/
def rtsOp (s : State) : Except Fault State := do
  let (l, s) ← s.pull
  let (h, s) ← s.pull
  .ok (s.setPc (wordOf h l + 1))

/-- RTS (R273). -/
def execRts (s : State) : Host.Outcome State Fault Refusal := impliedInstr rtsOp s

/-- RTI (R275): the return from an exception. -/
def execRti (s : State) : Host.Outcome State Fault Refusal := impliedInstr State.returnFromInterrupt s

/-- The work of BRK (R276): take the exception with the return address pc0 + 2 and B = 1 in the frame, then B = 0 and
I = 1. PC advances over the skipped byte only with the commit (R161; log 13). -/
def brkOp (s : State) : Except Fault State := do
  let (target, s) ← s.takeException (s.pc + 1) Status.packBrk brkVector
  .ok (((s.setB false).setI true).setPc target)

/-- BRK (R276). -/
def execBrk (s : State) : Host.Outcome State Fault Refusal := impliedInstr brkOp s

end Sys2Proof.Machine
end

