-- ==== Sys2Proof/Machine/LoadStore.lean ====
section
/-! DEFINITION. Loads, stores and register transfers (42_load_store_transfer.md R200 to R211). -/

namespace Sys2Proof.Machine

/-- `A <- M; setNZ(A)` (R200). -/
def ldaOp (value : Byte) (s : State) : Except Fault State :=
  .ok ((s.setA value).setNZ value)

/-- `X <- M; setNZ(X)` (R201). -/
def ldxOp (value : Byte) (s : State) : Except Fault State :=
  .ok ((s.setX value).setNZ value)

/-- `Y <- M; setNZ(Y)` (R202). -/
def ldyOp (value : Byte) (s : State) : Except Fault State :=
  .ok ((s.setY value).setNZ value)

/-- TAX (R206: `X <- A; setNZ(X)`). -/
def taxOp (s : State) : Except Fault State := do
  let v ← s.readA
  .ok ((s.setX v).setNZ v)

/-- TAY (R207: `Y <- A; setNZ(Y)`). -/
def tayOp (s : State) : Except Fault State := do
  let v ← s.readA
  .ok ((s.setY v).setNZ v)

/-- TXA (R208: `A <- X; setNZ(A)`). -/
def txaOp (s : State) : Except Fault State := do
  let v ← s.readX
  .ok ((s.setA v).setNZ v)

/-- TYA (R209: `A <- Y; setNZ(A)`). -/
def tyaOp (s : State) : Except Fault State := do
  let v ← s.readY
  .ok ((s.setA v).setNZ v)

/-- TSX (R210: `X <- SP; setNZ(X)`). -/
def tsxOp (s : State) : Except Fault State :=
  .ok ((s.setX s.sp).setNZ s.sp)

/-- TXS (R211: `SP <- X`, no flag). -/
def txsOp (s : State) : Except Fault State := do
  let v ← s.readX
  .ok (s.setSp v)

/-- LDA, load accumulator (R200). -/
def execLda (o : ReadOperand) (s : State) : Host.Outcome State Fault Refusal := readInstr o ldaOp s

/-- LDX, load X (R201). -/
def execLdx (o : ReadOperand) (s : State) : Host.Outcome State Fault Refusal := readInstr o ldxOp s

/-- LDY, load Y (R202). -/
def execLdy (o : ReadOperand) (s : State) : Host.Outcome State Fault Refusal := readInstr o ldyOp s

/-- STA: `MemWrite(EA, 1, A)`, no flag (R203). -/
def execSta (m : MemMode) (s : State) : Host.Outcome State Fault Refusal := writeInstr m State.readA s

/-- STX: `MemWrite(EA, 1, X)`, no flag (R204). -/
def execStx (m : MemMode) (s : State) : Host.Outcome State Fault Refusal := writeInstr m State.readX s

/-- STY: `MemWrite(EA, 1, Y)`, no flag (R205). -/
def execSty (m : MemMode) (s : State) : Host.Outcome State Fault Refusal := writeInstr m State.readY s

/-- TAX (R206). -/
def execTax (s : State) : Host.Outcome State Fault Refusal := impliedInstr taxOp s

/-- TAY (R207). -/
def execTay (s : State) : Host.Outcome State Fault Refusal := impliedInstr tayOp s

/-- TXA (R208). -/
def execTxa (s : State) : Host.Outcome State Fault Refusal := impliedInstr txaOp s

/-- TYA (R209). -/
def execTya (s : State) : Host.Outcome State Fault Refusal := impliedInstr tyaOp s

/-- TSX (R210). -/
def execTsx (s : State) : Host.Outcome State Fault Refusal := impliedInstr tsxOp s

/-- TXS (R211). -/
def execTxs (s : State) : Host.Outcome State Fault Refusal := impliedInstr txsOp s

end Sys2Proof.Machine
end

