-- ==== Sys2Proof/Machine/Shift.lean ====
section
/-! DEFINITION. Shifts and rotates (44_shift_rotate.md R249 to R253). -/

namespace Sys2Proof.Machine

/-- The accumulator form of a shift: A and C from the shifted A, then `setNZ` (R249). -/
def shiftAcc (f : Byte → Byte × Bool) (s : State) : Except Fault State := do
  let a ← s.readA
  .ok (((s.setA (f a).1).setC (f a).2).setNZ (f a).1)

/-- The memory form of a shift: one write of the result, C, then `setNZ` (R249). -/
def shiftMem (f : Byte → Byte × Bool) (ea : Word) (value : Byte) (s : State) : Except Fault State :=
  .ok (((s.busWrite ea (f value).1).setC (f value).2).setNZ (f value).1)

/-- The accumulator form of a rotate: reads A, then C (R252, R253). -/
def rotateAcc (f : Byte → Bool → Byte × Bool) (s : State) : Except Fault State := do
  let a ← s.readA
  let carry ← s.readC
  .ok (((s.setA (f a carry).1).setC (f a carry).2).setNZ (f a carry).1)

/-- The memory form of a rotate: reads C, then writes (R252, R253). -/
def rotateMem (f : Byte → Bool → Byte × Bool) (ea : Word) (value : Byte) (s : State) : Except Fault State := do
  let carry ← s.readC
  .ok (((s.busWrite ea (f value carry).1).setC (f value carry).2).setNZ (f value carry).1)

/-- A shift or rotate in its two forms: implied on A, or read-modify-write (R249). -/
def shiftInstr (o : ShiftOperand) (onA : State → Except Fault State)
    (onMem : Word → Byte → State → Except Fault State) (s : State) : Host.Outcome State Fault Refusal :=
  match o with
  | .acc => impliedInstr onA s
  | .mem m => rmwInstr m onMem s

/-- ASL (R250). -/
def execAsl (o : ShiftOperand) (s : State) : Host.Outcome State Fault Refusal :=
  shiftInstr o (shiftAcc aslByte) (shiftMem aslByte) s

/-- LSR (R251). -/
def execLsr (o : ShiftOperand) (s : State) : Host.Outcome State Fault Refusal :=
  shiftInstr o (shiftAcc lsrByte) (shiftMem lsrByte) s

/-- ROL (R252). -/
def execRol (o : ShiftOperand) (s : State) : Host.Outcome State Fault Refusal :=
  shiftInstr o (rotateAcc rolByte) (rotateMem rolByte) s

/-- ROR (R253). -/
def execRor (o : ShiftOperand) (s : State) : Host.Outcome State Fault Refusal :=
  shiftInstr o (rotateAcc rorByte) (rotateMem rorByte) s

end Sys2Proof.Machine
end

