-- ==== Sys2Proof/Machine/Stack.lean ====
section
/-! DEFINITION. Stack, status-flag and no-operation instructions (46_stack_status.md R289 to R301). -/

namespace Sys2Proof.Machine

/-- PHA (R290): `Push(A)`. -/
def phaOp (s : State) : Except Fault State := do
  let a ← s.readA
  .ok (s.push a)

/-- PHP (R291): `Push(pack(P) | 0x30)`; the stored B is unchanged. -/
def phpOp (s : State) : Except Fault State := do
  s.needStatus
  .ok (s.push s.p.packPhp)

/-- PLA (R292): `A <- Pull(); setNZ(A)`. -/
def plaOp (s : State) : Except Fault State := do
  let (v, s) ← s.pull
  .ok ((s.setA v).setNZ v)

/-- PLP (R293): `unpack(Pull()); P.B <- 0; P.R <- 1`. -/
def plpOp (s : State) : Except Fault State := do
  let (b, s) ← s.pull
  .ok (s.setStatus (Status.restore b))

/-- CLC (R294). -/
def clcOp (s : State) : Except Fault State := .ok (s.setC false)

/-- SEC (R295). -/
def secOp (s : State) : Except Fault State := .ok (s.setC true)

/-- CLI (R296). -/
def cliOp (s : State) : Except Fault State := .ok (s.setI false)

/-- SEI (R297). -/
def seiOp (s : State) : Except Fault State := .ok (s.setI true)

/-- CLD (R298). -/
def cldOp (s : State) : Except Fault State := .ok (s.setD false)

/-- SED (R299). -/
def sedOp (s : State) : Except Fault State := .ok (s.setD true)

/-- CLV (R300). -/
def clvOp (s : State) : Except Fault State := .ok (s.setV false)

/-- NOP: nothing (R301). -/
def nopOp (s : State) : Except Fault State := .ok s

/-- NOP with an operand: M is discarded (R301). -/
def nopReadOp (_value : Byte) (s : State) : Except Fault State := .ok s

/-- PHA (R290). -/
def execPha (s : State) : Host.Outcome State Fault Refusal := impliedInstr phaOp s

/-- PHP (R291). -/
def execPhp (s : State) : Host.Outcome State Fault Refusal := impliedInstr phpOp s

/-- PLA (R292). -/
def execPla (s : State) : Host.Outcome State Fault Refusal := impliedInstr plaOp s

/-- PLP (R293). -/
def execPlp (s : State) : Host.Outcome State Fault Refusal := impliedInstr plpOp s

/-- CLC (R294). -/
def execClc (s : State) : Host.Outcome State Fault Refusal := impliedInstr clcOp s

/-- SEC (R295). -/
def execSec (s : State) : Host.Outcome State Fault Refusal := impliedInstr secOp s

/-- CLI (R296). -/
def execCli (s : State) : Host.Outcome State Fault Refusal := impliedInstr cliOp s

/-- SEI (R297). -/
def execSei (s : State) : Host.Outcome State Fault Refusal := impliedInstr seiOp s

/-- CLD (R298). -/
def execCld (s : State) : Host.Outcome State Fault Refusal := impliedInstr cldOp s

/-- SED (R299). -/
def execSed (s : State) : Host.Outcome State Fault Refusal := impliedInstr sedOp s

/-- CLV (R300). -/
def execClv (s : State) : Host.Outcome State Fault Refusal := impliedInstr clvOp s

/-- NOP (R301): the addressing mode runs in full, including its read of M, and the result is discarded. -/
def execNop (o : NopOperand) (s : State) : Host.Outcome State Fault Refusal :=
  match o with
  | .implied => impliedInstr nopOp s
  | .imm value => readInstr (.imm value) nopReadOp s
  | .mem m => readInstr (.mem m) nopReadOp s

end Sys2Proof.Machine
end

