-- ==== Sys2Proof/Machine/Undocumented.lean ====
section
/-! DEFINITION. The undocumented opcodes (47_undocumented.md R310 to R332). -/

namespace Sys2Proof.Machine

/-- SLO (R311): ASL of memory, then ORA with the value written. -/
def sloOp (ea : Word) (value : Byte) (s : State) : Except Fault State := do
  let (r, carry) := aslByte value
  let s := s.busWrite ea r
  let a ← s.readA
  .ok (((s.setA (a ||| r)).setC carry).setNZ (a ||| r))

/-- RLA (R312): ROL of memory (C is read before the write), then AND. -/
def rlaOp (ea : Word) (value : Byte) (s : State) : Except Fault State := do
  let c ← s.readC
  let (r, carry) := rolByte value c
  let s := s.busWrite ea r
  let a ← s.readA
  .ok (((s.setA (a &&& r)).setC carry).setNZ (a &&& r))

/-- SRE (R313): LSR of memory, then EOR. -/
def sreOp (ea : Word) (value : Byte) (s : State) : Except Fault State := do
  let (r, carry) := lsrByte value
  let s := s.busWrite ea r
  let a ← s.readA
  .ok (((s.setA (a ^^^ r)).setC carry).setNZ (a ^^^ r))

/-- RRA (R314): the decimal test, ROR of memory, then ADC with the carry the rotate shifted out. -/
def rraOp (ea : Word) (value : Byte) (s : State) : Except Fault State := do
  s.needBinary
  let c ← s.readC
  let (r, carry) := rorByte value c
  let s := s.busWrite ea r
  let a ← s.readA
  .ok (s.setSum (add a r carry))

/-- The value SAX stores: `A & X` (R315). -/
def saxValue (s : State) : Except Fault Byte := do
  let a ← s.readA
  let x ← s.readX
  .ok (a &&& x)

/-- LAX (R316): `A <- M; X <- M; setNZ(M)`. -/
def laxOp (value : Byte) (s : State) : Except Fault State :=
  .ok (((s.setA value).setX value).setNZ value)

/-- DCP (R317): DEC of memory, then the compare of A with the value written. -/
def dcpOp (ea : Word) (value : Byte) (s : State) : Except Fault State := do
  let s := s.busWrite ea (value - 1)
  let a ← s.readA
  .ok (s.compare a (value - 1))

/-- ISC (R318): the decimal test, INC of memory, then SBC with the value written. -/
def iscOp (ea : Word) (value : Byte) (s : State) : Except Fault State := do
  s.needBinary
  let s := s.busWrite ea (value + 1)
  let a ← s.readA
  let carry ← s.readC
  .ok (s.setSum (subtract a (value + 1) carry))

/-- ANC (R319): AND, then C is bit 7 of the result. -/
def ancOp (value : Byte) (s : State) : Except Fault State := do
  let a ← s.readA
  let t := a &&& value
  .ok (((s.setA t).setNZ t).setC (t.getLsbD 7))

/-- ALR (R320): AND, then LSR A. -/
def alrOp (value : Byte) (s : State) : Except Fault State := do
  let a ← s.readA
  let t := lsrByte (a &&& value)
  .ok (((s.setA t.1).setC t.2).setNZ t.1)

/-- ARR (R321): the decimal test, AND, ROR through C; C is bit 6 of the result and V is bit 6 xor bit 5. -/
def arrOp (value : Byte) (s : State) : Except Fault State := do
  s.needBinary
  let a ← s.readA
  let c ← s.readC
  let t := (rorByte (a &&& value) c).1
  .ok ((((s.setA t).setNZ t).setC (t.getLsbD 6)).setV (t.getLsbD 6 ^^ t.getLsbD 5))

/-- The unstable opcodes: `raise Unsupported(opc, pc0)` after the mode's accesses, no result (R330). -/
def unstableOp (_value : Byte) (s : State) : Except Fault State := .error s.unsupported

/-- The unstable stores raise `Unsupported` in place of their write (R330). -/
def unstableValue (s : State) : Except Fault Byte := .error s.unsupported

/-- SBX (R328): by `SBX_MODE`, either `Unsupported` or the silicon result, with N, Z and C written. -/
def sbxOp (value : Byte) (s : State) : Except Fault State :=
  match s.params.sbxMode with
  | .unsupported => .error s.unsupported
  | .silicon => do
    let a ← s.readA
    let x ← s.readX
    let t := a &&& x
    .ok (((s.setC (decide (value.toNat ≤ t.toNat))).setX (t - value)).setNZ (t - value))

/-- SLO (R311). -/
def execSlo (m : MemMode) (s : State) : Host.Outcome State Fault Refusal := rmwInstr m sloOp s

/-- RLA (R312). -/
def execRla (m : MemMode) (s : State) : Host.Outcome State Fault Refusal := rmwInstr m rlaOp s

/-- SRE (R313). -/
def execSre (m : MemMode) (s : State) : Host.Outcome State Fault Refusal := rmwInstr m sreOp s

/-- RRA (R314). -/
def execRra (m : MemMode) (s : State) : Host.Outcome State Fault Refusal := rmwInstr m rraOp s

/-- DCP (R317). -/
def execDcp (m : MemMode) (s : State) : Host.Outcome State Fault Refusal := rmwInstr m dcpOp s

/-- ISC (R318). -/
def execIsc (m : MemMode) (s : State) : Host.Outcome State Fault Refusal := rmwInstr m iscOp s

/-- SAX (R315). -/
def execSax (m : MemMode) (s : State) : Host.Outcome State Fault Refusal := writeInstr m saxValue s

/-- LAX (R316). -/
def execLax (m : MemMode) (s : State) : Host.Outcome State Fault Refusal := readInstr (.mem m) laxOp s

/-- ANC (R319). -/
def execAnc (value : Byte) (s : State) : Host.Outcome State Fault Refusal := readInstr (.imm value) ancOp s

/-- ALR (R320). -/
def execAlr (value : Byte) (s : State) : Host.Outcome State Fault Refusal := readInstr (.imm value) alrOp s

/-- ARR (R321). -/
def execArr (value : Byte) (s : State) : Host.Outcome State Fault Refusal := readInstr (.imm value) arrOp s

/-- USBC (R322): identical to SBC immediate. -/
def execUsbc (value : Byte) (s : State) : Host.Outcome State Fault Refusal := readInstr (.imm value) sbcOp s

/-- ANE (R323): `Unsupported` always. -/
def execAne (value : Byte) (s : State) : Host.Outcome State Fault Refusal := readInstr (.imm value) unstableOp s

/-- LXA (R324): `Unsupported` always. -/
def execLxa (value : Byte) (s : State) : Host.Outcome State Fault Refusal := readInstr (.imm value) unstableOp s

/-- SHA (R325): `Unsupported` always, no write. -/
def execSha (m : MemMode) (s : State) : Host.Outcome State Fault Refusal := writeInstr m unstableValue s

/-- TAS (R326): `Unsupported` always, no write. -/
def execTas (m : MemMode) (s : State) : Host.Outcome State Fault Refusal := writeInstr m unstableValue s

/-- SHY (R327): `Unsupported` always, no write. -/
def execShy (m : MemMode) (s : State) : Host.Outcome State Fault Refusal := writeInstr m unstableValue s

/-- SHX (R329): `Unsupported` always, no write. -/
def execShx (m : MemMode) (s : State) : Host.Outcome State Fault Refusal := writeInstr m unstableValue s

/-- LAS (R331): `Unsupported` always, after the read of M. -/
def execLas (m : MemMode) (s : State) : Host.Outcome State Fault Refusal := readInstr (.mem m) unstableOp s

/-- SBX (R328). -/
def execSbx (value : Byte) (s : State) : Host.Outcome State Fault Refusal := readInstr (.imm value) sbxOp s

/-- JAM (R332): the core halts until `RES()`; `jammed` and OPIP are set, AMIP is clear, nothing else changes, and
`Complete()` never runs. -/
def execJam (s : State) : Host.Outcome State Fault Refusal :=
  .next { s with jammed := true, opip := true, amip := false }

end Sys2Proof.Machine
end

