-- ==== Sys2Proof/Machine/Step.lean ====
section
/-! DEFINITION. The instruction-level step (40_fetch_execute.md R153) and where it fetches. -/

namespace Sys2Proof.Machine

/-- An idle core takes an interrupt or runs the instruction at PC (R142, R153). -/
def stepIdle (s : State) : Host.Outcome State Fault Refusal :=
  match s.interruptTaken with
  | some k => finish (s.enterInterrupt k)
  | none =>
    match s.fetchInstr with
    | .error f => .fault f
    | .ok (some i, t) => exec i t
    | .ok (none, t) => .refused (.undecodable t.opc)

/-- One instruction-level step (R153). There is none before the first `RES()` (R503), after a fault (R404), of a jammed
core (R154) and between the clocks of an instruction (R50; log 22). -/
def step (s : State) : Host.Outcome State Fault Refusal :=
  if s.unwritten.contains .pc then .refused .clockBeforeReset
  else if s.fault ≠ .none then .refused (.faulted s.fault)
  else if s.jammed then .refused .jammed
  else if s.idle then stepIdle s.force
  else .refused .midInstruction

/-- The state with an instruction stored where the next step fetches: its bytes at PC, PC + 1 and PC + 2 (log 16). -/
def State.withFetchWord (s : State) (nbits w : Nat) : State :=
  ((s.readyToFetch.loadByte s.pc (tableByte nbits w 0)).loadByte (s.pc + 1) (tableByte nbits w 1)).loadByte
    (s.pc + 2) (tableByte nbits w 2)

end Sys2Proof.Machine
end

