-- ==== Sys2Proof/Machine/HostActions.lean ====
section
/-! DEFINITION. The host's actions on the core other than its clock (60_exceptions.md R430): construction with the
devices registered, `RES()`, `SetIRQ`, `SetNMI`, and the device clocks. -/

namespace Sys2Proof.Machine

/-- The capabilities a device registered for one of them is tracked for: both, if it implements both (20_memory.md
R75). -/
def Device.trackedAs (d : Device) (capability : Capability) : Capabilities :=
  if d.implements = .both then .both
  else match capability with
    | .address => ⟨true, false⟩
    | .data => ⟨false, true⟩

/-- The devices with one more, in ascending priority (R74). -/
def insertDevice (ds : List Device) (d : Device) : List Device :=
  ds.takeWhile (fun e => decide (e.priority < d.priority)) ++
    d :: ds.dropWhile (fun e => decide (e.priority < d.priority))

/-- `RegisterDevice(device, priority)` for a capability (R75): the same device again at its priority changes nothing;
any other device at a priority already taken is rejected; else it takes its place in ascending priority. Two devices
are the same when their data are, the tracking apart (log 18). -/
def registerDevice (ds : List Device) (capability : Capability) (d : Device) :
    Host.Outcome (List Device) Fault Refusal :=
  match ds.find? (fun e => e.priority == d.priority) with
  | some e => if e = { d with tracked := e.tracked } then .next ds else .refused .priorityTaken
  | none => .next (insertDevice ds { d with tracked := d.trackedAs capability })

/-- Registrations one after the other, up to the first that is rejected. -/
def registerAll (ds : List Device) : List (Capability × Device) → Host.Outcome (List Device) Fault Refusal
  | [] => .next ds
  | (capability, d) :: rest =>
    match registerDevice ds capability d with
    | .next es => registerAll es rest
    | .fault f => .fault f
    | .refused r => .refused r

/-- The cells unwritten at power-on (10_state.md R58, R83, 70 R503). -/
def powerOnCells : List Cell := [.a, .x, .y, .c, .z, .d, .v, .n, .b, .db, .sp, .pc, .opc]

/-- The power-on state with these devices. Every cell of R58 is unwritten, the fault record is none and `jammed` is
false (R56, R59). DESIGN CHOICE (log 3): no rule gives a power-on value to RW, AB, R, I, AMIP, OPIP, the four counters,
the scratch values, the two lines and the latches; they take State.reset's (RW, R and I true, the rest 0 or false), and
so do the values that stand in unwritten cells, which no step reads. RW alone outlives `RES()`, when it has an explicit
vector (R501). -/
def powerOnWith (params : Config.Params) (devices : List Device) : State :=
  { State.reset with
    unwritten := powerOnCells
    params := params
    devices := devices
    busLog := [] }

/-- `construct(DEVICES)` (R430): the power-on state, with the devices registered in the order given. Refused if a
registration is rejected (R75, 93 row 20). -/
def powerOn (params : Config.Params) (registrations : List (Capability × Device)) :
    Host.Outcome State Fault Refusal :=
  match registerAll [] registrations with
  | .next devices => .next (powerOnWith params devices)
  | .fault f => .fault f
  | .refused r => .refused r

/-- The part of `RES()` before PC is loaded (70_reset_and_hazards.md R500). -/
def State.resetCells (s : State) : State :=
  { s.setSp 0xFD with
    p := { s.p with r := true, i := true }
    amip := false
    opip := false
    jammed := false
    amCycle := 0
    opCycle := 0
    prevAmCycles := 0
    prevOpCycles := 0
    nmiPending := false
    nmiAgain := false
    entering := none }

/-- PC and AB take the start address (R500). -/
def State.startAt (s : State) (target : Word) : State := { s.setPc target with ab := target }

/-- `RES()` and `RES(vector)` (R500, R501): at once, between clocks, using no clock. Without an explicit vector PC is
read from 0xFFFC and 0xFFFD by two ordinary bus reads; every other cell keeps its value, `fault` too. -/
def State.res (s : State) (vector : Option Word) : Except Fault State :=
  match vector with
  | some target => .ok (s.resetCells.startAt target)
  | none => do
    let (target, s) ← s.resetCells.readVector resetVector
    .ok (s.startAt target)

/-- `SetIRQ(level)` (R411): the level of the IRQ line. The action does not exist without the interrupt inputs. -/
def State.setIrq (s : State) (level : Bool) : Host.Outcome State Fault Refusal :=
  if s.params.irqNmiPresent then .next { s with irqLine := level } else .refused .noInterruptInputs

/-- `SetNMI(level)` (R413): a change from false to true latches an edge. An edge during an NMI entry is noted beside the
latch, which that entry has yet to clear (R414; log 14). -/
def State.setNmi (s : State) (level : Bool) : Host.Outcome State Fault Refusal :=
  if s.params.irqNmiPresent then
    let edge := level && !s.nmiLine
    .next { s with
      nmiPending := s.nmiPending || edge
      nmiAgain := s.nmiAgain || (edge && s.entering == some .nmi)
      nmiLine := level }
  else .refused .noInterruptInputs

/-- The device clocks of one period (R91): each device's `Clock()` once, in the host's order. No core state changes, and
a plain RAM keeps its bytes; what a described or undescribed device answers afterwards may differ (R97, R518). -/
def State.clockDevices (s : State) : State := { s with busLog := .clock :: s.busLog }

end Sys2Proof.Machine
end

