-- ==== Sys2Proof/Machine/Cycle.lean ====
section
/-! DEFINITION. The cycle level: one `Clock()` (40_fetch_execute.md R140 to R145, R150, R152) with the schedule of
R160. An instruction's last clock runs the same operation as its instruction-level meaning; the clocks before it
make its accesses one by one, with the scratch cells (10_state.md R53) and DB holding what was read so far. -/

namespace Sys2Proof.Machine

/-- What one clock of an instruction does: a cell of the table of R160, or several cells that differ only in where
the address comes from. Clock 1 is the fetch (or clock 1 of an interrupt sequence) and is not listed. -/
inductive MicroOp where
  /-- `-`: no bus access. -/
  | internal
  /-- `R(PC++)`, kept as the low operand byte. -/
  | operandLow
  /-- `R(PC++)`, kept as the high operand byte. -/
  | operandHigh
  /-- `R(ptr)` or `R(ptrX)` in page zero, kept as the low address byte. -/
  | pointerLow
  /-- `R((ptr+1)&0xFF)` or `R((ptrX+1)&0xFF)`, kept as the high address byte. -/
  | pointerHigh
  /-- `R(PC++) = M`, and the operation of an immediate instruction: the last clock. -/
  | readImmediate
  /-- `R(EA) = M`, and the operation: the last clock of a read instruction. -/
  | readOperand
  /-- `[-] then R(EA) = M`: internal when the page is crossed, else the last clock. -/
  | readUnlessCrossed
  /-- `R(EA) = M`, kept in DB until the write. -/
  | latchOperand
  /-- `W(EA)`: the last clock of a write instruction. -/
  | store
  /-- `W(EA)` of the result: the last clock of a read-modify-write instruction. -/
  | modify
  /-- the last clock of an implied instruction, and of PHA, PHP, PLA and PLP. -/
  | implied
  /-- `R(PC++) = off`, the branch condition: the last clock when the branch is not taken. -/
  | branchOffset
  /-- clock 3 of a taken branch: the last clock unless the page penalty applies. -/
  | branchTaken
  /-- clock 4 of a taken branch to another page. -/
  | branchFixup
  /-- `R(PC++) = hi` of JMP ABS: the last clock. -/
  | jumpAbsolute
  /-- `R(ptr) = lo` of JMP IND. -/
  | indirectLow
  /-- `R(ptr') = hi` of JMP IND: the last clock. -/
  | jumpIndirect
  /-- `push hi(PC)`, `push lo(PC)` of JSR and of an interrupt sequence. -/
  | pushPcHigh
  | pushPcLow
  /-- the same of BRK, whose pushed value is PC + 1 = pc0 + 2. -/
  | pushBrkHigh
  | pushBrkLow
  /-- `push P'` of BRK and of an interrupt sequence. -/
  | pushStatusBrk
  | pushStatusInterrupt
  /-- `R(PC) = hi` of JSR: the last clock. -/
  | jumpSubroutine
  /-- `pull = lo`, `pull = hi` of RTS. -/
  | pullLow
  | pullHigh
  /-- the last, internal clock of RTS. -/
  | returnSubroutine
  /-- `pull = P` of RTI, kept until the commit. -/
  | pullStatus
  /-- `pull = hi` of RTI: the last clock. -/
  | returnInterrupt
  /-- `R(vec) = lo` and, the last clock, `R(vec+1) = hi`. -/
  | vectorLow
  | vectorHigh
deriving DecidableEq, Repr

/-- The clocks 2, 3, … of a read instruction (R160). -/
def readSchedule : Mode → List MicroOp
  | .imm => [.readImmediate]
  | .zpa => [.operandLow, .readOperand]
  | .zpx | .zpy => [.operandLow, .internal, .readOperand]
  | .abs => [.operandLow, .operandHigh, .readOperand]
  | .abx | .aby => [.operandLow, .operandHigh, .readUnlessCrossed, .readOperand]
  | .izx => [.operandLow, .internal, .pointerLow, .pointerHigh, .readOperand]
  | .izy => [.operandLow, .pointerLow, .pointerHigh, .readUnlessCrossed, .readOperand]
  | .imp | .acc | .rel | .ind => []

/-- The clocks 2, 3, … of a write instruction (R160). -/
def writeSchedule : Mode → List MicroOp
  | .zpa => [.operandLow, .store]
  | .zpx | .zpy => [.operandLow, .internal, .store]
  | .abs => [.operandLow, .operandHigh, .store]
  | .abx | .aby => [.operandLow, .operandHigh, .internal, .store]
  | .izx => [.operandLow, .internal, .pointerLow, .pointerHigh, .store]
  | .izy => [.operandLow, .pointerLow, .pointerHigh, .internal, .store]
  | .imp | .acc | .imm | .rel | .ind => []

/-- The clocks 2, 3, … of a read-modify-write instruction (R160). -/
def rmwSchedule : Mode → List MicroOp
  | .zpa => [.operandLow, .latchOperand, .internal, .modify]
  | .zpx | .zpy => [.operandLow, .internal, .latchOperand, .internal, .modify]
  | .abs => [.operandLow, .operandHigh, .latchOperand, .internal, .modify]
  | .abx | .aby => [.operandLow, .operandHigh, .internal, .latchOperand, .internal, .modify]
  | .izx => [.operandLow, .internal, .pointerLow, .pointerHigh, .latchOperand, .internal, .modify]
  | .izy => [.operandLow, .pointerLow, .pointerHigh, .internal, .latchOperand, .internal, .modify]
  | .imp | .acc | .imm | .rel | .ind => []

/-- The clocks 2, 3, … of the special instructions (R160). JAM has none: it never leaves its fetch clock. -/
def specialSchedule : Mnemonic → List MicroOp
  | .JSR => [.operandLow, .internal, .pushPcHigh, .pushPcLow, .jumpSubroutine]
  | .RTS => [.internal, .internal, .pullLow, .pullHigh, .returnSubroutine]
  | .RTI => [.internal, .internal, .pullStatus, .pullLow, .returnInterrupt]
  | .BRK => [.internal, .pushBrkHigh, .pushBrkLow, .pushStatusBrk, .vectorLow, .vectorHigh]
  | .PHA | .PHP => [.internal, .implied]
  | .PLA | .PLP => [.internal, .internal, .implied]
  | _ => []

/-- The clocks 2, 3, … of an operation (R160). -/
def schedule (o : Operation) : List MicroOp :=
  match o.cls with
  | .read => readSchedule o.mode
  | .write => writeSchedule o.mode
  | .rmw => rmwSchedule o.mode
  | .implied => [.implied]
  | .branch => [.branchOffset, .branchTaken, .branchFixup]
  | .jump => if o.mode = .ind then [.operandLow, .operandHigh, .indirectLow, .jumpIndirect]
      else [.operandLow, .jumpAbsolute]
  | .special => specialSchedule o.mnemonic

/-- The clocks 2, 3, … of an interrupt sequence (R160, R412). -/
def interruptSchedule : List MicroOp :=
  [.internal, .pushPcHigh, .pushPcLow, .pushStatusInterrupt, .vectorLow, .vectorHigh]

/-- The operation of a read-class mnemonic (R181). -/
def readOp : Mnemonic → Option (Byte → State → Except Fault State)
  | .LDA => some ldaOp
  | .LDX => some ldxOp
  | .LDY => some ldyOp
  | .ADC => some adcOp
  | .SBC | .USBC => some sbcOp
  | .AND => some andOp
  | .ORA => some oraOp
  | .EOR => some eorOp
  | .BIT => some bitOp
  | .CMP => some cmpOp
  | .CPX => some cpxOp
  | .CPY => some cpyOp
  | .NOP => some nopReadOp
  | .LAX => some laxOp
  | .ANC => some ancOp
  | .ALR => some alrOp
  | .ARR => some arrOp
  | .SBX => some sbxOp
  | .ANE | .LXA | .LAS => some unstableOp
  | _ => none

/-- The value a write-class mnemonic stores (R181). -/
def writeValue : Mnemonic → Option (State → Except Fault Byte)
  | .STA => some State.readA
  | .STX => some State.readX
  | .STY => some State.readY
  | .SAX => some saxValue
  | .SHA | .TAS | .SHY | .SHX => some unstableValue
  | _ => none

/-- The operation of a read-modify-write mnemonic (R181). -/
def rmwOp : Mnemonic → Option (Word → Byte → State → Except Fault State)
  | .ASL => some (shiftMem aslByte)
  | .LSR => some (shiftMem lsrByte)
  | .ROL => some (rotateMem rolByte)
  | .ROR => some (rotateMem rorByte)
  | .INC => some incOp
  | .DEC => some decOp
  | .SLO => some sloOp
  | .RLA => some rlaOp
  | .SRE => some sreOp
  | .RRA => some rraOp
  | .DCP => some dcpOp
  | .ISC => some iscOp
  | _ => none

/-- The operation of an implied or accumulator-mode mnemonic, and of PHA, PHP, PLA and PLP (R181). -/
def impliedOp : Mnemonic → Option (State → Except Fault State)
  | .TAX => some taxOp
  | .TAY => some tayOp
  | .TXA => some txaOp
  | .TYA => some tyaOp
  | .TSX => some tsxOp
  | .TXS => some txsOp
  | .INX => some inxOp
  | .INY => some inyOp
  | .DEX => some dexOp
  | .DEY => some deyOp
  | .ASL => some (shiftAcc aslByte)
  | .LSR => some (shiftAcc lsrByte)
  | .ROL => some (rotateAcc rolByte)
  | .ROR => some (rotateAcc rorByte)
  | .CLC => some clcOp
  | .SEC => some secOp
  | .CLI => some cliOp
  | .SEI => some seiOp
  | .CLD => some cldOp
  | .SED => some sedOp
  | .CLV => some clvOp
  | .NOP => some nopOp
  | .PHA => some phaOp
  | .PHP => some phpOp
  | .PLA => some plaOp
  | .PLP => some plpOp
  | _ => none

/-- A branch's condition: the flag cell, whether it is taken in a state, and its page penalty (R260 to R268). -/
structure BranchCondition where
  cell    : Cell
  taken   : Bool
  penalty : Bool

/-- The condition of a branch mnemonic in a state. -/
def branchCondition (s : State) : Mnemonic → Option BranchCondition
  | .BCC => some ⟨.c, s.p.c == false, s.params.branchPagePenalty.bcc⟩
  | .BCS => some ⟨.c, s.p.c == true, s.params.branchPagePenalty.bcs⟩
  | .BEQ => some ⟨.z, s.p.z == true, s.params.branchPagePenalty.beq⟩
  | .BNE => some ⟨.z, s.p.z == false, s.params.branchPagePenalty.bne⟩
  | .BMI => some ⟨.n, s.p.n == true, s.params.branchPagePenalty.bmi⟩
  | .BPL => some ⟨.n, s.p.n == false, s.params.branchPagePenalty.bpl⟩
  | .BVC => some ⟨.v, s.p.v == false, s.params.branchPagePenalty.bvc⟩
  | .BVS => some ⟨.v, s.p.v == true, s.params.branchPagePenalty.bvs⟩
  | _ => none

/-- The outcome of one clock inside an instruction: the state, and whether the instruction is complete. -/
structure Progress where
  state : State
  done  : Bool

/-- The clock goes on. -/
def Progress.more (s : State) : Except Fault Progress := .ok ⟨s, false⟩

/-- The clock is the instruction's last one; its results are committed. -/
def Progress.last (s : State) : Except Fault Progress := .ok ⟨s, true⟩

/-- The effective address of the instruction in flight, from the bytes read so far (R185 to R193). DESIGN CHOICE (log
24): the index register is read, and `UnwrittenRead` of it raised, in the clock that uses the address, not in the
internal clock before it; no rule names the clock. -/
def State.flightAddress (s : State) (mode : Mode) : Except Fault Resolved :=
  let word := wordOf s.scratchHi s.scratchLo
  match mode with
  | .zpx => do
    let x ← s.readX
    .ok (Resolved.fixed (zext16 (s.scratchLo + x)))
  | .zpy => do
    let y ← s.readY
    .ok (Resolved.fixed (zext16 (s.scratchLo + y)))
  | .abx => do
    let x ← s.readX
    .ok (Resolved.indexed word x)
  | .aby | .izy => do
    let y ← s.readY
    .ok (Resolved.indexed word y)
  | .zpa => .ok (Resolved.fixed (zext16 s.scratchLo))
  | .abs | .izx | .imp | .acc | .imm | .rel | .ind => .ok (Resolved.fixed word)

/-- The zero-page pointer of IZX (indexed by X) or IZY (R192, R193). X is read in the clock of the pointer's first
access (DESIGN CHOICE, log 24). -/
def State.flightPointer (s : State) (mode : Mode) : Except Fault Byte :=
  if mode = .izx then do
    let x ← s.readX
    .ok (s.scratchLo + x)
  else .ok s.scratchLo

/-- `R(EA) = M` and the operation (R160): the last clock of a read instruction. -/
def State.readAndOperate (s : State) (ea : Word) (op : Byte → State → Except Fault State) : Except Fault Progress := do
  let (value, s) ← s.busRead ea
  let s ← op value s
  Progress.last s

/-- The vector of the sequence in flight: an interrupt's own, or BRK's (R415). -/
def State.flightVector (s : State) : Word :=
  match s.entering with
  | some k => k.vector
  | none => brkVector

/-- The commit of an interrupt sequence (R412) or of BRK (R276), with the new PC. -/
def State.commitVector (s : State) (target : Word) : State :=
  match s.entering with
  | some k => s.commitEntry k target
  | none => ((s.setB false).setI true).setPc target

/-- One clock of the operation in flight (R160, R161). None on a state whose opcode has no such operation. R160 places
the bus accesses and R403 the reads of registers and flags in the pseudocode; in which clock a read that makes no access
falls is a DESIGN CHOICE (log 24). -/
def MicroOp.run (m : MicroOp) (o : Operation) (s : State) : Option (Except Fault Progress) :=
  match m with
  | .internal => some (Progress.more s)
  | .operandLow => some (do
      let (b, s) ← s.fetchByte
      Progress.more { s with scratchLo := b })
  | .operandHigh => some (do
      let (b, s) ← s.fetchByte
      Progress.more { s with scratchHi := b })
  | .pointerLow => some (do
      let p ← s.flightPointer o.mode
      let (b, s) ← s.busRead (zext16 p)
      Progress.more { s with tempAddr := zext16 p, scratchLo := b })
  | .pointerHigh => some (do
      let (b, s) ← s.busRead (zext16 (loByte s.tempAddr + 1))
      Progress.more { s with scratchHi := b })
  | .readImmediate => (readOp o.mnemonic).map fun op => do
      let (value, s) ← s.fetchByte
      let s ← op value s
      Progress.last s
  | .readOperand => (readOp o.mnemonic).map fun op => do
      let r ← s.flightAddress o.mode
      s.readAndOperate r.ea op
  | .readUnlessCrossed => (readOp o.mnemonic).map fun op => do
      let r ← s.flightAddress o.mode
      if r.crossed then Progress.more s else s.readAndOperate r.ea op
  | .latchOperand => some (do
      let r ← s.flightAddress o.mode
      let (_, s) ← s.busRead r.ea
      Progress.more s)
  | .store => (writeValue o.mnemonic).map fun value => do
      let r ← s.flightAddress o.mode
      let v ← value s
      Progress.last (s.busWrite r.ea v)
  | .modify => (rmwOp o.mnemonic).map fun op => do
      let r ← s.flightAddress o.mode
      let s ← op r.ea s.db s
      Progress.last s
  | .implied => (impliedOp o.mnemonic).map fun op => do
      let s ← op s
      Progress.last s
  | .branchOffset => (branchCondition s o.mnemonic).map fun b => do
      let (off, s) ← s.fetchByte
      s.need b.cell
      if b.taken then Progress.more { s with relAddr := sext16 off } else Progress.last s
  | .branchTaken => (branchCondition s o.mnemonic).map fun b =>
      let target := s.pc + s.relAddr
      if b.penalty && hiByte s.pc != hiByte target then Progress.more s else Progress.last (s.setPc target)
  | .branchFixup => some (Progress.last (s.setPc (s.pc + s.relAddr)))
  | .jumpAbsolute => some (do
      let (high, s) ← s.fetchByte
      Progress.last (s.setPc (wordOf high s.scratchLo)))
  | .indirectLow => some (do
      let ptr := wordOf s.scratchHi s.scratchLo
      let (b, s) ← s.busRead ptr
      Progress.more { s with tempAddr := ptr, scratchLo := b })
  | .jumpIndirect => some (do
      let (high, s) ← s.busRead (indirectHigh s.tempAddr)
      Progress.last (s.setPc (wordOf high s.scratchLo)))
  | .pushPcHigh => some (Progress.more (s.push (hiByte s.pc)))
  | .pushPcLow => some (Progress.more (s.push (loByte s.pc)))
  | .pushBrkHigh => some (Progress.more (s.push (hiByte (s.pc + 1))))
  | .pushBrkLow => some (Progress.more (s.push (loByte (s.pc + 1))))
  | .pushStatusBrk => some (do
      s.needStatus
      Progress.more (s.push s.p.packBrk))
  | .pushStatusInterrupt => some (do
      s.needStatus
      Progress.more (s.push s.p.packInterrupt))
  | .jumpSubroutine => some (do
      let (high, s) ← s.busRead s.pc
      Progress.last (s.setPc (wordOf high s.scratchLo)))
  | .pullLow => some (do
      let (b, s) ← s.pull
      Progress.more { s with scratchLo := b })
  | .pullHigh => some (do
      let (b, s) ← s.pull
      Progress.more { s with scratchHi := b })
  | .returnSubroutine => some (Progress.last (s.setPc (wordOf s.scratchHi s.scratchLo + 1)))
  | .pullStatus => some (do
      let (b, s) ← s.pull
      Progress.more { s with tempAddr := zext16 b })
  | .returnInterrupt => some (do
      let (high, s) ← s.pull
      Progress.last ((s.setStatus (Status.restore (loByte s.tempAddr))).setPc (wordOf high s.scratchLo)))
  | .vectorLow => some (do
      let (b, s) ← s.busRead s.flightVector
      Progress.more { s with scratchLo := b })
  | .vectorHigh => some (do
      let (high, s) ← s.busRead (s.flightVector + 1)
      Progress.last (s.commitVector (wordOf high s.scratchLo)))

/-- How many clocks of the instruction in flight have been performed (R142's `k`): the sum of the two counters. -/
def State.performed (s : State) : Nat := s.amCycle + s.opCycle

/-- `k` clocks have been performed. How they split between the two counters is free (R52; log 9). DESIGN CHOICE (log 9):
R143 clears both counters in the fetch clock and no rule says when they count; here their sum between two clocks is the
number of clocks performed, the fetch clock included. -/
def State.setPerformed (s : State) (k : Nat) : State :=
  let am := Config.cycleSplit s.internalDraws % (k + 1)
  { s with amCycle := am, opCycle := k - am, internalDraws := s.internalDraws + 1 }

/-- After an intermediate clock at least one of AMIP and OPIP is true; which is free (R145). DESIGN CHOICE (log 9): R145
speaks of an instruction, and R412 sets OPIP at the start of an interrupt sequence; the flags are drawn after the clocks
2 to 6 of that sequence too. -/
def State.setFlight (s : State) : State :=
  let am := Config.flightAmip s.internalDraws
  { s with amip := am, opip := !am || Config.flightOpip s.internalDraws, internalDraws := s.internalDraws + 1 }

/-- Clock 1 of an instruction (R143): the opcode fetch. A JAM opcode jams the core; any other sets AMIP. -/
def State.firstClock (s : State) : Except Fault State := do
  let (opcode, s) ← s.fetchOpcode
  if (operation opcode).mnemonic = .JAM then .ok { s with jammed := true, opip := true, amip := false }
  else .ok { s.setPerformed 1 with amip := true }

/-- Clock 1 of an interrupt sequence (R412): internal; OPIP is set, no opcode is fetched. -/
def State.firstInterruptClock (s : State) (k : Interrupt) : State :=
  { s.beginEntry.setPerformed 1 with entering := some k }

/-- The micro-operation of clock `k` of what is in flight (R160). -/
def State.microOp (s : State) (k : Nat) : Option MicroOp :=
  match s.entering with
  | some _ => interruptSchedule[k - 2]?
  | none => (schedule (operation s.opc))[k - 2]?

/-- A later clock of the instruction or interrupt sequence in flight (R142): clock k, then `Complete()` after the
last one. -/
def State.laterClock (s : State) : Host.Outcome State Fault Refusal :=
  let k := s.performed + 1
  match (s.microOp k).bind (fun m => m.run (operation s.opc) s) with
  | none => .refused .contractViolation
  | some (.error f) => .fault f
  | some (.ok r) => if r.done then .next (r.state.complete k) else .next (r.state.setPerformed k).setFlight

/-- `Clock()` (R142): the single external entry point at the cycle level. -/
def clock (s : State) : Host.Outcome State Fault Refusal :=
  if s.unwritten.contains .pc then .refused .clockBeforeReset
  else if s.fault ≠ .none then .refused (.faulted s.fault)
  else if s.jammed then .next s.force
  else if s.idle then
    match s.force.interruptTaken with
    | some k => .next (s.force.firstInterruptClock k)
    | none => finish s.force.firstClock
  else s.force.laterClock

/-- `n` clocks, with no device clock between them. -/
def clocks : Nat → State → Host.Outcome State Fault Refusal
  | 0, s => .next s
  | n + 1, s =>
    match clock s with
    | .next t => clocks n t
    | .fault f => .fault f
    | .refused r => .refused r

/-- One period (R91, 70_reset_and_hazards.md R505): the processor's clock first, then each device's. DESIGN CHOICE (log
25): a period whose processor clock raises a fault, or is refused, ends there, and the devices are not clocked in it. -/
def period (s : State) : Host.Outcome State Fault Refusal :=
  match clock s with
  | .next t => .next t.clockDevices
  | .fault f => .fault f
  | .refused r => .refused r

/-- The notifications of R152. -/
inductive Event where
  | fetchComplete
  | opComplete
  | clockComplete
deriving DecidableEq, Repr

/-- The notifications of one clock, in order (R152): FetchComplete when an opcode was fetched, OpComplete when an
instruction or an interrupt sequence completed, ClockComplete at the end of every clock that is one. DESIGN CHOICE
(log 23): a clock that raises a fault notifies nothing, since the fault is its result. -/
def clockEvents (s : State) : List Event :=
  match clock s with
  | .next t =>
    (if !s.jammed && s.idle && s.force.interruptTaken.isNone then [.fetchComplete] else [])
      ++ (if !s.idle && t.idle then [.opComplete] else []) ++ [.clockComplete]
  | .fault _ => []
  | .refused _ => []

end Sys2Proof.Machine
end

