-- ==== Sys2Proof/Safety.lean ====
section
/-! DEFINITION. What counts as a safe run: the cells an instruction reads and writes (10_state.md R31 to R46), when it
completes, what every step keeps at an instruction boundary (R55), and what the two levels of the machine agree on
(40_fetch_execute.md R162). -/

namespace Sys2Proof

open Sys2Proof.Machine

/-- The index register a mode reads (R32, R33). -/
def MemMode.reads : MemMode → List Cell
  | .zpa _ | .abs _ => []
  | .zpx _ | .abx _ | .izx _ => [.x]
  | .zpy _ | .aby _ | .izy _ => [.y]

/-- The index register a read operand's mode reads. -/
def ReadOperand.reads : ReadOperand → List Cell
  | .imm _ => []
  | .mem m => m.reads

/-- The flags a push of P reads, in the order of R408. -/
def statusCells : List Cell := [.c, .z, .d, .v, .n]

/-- The register and flag cells an instruction reads, in the order its pseudocode reads them (R31 to R46, R408). SBX
reads its two registers only under `SBX_MODE = silicon`; there they are listed. -/
def Instr.reads : Instr → List Cell
  | .lda o | .ldx o | .ldy o => o.reads
  | .sta m => m.reads ++ [.a]
  | .stx m => m.reads ++ [.x]
  | .sty m => m.reads ++ [.y]
  | .tax | .tay | .pha => [.a]
  | .txa | .txs | .inx | .dex => [.x]
  | .tya | .iny | .dey => [.y]
  | .tsx => []
  | .adc o | .sbc o => o.reads ++ [.d, .a, .c]
  | .and o | .ora o | .eor o | .cmp o => o.reads ++ [.a]
  | .bit m => m.reads ++ [.a]
  | .cpx o => o.reads ++ [.x]
  | .cpy o => o.reads ++ [.y]
  | .inc m | .dec m | .lax m => m.reads
  | .asl .acc | .lsr .acc => [.a]
  | .asl (.mem m) | .lsr (.mem m) => m.reads
  | .rol .acc | .ror .acc => [.a, .c]
  | .rol (.mem m) | .ror (.mem m) => m.reads ++ [.c]
  | .bcc _ | .bcs _ => [.c]
  | .beq _ | .bne _ => [.z]
  | .bmi _ | .bpl _ => [.n]
  | .bvc _ | .bvs _ => [.v]
  | .jmp _ | .jsr _ | .rts | .rti | .pla | .plp => []
  | .brk | .php => statusCells
  | .clc | .sec | .cli | .sei | .cld | .sed | .clv => []
  | .nop _ (.mem m) => m.reads
  | .nop _ .implied | .nop _ (.imm _) => []
  | .slo m | .sre m | .dcp m => m.reads ++ [.a]
  | .rla m => m.reads ++ [.c, .a]
  | .rra m => m.reads ++ [.d, .c, .a]
  | .isc m => m.reads ++ [.d, .a, .c]
  | .sax m => m.reads ++ [.a, .x]
  | .anc _ _ | .alr _ => [.a]
  | .arr _ | .usbc _ => [.d, .a, .c]
  | .ane _ | .lxa _ => []
  | .sha m | .tas m | .shy m | .shx m | .las m => m.reads
  | .sbx _ => [.a, .x]
  | .jam _ => []

/-- The register and flag cells an instruction writes (R31 to R34, R39 to R46), PC and DB apart. -/
def Instr.writes : Instr → List Cell
  | .lda _ | .txa | .tya | .and _ | .ora _ | .eor _ => [.a, .n, .z]
  | .pla => [.sp, .a, .n, .z]
  | .ldx _ | .tax | .tsx | .inx | .dex => [.x, .n, .z]
  | .ldy _ | .tay | .iny | .dey => [.y, .n, .z]
  | .txs => [.sp]
  | .sta _ | .stx _ | .sty _ | .sax _ | .nop _ _ | .jam _ => []
  | .adc _ | .sbc _ | .usbc _ | .rra _ | .isc _ | .arr _ => [.a, .c, .v, .n, .z]
  | .bit _ => [.n, .z, .v]
  | .cmp _ | .cpx _ | .cpy _ | .dcp _ => [.c, .n, .z]
  | .inc _ | .dec _ => [.n, .z]
  | .asl .acc | .lsr .acc | .rol .acc | .ror .acc => [.a, .c, .n, .z]
  | .asl (.mem _) | .lsr (.mem _) | .rol (.mem _) | .ror (.mem _) => [.c, .n, .z]
  | .bcc _ | .bcs _ | .beq _ | .bne _ | .bmi _ | .bpl _ | .bvc _ | .bvs _ | .jmp _ => []
  | .jsr _ | .rts | .pha | .php => [.sp]
  | .rti | .plp => [.sp, .c, .z, .d, .b, .v, .n]
  | .brk => [.sp, .b]
  | .clc | .sec => [.c]
  | .cli | .sei => []
  | .cld | .sed => [.d]
  | .clv => [.v]
  | .slo _ | .rla _ | .sre _ | .anc _ _ | .alr _ => [.a, .c, .n, .z]
  | .lax _ => [.a, .x, .n, .z]
  | .ane _ | .lxa _ | .sha _ | .tas _ | .shy _ | .shx _ | .las _ => []
  | .sbx _ => [.x, .c, .n, .z]

/-- The operand of an instruction that has an effective address (R185 to R190, R192, R193). -/
def Instr.memOperand : Instr → Option MemMode
  | .lda (.mem m) | .ldx (.mem m) | .ldy (.mem m) | .adc (.mem m) | .sbc (.mem m) | .and (.mem m) | .ora (.mem m)
  | .eor (.mem m) | .cmp (.mem m) | .cpx (.mem m) | .cpy (.mem m) => some m
  | .lda (.imm _) | .ldx (.imm _) | .ldy (.imm _) | .adc (.imm _) | .sbc (.imm _) | .and (.imm _) | .ora (.imm _)
  | .eor (.imm _) | .cmp (.imm _) | .cpx (.imm _) | .cpy (.imm _) => none
  | .sta m | .stx m | .sty m | .bit m | .inc m | .dec m | .slo m | .rla m | .sre m | .rra m | .sax m | .lax m
  | .dcp m | .isc m | .sha m | .tas m | .shy m | .shx m | .las m => some m
  | .asl (.mem m) | .lsr (.mem m) | .rol (.mem m) | .ror (.mem m) | .nop _ (.mem m) => some m
  | .asl .acc | .lsr .acc | .rol .acc | .ror .acc | .nop _ .implied | .nop _ (.imm _) => none
  | .tax | .tay | .txa | .tya | .tsx | .txs | .inx | .iny | .dex | .dey => none
  | .bcc _ | .bcs _ | .beq _ | .bne _ | .bmi _ | .bpl _ | .bvc _ | .bvs _ => none
  | .jmp _ | .jsr _ | .rts | .rti | .brk | .pha | .php | .pla | .plp => none
  | .clc | .sec | .cli | .sei | .cld | .sed | .clv => none
  | .anc _ _ | .alr _ | .arr _ | .usbc _ | .ane _ | .lxa _ | .sbx _ | .jam _ => none

/-- The instruction is one of the eight branches: REL is theirs alone (R194, R260). -/
def Instr.isBranch (i : Instr) : Bool := i.mode == .rel

/-- The instruction is JAM (R332). -/
def Instr.isJam (i : Instr) : Bool := i.mnemonic == .JAM

/-- How far the fetch moves PC before the meaning starts: the instruction's length (R36, R180), but 2 for JSR, whose
meaning reads its third byte (R271). -/
def Instr.fetched (i : Instr) : Nat := if i.mnemonic = .JSR then 2 else i.mode.length

/-- The instruction executes under these parameters: it is not one that always raises `Unsupported` (R330, R328). -/
def Instr.executes (i : Instr) (params : Config.Params) : Bool :=
  !i.mnemonic.unstable && (i.mnemonic != .SBX || params.sbxMode == .silicon)

/-- When an instruction completes: it executes, the cells it reads and DB are written, and P.D is 0 where it tests D
(R221, R330, R403). DB is always written where an instruction starts, since its opcode fetch set it. -/
structure Instr.Completable (i : Instr) (s : State) : Prop where
  executes : i.executes s.params = true
  written  : ∀ cell ∈ Cell.db :: i.reads, cell ∉ s.unwritten
  binary   : i.mnemonic.decimalUnsupported = true → s.p.d = false

/-- The accesses an instruction makes before its operation reads a register or a flag, and the state after them (R181):
the mode's own, and the read of M but for a store. The pushes of BRK, whose operation is to push, are not among them. -/
def Instr.afterOperand (i : Instr) (s : State) : Except Fault State :=
  match i with
  | .sta m | .stx m | .sty m | .sax m | .sha m | .tas m | .shy m | .shx m => do
    let (_, s) ← resolve m s
    .ok s
  | _ =>
    match i.memOperand with
    | none => .ok s
    | some m => do
      let (_, _, s) ← accessMem m s
      .ok s

/-- The composites that have written memory when they read this cell, in the order of their pseudocode: the operand, and
the byte written for the byte read (R311 to R314, R317, R318, R403). -/
def Instr.storedBefore (i : Instr) (cell : Cell) (carry : Bool) : Option (MemMode × (Byte → Byte)) :=
  match i, cell with
  | .slo m, .a => some (m, fun v => v <<< 1)
  | .rla m, .a => some (m, fun v => (v <<< 1) ||| (if carry then 0x01#8 else 0x00#8))
  | .sre m, .a => some (m, fun v => v >>> 1)
  | .rra m, .a => some (m, fun v => (if carry then 0x80#8 else 0x00#8) ||| (v >>> 1))
  | .dcp m, .a => some (m, fun v => v - 1)
  | .isc m, .a | .isc m, .c => some (m, fun v => v + 1)
  | _, _ => none

namespace Machine

/-- `s` with the bus latches, the driver's cells and the record of unwritten cells taken from `u`: `s` and `u` agree
on everything else exactly when `u = s.withBookkeepingOf u`. -/
def State.withBookkeepingOf (s u : State) : State :=
  { s with
    unwritten := u.unwritten
    ab := u.ab
    db := u.db
    rw := u.rw
    amip := u.amip
    opip := u.opip
    amCycle := u.amCycle
    opCycle := u.opCycle
    prevAmCycles := u.prevAmCycles
    prevOpCycles := u.prevOpCycles
    scratchLo := u.scratchLo
    scratchHi := u.scratchHi
    tempAddr := u.tempAddr
    relAddr := u.relAddr
    entering := u.entering
    busLog := u.busLog
    internalDraws := u.internalDraws }

/-- `u` is left with the bus as `t` has it: DB, RW and the calls on the devices are `t`'s, so that no access came after
the last one of `t` (R54, R84, R90). -/
def State.BusAs (u t : State) : Prop := u.db = t.db ∧ u.rw = t.rw ∧ u.busLog = t.busLog

/-- What a described device keeps in a state (R97). -/
def Device.held (d : Device) (p : DeviceProgram) (initial : Memory) (s : State) : Memory :=
  d.stateAfter p initial s.busLog

/-- The device answers reads of the address: it owns it, and no owner has a lower priority number (R80). -/
def Device.Answers (d : Device) (ds : List Device) (a : Word) : Prop :=
  d.owns a = true ∧ ∀ e ∈ ds, e.owns a = true → d.priority ≤ e.priority

/-- `P` with N and Z from a result, as `setNZ` leaves it (R11). -/
def Status.withNZ (p : Status) (v : Byte) : Status := { p with n := v.getLsbD 7, z := v == 0 }

/-- The devices offered one byte at an address (R81). -/
def storeTo (ds : List Device) (w : Word × Byte) : List Device := ds.map (fun d => d.write w.1 w.2)

/-- `u` holds what `r` holds, the bookkeeping apart, with the bytes `stored` written to the devices of `s` in that order:
each address of `stored` that a plain RAM answers then answers the byte stored there, and every other address answers
what it answered in `s`. -/
abbrev Leaves (u s r : State) (stored : List (Word × Byte)) : Prop :=
  u = { r with devices := stored.foldl storeTo s.devices }.withBookkeepingOf u ∧
    (∀ b, (∀ w ∈ stored, b ≠ w.1) → u.peek b = s.peek b) ∧
    (devicesWf s.devices = true → ∀ w ∈ stored, (s.peek w.1).isSome → u.peek w.1 = some w.2)

/-- The outcome is a next state that holds what `r` holds, with the bytes `stored` written. -/
def LeadsTo (outcome : Host.Outcome State Fault Refusal) (s r : State) (stored : List (Word × Byte)) : Prop :=
  ∃ u, outcome = .next u ∧ Leaves u s r stored

/-- What holds at every instruction boundary of a running core (R44, R45, R50, R52, R55, R56). -/
structure State.BoundaryInv (s : State) : Prop where
  /-- the devices are well formed: canonical contents, 17-bit bounds, ascending priorities -/
  devices  : devicesWf s.devices = true
  /-- R = 1 (R45) -/
  reserved : s.p.r = true
  /-- after its first write B is 0 (R44) -/
  noBreak  : Cell.b ∉ s.unwritten → s.p.b = false
  /-- AB = PC and both flags false, except after a JAM (R55) -/
  idle     : s.jammed = false → s.ab = s.pc ∧ s.amip = false ∧ s.opip = false
  /-- OPIP stays true after a JAM (R50) -/
  jam      : s.jammed = true → s.opip = true ∧ s.amip = false
  /-- the counters are 0 (R52), no interrupt sequence is in flight, and no edge waits for the end of one -/
  counters : s.amCycle = 0 ∧ s.opCycle = 0 ∧ s.entering = none ∧ s.nmiAgain = false
  /-- no fault (R56), and `RES()` has happened (R503) -/
  running  : s.fault = .none ∧ Cell.pc ∉ s.unwritten

/-- The state without what the spec leaves internal: how the counts split (only their sums are specified, R52), the
scratch cells (R53), and the draws of those free values. -/
def State.observed (s : State) : State :=
  { s with
    amCycle := s.amCycle + s.opCycle
    opCycle := 0
    prevAmCycles := s.prevAmCycles + s.prevOpCycles
    prevOpCycles := 0
    scratchLo := 0
    scratchHi := 0
    tempAddr := 0
    relAddr := 0
    internalDraws := 0 }

end Machine

end Sys2Proof
end

