-- ==== Sys2Proof/Certificates/Slice0/Obligations.lean ====
section
/-! DEFINITION. The statements for the provers. Numbers R<n> are the rules of spec/. -/

section

open Sys2Proof Sys2Proof.Machine

/-! ### Encoding -/

/-- The encoder's bytes of a well-formed instruction have the length of its mode and decode to it, whatever follows
them (R110, R112, R113). -/
def Obligations.EncodeThenDecodeGivesBack : Prop :=
  ∀ (i : Instr) (rest : List Byte), i.wf = true →
    ∃ bs, encode i = some bs ∧ bs.length = i.mode.length ∧ decode (bs ++ rest) = .ok (i, rest)

/-- Whatever decodes is well formed, and its encoding is the bytes it was read from (R110, R120). -/
def Obligations.DecodeThenEncodeGivesBack : Prop :=
  ∀ (bs rest : List Byte) (i : Instr), decode bs = .ok (i, rest) →
    i.wf = true ∧ ∃ e, encode i = some e ∧ bs = e ++ rest

/-- No opcode byte is reserved: followed by two bytes it decodes, to the mode and mnemonic of its table entry, taking
the mode's length (R112, R120, R124). -/
def Obligations.EveryOpcodeDecodes : Prop :=
  ∀ (opcode b1 b2 : Byte) (rest : List Byte), ∃ i,
    decode (opcode :: b1 :: b2 :: rest) = .ok (i, (opcode :: b1 :: b2 :: rest).drop i.mode.length) ∧
      i.mode = (operation opcode).mode ∧ i.mnemonic = (operation opcode).mnemonic ∧ i.wf = true

/-- Words written out from the encoding tables decode to the instructions they stand for: one of each family. -/
def Obligations.SampleWordsDecode : Prop :=
  decode [0xBD, 0x34, 0x12] = .ok (.lda (.mem (.abx 0x1234)), []) ∧
  decode [0x96, 0xF0] = .ok (.stx (.zpy 0xF0), []) ∧
  decode [0x69, 0x01] = .ok (.adc (.imm 0x01), []) ∧
  decode [0xD1, 0x40] = .ok (.cmp (.mem (.izy 0x40)), []) ∧
  decode [0x6E, 0x00, 0x03] = .ok (.ror (.mem (.abs 0x0300)), []) ∧
  decode [0xD0, 0xFB] = .ok (.bne 0xFB, []) ∧
  decode [0x6C, 0xFF, 0x10] = .ok (.jmp (.ind 0x10FF), []) ∧
  decode [0x20, 0x00, 0x07] = .ok (.jsr 0x0700, []) ∧
  decode [0x08] = .ok (.php, []) ∧
  decode [0xF8] = .ok (.sed, []) ∧
  decode [0x3C, 0x34, 0x12] = .ok (.nop 0x3C (.mem (.abx 0x1234)), []) ∧
  decode [0xE3, 0x20] = .ok (.isc (.izx 0x20), []) ∧
  decode [0xCB, 0x01] = .ok (.sbx 0x01, []) ∧
  decode [0x02] = .ok (.jam 0x02, [])

/-! ### The driver -/

/-- An idle running core with no NMI pending runs the decoded instruction: where RAM holds its bytes at PC, the step is
`exec` of it in the state of its fetch (R or I forced, PC past the fetched bytes, `opc` and `pc0` latched, the cells
PC, DB and opc written); and where the bytes come from any device, the step is `exec` of what the fetch reads (R141,
R142, R143, R153, R180). -/
def Obligations.StepRunsDecodedInstruction : Prop :=
  ∀ (s : State), Cell.pc ∉ s.unwritten → s.fault = .none → s.jammed = false → s.idle = true →
    (s.params.irqNmiPresent && s.nmiPending) = false →
    (∀ (opcode b1 b2 : Byte) (i : Instr) (rest : List Byte),
      decode [opcode, b1, b2] = .ok (i, rest) → s.peek s.pc = some opcode →
      (1 < i.mode.length → s.peek (s.pc + 1) = some b1) → (2 < i.mode.length → s.peek (s.pc + 2) = some b2) →
      ∃ t, step s = exec i t ∧
        t = { s with pc := s.pc + BitVec.ofNat 16 i.fetched,
                     p := { s.p with r := true, i := true },
                     opc := opcode, pc0 := s.pc }.withBookkeepingOf t ∧
        ∀ cell, cell ∈ t.unwritten ↔ cell ∈ s.unwritten ∧ cell ∉ [Cell.db, .pc, .opc]) ∧
    (∀ i t, s.force.fetchInstr = .ok (some i, t) → step s = exec i t)

/-- Before the first `RES()`, after a fault, of a jammed core, and between the clocks of an instruction there is no
instruction-level step; before `RES()` and after a fault there is no clock; a jammed core's clock forces R and I and
does nothing else (R153, R154, R404, R503). That the model refuses the step by a name of its own in each of these, and
between the clocks of an instruction at all (R50), is the model's reading (log 22). -/
def Obligations.CoreWithoutInstructionStep : Prop :=
  ∀ (s : State),
    (Cell.pc ∈ s.unwritten → step s = .refused .clockBeforeReset ∧ clock s = .refused .clockBeforeReset) ∧
    (Cell.pc ∉ s.unwritten → s.fault ≠ .none →
      step s = .refused (.faulted s.fault) ∧ clock s = .refused (.faulted s.fault)) ∧
    (Cell.pc ∉ s.unwritten → s.fault = .none → s.jammed = true →
      step s = .refused .jammed ∧
        clock s = .next { s with p := { s.p with r := true, i := true } }) ∧
    (Cell.pc ∉ s.unwritten → s.fault = .none → s.jammed = false → s.idle = false →
      step s = .refused .midInstruction)

/-- The forcing of R and I comes before everything else, as R141 says of a clock and R153 of a step: a clock, and a step,
of any state is that of the state with
R and I forced; so no stored value of R or I reaches an instruction. R is 1 after every one, and I is 1 after every
clock that is no later clock of an instruction (R45, R141, R153, R511). -/
def Obligations.ForcingComesFirst : Prop :=
  ∀ (s : State),
    step s = step { s with p := { s.p with r := true, i := true } } ∧
    clock s = clock { s with p := { s.p with r := true, i := true } } ∧
    (∀ t, step s = .next t → t.p.r = true) ∧
    (∀ t, clock s = .next t → t.p.r = true) ∧
    (∀ t, s.idle = true ∨ s.jammed = true → clock s = .next t → t.p.i = true)

/-- The boundary invariant holds after reset (R59; the platform and the cells R59 leaves open: logs 3, 4, 5). -/
def Obligations.ResetMeetsBoundaryInv : Prop := State.reset.BoundaryInv

/-- Every step from a state of the boundary invariant ends in one: memory stays canonical and the devices well formed,
R stays 1, B is 0 once written, AB is PC and nothing is in flight unless the core jammed (R44, R45, R50, R55). -/
def Obligations.StepKeepsBoundaryInv : Prop :=
  ∀ (s t : State), s.BoundaryInv → step s = .next t → t.BoundaryInv

/-- The cycle level refines the instruction level: from a boundary, the clocks of one instruction or interrupt entry
end in the state of the step, up to what is internal; it takes the latched number of clocks, or one for JAM, and no
earlier clock is a boundary or has written A, X, Y or a flag other than the forced ones (R153, R160, R161, R162,
R515). -/
def Obligations.ClocksRefineStep : Prop :=
  ∀ (s t : State), s.BoundaryInv → s.jammed = false → step s = .next t →
    ∃ n u, clocks n s = .next u ∧ u.observed = t.observed ∧
      n = (if t.jammed then 1 else t.prevAmCycles + t.prevOpCycles) ∧
      ∀ k, 0 < k → k < n → ∃ v, clocks k s = .next v ∧ v.idle = false ∧ v.jammed = false ∧
        v.a = s.a ∧ v.x = s.x ∧ v.y = s.y ∧ v.p = { s.p with r := true, i := true }

/-- An instruction completes in every state where the cells it reads and DB are written and, if it tests D, D is 0;
and, DB being written, only there (R221, R330, R403). -/
def Obligations.InstructionsComplete : Prop :=
  ∀ (i : Instr) (s : State),
    (i.Completable s → ∃ u, exec i s = .next u) ∧
    (Cell.db ∉ s.unwritten → (∃ u, exec i s = .next u) → i.Completable s)

/-- `Complete()`: after every instruction but JAM, AB is PC, both flags are false, and the counters are 0 (R150). -/
def Obligations.CompletionConverges : Prop :=
  ∀ (i : Instr) (s u : State), i.isJam = false → exec i s = .next u →
    u.ab = u.pc ∧ u.amip = false ∧ u.opip = false ∧ u.amCycle = 0 ∧ u.opCycle = 0

/-- The clocks of an instruction that is no branch: the declared count of its opcode, plus one where the opcode carries
the page penalty and the indexed address crosses a page (R121, R151, R513). -/
def Obligations.DeclaredCyclesConsumed : Prop :=
  ∀ (i : Instr) (s u : State), i.isJam = false → i.isBranch = false → exec i s = .next u →
    (i.memOperand = none → u.prevAmCycles + u.prevOpCycles = declaredCycles s.opc) ∧
    (∀ m r t, i.memOperand = some m → resolve m s = .ok (r, t) →
      u.prevAmCycles + u.prevOpCycles =
        declaredCycles s.opc + (if (operation s.opc).pagePenalty = true ∧ r.crossed = true then 1 else 0))

/-- The clocks of a branch: 2 when not taken, 3 when taken, 4 when taken to another page under the mnemonic's penalty,
which is on for all eight by default (R151, R512). PC is the address after the branch where its meaning starts. -/
def Obligations.BranchCycles : Prop :=
  Config.Params.default.branchPagePenalty = ⟨true, true, true, true, true, true, true, true⟩ ∧
  ∀ (branch : Byte → Instr) (flag : Status → Bool) (want : Bool) (penalty : Config.BranchPagePenalty → Bool),
    (branch, flag, want, penalty) ∈
      ([(.bcc, (·.c), false, (·.bcc)), (.bcs, (·.c), true, (·.bcs)), (.beq, (·.z), true, (·.beq)),
        (.bne, (·.z), false, (·.bne)), (.bmi, (·.n), true, (·.bmi)), (.bpl, (·.n), false, (·.bpl)),
        (.bvc, (·.v), false, (·.bvc)), (.bvs, (·.v), true, (·.bvs))] :
        List ((Byte → Instr) × (Status → Bool) × Bool × (Config.BranchPagePenalty → Bool))) →
    ∀ (off : Byte) (s u : State), declaredCycles s.opc = 2 → exec (branch off) s = .next u →
      u.prevAmCycles + u.prevOpCycles =
        if flag s.p ≠ want then 2
        else if penalty s.params.branchPagePenalty = true ∧ hiByte s.pc ≠ hiByte (s.pc + sext16 off) then 4
        else 3

/-! ### The bus and memory -/

/-- A bus read: every device is told the direction, then the owner with the lowest priority number is read, and no
other; it answers a plain RAM's byte, what a described device's program says, or a draw; AB, RW, DB and its mark are
set, and nothing else changes but the record of the calls (R72, R80, R84, R97; that the draw is the free value
`Config.deviceByte` of the calls so far is the model's form: log 6). -/
def Obligations.BusReadTakesFirstOwner : Prop :=
  ∀ (s : State) (a : Word) (d : Device), devicesWf s.devices = true → d ∈ s.devices →
    d.min ≤ a.toNat → a.toNat < d.max →
    (∀ e ∈ s.devices, e.min ≤ a.toNat → a.toNat < e.max → d.priority ≤ e.priority) →
    ∃ v t, s.busRead a = .ok (v, t) ∧
      t = { s with ab := a, rw := true, db := v, unwritten := t.unwritten,
                   busLog := .read d.priority a :: .setRw true :: s.busLog } ∧
      (∀ cell, cell ∈ t.unwritten ↔ cell ∈ s.unwritten ∧ cell ≠ .db) ∧
      (∀ bytes, d.behaviour = .ram bytes → v = Memory.read bytes a.toNat) ∧
      (∀ p initial, d.behaviour = .described p initial → v = BitVec.ofNat 8 (p.answer.eval
        (d.stateAfter p initial (.setRw true :: s.busLog)) (.read d.priority a) (d.draws t.busLog))) ∧
      (d.behaviour = .undescribed →
        v = Config.deviceByte d.priority (.read d.priority a :: .setRw true :: s.busLog) 0)

/-- Open bus: an address no device owns reads as DB, which stays; with DB never written that read is the fault
`UnwrittenRead(DB)`. DB is the byte last read or last written (R82, R83). -/
def Obligations.OpenBusReadsLatch : Prop :=
  (∀ (s : State) (a : Word), (∀ d ∈ s.devices, ¬ (d.min ≤ a.toNat ∧ a.toNat < d.max)) →
    (Cell.db ∉ s.unwritten →
      s.busRead a = .ok (s.db, { s with ab := a, rw := true, busLog := .setRw true :: s.busLog })) ∧
    (Cell.db ∈ s.unwritten → ∃ left, s.busRead a = .error (.unwrittenRead .db left) ∧
      left.fault = .unwrittenRead .db)) ∧
  (∀ (s t : State) (a : Word) (v : Byte), s.busRead a = .ok (v, t) → t.db = v) ∧
  (∀ (s : State) (a : Word) (v : Byte), (s.busWrite a v).db = v)

/-- A bus write: every device is told the direction and offered the byte; every plain RAM that owns the address stores
it, and only those change; AB, RW and DB are set (R73, R81, R84; a described device: DescribedDeviceFollowsProgram). -/
def Obligations.BusWriteReachesEveryOwner : Prop :=
  ∀ (s : State) (a : Word) (v : Byte), devicesWf s.devices = true →
    (s.busWrite a v).ab = a ∧ (s.busWrite a v).rw = false ∧ (s.busWrite a v).db = v ∧
    (s.busWrite a v).busLog = .write a v :: .setRw false :: s.busLog ∧
    (s.busWrite a v).devices.length = s.devices.length ∧
    ∀ (k : Nat) (d e : Device), s.devices[k]? = some d → (s.busWrite a v).devices[k]? = some e →
      e.priority = d.priority ∧ e.min = d.min ∧ e.max = d.max ∧
      (¬ (d.min ≤ a.toNat ∧ a.toNat < d.max) → e = d) ∧ ((∀ bytes, d.behaviour ≠ .ram bytes) → e = d) ∧
      (d.min ≤ a.toNat → a.toNat < d.max → ∀ bytes, d.behaviour = .ram bytes →
        ∃ bytes', e.behaviour = .ram bytes' ∧ Memory.read bytes' a.toNat = v ∧
          ∀ b, b ≠ a.toNat → Memory.read bytes' b = Memory.read bytes b)

/-- A byte written to a RAM is what the next read of it answers; every other RAM byte is what it was; and a write to an
address nobody owns changes no device's range or bytes (R82, R92, R203). -/
def Obligations.ReadAfterWrite : Prop :=
  ∀ (s : State) (a : Word) (v : Byte), devicesWf s.devices = true →
    ((s.peek a).isSome → ∃ t, (s.busWrite a v).busRead a = .ok (v, t)) ∧
    (∀ b, b ≠ a → (s.busWrite a v).peek b = s.peek b) ∧
    ((∀ d ∈ s.devices, ¬ (d.min ≤ a.toNat ∧ a.toNat < d.max)) → (s.busWrite a v).devices = s.devices)

/-- A write keeps a RAM's contents canonical, and two canonical contents that read alike are equal (the model's form
of memory, log 5). -/
def Obligations.CanonicalMemory : Prop :=
  (∀ (m : Memory) (a : Word) (v : Byte), Memory.wf m = true → Memory.wf (Memory.write m a.toNat v) = true) ∧
  (∀ (m m' : Memory), Memory.wf m = true → Memory.wf m' = true →
    (∀ a < 0x10000, Memory.read m a = Memory.read m' a) → m = m')

/-- Registration at a free priority adds the device, drops none and keeps the list in ascending priority, so that
registering it again changes nothing; at a priority taken, the same device changes nothing and any other is rejected. A
device with both capabilities is tracked for both, else for the one it is registered for, and the tracking decides no
answer (R74, R75; what makes two devices the same is the model's choice: log 18). -/
def Obligations.RegistrationRules : Prop :=
  ∀ (ds : List Device) (capability : Capability) (d : Device), devicesWf ds = true → d.wf = true →
    ((∀ e ∈ ds, e.priority ≠ d.priority) → ∃ es, registerDevice ds capability d = .next es ∧ devicesWf es = true ∧
      registerDevice es capability d = .next es ∧
      ∀ e, e ∈ es ↔ e = { d with tracked := d.trackedAs capability } ∨ e ∈ ds) ∧
    (∀ e ∈ ds, e.priority = d.priority →
      ({ d with tracked := e.tracked } = e → registerDevice ds capability d = .next ds) ∧
      ({ d with tracked := e.tracked } ≠ e → registerDevice ds capability d = .refused .priorityTaken)) ∧
    (d.implements = ⟨true, true⟩ → d.trackedAs capability = ⟨true, true⟩) ∧
    (d.implements ≠ ⟨true, true⟩ →
      d.trackedAs capability = ⟨decide (capability = .address), decide (capability = .data)⟩) ∧
    (∀ tracked log a, { d with tracked := tracked }.owns a = d.owns a ∧
      { d with tracked := tracked }.answer log a = d.answer log a)

/-- A described device does what the platform's program says, and only that: at a read every device is told the
direction, the one that answers gives its program's answer and has the read's side effect; at a write every owner has
the write's effect; at a device clock each has the clock's; and the bytes it keeps stay canonical (R73, R80, R81, R84,
R91, R97; the language of programs is the model's: log 6). -/
def Obligations.DescribedDeviceFollowsProgram : Prop :=
  ∀ (s : State) (d : Device) (p : DeviceProgram) (initial : Memory), devicesWf s.devices = true → d ∈ s.devices →
    d.behaviour = .described p initial →
    (∀ (told : Bool → Memory), (∀ read, told read =
        p.react (.setRw read) (d.draws (.setRw read :: s.busLog)) (d.held p initial s)) →
      (∀ a v t, s.busRead a = .ok (v, t) →
        (d.Answers s.devices a →
          v = BitVec.ofNat 8 (p.answer.eval (told true) (.read d.priority a) (d.draws t.busLog)) ∧
          d.held p initial t = p.react (.read d.priority a) (d.draws t.busLog) (told true)) ∧
        (¬ d.Answers s.devices a → d.held p initial t = told true)) ∧
      (∀ a v, d.held p initial (s.busWrite a v) =
        if d.owns a = true then p.react (.write a v) (d.draws (s.busWrite a v).busLog) (told false)
        else told false)) ∧
    d.held p initial s.clockDevices = p.react .clock (d.draws (.clock :: s.busLog)) (d.held p initial s) ∧
    s.clockDevices = { s with busLog := .clock :: s.busLog } ∧
    Memory.wfIn 0 p.cells (d.held p initial s) = true

/-! ### Addressing modes -/

/-- The effective addresses that no memory read helps to form: zero-page indexing wraps modulo 256, absolute indexing
modulo 2^16, and only the latter crosses pages (R185 to R190, R195, R196). -/
def Obligations.DirectAddresses : Prop :=
  ∀ (s : State) (zp : Byte) (addr : Word),
    resolve (.zpa zp) s = .ok (⟨zext16 zp, false⟩, s) ∧
    resolve (.abs addr) s = .ok (⟨addr, false⟩, s) ∧
    (Cell.x ∉ s.unwritten →
      (∃ r, resolve (.zpx zp) s = .ok (r, s) ∧ r.ea.toNat = (zp.toNat + s.x.toNat) % 256 ∧ r.crossed = false) ∧
      (∃ r, resolve (.abx addr) s = .ok (r, s) ∧ r.ea.toNat = (addr.toNat + s.x.toNat) % 65536 ∧
        (r.crossed = true ↔ addr.toNat / 256 ≠ r.ea.toNat / 256))) ∧
    (Cell.y ∉ s.unwritten →
      (∃ r, resolve (.zpy zp) s = .ok (r, s) ∧ r.ea.toNat = (zp.toNat + s.y.toNat) % 256 ∧ r.crossed = false) ∧
      (∃ r, resolve (.aby addr) s = .ok (r, s) ∧ r.ea.toNat = (addr.toNat + s.y.toNat) % 65536 ∧
        (r.crossed = true ↔ addr.toNat / 256 ≠ r.ea.toNat / 256)))

/-- The pointer modes: the two bus reads, whoever answers them, come from page zero, wrapping there, and no other access
is made; IZX indexes the pointer, IZY the base it yields. Once DB is written, and wherever RAM holds the pointer, the two
reads are answered, by RAM with its bytes (R192, R193, R195). -/
def Obligations.PointerAddresses : Prop :=
  ∀ (s : State) (ptr : Byte),
    (Cell.x ∉ s.unwritten → ∀ l h t u, s.busRead (zext16 (ptr + s.x)) = .ok (l, t) →
      t.busRead (zext16 (ptr + s.x + 1)) = .ok (h, u) →
      u = s.withBookkeepingOf u ∧ ∃ r, resolve (.izx ptr) s = .ok (r, u) ∧
        r.ea.toNat = h.toNat * 256 + l.toNat ∧ r.crossed = false) ∧
    (Cell.y ∉ s.unwritten → ∀ l h t u, s.busRead (zext16 ptr) = .ok (l, t) →
      t.busRead (zext16 (ptr + 1)) = .ok (h, u) →
      u = s.withBookkeepingOf u ∧ ∃ r, resolve (.izy ptr) s = .ok (r, u) ∧
        r.ea.toNat = (h.toNat * 256 + l.toNat + s.y.toNat) % 65536 ∧ (r.crossed = true ↔ h.toNat ≠ r.ea.toNat / 256)) ∧
    (∀ first, (Cell.db ∉ s.unwritten ∨ (s.peek (zext16 first)).isSome) →
      ∃ l h t u, s.busRead (zext16 first) = .ok (l, t) ∧ t.busRead (zext16 (first + 1)) = .ok (h, u) ∧
        (∀ b, s.peek (zext16 first) = some b → l = b) ∧ (∀ b, s.peek (zext16 (first + 1)) = some b → h = b))

/-- The operand M: the immediate byte, or the byte at the effective address, with no other access after the mode's own;
where RAM holds it, the byte a peek gives (R181, R184). -/
def Obligations.OperandIsByteAtEffectiveAddress : Prop :=
  (∀ (value : Byte) (s : State), accessOperand (.imm value) s = .ok (value, false, s)) ∧
  (∀ (m : MemMode) (s t : State) (r : Resolved), resolve m s = .ok (r, t) →
    (∀ v u, t.busRead r.ea = .ok (v, u) →
      accessMem m s = .ok (r, v, u) ∧ accessOperand (.mem m) s = .ok (v, r.crossed, u)) ∧
    (∀ v, s.peek r.ea = some v → ∃ u, accessMem m s = .ok (r, v, u) ∧ u = s.withBookkeepingOf u ∧
      u.ab = r.ea ∧ u.rw = true ∧ u.db = v))

/-! ### The ALU and the packed status -/

/-- The adder: the low byte of the 9-bit sum, its bit 8, and V by its formula, which is exactly that the signed sum
leaves the byte's range; and the subtraction of SBC is the addition of the complement (R220, R224, R238). -/
def Obligations.AdderAndSubtracter : Prop :=
  ∀ (a m : Byte) (cin : Bool),
    (add a m cin).r.toNat = (a.toNat + m.toNat + (if cin then 1 else 0)) % 256 ∧
    ((add a m cin).c = true ↔ 255 < a.toNat + m.toNat + (if cin then 1 else 0)) ∧
    (add a m cin).v = ((((a ^^^ (add a m cin).r) &&& (m ^^^ (add a m cin).r)) &&& 0x80#8) != 0#8) ∧
    ((add a m cin).v = true ↔
      a.toInt + m.toInt + (if cin then 1 else 0) < -128 ∨ 127 < a.toInt + m.toInt + (if cin then 1 else 0)) ∧
    subtract a m cin = add a (~~~m) cin

/-- The packed byte is the weighted sum of the flags, and packing and unpacking undo each other (R38). -/
def Obligations.PackAndUnpack : Prop :=
  (∀ (p : Status), p.pack.toNat = p.n.toNat * 128 + p.v.toNat * 64 + p.r.toNat * 32 + p.b.toNat * 16 + p.d.toNat * 8 +
    p.i.toNat * 4 + p.z.toNat * 2 + p.c.toNat) ∧
  (∀ (p : Status), Status.unpack p.pack = p) ∧
  (∀ (b : Byte), (Status.unpack b).pack = b)

/-! ### Loads, stores and transfers -/

/-- LDA, LDX, LDY and LAX load M and set N and Z from it; nothing else changes, memory included (R200, R201, R202,
R316). -/
def Obligations.LoadResults : Prop :=
  ∀ (s : State),
    (∀ o, (Instr.lda o).Completable s → ∃ v crossed t, accessOperand o s = .ok (v, crossed, t) ∧
      LeadsTo (exec (.lda o) s) s { s with a := v, p := s.p.withNZ v } []) ∧
    (∀ o, (Instr.ldx o).Completable s → ∃ v crossed t, accessOperand o s = .ok (v, crossed, t) ∧
      LeadsTo (exec (.ldx o) s) s { s with x := v, p := s.p.withNZ v } []) ∧
    (∀ o, (Instr.ldy o).Completable s → ∃ v crossed t, accessOperand o s = .ok (v, crossed, t) ∧
      LeadsTo (exec (.ldy o) s) s { s with y := v, p := s.p.withNZ v } []) ∧
    (∀ m, (Instr.lax m).Completable s → ∃ r v t, accessMem m s = .ok (r, v, t) ∧
      LeadsTo (exec (.lax m) s) s { s with a := v, x := v, p := s.p.withNZ v } [])

/-- STA, STX, STY and SAX write A, X, Y or A and X at the effective address; no register, no flag and no other byte
changes, and the write is the one access after the mode's own, so that it stays on the bus (R90, R203, R204, R205,
R315). -/
def Obligations.StoreResults : Prop :=
  ∀ (s : State) (m : MemMode),
    ((Instr.sta m).Completable s → ∃ r t, resolve m s = .ok (r, t) ∧
      LeadsTo (exec (.sta m) s) s s [(r.ea, s.a)] ∧
      ∀ u, exec (.sta m) s = .next u → u.BusAs (t.busWrite r.ea s.a)) ∧
    ((Instr.stx m).Completable s → ∃ r t, resolve m s = .ok (r, t) ∧
      LeadsTo (exec (.stx m) s) s s [(r.ea, s.x)] ∧
      ∀ u, exec (.stx m) s = .next u → u.BusAs (t.busWrite r.ea s.x)) ∧
    ((Instr.sty m).Completable s → ∃ r t, resolve m s = .ok (r, t) ∧
      LeadsTo (exec (.sty m) s) s s [(r.ea, s.y)] ∧
      ∀ u, exec (.sty m) s = .next u → u.BusAs (t.busWrite r.ea s.y)) ∧
    ((Instr.sax m).Completable s → ∃ r t, resolve m s = .ok (r, t) ∧
      LeadsTo (exec (.sax m) s) s s [(r.ea, s.a &&& s.x)] ∧
      ∀ u, exec (.sax m) s = .next u → u.BusAs (t.busWrite r.ea (s.a &&& s.x)))

/-- The six transfers: a copy, with N and Z set but by TXS (R206 to R211). -/
def Obligations.TransferResults : Prop :=
  ∀ (s : State),
    (Instr.tax.Completable s → LeadsTo (exec .tax s) s { s with x := s.a, p := s.p.withNZ s.a } []) ∧
    (Instr.tay.Completable s → LeadsTo (exec .tay s) s { s with y := s.a, p := s.p.withNZ s.a } []) ∧
    (Instr.txa.Completable s → LeadsTo (exec .txa s) s { s with a := s.x, p := s.p.withNZ s.x } []) ∧
    (Instr.tya.Completable s → LeadsTo (exec .tya s) s { s with a := s.y, p := s.p.withNZ s.y } []) ∧
    (Instr.tsx.Completable s → LeadsTo (exec .tsx s) s { s with x := s.sp, p := s.p.withNZ s.sp } []) ∧
    (Instr.txs.Completable s → LeadsTo (exec .txs s) s { s with sp := s.x } [])

/-- DB and RW keep the values of an instruction's last bus access, and the devices see no access but those of its
rule: for every operand form that reads, that writes, or that reads and writes back; every push and pull; JSR, RTS, RTI,
BRK and JMP IND; and every instruction that makes no access after its fetch leaves the bus alone (R54, R80, R81, R84,
R90, R150, R181). -/
def Obligations.LastAccessStaysOnBus : Prop :=
  ∀ (s u : State),
    (∀ o v crossed t, accessOperand o s = .ok (v, crossed, t) →
      ∀ i ∈ [Instr.lda o, .ldx o, .ldy o, .adc o, .sbc o, .and o, .ora o, .eor o, .cmp o, .cpx o, .cpy o],
        exec i s = .next u → u.BusAs t) ∧
    (∀ m r v t, accessMem m s = .ok (r, v, t) →
      t.db = v ∧ t.rw = true ∧
      (∀ opcode, ∀ i ∈ [Instr.bit m, .lax m, .nop opcode (.mem m)], exec i s = .next u → u.BusAs t) ∧
      (∀ left right, left = (v <<< 1) ||| (if s.p.c then 0x01#8 else 0x00#8) →
        right = (if s.p.c then 0x80#8 else 0x00#8) ||| (v >>> 1) →
        ∀ i w, (i, w) ∈ [(Instr.inc m, v + 1), (.dec m, v - 1), (.asl (.mem m), v <<< 1), (.lsr (.mem m), v >>> 1),
            (.rol (.mem m), left), (.ror (.mem m), right), (.slo m, v <<< 1), (.rla m, left), (.sre m, v >>> 1),
            (.rra m, right), (.dcp m, v - 1), (.isc m, v + 1)] →
          exec i s = .next u → u.BusAs (t.busWrite r.ea w))) ∧
    (∀ m r t, resolve m s = .ok (r, t) →
      ∀ i w, (i, w) ∈ [(Instr.sta m, s.a), (.stx m, s.x), (.sty m, s.y), (.sax m, s.a &&& s.x)] →
        exec i s = .next u → u.BusAs (t.busWrite r.ea w)) ∧
    (exec .pha s = .next u → u.BusAs (s.push s.a)) ∧
    (exec .php s = .next u → u.BusAs (s.push { s.p with b := true, r := true }.pack)) ∧
    (∀ v t, s.pull = .ok (v, t) → ∀ i ∈ [Instr.pla, .plp], exec i s = .next u → u.BusAs t) ∧
    (∀ target h t, ((s.push (hiByte s.pc)).push (loByte s.pc)).busRead s.pc = .ok (h, t) →
      exec (.jsr target) s = .next u → u.BusAs t) ∧
    (∀ l h t v, s.pull = .ok (l, t) → t.pull = .ok (h, v) → exec .rts s = .next u → u.BusAs v) ∧
    (∀ q l h t v w, s.pull = .ok (q, t) → t.pull = .ok (l, v) → v.pull = .ok (h, w) → exec .rti s = .next u →
      u.BusAs w) ∧
    (∀ l h t v, (((s.push (hiByte (s.pc + 1))).push (loByte (s.pc + 1))).push { s.p with b := true }.pack).busRead
        0xFFFE = .ok (l, t) → t.busRead 0xFFFF = .ok (h, v) → exec .brk s = .next u → u.BusAs v) ∧
    (∀ ptr l h t v, s.busRead ptr = .ok (l, t) → t.busRead (wordOf (hiByte ptr) (loByte ptr + 1)) = .ok (h, v) →
      exec (.jmp (.ind ptr)) s = .next u → u.BusAs v) ∧
    (∀ i ∈ [Instr.tax, .tay, .txa, .tya, .tsx, .txs, .inx, .iny, .dex, .dey, .asl .acc, .lsr .acc, .rol .acc,
        .ror .acc], exec i s = .next u → u.BusAs s) ∧
    (∀ i ∈ [Instr.clc, .sec, .cli, .sei, .cld, .sed, .clv], exec i s = .next u → u.BusAs s) ∧
    (∀ off target, ∀ i ∈ [Instr.bcc off, .bcs off, .beq off, .bne off, .bmi off, .bpl off, .bvc off, .bvs off,
        .jmp (.abs target)], exec i s = .next u → u.BusAs s) ∧
    (∀ opcode v, ∀ i ∈ [Instr.nop opcode .implied, .nop opcode (.imm v), .anc opcode v, .alr v, .arr v, .usbc v,
        .sbx v, .jam opcode], exec i s = .next u → u.BusAs s)

/-! ### Arithmetic and logic -/

/-- ADC, SBC and USBC with D = 0: A, C, V, N and Z from the sum or the difference; nothing else (R223, R224, R322). -/
def Obligations.AddAndSubtractResults : Prop :=
  ∀ (s : State),
    (∀ o, (Instr.adc o).Completable s → ∃ v crossed t, accessOperand o s = .ok (v, crossed, t) ∧
      LeadsTo (exec (.adc o) s) s
        { s with a := (add s.a v s.p.c).r,
                 p := { s.p.withNZ (add s.a v s.p.c).r with c := (add s.a v s.p.c).c, v := (add s.a v s.p.c).v } }
        []) ∧
    (∀ o, (Instr.sbc o).Completable s → ∃ v crossed t, accessOperand o s = .ok (v, crossed, t) ∧
      LeadsTo (exec (.sbc o) s) s
        { s with a := (subtract s.a v s.p.c).r,
                 p := { s.p.withNZ (subtract s.a v s.p.c).r with
                        c := (subtract s.a v s.p.c).c, v := (subtract s.a v s.p.c).v } }
        []) ∧
    (∀ v, (Instr.usbc v).Completable s →
      LeadsTo (exec (.usbc v) s) s
        { s with a := (subtract s.a v s.p.c).r,
                 p := { s.p.withNZ (subtract s.a v s.p.c).r with
                        c := (subtract s.a v s.p.c).c, v := (subtract s.a v s.p.c).v } }
        [])

/-- Decimal mode: with D = 1, ADC, SBC, USBC, RRA, ISC and ARR raise `Unsupported(opc, pc0)` after the operand is read,
whether or not A and C were ever written; no register, flag or byte of memory changes (R221, R402, R408). The carried
state, and AMIP, OPIP and the counters in it, are the model's (logs 8, 20). -/
def Obligations.DecimalModeFaults : Prop :=
  ∀ (s : State), Cell.db ∉ s.unwritten → Cell.d ∉ s.unwritten → s.p.d = true →
    (∀ o, (∀ cell ∈ o.reads, cell ∉ s.unwritten) → ∃ v crossed t, accessOperand o s = .ok (v, crossed, t) ∧
      t = s.withBookkeepingOf t ∧
      exec (.adc o) s = .fault (.unsupported s.opc s.pc0 { t with fault := .unsupported s.opc s.pc0 }) ∧
      exec (.sbc o) s = .fault (.unsupported s.opc s.pc0 { t with fault := .unsupported s.opc s.pc0 })) ∧
    (∀ m, (∀ cell ∈ m.reads, cell ∉ s.unwritten) → ∃ r v t, accessMem m s = .ok (r, v, t) ∧
      t = s.withBookkeepingOf t ∧
      exec (.rra m) s = .fault (.unsupported s.opc s.pc0 { t with fault := .unsupported s.opc s.pc0 }) ∧
      exec (.isc m) s = .fault (.unsupported s.opc s.pc0 { t with fault := .unsupported s.opc s.pc0 })) ∧
    (∀ v,
      exec (.usbc v) s = .fault (.unsupported s.opc s.pc0 { s with fault := .unsupported s.opc s.pc0 }) ∧
      exec (.arr v) s = .fault (.unsupported s.opc s.pc0 { s with fault := .unsupported s.opc s.pc0 }))

/-- AND, ORA and EOR put the bitwise result in A and set N and Z; BIT sets Z from A & M and N and V from M's bits 7
and 6, A unchanged (R225, R226, R227, R228). -/
def Obligations.LogicResults : Prop :=
  ∀ (s : State),
    (∀ o, (Instr.and o).Completable s → ∃ v crossed t, accessOperand o s = .ok (v, crossed, t) ∧
      LeadsTo (exec (.and o) s) s { s with a := s.a &&& v, p := s.p.withNZ (s.a &&& v) } []) ∧
    (∀ o, (Instr.ora o).Completable s → ∃ v crossed t, accessOperand o s = .ok (v, crossed, t) ∧
      LeadsTo (exec (.ora o) s) s { s with a := s.a ||| v, p := s.p.withNZ (s.a ||| v) } []) ∧
    (∀ o, (Instr.eor o).Completable s → ∃ v crossed t, accessOperand o s = .ok (v, crossed, t) ∧
      LeadsTo (exec (.eor o) s) s { s with a := s.a ^^^ v, p := s.p.withNZ (s.a ^^^ v) } []) ∧
    (∀ m, (Instr.bit m).Completable s → ∃ r v t, accessMem m s = .ok (r, v, t) ∧
      LeadsTo (exec (.bit m) s) s
        { s with p := { s.p with z := s.a &&& v == 0, n := v.getLsbD 7, v := v.getLsbD 6 } } [])

/-- CMP, CPX and CPY: C when the register is at least M as unsigned numbers, N and Z from the 8-bit difference; no
register and no other flag changes (R222, R229, R230, R231). -/
def Obligations.CompareResults : Prop :=
  ∀ (s : State) (o : ReadOperand),
    ((Instr.cmp o).Completable s → ∃ v crossed t, accessOperand o s = .ok (v, crossed, t) ∧
      LeadsTo (exec (.cmp o) s) s { s with p := { s.p.withNZ (s.a - v) with c := decide (v.toNat ≤ s.a.toNat) } } []) ∧
    ((Instr.cpx o).Completable s → ∃ v crossed t, accessOperand o s = .ok (v, crossed, t) ∧
      LeadsTo (exec (.cpx o) s) s { s with p := { s.p.withNZ (s.x - v) with c := decide (v.toNat ≤ s.x.toNat) } } []) ∧
    ((Instr.cpy o).Completable s → ∃ v crossed t, accessOperand o s = .ok (v, crossed, t) ∧
      LeadsTo (exec (.cpy o) s) s { s with p := { s.p.withNZ (s.y - v) with c := decide (v.toNat ≤ s.y.toNat) } } [])

/-- INC and DEC: M read at the effective address, one more or one less written back there, N and Z from it; no other
flag, no register, no other byte (R232, R233). -/
def Obligations.MemoryIncrementResults : Prop :=
  ∀ (s : State) (m : MemMode),
    ((Instr.inc m).Completable s → ∃ r v t, accessMem m s = .ok (r, v, t) ∧
      LeadsTo (exec (.inc m) s) s { s with p := s.p.withNZ (v + 1) } [(r.ea, v + 1)]) ∧
    ((Instr.dec m).Completable s → ∃ r v t, accessMem m s = .ok (r, v, t) ∧
      LeadsTo (exec (.dec m) s) s { s with p := s.p.withNZ (v - 1) } [(r.ea, v - 1)])

/-- INX, INY, DEX and DEY: one more or one less modulo 256, N and Z from it; nothing else (R234 to R237). -/
def Obligations.RegisterIncrementResults : Prop :=
  ∀ (s : State),
    (Instr.inx.Completable s → LeadsTo (exec .inx s) s { s with x := s.x + 1, p := s.p.withNZ (s.x + 1) } []) ∧
    (Instr.iny.Completable s → LeadsTo (exec .iny s) s { s with y := s.y + 1, p := s.p.withNZ (s.y + 1) } []) ∧
    (Instr.dex.Completable s → LeadsTo (exec .dex s) s { s with x := s.x - 1, p := s.p.withNZ (s.x - 1) } []) ∧
    (Instr.dey.Completable s → LeadsTo (exec .dey s) s { s with y := s.y - 1, p := s.p.withNZ (s.y - 1) } [])

/-! ### Shifts -/

/-- The accumulator forms of ASL, LSR, ROL and ROR (R249 to R253). -/
def Obligations.AccumulatorShiftResults : Prop :=
  ∀ (s : State),
    ((Instr.asl .acc).Completable s → LeadsTo (exec (.asl .acc) s) s
      { s with a := s.a <<< 1, p := { s.p.withNZ (s.a <<< 1) with c := s.a.getLsbD 7 } } []) ∧
    ((Instr.lsr .acc).Completable s → LeadsTo (exec (.lsr .acc) s) s
      { s with a := s.a >>> 1, p := { s.p.withNZ (s.a >>> 1) with c := s.a.getLsbD 0 } } []) ∧
    ((Instr.rol .acc).Completable s →
      ∀ r, r = (s.a <<< 1) ||| (if s.p.c then 0x01#8 else 0x00#8) → LeadsTo (exec (.rol .acc) s) s
        { s with a := r, p := { s.p.withNZ r with c := s.a.getLsbD 7 } } []) ∧
    ((Instr.ror .acc).Completable s →
      ∀ r, r = (if s.p.c then 0x80#8 else 0x00#8) ||| (s.a >>> 1) → LeadsTo (exec (.ror .acc) s) s
        { s with a := r, p := { s.p.withNZ r with c := s.a.getLsbD 0 } } [])

/-- The memory forms of ASL, LSR, ROL and ROR: M read and the result written at one effective address; A and every
other byte unchanged (R181, R249 to R253). -/
def Obligations.MemoryShiftResults : Prop :=
  ∀ (s : State) (m : MemMode),
    ((Instr.asl (.mem m)).Completable s → ∃ r v t, accessMem m s = .ok (r, v, t) ∧
      LeadsTo (exec (.asl (.mem m)) s) s { s with p := { s.p.withNZ (v <<< 1) with c := v.getLsbD 7 } }
        [(r.ea, v <<< 1)]) ∧
    ((Instr.lsr (.mem m)).Completable s → ∃ r v t, accessMem m s = .ok (r, v, t) ∧
      LeadsTo (exec (.lsr (.mem m)) s) s { s with p := { s.p.withNZ (v >>> 1) with c := v.getLsbD 0 } }
        [(r.ea, v >>> 1)]) ∧
    ((Instr.rol (.mem m)).Completable s → ∃ r v t, accessMem m s = .ok (r, v, t) ∧
      ∀ w, w = (v <<< 1) ||| (if s.p.c then 0x01#8 else 0x00#8) →
        LeadsTo (exec (.rol (.mem m)) s) s { s with p := { s.p.withNZ w with c := v.getLsbD 7 } } [(r.ea, w)]) ∧
    ((Instr.ror (.mem m)).Completable s → ∃ r v t, accessMem m s = .ok (r, v, t) ∧
      ∀ w, w = (if s.p.c then 0x80#8 else 0x00#8) ||| (v >>> 1) →
        LeadsTo (exec (.ror (.mem m)) s) s { s with p := { s.p.withNZ w with c := v.getLsbD 0 } } [(r.ea, w)])

/-! ### Control transfer -/

/-- The eight branches: to the address after the branch plus the signed offset when the flag has the wanted value,
else PC stays past the operand; nothing else changes (R194, R260 to R268). -/
def Obligations.BranchResults : Prop :=
  ∀ (branch : Byte → Instr) (flag : Status → Bool) (want : Bool),
    (branch, flag, want) ∈
      ([(.bcc, (·.c), false), (.bcs, (·.c), true), (.beq, (·.z), true), (.bne, (·.z), false),
        (.bmi, (·.n), true), (.bpl, (·.n), false), (.bvc, (·.v), false), (.bvs, (·.v), true)] :
        List ((Byte → Instr) × (Status → Bool) × Bool)) →
    ∀ (off : Byte) (s : State), (branch off).Completable s →
      ∀ target, (target.toNat : Int) = (s.pc.toNat + off.toInt) % 65536 →
        LeadsTo (exec (branch off) s) s { s with pc := if flag s.p = want then target else s.pc } []

/-- JMP: to its operand, or to the address read through the pointer, whose high byte never carries (R191, R270). -/
def Obligations.JumpResults : Prop :=
  ∀ (s : State),
    (∀ target, (Instr.jmp (.abs target)).Completable s →
      LeadsTo (exec (.jmp (.abs target)) s) s { s with pc := target } []) ∧
    (∀ ptr, (Instr.jmp (.ind ptr)).Completable s →
      ∃ l h t u, s.busRead ptr = .ok (l, t) ∧ t.busRead (wordOf (hiByte ptr) (loByte ptr + 1)) = .ok (h, u) ∧
        LeadsTo (exec (.jmp (.ind ptr)) s) s { s with pc := wordOf h l } [] ∧
        (∀ b, s.peek ptr = some b → l = b) ∧
        (∀ b, s.peek (wordOf (hiByte ptr) (loByte ptr + 1)) = some b → h = b))

/-- JSR, from PC = pc0 + 2: the address of its last byte is pushed, high byte first, then the high byte of the target
is read there; the low byte is the operand's. A third byte that the pushes overwrote is the byte pushed (R95, R271,
R272). -/
def Obligations.SubroutineCallResults : Prop :=
  ∀ (s : State) (target : Word), (Instr.jsr target).Completable s →
    ∃ h t, ((s.push (hiByte s.pc)).push (loByte s.pc)).busRead s.pc = .ok (h, t) ∧
      LeadsTo (exec (.jsr target) s) s { s with sp := s.sp - 2, pc := wordOf h (loByte target) }
        [(stackAddr s.sp, hiByte s.pc), (stackAddr (s.sp - 1), loByte s.pc)] ∧
      (∀ b, s.peek s.pc = some b → s.pc ≠ stackAddr s.sp → s.pc ≠ stackAddr (s.sp - 1) → h = b) ∧
      (devicesWf s.devices = true → (s.peek s.pc).isSome → s.pc = stackAddr s.sp → h = hiByte s.pc) ∧
      (devicesWf s.devices = true → (s.peek s.pc).isSome → s.pc = stackAddr (s.sp - 1) → h = loByte s.pc)

/-- RTS: the low byte, then the high byte pulled, plus 1; SP two higher; no flag, no byte (R273). -/
def Obligations.SubroutineReturnResults : Prop :=
  ∀ (s : State), Instr.rts.Completable s →
    ∃ l h t u, s.pull = .ok (l, t) ∧ t.pull = .ok (h, u) ∧
      LeadsTo (exec .rts s) s { s with sp := s.sp + 2, pc := wordOf h l + 1 } [] ∧
      (∀ b, s.peek (stackAddr (s.sp + 1)) = some b → l = b) ∧
      (∀ b, s.peek (stackAddr (s.sp + 2)) = some b → h = b)

/-- RTI: P from the first byte pulled, but B = 0 and R = 1, and PC from the next two, low byte first, with no 1 added
(R38, R275, R417). -/
def Obligations.InterruptReturnResults : Prop :=
  ∀ (s : State), Instr.rti.Completable s →
    ∃ q l h t u v, s.pull = .ok (q, t) ∧ t.pull = .ok (l, u) ∧ u.pull = .ok (h, v) ∧
      LeadsTo (exec .rti s) s
        { s with sp := s.sp + 3, pc := wordOf h l, p := { Status.unpack q with b := false, r := true } } [] ∧
      (∀ b, s.peek (stackAddr (s.sp + 1)) = some b → q = b) ∧
      (∀ b, s.peek (stackAddr (s.sp + 2)) = some b → l = b) ∧
      (∀ b, s.peek (stackAddr (s.sp + 3)) = some b → h = b)

/-- BRK, from PC = pc0 + 1: the frame of pc0 + 2 and P with B = 1, then B = 0, I = 1, and PC from the two bus reads of
0xFFFE and 0xFFFF after the pushes, whoever answers them (R272, R276, R415, R418). -/
def Obligations.BreakResults : Prop :=
  ∀ (s : State), Instr.brk.Completable s →
    ∃ l h t u, (((s.push (hiByte (s.pc + 1))).push (loByte (s.pc + 1))).push { s.p with b := true }.pack).busRead
        0xFFFE = .ok (l, t) ∧ t.busRead 0xFFFF = .ok (h, u) ∧
      LeadsTo (exec .brk s) s { s with sp := s.sp - 3, pc := wordOf h l, p := { s.p with b := false, i := true } }
        [(stackAddr s.sp, hiByte (s.pc + 1)), (stackAddr (s.sp - 1), loByte (s.pc + 1)),
          (stackAddr (s.sp - 2), { s.p with b := true }.pack)] ∧
      (∀ b, s.peek 0xFFFE = some b → l = b) ∧ (∀ b, s.peek 0xFFFF = some b → h = b)

/-! ### Stack, flags, no operation -/

/-- PHA and PHP: one byte at 0x0100 + SP, SP one lower modulo 256; PHP pushes P with B and R set and changes no flag
(R34, R290, R291). -/
def Obligations.PushResults : Prop :=
  ∀ (s : State),
    (stackAddr s.sp).toNat = 0x0100 + s.sp.toNat ∧
    (Instr.pha.Completable s → LeadsTo (exec .pha s) s { s with sp := s.sp - 1 } [(stackAddr s.sp, s.a)]) ∧
    (Instr.php.Completable s →
      LeadsTo (exec .php s) s { s with sp := s.sp - 1 } [(stackAddr s.sp, { s.p with b := true, r := true }.pack)])

/-- PLA and PLP: SP one higher modulo 256, then the byte at 0x0100 + SP; PLA loads A and sets N and Z; PLP loads all of
P but B = 0 and R = 1 (R292, R293). -/
def Obligations.PullResults : Prop :=
  ∀ (s : State),
    (Instr.pla.Completable s → ∃ v t, s.pull = .ok (v, t) ∧
      LeadsTo (exec .pla s) s { s with sp := s.sp + 1, a := v, p := s.p.withNZ v } [] ∧
      (∀ b, s.peek (stackAddr (s.sp + 1)) = some b → v = b)) ∧
    (Instr.plp.Completable s → ∃ v t, s.pull = .ok (v, t) ∧
      LeadsTo (exec .plp s) s
        { s with sp := s.sp + 1, p := { Status.unpack v with b := false, r := true } } [] ∧
      (∀ b, s.peek (stackAddr (s.sp + 1)) = some b → v = b))

/-- The seven flag instructions write their one flag and nothing else (R289, R294 to R300). -/
def Obligations.FlagInstructionResults : Prop :=
  ∀ (s : State),
    (Instr.clc.Completable s → LeadsTo (exec .clc s) s { s with p := { s.p with c := false } } []) ∧
    (Instr.sec.Completable s → LeadsTo (exec .sec s) s { s with p := { s.p with c := true } } []) ∧
    (Instr.cli.Completable s → LeadsTo (exec .cli s) s { s with p := { s.p with i := false } } []) ∧
    (Instr.sei.Completable s → LeadsTo (exec .sei s) s { s with p := { s.p with i := true } } []) ∧
    (Instr.cld.Completable s → LeadsTo (exec .cld s) s { s with p := { s.p with d := false } } []) ∧
    (Instr.sed.Completable s → LeadsTo (exec .sed s) s { s with p := { s.p with d := true } } []) ∧
    (Instr.clv.Completable s → LeadsTo (exec .clv s) s { s with p := { s.p with v := false } } [])

/-- NOP in every form changes nothing, but its mode's read of M is made (R301). -/
def Obligations.NopResults : Prop :=
  ∀ (s : State) (opcode : Byte) (o : NopOperand),
    ((Instr.nop opcode o).Completable s → LeadsTo (exec (.nop opcode o) s) s s []) ∧
    (∀ m u, o = .mem m → exec (.nop opcode o) s = .next u → ∃ r v t, accessMem m s = .ok (r, v, t) ∧
      u.db = v ∧ u.BusAs t)

/-! ### Undocumented opcodes -/

/-- The composites SLO, RLA, SRE, RRA, DCP and ISC: the read-modify-write of M at one effective address, then the
register operation with the value written (R310 to R314, R317, R318). -/
def Obligations.CompositeResults : Prop :=
  ∀ (s : State) (m : MemMode),
    ((Instr.slo m).Completable s → ∃ r v t, accessMem m s = .ok (r, v, t) ∧
      LeadsTo (exec (.slo m) s) s
        { s with a := s.a ||| v <<< 1, p := { s.p.withNZ (s.a ||| v <<< 1) with c := v.getLsbD 7 } }
        [(r.ea, v <<< 1)]) ∧
    ((Instr.rla m).Completable s → ∃ r v t, accessMem m s = .ok (r, v, t) ∧
      ∀ w, w = (v <<< 1) ||| (if s.p.c then 0x01#8 else 0x00#8) →
        LeadsTo (exec (.rla m) s) s
          { s with a := s.a &&& w, p := { s.p.withNZ (s.a &&& w) with c := v.getLsbD 7 } } [(r.ea, w)]) ∧
    ((Instr.sre m).Completable s → ∃ r v t, accessMem m s = .ok (r, v, t) ∧
      LeadsTo (exec (.sre m) s) s
        { s with a := s.a ^^^ v >>> 1, p := { s.p.withNZ (s.a ^^^ v >>> 1) with c := v.getLsbD 0 } }
        [(r.ea, v >>> 1)]) ∧
    ((Instr.rra m).Completable s → ∃ r v t, accessMem m s = .ok (r, v, t) ∧
      ∀ w sum, w = (if s.p.c then 0x80#8 else 0x00#8) ||| (v >>> 1) → sum = add s.a w (v.getLsbD 0) →
        LeadsTo (exec (.rra m) s) s
          { s with a := sum.r, p := { s.p.withNZ sum.r with c := sum.c, v := sum.v } } [(r.ea, w)]) ∧
    ((Instr.dcp m).Completable s → ∃ r v t, accessMem m s = .ok (r, v, t) ∧
      LeadsTo (exec (.dcp m) s) s
        { s with p := { s.p.withNZ (s.a - (v - 1)) with c := decide ((v - 1).toNat ≤ s.a.toNat) } }
        [(r.ea, v - 1)]) ∧
    ((Instr.isc m).Completable s → ∃ r v t, accessMem m s = .ok (r, v, t) ∧
      ∀ diff, diff = subtract s.a (v + 1) s.p.c →
        LeadsTo (exec (.isc m) s) s
          { s with a := diff.r, p := { s.p.withNZ diff.r with c := diff.c, v := diff.v } } [(r.ea, v + 1)])

/-- ANC, ALR and ARR (R319, R320, R321). -/
def Obligations.ImmediateCompositeResults : Prop :=
  ∀ (s : State) (opcode v t : Byte), t = s.a &&& v →
    ((Instr.anc opcode v).Completable s → LeadsTo (exec (.anc opcode v) s) s
      { s with a := t, p := { s.p.withNZ t with c := t.getLsbD 7 } } []) ∧
    ((Instr.alr v).Completable s → LeadsTo (exec (.alr v) s) s
      { s with a := t >>> 1, p := { s.p.withNZ (t >>> 1) with c := t.getLsbD 0 } } []) ∧
    ((Instr.arr v).Completable s → ∀ r, r = (if s.p.c then 0x80#8 else 0x00#8) ||| (t >>> 1) →
      LeadsTo (exec (.arr v) s) s
        { s with a := r, p := { s.p.withNZ r with c := r.getLsbD 6, v := r.getLsbD 6 ^^ r.getLsbD 5 } } [])

/-- SBX by its parameter: `Unsupported` with nothing written, or X from A & X minus M with C, N and Z, whatever D is
(R127, R328). The carried state of the fault, and AMIP, OPIP and the counters in it, are the model's (logs 8, 20). -/
def Obligations.SbxByMode : Prop :=
  ∀ (s : State) (v : Byte),
    (s.params.sbxMode = .unsupported →
      exec (.sbx v) s = .fault (.unsupported s.opc s.pc0 { s with fault := .unsupported s.opc s.pc0 })) ∧
    ((Instr.sbx v).Completable s → s.params.sbxMode = .silicon ∧
      ∀ t, t = s.a &&& s.x → LeadsTo (exec (.sbx v) s) s
        { s with x := t - v, p := { s.p.withNZ (t - v) with c := decide (v.toNat ≤ t.toNat) } } [])

/-- The unstable opcodes raise `Unsupported(opc, pc0)` after their mode's accesses, LAS after its read of M; no
register, flag or byte of memory changes (R330, R323 to R327, R329, R331). The carried state, and AMIP, OPIP and the
counters in it, are the model's (logs 8, 20); so is it that a never-written index register, which the mode reads,
faults first (R330 against R408: log 11). -/
def Obligations.UnstableOpcodesFault : Prop :=
  ∀ (s : State), Cell.db ∉ s.unwritten →
    (∀ v,
      exec (.ane v) s = .fault (.unsupported s.opc s.pc0 { s with fault := .unsupported s.opc s.pc0 }) ∧
      exec (.lxa v) s = .fault (.unsupported s.opc s.pc0 { s with fault := .unsupported s.opc s.pc0 })) ∧
    (∀ m, (∀ cell ∈ m.reads, cell ∉ s.unwritten) → ∃ r t, resolve m s = .ok (r, t) ∧ t = s.withBookkeepingOf t ∧
      ∀ i ∈ [Instr.sha m, .tas m, .shy m, .shx m],
        exec i s = .fault (.unsupported s.opc s.pc0 { t with fault := .unsupported s.opc s.pc0 })) ∧
    (∀ m, (∀ cell ∈ m.reads, cell ∉ s.unwritten) → ∃ r v t, accessMem m s = .ok (r, v, t) ∧
      t = s.withBookkeepingOf t ∧
      exec (.las m) s = .fault (.unsupported s.opc s.pc0 { t with fault := .unsupported s.opc s.pc0 })) ∧
    (∀ m, ∀ cell ∈ m.reads, cell ∈ s.unwritten → ∀ i ∈ [Instr.sha m, .tas m, .shy m, .shx m, .las m],
      ∃ left, exec i s = .fault (.unwrittenRead cell left))

/-- JAM halts: `jammed` and OPIP set, AMIP clear, nothing else; every later clock leaves that state but for the forced
R and I; only `RES()` ends it (R332, R405, R515). -/
def Obligations.JamHalts : Prop :=
  ∀ (s : State) (opcode : Byte),
    exec (.jam opcode) s = .next { s with jammed := true, opip := true, amip := false } ∧
    (s.jammed = true → Cell.pc ∉ s.unwritten → s.fault = .none →
      ∀ n, clocks (n + 1) s = .next { s with p := { s.p with r := true, i := true } }) ∧
    (∀ vector t, s.res (some vector) = .ok t → t.jammed = false ∧ t.opip = false)

/-! ### Interrupts and reset -/

/-- A pending NMI at a boundary: seven clocks, the frame of PC and of P with B = 0 and R = 1, I set, PC from the two bus
reads of 0xFFFA and 0xFFFB after the pushes, whoever answers them, the edge latch cleared, `opc` and `pc0` unchanged
(R412, R413, R415, R416). -/
def Obligations.NmiEntry : Prop :=
  ∀ (s : State), Cell.pc ∉ s.unwritten → s.fault = .none → s.jammed = false → s.idle = true →
    s.params.irqNmiPresent = true → s.nmiPending = true → (∀ cell ∈ statusCells, cell ∉ s.unwritten) →
    ∃ l h t v, (((s.push (hiByte s.pc)).push (loByte s.pc)).push
        { s.p with b := false, r := true, i := true }.pack).busRead 0xFFFA = .ok (l, t) ∧
      t.busRead 0xFFFB = .ok (h, v) ∧
      LeadsTo (step s) s
        { s with sp := s.sp - 3, pc := wordOf h l, p := { s.p with r := true, i := true }, nmiPending := false,
                 nmiAgain := false }
        [(stackAddr s.sp, hiByte s.pc), (stackAddr (s.sp - 1), loByte s.pc),
          (stackAddr (s.sp - 2), { s.p with b := false, r := true, i := true }.pack)] ∧
      (∀ b, s.peek 0xFFFA = some b → l = b) ∧ (∀ b, s.peek 0xFFFB = some b → h = b) ∧
      (∀ u, step s = .next u → u.prevAmCycles + u.prevOpCycles = 7 ∧ u.ab = u.pc ∧ u.BusAs v)

/-- IRQ is inert: whatever its line, a boundary takes an interrupt exactly when NMI is pending and the inputs exist, and
otherwise the clock fetches; `SetIRQ` changes the line only (R410, R411, R414, R511). -/
def Obligations.IrqNeverTaken : Prop :=
  ∀ (s : State),
    s.force.interruptTaken = (if s.params.irqNmiPresent && s.nmiPending then some .nmi else none) ∧
    (∀ level, s.params.irqNmiPresent = true → s.setIrq level = .next { s with irqLine := level }) ∧
    (Cell.pc ∉ s.unwritten → s.fault = .none → s.jammed = false → s.idle = true →
      (s.params.irqNmiPresent && s.nmiPending) = false → clock s = finish s.force.firstClock)

/-- `SetNMI`: only a rise of the line latches an edge, and no fall clears one; the level is held; nothing else changes,
and without the inputs the action does not exist (R413, R430). No edge is lost: one that comes between two of the
seven clocks of an NMI entry is pending at the boundary after it, where the next NMI is taken (R414, R514; how the model
keeps it apart from the edge being served: log 14). -/
def Obligations.NmiEdgeLatched : Prop :=
  ∀ (s : State) (level : Bool),
    (s.params.irqNmiPresent = true → ∃ t, s.setNmi level = .next t ∧
      t = { s with nmiLine := level, nmiPending := t.nmiPending, nmiAgain := t.nmiAgain } ∧
      (t.nmiPending = true ↔ s.nmiPending = true ∨ (level = true ∧ s.nmiLine = false)) ∧
      (t.nmiAgain = true ↔
        s.nmiAgain = true ∨ (level = true ∧ s.nmiLine = false ∧ s.entering = some .nmi))) ∧
    (s.params.irqNmiPresent = false → s.setNmi level = .refused .noInterruptInputs ∧
      s.setIrq level = .refused .noInterruptInputs) ∧
    (s.BoundaryInv → s.jammed = false → s.params.irqNmiPresent = true → s.nmiPending = true →
      (∀ cell ∈ statusCells, cell ∉ s.unwritten) → ∀ k, 0 < k → k < 7 →
      ∃ v w x u, clocks k s = .next v ∧ v.setNmi false = .next w ∧ w.setNmi true = .next x ∧
        clocks (7 - k) x = .next u ∧ u.idle = true ∧ u.nmiPending = true ∧ u.force.interruptTaken = some .nmi)

/-- `RES()`: SP, R, I, the in-flight flags, the counters, `jammed` and the edge latch take their values; PC and AB the
explicit vector, without any call on a device, so that DB, its mark and RW stay; or the word at 0xFFFC and 0xFFFD by two
bus reads, whoever answers them; every other cell keeps its value, `fault` and the lines included. Where nobody owns
0xFFFC and DB was never written, the vector read faults, with the assignments before it made and PC unchanged, and the
core has no step (R59, R83, R404, R500, R501; that the fault carries the state left is the model's form: log 8; so is
the latch's second cell `nmiAgain`, cleared with it: log 14). -/
def Obligations.ResetValues : Prop :=
  ∀ (s : State),
    (∀ vector, ∃ t, s.res (some vector) = .ok t ∧ t.pc = vector ∧ t.BusAs s ∧
      (Cell.db ∈ t.unwritten ↔ Cell.db ∈ s.unwritten)) ∧
    (Cell.db ∉ s.unwritten → ∃ l h t u, s.busRead 0xFFFC = .ok (l, t) ∧ t.busRead 0xFFFD = .ok (h, u)) ∧
    (∀ l h t u, s.busRead 0xFFFC = .ok (l, t) → t.busRead 0xFFFD = .ok (h, u) →
      ∃ r, s.res none = .ok r ∧ r.pc = wordOf h l ∧ r.BusAs u ∧
        (Cell.db ∈ r.unwritten ↔ Cell.db ∈ u.unwritten)) ∧
    (Cell.db ∈ s.unwritten → (∀ d ∈ s.devices, ¬ (d.min ≤ 0xFFFC ∧ 0xFFFC < d.max)) →
      ∃ left, s.res none = .error (.unwrittenRead .db left) ∧
        left = { s with sp := 0xFD, p := { s.p with r := true, i := true }, jammed := false, nmiPending := false,
                        nmiAgain := false, fault := .unwrittenRead .db }.withBookkeepingOf left ∧
        left.BusAs (s.driveRead 0xFFFC) ∧ (∀ cell, cell ∈ left.unwritten ↔ cell ∈ s.unwritten ∧ cell ≠ .sp) ∧
        left.amip = false ∧ left.opip = false ∧ left.amCycle = 0 ∧ left.opCycle = 0 ∧ left.prevAmCycles = 0 ∧
        left.prevOpCycles = 0 ∧ (∃ r, step left = .refused r) ∧ ∃ r, clock left = .refused r) ∧
    (∀ l h, s.peek 0xFFFC = some l → s.peek 0xFFFD = some h →
      ∃ t, s.res none = .ok t ∧ t.pc = wordOf h l ∧ t.db = h ∧ t.rw = true) ∧
    (∀ vector t, s.res vector = .ok t →
      t = { s with sp := 0xFD, pc := t.pc, p := { s.p with r := true, i := true }, jammed := false,
                   nmiPending := false, nmiAgain := false }.withBookkeepingOf t ∧
      t.ab = t.pc ∧ t.amip = false ∧ t.opip = false ∧ t.amCycle = 0 ∧ t.opCycle = 0 ∧ t.prevAmCycles = 0 ∧
      t.prevOpCycles = 0 ∧
      ∀ cell, cell ≠ .db → (cell ∈ t.unwritten ↔ cell ∈ s.unwritten ∧ cell ≠ .sp ∧ cell ≠ .pc))

/-! ### Unwritten cells -/

/-- An instruction that reads a cell never written faults with the first such cell in the order it reads them, unless it
always raises `Unsupported` without reading it (SBX unsupported), or D = 1 raises `Unsupported` before it (A and C of
the decimal instructions); and it raises `UnwrittenRead` for no other cell. The state left: every access before the read
is made and none after it; no register or flag result is written. So SP and memory are as before, but that BRK, and an
NMI entry, have pushed the return address, and a composite whose write comes first (SLO, RLA, SRE, RRA, DCP and ISC at A,
ISC at C) has written its byte (R403, R408). That BRK leaves PC = pc0 + 1 is the model's reading (log 13), that the
unstable opcodes read their index register the model's choice (log 11), the carried state the model's form (log 8), and
so is `nmiAgain` (log 14). -/
def Obligations.UnwrittenReadFaults : Prop :=
  (∀ (i : Instr) (s : State), Cell.db ∉ s.unwritten →
    (∀ cell, i.reads.find? (fun read => s.unwritten.contains read) = some cell →
      (i.executes s.params = true ∨ i.mnemonic.unstable = true) →
      (i.mnemonic.decimalUnsupported = true → cell = .a ∨ cell = .c → s.p.d = false) →
      ∃ left, exec i s = .fault (.unwrittenRead cell left)) ∧
    (∀ cell left, exec i s = .fault (.unwrittenRead cell left) →
      i.reads.find? (fun read => s.unwritten.contains read) = some cell ∧
      (i = .brk →
        Leaves left s { s with sp := s.sp - 2, fault := .unwrittenRead cell }
          [(stackAddr s.sp, hiByte (s.pc + 1)), (stackAddr (s.sp - 1), loByte (s.pc + 1))] ∧
        left.BusAs ((s.push (hiByte (s.pc + 1))).push (loByte (s.pc + 1)))) ∧
      (∀ m result, i.storedBefore cell s.p.c = some (m, result) → ∃ r v t, accessMem m s = .ok (r, v, t) ∧
        Leaves left s { s with fault := .unwrittenRead cell } [(r.ea, result v)] ∧
        left.BusAs (t.busWrite r.ea (result v))) ∧
      (i ≠ .brk → i.storedBefore cell s.p.c = none →
        Leaves left s { s with fault := .unwrittenRead cell } [] ∧
        (∀ t, i.afterOperand s = .ok t → left.BusAs t) ∧
        (∀ fault, i.afterOperand s = .error fault → fault = .unwrittenRead cell left)))) ∧
  (∀ (s : State) (cell : Cell), Cell.pc ∉ s.unwritten → s.fault = .none → s.jammed = false → s.idle = true →
    s.params.irqNmiPresent = true → s.nmiPending = true →
    statusCells.find? (fun read => s.unwritten.contains read) = some cell →
    ∃ left, step s = .fault (.unwrittenRead cell left) ∧
      Leaves left s
        { s with sp := s.sp - 2, p := { s.p with r := true, i := true }, nmiAgain := false,
                 fault := .unwrittenRead cell }
        [(stackAddr s.sp, hiByte s.pc), (stackAddr (s.sp - 1), loByte s.pc)] ∧
      left.BusAs ((s.push (hiByte s.pc)).push (loByte s.pc)))

/-- A completed instruction marks as written exactly the register and flag cells it writes (R31 to R34, R39 to R46,
R58). -/
def Obligations.CompletionMarksWrittenCells : Prop :=
  ∀ (i : Instr) (s u : State), Cell.db ∉ s.unwritten → Cell.pc ∉ s.unwritten → exec i s = .next u →
    ∀ cell, cell ∈ u.unwritten ↔ cell ∈ s.unwritten ∧ cell ∉ i.writes

/-- Construction: the devices are registered one after the other, and the core is refused if one is rejected; every
cell of the power-on list is unwritten, there is no fault, no call was made on a device, and the core has no step before
its first `RES()`. Registrations at distinct priorities are all accepted, and two different devices at one priority are
not (R58, R74, R75, R83, R430, R503; what makes two devices the same: log 18). -/
def Obligations.PowerOnState : Prop :=
  ∀ (params : Config.Params) (registrations : List (Capability × Device)),
    (∀ ds, registerAll [] registrations = .next ds → ∃ s, powerOn params registrations = .next s ∧
      s.devices = ds ∧ s.params = params ∧ s.busLog = [] ∧ (∀ cell, cell ∈ s.unwritten) ∧ s.fault = .none ∧
      s.jammed = false ∧ step s = .refused .clockBeforeReset ∧ clock s = .refused .clockBeforeReset) ∧
    (registrations.Pairwise (fun x y => x.2.priority ≠ y.2.priority) → (∀ x ∈ registrations, x.2.wf = true) →
      ∃ ds, registerAll [] registrations = .next ds ∧ devicesWf ds = true ∧
        ∀ d, d ∈ ds ↔ ∃ x ∈ registrations, d = { x.2 with tracked := x.2.trackedAs x.1 }) ∧
    (∀ x ∈ registrations, ∀ y ∈ registrations, x.2.priority = y.2.priority →
      { x.2 with tracked := y.2.tracked } ≠ y.2 → powerOn params registrations = .refused .priorityTaken)

end
end

