-- ==== Sys2Proof/Laws/State.lean ====
section
/-! SUPPORT. One lemma per field per update of State, each true by rfl, so that no proof unfolds a record update. -/

namespace Sys2Proof.Machine

section
variable (s : State)

@[simp] theorem State.wrote_a (cs : List Cell) : (s.wrote cs).a = s.a := rfl
@[simp] theorem State.wrote_x (cs : List Cell) : (s.wrote cs).x = s.x := rfl
@[simp] theorem State.wrote_y (cs : List Cell) : (s.wrote cs).y = s.y := rfl
@[simp] theorem State.wrote_sp (cs : List Cell) : (s.wrote cs).sp = s.sp := rfl
@[simp] theorem State.wrote_pc (cs : List Cell) : (s.wrote cs).pc = s.pc := rfl
@[simp] theorem State.wrote_p (cs : List Cell) : (s.wrote cs).p = s.p := rfl
@[simp] theorem State.wrote_unwritten (cs : List Cell) : (s.wrote cs).unwritten = s.unwritten.filter (fun cell => !cs.contains cell) := rfl
@[simp] theorem State.wrote_ab (cs : List Cell) : (s.wrote cs).ab = s.ab := rfl
@[simp] theorem State.wrote_db (cs : List Cell) : (s.wrote cs).db = s.db := rfl
@[simp] theorem State.wrote_rw (cs : List Cell) : (s.wrote cs).rw = s.rw := rfl
@[simp] theorem State.wrote_amip (cs : List Cell) : (s.wrote cs).amip = s.amip := rfl
@[simp] theorem State.wrote_opip (cs : List Cell) : (s.wrote cs).opip = s.opip := rfl
@[simp] theorem State.wrote_opc (cs : List Cell) : (s.wrote cs).opc = s.opc := rfl
@[simp] theorem State.wrote_pc0 (cs : List Cell) : (s.wrote cs).pc0 = s.pc0 := rfl
@[simp] theorem State.wrote_amCycle (cs : List Cell) : (s.wrote cs).amCycle = s.amCycle := rfl
@[simp] theorem State.wrote_opCycle (cs : List Cell) : (s.wrote cs).opCycle = s.opCycle := rfl
@[simp] theorem State.wrote_prevAmCycles (cs : List Cell) : (s.wrote cs).prevAmCycles = s.prevAmCycles := rfl
@[simp] theorem State.wrote_prevOpCycles (cs : List Cell) : (s.wrote cs).prevOpCycles = s.prevOpCycles := rfl
@[simp] theorem State.wrote_scratchLo (cs : List Cell) : (s.wrote cs).scratchLo = s.scratchLo := rfl
@[simp] theorem State.wrote_scratchHi (cs : List Cell) : (s.wrote cs).scratchHi = s.scratchHi := rfl
@[simp] theorem State.wrote_tempAddr (cs : List Cell) : (s.wrote cs).tempAddr = s.tempAddr := rfl
@[simp] theorem State.wrote_relAddr (cs : List Cell) : (s.wrote cs).relAddr = s.relAddr := rfl
@[simp] theorem State.wrote_irqLine (cs : List Cell) : (s.wrote cs).irqLine = s.irqLine := rfl
@[simp] theorem State.wrote_nmiLine (cs : List Cell) : (s.wrote cs).nmiLine = s.nmiLine := rfl
@[simp] theorem State.wrote_nmiPending (cs : List Cell) : (s.wrote cs).nmiPending = s.nmiPending := rfl
@[simp] theorem State.wrote_nmiAgain (cs : List Cell) : (s.wrote cs).nmiAgain = s.nmiAgain := rfl
@[simp] theorem State.wrote_entering (cs : List Cell) : (s.wrote cs).entering = s.entering := rfl
@[simp] theorem State.wrote_fault (cs : List Cell) : (s.wrote cs).fault = s.fault := rfl
@[simp] theorem State.wrote_jammed (cs : List Cell) : (s.wrote cs).jammed = s.jammed := rfl
@[simp] theorem State.wrote_params (cs : List Cell) : (s.wrote cs).params = s.params := rfl
@[simp] theorem State.wrote_devices (cs : List Cell) : (s.wrote cs).devices = s.devices := rfl
@[simp] theorem State.wrote_busLog (cs : List Cell) : (s.wrote cs).busLog = s.busLog := rfl
@[simp] theorem State.wrote_internalDraws (cs : List Cell) : (s.wrote cs).internalDraws = s.internalDraws := rfl

@[simp] theorem State.setA_a (v : Byte) : (s.setA v).a = v := rfl
@[simp] theorem State.setA_x (v : Byte) : (s.setA v).x = s.x := rfl
@[simp] theorem State.setA_y (v : Byte) : (s.setA v).y = s.y := rfl
@[simp] theorem State.setA_sp (v : Byte) : (s.setA v).sp = s.sp := rfl
@[simp] theorem State.setA_pc (v : Byte) : (s.setA v).pc = s.pc := rfl
@[simp] theorem State.setA_p (v : Byte) : (s.setA v).p = s.p := rfl
@[simp] theorem State.setA_unwritten (v : Byte) : (s.setA v).unwritten = s.unwritten.filter (fun cell => !([.a] : List Cell).contains cell) := rfl
@[simp] theorem State.setA_ab (v : Byte) : (s.setA v).ab = s.ab := rfl
@[simp] theorem State.setA_db (v : Byte) : (s.setA v).db = s.db := rfl
@[simp] theorem State.setA_rw (v : Byte) : (s.setA v).rw = s.rw := rfl
@[simp] theorem State.setA_amip (v : Byte) : (s.setA v).amip = s.amip := rfl
@[simp] theorem State.setA_opip (v : Byte) : (s.setA v).opip = s.opip := rfl
@[simp] theorem State.setA_opc (v : Byte) : (s.setA v).opc = s.opc := rfl
@[simp] theorem State.setA_pc0 (v : Byte) : (s.setA v).pc0 = s.pc0 := rfl
@[simp] theorem State.setA_amCycle (v : Byte) : (s.setA v).amCycle = s.amCycle := rfl
@[simp] theorem State.setA_opCycle (v : Byte) : (s.setA v).opCycle = s.opCycle := rfl
@[simp] theorem State.setA_prevAmCycles (v : Byte) : (s.setA v).prevAmCycles = s.prevAmCycles := rfl
@[simp] theorem State.setA_prevOpCycles (v : Byte) : (s.setA v).prevOpCycles = s.prevOpCycles := rfl
@[simp] theorem State.setA_scratchLo (v : Byte) : (s.setA v).scratchLo = s.scratchLo := rfl
@[simp] theorem State.setA_scratchHi (v : Byte) : (s.setA v).scratchHi = s.scratchHi := rfl
@[simp] theorem State.setA_tempAddr (v : Byte) : (s.setA v).tempAddr = s.tempAddr := rfl
@[simp] theorem State.setA_relAddr (v : Byte) : (s.setA v).relAddr = s.relAddr := rfl
@[simp] theorem State.setA_irqLine (v : Byte) : (s.setA v).irqLine = s.irqLine := rfl
@[simp] theorem State.setA_nmiLine (v : Byte) : (s.setA v).nmiLine = s.nmiLine := rfl
@[simp] theorem State.setA_nmiPending (v : Byte) : (s.setA v).nmiPending = s.nmiPending := rfl
@[simp] theorem State.setA_nmiAgain (v : Byte) : (s.setA v).nmiAgain = s.nmiAgain := rfl
@[simp] theorem State.setA_entering (v : Byte) : (s.setA v).entering = s.entering := rfl
@[simp] theorem State.setA_fault (v : Byte) : (s.setA v).fault = s.fault := rfl
@[simp] theorem State.setA_jammed (v : Byte) : (s.setA v).jammed = s.jammed := rfl
@[simp] theorem State.setA_params (v : Byte) : (s.setA v).params = s.params := rfl
@[simp] theorem State.setA_devices (v : Byte) : (s.setA v).devices = s.devices := rfl
@[simp] theorem State.setA_busLog (v : Byte) : (s.setA v).busLog = s.busLog := rfl
@[simp] theorem State.setA_internalDraws (v : Byte) : (s.setA v).internalDraws = s.internalDraws := rfl

@[simp] theorem State.setX_a (v : Byte) : (s.setX v).a = s.a := rfl
@[simp] theorem State.setX_x (v : Byte) : (s.setX v).x = v := rfl
@[simp] theorem State.setX_y (v : Byte) : (s.setX v).y = s.y := rfl
@[simp] theorem State.setX_sp (v : Byte) : (s.setX v).sp = s.sp := rfl
@[simp] theorem State.setX_pc (v : Byte) : (s.setX v).pc = s.pc := rfl
@[simp] theorem State.setX_p (v : Byte) : (s.setX v).p = s.p := rfl
@[simp] theorem State.setX_unwritten (v : Byte) : (s.setX v).unwritten = s.unwritten.filter (fun cell => !([.x] : List Cell).contains cell) := rfl
@[simp] theorem State.setX_ab (v : Byte) : (s.setX v).ab = s.ab := rfl
@[simp] theorem State.setX_db (v : Byte) : (s.setX v).db = s.db := rfl
@[simp] theorem State.setX_rw (v : Byte) : (s.setX v).rw = s.rw := rfl
@[simp] theorem State.setX_amip (v : Byte) : (s.setX v).amip = s.amip := rfl
@[simp] theorem State.setX_opip (v : Byte) : (s.setX v).opip = s.opip := rfl
@[simp] theorem State.setX_opc (v : Byte) : (s.setX v).opc = s.opc := rfl
@[simp] theorem State.setX_pc0 (v : Byte) : (s.setX v).pc0 = s.pc0 := rfl
@[simp] theorem State.setX_amCycle (v : Byte) : (s.setX v).amCycle = s.amCycle := rfl
@[simp] theorem State.setX_opCycle (v : Byte) : (s.setX v).opCycle = s.opCycle := rfl
@[simp] theorem State.setX_prevAmCycles (v : Byte) : (s.setX v).prevAmCycles = s.prevAmCycles := rfl
@[simp] theorem State.setX_prevOpCycles (v : Byte) : (s.setX v).prevOpCycles = s.prevOpCycles := rfl
@[simp] theorem State.setX_scratchLo (v : Byte) : (s.setX v).scratchLo = s.scratchLo := rfl
@[simp] theorem State.setX_scratchHi (v : Byte) : (s.setX v).scratchHi = s.scratchHi := rfl
@[simp] theorem State.setX_tempAddr (v : Byte) : (s.setX v).tempAddr = s.tempAddr := rfl
@[simp] theorem State.setX_relAddr (v : Byte) : (s.setX v).relAddr = s.relAddr := rfl
@[simp] theorem State.setX_irqLine (v : Byte) : (s.setX v).irqLine = s.irqLine := rfl
@[simp] theorem State.setX_nmiLine (v : Byte) : (s.setX v).nmiLine = s.nmiLine := rfl
@[simp] theorem State.setX_nmiPending (v : Byte) : (s.setX v).nmiPending = s.nmiPending := rfl
@[simp] theorem State.setX_nmiAgain (v : Byte) : (s.setX v).nmiAgain = s.nmiAgain := rfl
@[simp] theorem State.setX_entering (v : Byte) : (s.setX v).entering = s.entering := rfl
@[simp] theorem State.setX_fault (v : Byte) : (s.setX v).fault = s.fault := rfl
@[simp] theorem State.setX_jammed (v : Byte) : (s.setX v).jammed = s.jammed := rfl
@[simp] theorem State.setX_params (v : Byte) : (s.setX v).params = s.params := rfl
@[simp] theorem State.setX_devices (v : Byte) : (s.setX v).devices = s.devices := rfl
@[simp] theorem State.setX_busLog (v : Byte) : (s.setX v).busLog = s.busLog := rfl
@[simp] theorem State.setX_internalDraws (v : Byte) : (s.setX v).internalDraws = s.internalDraws := rfl

@[simp] theorem State.setY_a (v : Byte) : (s.setY v).a = s.a := rfl
@[simp] theorem State.setY_x (v : Byte) : (s.setY v).x = s.x := rfl
@[simp] theorem State.setY_y (v : Byte) : (s.setY v).y = v := rfl
@[simp] theorem State.setY_sp (v : Byte) : (s.setY v).sp = s.sp := rfl
@[simp] theorem State.setY_pc (v : Byte) : (s.setY v).pc = s.pc := rfl
@[simp] theorem State.setY_p (v : Byte) : (s.setY v).p = s.p := rfl
@[simp] theorem State.setY_unwritten (v : Byte) : (s.setY v).unwritten = s.unwritten.filter (fun cell => !([.y] : List Cell).contains cell) := rfl
@[simp] theorem State.setY_ab (v : Byte) : (s.setY v).ab = s.ab := rfl
@[simp] theorem State.setY_db (v : Byte) : (s.setY v).db = s.db := rfl
@[simp] theorem State.setY_rw (v : Byte) : (s.setY v).rw = s.rw := rfl
@[simp] theorem State.setY_amip (v : Byte) : (s.setY v).amip = s.amip := rfl
@[simp] theorem State.setY_opip (v : Byte) : (s.setY v).opip = s.opip := rfl
@[simp] theorem State.setY_opc (v : Byte) : (s.setY v).opc = s.opc := rfl
@[simp] theorem State.setY_pc0 (v : Byte) : (s.setY v).pc0 = s.pc0 := rfl
@[simp] theorem State.setY_amCycle (v : Byte) : (s.setY v).amCycle = s.amCycle := rfl
@[simp] theorem State.setY_opCycle (v : Byte) : (s.setY v).opCycle = s.opCycle := rfl
@[simp] theorem State.setY_prevAmCycles (v : Byte) : (s.setY v).prevAmCycles = s.prevAmCycles := rfl
@[simp] theorem State.setY_prevOpCycles (v : Byte) : (s.setY v).prevOpCycles = s.prevOpCycles := rfl
@[simp] theorem State.setY_scratchLo (v : Byte) : (s.setY v).scratchLo = s.scratchLo := rfl
@[simp] theorem State.setY_scratchHi (v : Byte) : (s.setY v).scratchHi = s.scratchHi := rfl
@[simp] theorem State.setY_tempAddr (v : Byte) : (s.setY v).tempAddr = s.tempAddr := rfl
@[simp] theorem State.setY_relAddr (v : Byte) : (s.setY v).relAddr = s.relAddr := rfl
@[simp] theorem State.setY_irqLine (v : Byte) : (s.setY v).irqLine = s.irqLine := rfl
@[simp] theorem State.setY_nmiLine (v : Byte) : (s.setY v).nmiLine = s.nmiLine := rfl
@[simp] theorem State.setY_nmiPending (v : Byte) : (s.setY v).nmiPending = s.nmiPending := rfl
@[simp] theorem State.setY_nmiAgain (v : Byte) : (s.setY v).nmiAgain = s.nmiAgain := rfl
@[simp] theorem State.setY_entering (v : Byte) : (s.setY v).entering = s.entering := rfl
@[simp] theorem State.setY_fault (v : Byte) : (s.setY v).fault = s.fault := rfl
@[simp] theorem State.setY_jammed (v : Byte) : (s.setY v).jammed = s.jammed := rfl
@[simp] theorem State.setY_params (v : Byte) : (s.setY v).params = s.params := rfl
@[simp] theorem State.setY_devices (v : Byte) : (s.setY v).devices = s.devices := rfl
@[simp] theorem State.setY_busLog (v : Byte) : (s.setY v).busLog = s.busLog := rfl
@[simp] theorem State.setY_internalDraws (v : Byte) : (s.setY v).internalDraws = s.internalDraws := rfl

@[simp] theorem State.setSp_a (v : Byte) : (s.setSp v).a = s.a := rfl
@[simp] theorem State.setSp_x (v : Byte) : (s.setSp v).x = s.x := rfl
@[simp] theorem State.setSp_y (v : Byte) : (s.setSp v).y = s.y := rfl
@[simp] theorem State.setSp_sp (v : Byte) : (s.setSp v).sp = v := rfl
@[simp] theorem State.setSp_pc (v : Byte) : (s.setSp v).pc = s.pc := rfl
@[simp] theorem State.setSp_p (v : Byte) : (s.setSp v).p = s.p := rfl
@[simp] theorem State.setSp_unwritten (v : Byte) : (s.setSp v).unwritten = s.unwritten.filter (fun cell => !([.sp] : List Cell).contains cell) := rfl
@[simp] theorem State.setSp_ab (v : Byte) : (s.setSp v).ab = s.ab := rfl
@[simp] theorem State.setSp_db (v : Byte) : (s.setSp v).db = s.db := rfl
@[simp] theorem State.setSp_rw (v : Byte) : (s.setSp v).rw = s.rw := rfl
@[simp] theorem State.setSp_amip (v : Byte) : (s.setSp v).amip = s.amip := rfl
@[simp] theorem State.setSp_opip (v : Byte) : (s.setSp v).opip = s.opip := rfl
@[simp] theorem State.setSp_opc (v : Byte) : (s.setSp v).opc = s.opc := rfl
@[simp] theorem State.setSp_pc0 (v : Byte) : (s.setSp v).pc0 = s.pc0 := rfl
@[simp] theorem State.setSp_amCycle (v : Byte) : (s.setSp v).amCycle = s.amCycle := rfl
@[simp] theorem State.setSp_opCycle (v : Byte) : (s.setSp v).opCycle = s.opCycle := rfl
@[simp] theorem State.setSp_prevAmCycles (v : Byte) : (s.setSp v).prevAmCycles = s.prevAmCycles := rfl
@[simp] theorem State.setSp_prevOpCycles (v : Byte) : (s.setSp v).prevOpCycles = s.prevOpCycles := rfl
@[simp] theorem State.setSp_scratchLo (v : Byte) : (s.setSp v).scratchLo = s.scratchLo := rfl
@[simp] theorem State.setSp_scratchHi (v : Byte) : (s.setSp v).scratchHi = s.scratchHi := rfl
@[simp] theorem State.setSp_tempAddr (v : Byte) : (s.setSp v).tempAddr = s.tempAddr := rfl
@[simp] theorem State.setSp_relAddr (v : Byte) : (s.setSp v).relAddr = s.relAddr := rfl
@[simp] theorem State.setSp_irqLine (v : Byte) : (s.setSp v).irqLine = s.irqLine := rfl
@[simp] theorem State.setSp_nmiLine (v : Byte) : (s.setSp v).nmiLine = s.nmiLine := rfl
@[simp] theorem State.setSp_nmiPending (v : Byte) : (s.setSp v).nmiPending = s.nmiPending := rfl
@[simp] theorem State.setSp_nmiAgain (v : Byte) : (s.setSp v).nmiAgain = s.nmiAgain := rfl
@[simp] theorem State.setSp_entering (v : Byte) : (s.setSp v).entering = s.entering := rfl
@[simp] theorem State.setSp_fault (v : Byte) : (s.setSp v).fault = s.fault := rfl
@[simp] theorem State.setSp_jammed (v : Byte) : (s.setSp v).jammed = s.jammed := rfl
@[simp] theorem State.setSp_params (v : Byte) : (s.setSp v).params = s.params := rfl
@[simp] theorem State.setSp_devices (v : Byte) : (s.setSp v).devices = s.devices := rfl
@[simp] theorem State.setSp_busLog (v : Byte) : (s.setSp v).busLog = s.busLog := rfl
@[simp] theorem State.setSp_internalDraws (v : Byte) : (s.setSp v).internalDraws = s.internalDraws := rfl

@[simp] theorem State.setPc_a (v : Word) : (s.setPc v).a = s.a := rfl
@[simp] theorem State.setPc_x (v : Word) : (s.setPc v).x = s.x := rfl
@[simp] theorem State.setPc_y (v : Word) : (s.setPc v).y = s.y := rfl
@[simp] theorem State.setPc_sp (v : Word) : (s.setPc v).sp = s.sp := rfl
@[simp] theorem State.setPc_pc (v : Word) : (s.setPc v).pc = v := rfl
@[simp] theorem State.setPc_p (v : Word) : (s.setPc v).p = s.p := rfl
@[simp] theorem State.setPc_unwritten (v : Word) : (s.setPc v).unwritten = s.unwritten.filter (fun cell => !([.pc] : List Cell).contains cell) := rfl
@[simp] theorem State.setPc_ab (v : Word) : (s.setPc v).ab = s.ab := rfl
@[simp] theorem State.setPc_db (v : Word) : (s.setPc v).db = s.db := rfl
@[simp] theorem State.setPc_rw (v : Word) : (s.setPc v).rw = s.rw := rfl
@[simp] theorem State.setPc_amip (v : Word) : (s.setPc v).amip = s.amip := rfl
@[simp] theorem State.setPc_opip (v : Word) : (s.setPc v).opip = s.opip := rfl
@[simp] theorem State.setPc_opc (v : Word) : (s.setPc v).opc = s.opc := rfl
@[simp] theorem State.setPc_pc0 (v : Word) : (s.setPc v).pc0 = s.pc0 := rfl
@[simp] theorem State.setPc_amCycle (v : Word) : (s.setPc v).amCycle = s.amCycle := rfl
@[simp] theorem State.setPc_opCycle (v : Word) : (s.setPc v).opCycle = s.opCycle := rfl
@[simp] theorem State.setPc_prevAmCycles (v : Word) : (s.setPc v).prevAmCycles = s.prevAmCycles := rfl
@[simp] theorem State.setPc_prevOpCycles (v : Word) : (s.setPc v).prevOpCycles = s.prevOpCycles := rfl
@[simp] theorem State.setPc_scratchLo (v : Word) : (s.setPc v).scratchLo = s.scratchLo := rfl
@[simp] theorem State.setPc_scratchHi (v : Word) : (s.setPc v).scratchHi = s.scratchHi := rfl
@[simp] theorem State.setPc_tempAddr (v : Word) : (s.setPc v).tempAddr = s.tempAddr := rfl
@[simp] theorem State.setPc_relAddr (v : Word) : (s.setPc v).relAddr = s.relAddr := rfl
@[simp] theorem State.setPc_irqLine (v : Word) : (s.setPc v).irqLine = s.irqLine := rfl
@[simp] theorem State.setPc_nmiLine (v : Word) : (s.setPc v).nmiLine = s.nmiLine := rfl
@[simp] theorem State.setPc_nmiPending (v : Word) : (s.setPc v).nmiPending = s.nmiPending := rfl
@[simp] theorem State.setPc_nmiAgain (v : Word) : (s.setPc v).nmiAgain = s.nmiAgain := rfl
@[simp] theorem State.setPc_entering (v : Word) : (s.setPc v).entering = s.entering := rfl
@[simp] theorem State.setPc_fault (v : Word) : (s.setPc v).fault = s.fault := rfl
@[simp] theorem State.setPc_jammed (v : Word) : (s.setPc v).jammed = s.jammed := rfl
@[simp] theorem State.setPc_params (v : Word) : (s.setPc v).params = s.params := rfl
@[simp] theorem State.setPc_devices (v : Word) : (s.setPc v).devices = s.devices := rfl
@[simp] theorem State.setPc_busLog (v : Word) : (s.setPc v).busLog = s.busLog := rfl
@[simp] theorem State.setPc_internalDraws (v : Word) : (s.setPc v).internalDraws = s.internalDraws := rfl

@[simp] theorem State.setC_a (f : Bool) : (s.setC f).a = s.a := rfl
@[simp] theorem State.setC_x (f : Bool) : (s.setC f).x = s.x := rfl
@[simp] theorem State.setC_y (f : Bool) : (s.setC f).y = s.y := rfl
@[simp] theorem State.setC_sp (f : Bool) : (s.setC f).sp = s.sp := rfl
@[simp] theorem State.setC_pc (f : Bool) : (s.setC f).pc = s.pc := rfl
@[simp] theorem State.setC_p (f : Bool) : (s.setC f).p = { s.p with c := f } := rfl
@[simp] theorem State.setC_unwritten (f : Bool) : (s.setC f).unwritten = s.unwritten.filter (fun cell => !([.c] : List Cell).contains cell) := rfl
@[simp] theorem State.setC_ab (f : Bool) : (s.setC f).ab = s.ab := rfl
@[simp] theorem State.setC_db (f : Bool) : (s.setC f).db = s.db := rfl
@[simp] theorem State.setC_rw (f : Bool) : (s.setC f).rw = s.rw := rfl
@[simp] theorem State.setC_amip (f : Bool) : (s.setC f).amip = s.amip := rfl
@[simp] theorem State.setC_opip (f : Bool) : (s.setC f).opip = s.opip := rfl
@[simp] theorem State.setC_opc (f : Bool) : (s.setC f).opc = s.opc := rfl
@[simp] theorem State.setC_pc0 (f : Bool) : (s.setC f).pc0 = s.pc0 := rfl
@[simp] theorem State.setC_amCycle (f : Bool) : (s.setC f).amCycle = s.amCycle := rfl
@[simp] theorem State.setC_opCycle (f : Bool) : (s.setC f).opCycle = s.opCycle := rfl
@[simp] theorem State.setC_prevAmCycles (f : Bool) : (s.setC f).prevAmCycles = s.prevAmCycles := rfl
@[simp] theorem State.setC_prevOpCycles (f : Bool) : (s.setC f).prevOpCycles = s.prevOpCycles := rfl
@[simp] theorem State.setC_scratchLo (f : Bool) : (s.setC f).scratchLo = s.scratchLo := rfl
@[simp] theorem State.setC_scratchHi (f : Bool) : (s.setC f).scratchHi = s.scratchHi := rfl
@[simp] theorem State.setC_tempAddr (f : Bool) : (s.setC f).tempAddr = s.tempAddr := rfl
@[simp] theorem State.setC_relAddr (f : Bool) : (s.setC f).relAddr = s.relAddr := rfl
@[simp] theorem State.setC_irqLine (f : Bool) : (s.setC f).irqLine = s.irqLine := rfl
@[simp] theorem State.setC_nmiLine (f : Bool) : (s.setC f).nmiLine = s.nmiLine := rfl
@[simp] theorem State.setC_nmiPending (f : Bool) : (s.setC f).nmiPending = s.nmiPending := rfl
@[simp] theorem State.setC_nmiAgain (f : Bool) : (s.setC f).nmiAgain = s.nmiAgain := rfl
@[simp] theorem State.setC_entering (f : Bool) : (s.setC f).entering = s.entering := rfl
@[simp] theorem State.setC_fault (f : Bool) : (s.setC f).fault = s.fault := rfl
@[simp] theorem State.setC_jammed (f : Bool) : (s.setC f).jammed = s.jammed := rfl
@[simp] theorem State.setC_params (f : Bool) : (s.setC f).params = s.params := rfl
@[simp] theorem State.setC_devices (f : Bool) : (s.setC f).devices = s.devices := rfl
@[simp] theorem State.setC_busLog (f : Bool) : (s.setC f).busLog = s.busLog := rfl
@[simp] theorem State.setC_internalDraws (f : Bool) : (s.setC f).internalDraws = s.internalDraws := rfl

@[simp] theorem State.setV_a (f : Bool) : (s.setV f).a = s.a := rfl
@[simp] theorem State.setV_x (f : Bool) : (s.setV f).x = s.x := rfl
@[simp] theorem State.setV_y (f : Bool) : (s.setV f).y = s.y := rfl
@[simp] theorem State.setV_sp (f : Bool) : (s.setV f).sp = s.sp := rfl
@[simp] theorem State.setV_pc (f : Bool) : (s.setV f).pc = s.pc := rfl
@[simp] theorem State.setV_p (f : Bool) : (s.setV f).p = { s.p with v := f } := rfl
@[simp] theorem State.setV_unwritten (f : Bool) : (s.setV f).unwritten = s.unwritten.filter (fun cell => !([.v] : List Cell).contains cell) := rfl
@[simp] theorem State.setV_ab (f : Bool) : (s.setV f).ab = s.ab := rfl
@[simp] theorem State.setV_db (f : Bool) : (s.setV f).db = s.db := rfl
@[simp] theorem State.setV_rw (f : Bool) : (s.setV f).rw = s.rw := rfl
@[simp] theorem State.setV_amip (f : Bool) : (s.setV f).amip = s.amip := rfl
@[simp] theorem State.setV_opip (f : Bool) : (s.setV f).opip = s.opip := rfl
@[simp] theorem State.setV_opc (f : Bool) : (s.setV f).opc = s.opc := rfl
@[simp] theorem State.setV_pc0 (f : Bool) : (s.setV f).pc0 = s.pc0 := rfl
@[simp] theorem State.setV_amCycle (f : Bool) : (s.setV f).amCycle = s.amCycle := rfl
@[simp] theorem State.setV_opCycle (f : Bool) : (s.setV f).opCycle = s.opCycle := rfl
@[simp] theorem State.setV_prevAmCycles (f : Bool) : (s.setV f).prevAmCycles = s.prevAmCycles := rfl
@[simp] theorem State.setV_prevOpCycles (f : Bool) : (s.setV f).prevOpCycles = s.prevOpCycles := rfl
@[simp] theorem State.setV_scratchLo (f : Bool) : (s.setV f).scratchLo = s.scratchLo := rfl
@[simp] theorem State.setV_scratchHi (f : Bool) : (s.setV f).scratchHi = s.scratchHi := rfl
@[simp] theorem State.setV_tempAddr (f : Bool) : (s.setV f).tempAddr = s.tempAddr := rfl
@[simp] theorem State.setV_relAddr (f : Bool) : (s.setV f).relAddr = s.relAddr := rfl
@[simp] theorem State.setV_irqLine (f : Bool) : (s.setV f).irqLine = s.irqLine := rfl
@[simp] theorem State.setV_nmiLine (f : Bool) : (s.setV f).nmiLine = s.nmiLine := rfl
@[simp] theorem State.setV_nmiPending (f : Bool) : (s.setV f).nmiPending = s.nmiPending := rfl
@[simp] theorem State.setV_nmiAgain (f : Bool) : (s.setV f).nmiAgain = s.nmiAgain := rfl
@[simp] theorem State.setV_entering (f : Bool) : (s.setV f).entering = s.entering := rfl
@[simp] theorem State.setV_fault (f : Bool) : (s.setV f).fault = s.fault := rfl
@[simp] theorem State.setV_jammed (f : Bool) : (s.setV f).jammed = s.jammed := rfl
@[simp] theorem State.setV_params (f : Bool) : (s.setV f).params = s.params := rfl
@[simp] theorem State.setV_devices (f : Bool) : (s.setV f).devices = s.devices := rfl
@[simp] theorem State.setV_busLog (f : Bool) : (s.setV f).busLog = s.busLog := rfl
@[simp] theorem State.setV_internalDraws (f : Bool) : (s.setV f).internalDraws = s.internalDraws := rfl

@[simp] theorem State.setD_a (f : Bool) : (s.setD f).a = s.a := rfl
@[simp] theorem State.setD_x (f : Bool) : (s.setD f).x = s.x := rfl
@[simp] theorem State.setD_y (f : Bool) : (s.setD f).y = s.y := rfl
@[simp] theorem State.setD_sp (f : Bool) : (s.setD f).sp = s.sp := rfl
@[simp] theorem State.setD_pc (f : Bool) : (s.setD f).pc = s.pc := rfl
@[simp] theorem State.setD_p (f : Bool) : (s.setD f).p = { s.p with d := f } := rfl
@[simp] theorem State.setD_unwritten (f : Bool) : (s.setD f).unwritten = s.unwritten.filter (fun cell => !([.d] : List Cell).contains cell) := rfl
@[simp] theorem State.setD_ab (f : Bool) : (s.setD f).ab = s.ab := rfl
@[simp] theorem State.setD_db (f : Bool) : (s.setD f).db = s.db := rfl
@[simp] theorem State.setD_rw (f : Bool) : (s.setD f).rw = s.rw := rfl
@[simp] theorem State.setD_amip (f : Bool) : (s.setD f).amip = s.amip := rfl
@[simp] theorem State.setD_opip (f : Bool) : (s.setD f).opip = s.opip := rfl
@[simp] theorem State.setD_opc (f : Bool) : (s.setD f).opc = s.opc := rfl
@[simp] theorem State.setD_pc0 (f : Bool) : (s.setD f).pc0 = s.pc0 := rfl
@[simp] theorem State.setD_amCycle (f : Bool) : (s.setD f).amCycle = s.amCycle := rfl
@[simp] theorem State.setD_opCycle (f : Bool) : (s.setD f).opCycle = s.opCycle := rfl
@[simp] theorem State.setD_prevAmCycles (f : Bool) : (s.setD f).prevAmCycles = s.prevAmCycles := rfl
@[simp] theorem State.setD_prevOpCycles (f : Bool) : (s.setD f).prevOpCycles = s.prevOpCycles := rfl
@[simp] theorem State.setD_scratchLo (f : Bool) : (s.setD f).scratchLo = s.scratchLo := rfl
@[simp] theorem State.setD_scratchHi (f : Bool) : (s.setD f).scratchHi = s.scratchHi := rfl
@[simp] theorem State.setD_tempAddr (f : Bool) : (s.setD f).tempAddr = s.tempAddr := rfl
@[simp] theorem State.setD_relAddr (f : Bool) : (s.setD f).relAddr = s.relAddr := rfl
@[simp] theorem State.setD_irqLine (f : Bool) : (s.setD f).irqLine = s.irqLine := rfl
@[simp] theorem State.setD_nmiLine (f : Bool) : (s.setD f).nmiLine = s.nmiLine := rfl
@[simp] theorem State.setD_nmiPending (f : Bool) : (s.setD f).nmiPending = s.nmiPending := rfl
@[simp] theorem State.setD_nmiAgain (f : Bool) : (s.setD f).nmiAgain = s.nmiAgain := rfl
@[simp] theorem State.setD_entering (f : Bool) : (s.setD f).entering = s.entering := rfl
@[simp] theorem State.setD_fault (f : Bool) : (s.setD f).fault = s.fault := rfl
@[simp] theorem State.setD_jammed (f : Bool) : (s.setD f).jammed = s.jammed := rfl
@[simp] theorem State.setD_params (f : Bool) : (s.setD f).params = s.params := rfl
@[simp] theorem State.setD_devices (f : Bool) : (s.setD f).devices = s.devices := rfl
@[simp] theorem State.setD_busLog (f : Bool) : (s.setD f).busLog = s.busLog := rfl
@[simp] theorem State.setD_internalDraws (f : Bool) : (s.setD f).internalDraws = s.internalDraws := rfl

@[simp] theorem State.setB_a (f : Bool) : (s.setB f).a = s.a := rfl
@[simp] theorem State.setB_x (f : Bool) : (s.setB f).x = s.x := rfl
@[simp] theorem State.setB_y (f : Bool) : (s.setB f).y = s.y := rfl
@[simp] theorem State.setB_sp (f : Bool) : (s.setB f).sp = s.sp := rfl
@[simp] theorem State.setB_pc (f : Bool) : (s.setB f).pc = s.pc := rfl
@[simp] theorem State.setB_p (f : Bool) : (s.setB f).p = { s.p with b := f } := rfl
@[simp] theorem State.setB_unwritten (f : Bool) : (s.setB f).unwritten = s.unwritten.filter (fun cell => !([.b] : List Cell).contains cell) := rfl
@[simp] theorem State.setB_ab (f : Bool) : (s.setB f).ab = s.ab := rfl
@[simp] theorem State.setB_db (f : Bool) : (s.setB f).db = s.db := rfl
@[simp] theorem State.setB_rw (f : Bool) : (s.setB f).rw = s.rw := rfl
@[simp] theorem State.setB_amip (f : Bool) : (s.setB f).amip = s.amip := rfl
@[simp] theorem State.setB_opip (f : Bool) : (s.setB f).opip = s.opip := rfl
@[simp] theorem State.setB_opc (f : Bool) : (s.setB f).opc = s.opc := rfl
@[simp] theorem State.setB_pc0 (f : Bool) : (s.setB f).pc0 = s.pc0 := rfl
@[simp] theorem State.setB_amCycle (f : Bool) : (s.setB f).amCycle = s.amCycle := rfl
@[simp] theorem State.setB_opCycle (f : Bool) : (s.setB f).opCycle = s.opCycle := rfl
@[simp] theorem State.setB_prevAmCycles (f : Bool) : (s.setB f).prevAmCycles = s.prevAmCycles := rfl
@[simp] theorem State.setB_prevOpCycles (f : Bool) : (s.setB f).prevOpCycles = s.prevOpCycles := rfl
@[simp] theorem State.setB_scratchLo (f : Bool) : (s.setB f).scratchLo = s.scratchLo := rfl
@[simp] theorem State.setB_scratchHi (f : Bool) : (s.setB f).scratchHi = s.scratchHi := rfl
@[simp] theorem State.setB_tempAddr (f : Bool) : (s.setB f).tempAddr = s.tempAddr := rfl
@[simp] theorem State.setB_relAddr (f : Bool) : (s.setB f).relAddr = s.relAddr := rfl
@[simp] theorem State.setB_irqLine (f : Bool) : (s.setB f).irqLine = s.irqLine := rfl
@[simp] theorem State.setB_nmiLine (f : Bool) : (s.setB f).nmiLine = s.nmiLine := rfl
@[simp] theorem State.setB_nmiPending (f : Bool) : (s.setB f).nmiPending = s.nmiPending := rfl
@[simp] theorem State.setB_nmiAgain (f : Bool) : (s.setB f).nmiAgain = s.nmiAgain := rfl
@[simp] theorem State.setB_entering (f : Bool) : (s.setB f).entering = s.entering := rfl
@[simp] theorem State.setB_fault (f : Bool) : (s.setB f).fault = s.fault := rfl
@[simp] theorem State.setB_jammed (f : Bool) : (s.setB f).jammed = s.jammed := rfl
@[simp] theorem State.setB_params (f : Bool) : (s.setB f).params = s.params := rfl
@[simp] theorem State.setB_devices (f : Bool) : (s.setB f).devices = s.devices := rfl
@[simp] theorem State.setB_busLog (f : Bool) : (s.setB f).busLog = s.busLog := rfl
@[simp] theorem State.setB_internalDraws (f : Bool) : (s.setB f).internalDraws = s.internalDraws := rfl

@[simp] theorem State.setI_a (f : Bool) : (s.setI f).a = s.a := rfl
@[simp] theorem State.setI_x (f : Bool) : (s.setI f).x = s.x := rfl
@[simp] theorem State.setI_y (f : Bool) : (s.setI f).y = s.y := rfl
@[simp] theorem State.setI_sp (f : Bool) : (s.setI f).sp = s.sp := rfl
@[simp] theorem State.setI_pc (f : Bool) : (s.setI f).pc = s.pc := rfl
@[simp] theorem State.setI_p (f : Bool) : (s.setI f).p = { s.p with i := f } := rfl
@[simp] theorem State.setI_unwritten (f : Bool) : (s.setI f).unwritten = s.unwritten := rfl
@[simp] theorem State.setI_ab (f : Bool) : (s.setI f).ab = s.ab := rfl
@[simp] theorem State.setI_db (f : Bool) : (s.setI f).db = s.db := rfl
@[simp] theorem State.setI_rw (f : Bool) : (s.setI f).rw = s.rw := rfl
@[simp] theorem State.setI_amip (f : Bool) : (s.setI f).amip = s.amip := rfl
@[simp] theorem State.setI_opip (f : Bool) : (s.setI f).opip = s.opip := rfl
@[simp] theorem State.setI_opc (f : Bool) : (s.setI f).opc = s.opc := rfl
@[simp] theorem State.setI_pc0 (f : Bool) : (s.setI f).pc0 = s.pc0 := rfl
@[simp] theorem State.setI_amCycle (f : Bool) : (s.setI f).amCycle = s.amCycle := rfl
@[simp] theorem State.setI_opCycle (f : Bool) : (s.setI f).opCycle = s.opCycle := rfl
@[simp] theorem State.setI_prevAmCycles (f : Bool) : (s.setI f).prevAmCycles = s.prevAmCycles := rfl
@[simp] theorem State.setI_prevOpCycles (f : Bool) : (s.setI f).prevOpCycles = s.prevOpCycles := rfl
@[simp] theorem State.setI_scratchLo (f : Bool) : (s.setI f).scratchLo = s.scratchLo := rfl
@[simp] theorem State.setI_scratchHi (f : Bool) : (s.setI f).scratchHi = s.scratchHi := rfl
@[simp] theorem State.setI_tempAddr (f : Bool) : (s.setI f).tempAddr = s.tempAddr := rfl
@[simp] theorem State.setI_relAddr (f : Bool) : (s.setI f).relAddr = s.relAddr := rfl
@[simp] theorem State.setI_irqLine (f : Bool) : (s.setI f).irqLine = s.irqLine := rfl
@[simp] theorem State.setI_nmiLine (f : Bool) : (s.setI f).nmiLine = s.nmiLine := rfl
@[simp] theorem State.setI_nmiPending (f : Bool) : (s.setI f).nmiPending = s.nmiPending := rfl
@[simp] theorem State.setI_nmiAgain (f : Bool) : (s.setI f).nmiAgain = s.nmiAgain := rfl
@[simp] theorem State.setI_entering (f : Bool) : (s.setI f).entering = s.entering := rfl
@[simp] theorem State.setI_fault (f : Bool) : (s.setI f).fault = s.fault := rfl
@[simp] theorem State.setI_jammed (f : Bool) : (s.setI f).jammed = s.jammed := rfl
@[simp] theorem State.setI_params (f : Bool) : (s.setI f).params = s.params := rfl
@[simp] theorem State.setI_devices (f : Bool) : (s.setI f).devices = s.devices := rfl
@[simp] theorem State.setI_busLog (f : Bool) : (s.setI f).busLog = s.busLog := rfl
@[simp] theorem State.setI_internalDraws (f : Bool) : (s.setI f).internalDraws = s.internalDraws := rfl

@[simp] theorem State.setNZ_a (v : Byte) : (s.setNZ v).a = s.a := rfl
@[simp] theorem State.setNZ_x (v : Byte) : (s.setNZ v).x = s.x := rfl
@[simp] theorem State.setNZ_y (v : Byte) : (s.setNZ v).y = s.y := rfl
@[simp] theorem State.setNZ_sp (v : Byte) : (s.setNZ v).sp = s.sp := rfl
@[simp] theorem State.setNZ_pc (v : Byte) : (s.setNZ v).pc = s.pc := rfl
@[simp] theorem State.setNZ_p (v : Byte) : (s.setNZ v).p = { s.p with n := v.getLsbD 7, z := v == 0 } := rfl
@[simp] theorem State.setNZ_unwritten (v : Byte) : (s.setNZ v).unwritten = s.unwritten.filter (fun cell => !([.n, .z] : List Cell).contains cell) := rfl
@[simp] theorem State.setNZ_ab (v : Byte) : (s.setNZ v).ab = s.ab := rfl
@[simp] theorem State.setNZ_db (v : Byte) : (s.setNZ v).db = s.db := rfl
@[simp] theorem State.setNZ_rw (v : Byte) : (s.setNZ v).rw = s.rw := rfl
@[simp] theorem State.setNZ_amip (v : Byte) : (s.setNZ v).amip = s.amip := rfl
@[simp] theorem State.setNZ_opip (v : Byte) : (s.setNZ v).opip = s.opip := rfl
@[simp] theorem State.setNZ_opc (v : Byte) : (s.setNZ v).opc = s.opc := rfl
@[simp] theorem State.setNZ_pc0 (v : Byte) : (s.setNZ v).pc0 = s.pc0 := rfl
@[simp] theorem State.setNZ_amCycle (v : Byte) : (s.setNZ v).amCycle = s.amCycle := rfl
@[simp] theorem State.setNZ_opCycle (v : Byte) : (s.setNZ v).opCycle = s.opCycle := rfl
@[simp] theorem State.setNZ_prevAmCycles (v : Byte) : (s.setNZ v).prevAmCycles = s.prevAmCycles := rfl
@[simp] theorem State.setNZ_prevOpCycles (v : Byte) : (s.setNZ v).prevOpCycles = s.prevOpCycles := rfl
@[simp] theorem State.setNZ_scratchLo (v : Byte) : (s.setNZ v).scratchLo = s.scratchLo := rfl
@[simp] theorem State.setNZ_scratchHi (v : Byte) : (s.setNZ v).scratchHi = s.scratchHi := rfl
@[simp] theorem State.setNZ_tempAddr (v : Byte) : (s.setNZ v).tempAddr = s.tempAddr := rfl
@[simp] theorem State.setNZ_relAddr (v : Byte) : (s.setNZ v).relAddr = s.relAddr := rfl
@[simp] theorem State.setNZ_irqLine (v : Byte) : (s.setNZ v).irqLine = s.irqLine := rfl
@[simp] theorem State.setNZ_nmiLine (v : Byte) : (s.setNZ v).nmiLine = s.nmiLine := rfl
@[simp] theorem State.setNZ_nmiPending (v : Byte) : (s.setNZ v).nmiPending = s.nmiPending := rfl
@[simp] theorem State.setNZ_nmiAgain (v : Byte) : (s.setNZ v).nmiAgain = s.nmiAgain := rfl
@[simp] theorem State.setNZ_entering (v : Byte) : (s.setNZ v).entering = s.entering := rfl
@[simp] theorem State.setNZ_fault (v : Byte) : (s.setNZ v).fault = s.fault := rfl
@[simp] theorem State.setNZ_jammed (v : Byte) : (s.setNZ v).jammed = s.jammed := rfl
@[simp] theorem State.setNZ_params (v : Byte) : (s.setNZ v).params = s.params := rfl
@[simp] theorem State.setNZ_devices (v : Byte) : (s.setNZ v).devices = s.devices := rfl
@[simp] theorem State.setNZ_busLog (v : Byte) : (s.setNZ v).busLog = s.busLog := rfl
@[simp] theorem State.setNZ_internalDraws (v : Byte) : (s.setNZ v).internalDraws = s.internalDraws := rfl

@[simp] theorem State.setFlagsNZ_a (n z : Bool) : (s.setFlagsNZ n z).a = s.a := rfl
@[simp] theorem State.setFlagsNZ_x (n z : Bool) : (s.setFlagsNZ n z).x = s.x := rfl
@[simp] theorem State.setFlagsNZ_y (n z : Bool) : (s.setFlagsNZ n z).y = s.y := rfl
@[simp] theorem State.setFlagsNZ_sp (n z : Bool) : (s.setFlagsNZ n z).sp = s.sp := rfl
@[simp] theorem State.setFlagsNZ_pc (n z : Bool) : (s.setFlagsNZ n z).pc = s.pc := rfl
@[simp] theorem State.setFlagsNZ_p (n z : Bool) : (s.setFlagsNZ n z).p = { s.p with n := n, z := z } := rfl
@[simp] theorem State.setFlagsNZ_unwritten (n z : Bool) : (s.setFlagsNZ n z).unwritten = s.unwritten.filter (fun cell => !([.n, .z] : List Cell).contains cell) := rfl
@[simp] theorem State.setFlagsNZ_ab (n z : Bool) : (s.setFlagsNZ n z).ab = s.ab := rfl
@[simp] theorem State.setFlagsNZ_db (n z : Bool) : (s.setFlagsNZ n z).db = s.db := rfl
@[simp] theorem State.setFlagsNZ_rw (n z : Bool) : (s.setFlagsNZ n z).rw = s.rw := rfl
@[simp] theorem State.setFlagsNZ_amip (n z : Bool) : (s.setFlagsNZ n z).amip = s.amip := rfl
@[simp] theorem State.setFlagsNZ_opip (n z : Bool) : (s.setFlagsNZ n z).opip = s.opip := rfl
@[simp] theorem State.setFlagsNZ_opc (n z : Bool) : (s.setFlagsNZ n z).opc = s.opc := rfl
@[simp] theorem State.setFlagsNZ_pc0 (n z : Bool) : (s.setFlagsNZ n z).pc0 = s.pc0 := rfl
@[simp] theorem State.setFlagsNZ_amCycle (n z : Bool) : (s.setFlagsNZ n z).amCycle = s.amCycle := rfl
@[simp] theorem State.setFlagsNZ_opCycle (n z : Bool) : (s.setFlagsNZ n z).opCycle = s.opCycle := rfl
@[simp] theorem State.setFlagsNZ_prevAmCycles (n z : Bool) : (s.setFlagsNZ n z).prevAmCycles = s.prevAmCycles := rfl
@[simp] theorem State.setFlagsNZ_prevOpCycles (n z : Bool) : (s.setFlagsNZ n z).prevOpCycles = s.prevOpCycles := rfl
@[simp] theorem State.setFlagsNZ_scratchLo (n z : Bool) : (s.setFlagsNZ n z).scratchLo = s.scratchLo := rfl
@[simp] theorem State.setFlagsNZ_scratchHi (n z : Bool) : (s.setFlagsNZ n z).scratchHi = s.scratchHi := rfl
@[simp] theorem State.setFlagsNZ_tempAddr (n z : Bool) : (s.setFlagsNZ n z).tempAddr = s.tempAddr := rfl
@[simp] theorem State.setFlagsNZ_relAddr (n z : Bool) : (s.setFlagsNZ n z).relAddr = s.relAddr := rfl
@[simp] theorem State.setFlagsNZ_irqLine (n z : Bool) : (s.setFlagsNZ n z).irqLine = s.irqLine := rfl
@[simp] theorem State.setFlagsNZ_nmiLine (n z : Bool) : (s.setFlagsNZ n z).nmiLine = s.nmiLine := rfl
@[simp] theorem State.setFlagsNZ_nmiPending (n z : Bool) : (s.setFlagsNZ n z).nmiPending = s.nmiPending := rfl
@[simp] theorem State.setFlagsNZ_nmiAgain (n z : Bool) : (s.setFlagsNZ n z).nmiAgain = s.nmiAgain := rfl
@[simp] theorem State.setFlagsNZ_entering (n z : Bool) : (s.setFlagsNZ n z).entering = s.entering := rfl
@[simp] theorem State.setFlagsNZ_fault (n z : Bool) : (s.setFlagsNZ n z).fault = s.fault := rfl
@[simp] theorem State.setFlagsNZ_jammed (n z : Bool) : (s.setFlagsNZ n z).jammed = s.jammed := rfl
@[simp] theorem State.setFlagsNZ_params (n z : Bool) : (s.setFlagsNZ n z).params = s.params := rfl
@[simp] theorem State.setFlagsNZ_devices (n z : Bool) : (s.setFlagsNZ n z).devices = s.devices := rfl
@[simp] theorem State.setFlagsNZ_busLog (n z : Bool) : (s.setFlagsNZ n z).busLog = s.busLog := rfl
@[simp] theorem State.setFlagsNZ_internalDraws (n z : Bool) : (s.setFlagsNZ n z).internalDraws = s.internalDraws := rfl

@[simp] theorem State.setStatus_a (q : Status) : (s.setStatus q).a = s.a := rfl
@[simp] theorem State.setStatus_x (q : Status) : (s.setStatus q).x = s.x := rfl
@[simp] theorem State.setStatus_y (q : Status) : (s.setStatus q).y = s.y := rfl
@[simp] theorem State.setStatus_sp (q : Status) : (s.setStatus q).sp = s.sp := rfl
@[simp] theorem State.setStatus_pc (q : Status) : (s.setStatus q).pc = s.pc := rfl
@[simp] theorem State.setStatus_p (q : Status) : (s.setStatus q).p = q := rfl
@[simp] theorem State.setStatus_unwritten (q : Status) : (s.setStatus q).unwritten = s.unwritten.filter (fun cell => !([.c, .z, .d, .b, .v, .n] : List Cell).contains cell) := rfl
@[simp] theorem State.setStatus_ab (q : Status) : (s.setStatus q).ab = s.ab := rfl
@[simp] theorem State.setStatus_db (q : Status) : (s.setStatus q).db = s.db := rfl
@[simp] theorem State.setStatus_rw (q : Status) : (s.setStatus q).rw = s.rw := rfl
@[simp] theorem State.setStatus_amip (q : Status) : (s.setStatus q).amip = s.amip := rfl
@[simp] theorem State.setStatus_opip (q : Status) : (s.setStatus q).opip = s.opip := rfl
@[simp] theorem State.setStatus_opc (q : Status) : (s.setStatus q).opc = s.opc := rfl
@[simp] theorem State.setStatus_pc0 (q : Status) : (s.setStatus q).pc0 = s.pc0 := rfl
@[simp] theorem State.setStatus_amCycle (q : Status) : (s.setStatus q).amCycle = s.amCycle := rfl
@[simp] theorem State.setStatus_opCycle (q : Status) : (s.setStatus q).opCycle = s.opCycle := rfl
@[simp] theorem State.setStatus_prevAmCycles (q : Status) : (s.setStatus q).prevAmCycles = s.prevAmCycles := rfl
@[simp] theorem State.setStatus_prevOpCycles (q : Status) : (s.setStatus q).prevOpCycles = s.prevOpCycles := rfl
@[simp] theorem State.setStatus_scratchLo (q : Status) : (s.setStatus q).scratchLo = s.scratchLo := rfl
@[simp] theorem State.setStatus_scratchHi (q : Status) : (s.setStatus q).scratchHi = s.scratchHi := rfl
@[simp] theorem State.setStatus_tempAddr (q : Status) : (s.setStatus q).tempAddr = s.tempAddr := rfl
@[simp] theorem State.setStatus_relAddr (q : Status) : (s.setStatus q).relAddr = s.relAddr := rfl
@[simp] theorem State.setStatus_irqLine (q : Status) : (s.setStatus q).irqLine = s.irqLine := rfl
@[simp] theorem State.setStatus_nmiLine (q : Status) : (s.setStatus q).nmiLine = s.nmiLine := rfl
@[simp] theorem State.setStatus_nmiPending (q : Status) : (s.setStatus q).nmiPending = s.nmiPending := rfl
@[simp] theorem State.setStatus_nmiAgain (q : Status) : (s.setStatus q).nmiAgain = s.nmiAgain := rfl
@[simp] theorem State.setStatus_entering (q : Status) : (s.setStatus q).entering = s.entering := rfl
@[simp] theorem State.setStatus_fault (q : Status) : (s.setStatus q).fault = s.fault := rfl
@[simp] theorem State.setStatus_jammed (q : Status) : (s.setStatus q).jammed = s.jammed := rfl
@[simp] theorem State.setStatus_params (q : Status) : (s.setStatus q).params = s.params := rfl
@[simp] theorem State.setStatus_devices (q : Status) : (s.setStatus q).devices = s.devices := rfl
@[simp] theorem State.setStatus_busLog (q : Status) : (s.setStatus q).busLog = s.busLog := rfl
@[simp] theorem State.setStatus_internalDraws (q : Status) : (s.setStatus q).internalDraws = s.internalDraws := rfl

@[simp] theorem State.force_a : (s.force).a = s.a := rfl
@[simp] theorem State.force_x : (s.force).x = s.x := rfl
@[simp] theorem State.force_y : (s.force).y = s.y := rfl
@[simp] theorem State.force_sp : (s.force).sp = s.sp := rfl
@[simp] theorem State.force_pc : (s.force).pc = s.pc := rfl
@[simp] theorem State.force_p : (s.force).p = { s.p with r := true, i := true } := rfl
@[simp] theorem State.force_unwritten : (s.force).unwritten = s.unwritten := rfl
@[simp] theorem State.force_ab : (s.force).ab = s.ab := rfl
@[simp] theorem State.force_db : (s.force).db = s.db := rfl
@[simp] theorem State.force_rw : (s.force).rw = s.rw := rfl
@[simp] theorem State.force_amip : (s.force).amip = s.amip := rfl
@[simp] theorem State.force_opip : (s.force).opip = s.opip := rfl
@[simp] theorem State.force_opc : (s.force).opc = s.opc := rfl
@[simp] theorem State.force_pc0 : (s.force).pc0 = s.pc0 := rfl
@[simp] theorem State.force_amCycle : (s.force).amCycle = s.amCycle := rfl
@[simp] theorem State.force_opCycle : (s.force).opCycle = s.opCycle := rfl
@[simp] theorem State.force_prevAmCycles : (s.force).prevAmCycles = s.prevAmCycles := rfl
@[simp] theorem State.force_prevOpCycles : (s.force).prevOpCycles = s.prevOpCycles := rfl
@[simp] theorem State.force_scratchLo : (s.force).scratchLo = s.scratchLo := rfl
@[simp] theorem State.force_scratchHi : (s.force).scratchHi = s.scratchHi := rfl
@[simp] theorem State.force_tempAddr : (s.force).tempAddr = s.tempAddr := rfl
@[simp] theorem State.force_relAddr : (s.force).relAddr = s.relAddr := rfl
@[simp] theorem State.force_irqLine : (s.force).irqLine = s.irqLine := rfl
@[simp] theorem State.force_nmiLine : (s.force).nmiLine = s.nmiLine := rfl
@[simp] theorem State.force_nmiPending : (s.force).nmiPending = s.nmiPending := rfl
@[simp] theorem State.force_nmiAgain : (s.force).nmiAgain = s.nmiAgain := rfl
@[simp] theorem State.force_entering : (s.force).entering = s.entering := rfl
@[simp] theorem State.force_fault : (s.force).fault = s.fault := rfl
@[simp] theorem State.force_jammed : (s.force).jammed = s.jammed := rfl
@[simp] theorem State.force_params : (s.force).params = s.params := rfl
@[simp] theorem State.force_devices : (s.force).devices = s.devices := rfl
@[simp] theorem State.force_busLog : (s.force).busLog = s.busLog := rfl
@[simp] theorem State.force_internalDraws : (s.force).internalDraws = s.internalDraws := rfl

@[simp] theorem State.driveRead_a (addr : Word) : (s.driveRead addr).a = s.a := rfl
@[simp] theorem State.driveRead_x (addr : Word) : (s.driveRead addr).x = s.x := rfl
@[simp] theorem State.driveRead_y (addr : Word) : (s.driveRead addr).y = s.y := rfl
@[simp] theorem State.driveRead_sp (addr : Word) : (s.driveRead addr).sp = s.sp := rfl
@[simp] theorem State.driveRead_pc (addr : Word) : (s.driveRead addr).pc = s.pc := rfl
@[simp] theorem State.driveRead_p (addr : Word) : (s.driveRead addr).p = s.p := rfl
@[simp] theorem State.driveRead_unwritten (addr : Word) : (s.driveRead addr).unwritten = s.unwritten := rfl
@[simp] theorem State.driveRead_ab (addr : Word) : (s.driveRead addr).ab = addr := rfl
@[simp] theorem State.driveRead_db (addr : Word) : (s.driveRead addr).db = s.db := rfl
@[simp] theorem State.driveRead_rw (addr : Word) : (s.driveRead addr).rw = true := rfl
@[simp] theorem State.driveRead_amip (addr : Word) : (s.driveRead addr).amip = s.amip := rfl
@[simp] theorem State.driveRead_opip (addr : Word) : (s.driveRead addr).opip = s.opip := rfl
@[simp] theorem State.driveRead_opc (addr : Word) : (s.driveRead addr).opc = s.opc := rfl
@[simp] theorem State.driveRead_pc0 (addr : Word) : (s.driveRead addr).pc0 = s.pc0 := rfl
@[simp] theorem State.driveRead_amCycle (addr : Word) : (s.driveRead addr).amCycle = s.amCycle := rfl
@[simp] theorem State.driveRead_opCycle (addr : Word) : (s.driveRead addr).opCycle = s.opCycle := rfl
@[simp] theorem State.driveRead_prevAmCycles (addr : Word) : (s.driveRead addr).prevAmCycles = s.prevAmCycles := rfl
@[simp] theorem State.driveRead_prevOpCycles (addr : Word) : (s.driveRead addr).prevOpCycles = s.prevOpCycles := rfl
@[simp] theorem State.driveRead_scratchLo (addr : Word) : (s.driveRead addr).scratchLo = s.scratchLo := rfl
@[simp] theorem State.driveRead_scratchHi (addr : Word) : (s.driveRead addr).scratchHi = s.scratchHi := rfl
@[simp] theorem State.driveRead_tempAddr (addr : Word) : (s.driveRead addr).tempAddr = s.tempAddr := rfl
@[simp] theorem State.driveRead_relAddr (addr : Word) : (s.driveRead addr).relAddr = s.relAddr := rfl
@[simp] theorem State.driveRead_irqLine (addr : Word) : (s.driveRead addr).irqLine = s.irqLine := rfl
@[simp] theorem State.driveRead_nmiLine (addr : Word) : (s.driveRead addr).nmiLine = s.nmiLine := rfl
@[simp] theorem State.driveRead_nmiPending (addr : Word) : (s.driveRead addr).nmiPending = s.nmiPending := rfl
@[simp] theorem State.driveRead_nmiAgain (addr : Word) : (s.driveRead addr).nmiAgain = s.nmiAgain := rfl
@[simp] theorem State.driveRead_entering (addr : Word) : (s.driveRead addr).entering = s.entering := rfl
@[simp] theorem State.driveRead_fault (addr : Word) : (s.driveRead addr).fault = s.fault := rfl
@[simp] theorem State.driveRead_jammed (addr : Word) : (s.driveRead addr).jammed = s.jammed := rfl
@[simp] theorem State.driveRead_params (addr : Word) : (s.driveRead addr).params = s.params := rfl
@[simp] theorem State.driveRead_devices (addr : Word) : (s.driveRead addr).devices = s.devices := rfl
@[simp] theorem State.driveRead_busLog (addr : Word) : (s.driveRead addr).busLog = .setRw true :: s.busLog := rfl
@[simp] theorem State.driveRead_internalDraws (addr : Word) : (s.driveRead addr).internalDraws = s.internalDraws := rfl

@[simp] theorem State.latch_a (v : Byte) : (s.latch v).a = s.a := rfl
@[simp] theorem State.latch_x (v : Byte) : (s.latch v).x = s.x := rfl
@[simp] theorem State.latch_y (v : Byte) : (s.latch v).y = s.y := rfl
@[simp] theorem State.latch_sp (v : Byte) : (s.latch v).sp = s.sp := rfl
@[simp] theorem State.latch_pc (v : Byte) : (s.latch v).pc = s.pc := rfl
@[simp] theorem State.latch_p (v : Byte) : (s.latch v).p = s.p := rfl
@[simp] theorem State.latch_unwritten (v : Byte) : (s.latch v).unwritten = s.unwritten.filter (fun cell => !([.db] : List Cell).contains cell) := rfl
@[simp] theorem State.latch_ab (v : Byte) : (s.latch v).ab = s.ab := rfl
@[simp] theorem State.latch_db (v : Byte) : (s.latch v).db = v := rfl
@[simp] theorem State.latch_rw (v : Byte) : (s.latch v).rw = s.rw := rfl
@[simp] theorem State.latch_amip (v : Byte) : (s.latch v).amip = s.amip := rfl
@[simp] theorem State.latch_opip (v : Byte) : (s.latch v).opip = s.opip := rfl
@[simp] theorem State.latch_opc (v : Byte) : (s.latch v).opc = s.opc := rfl
@[simp] theorem State.latch_pc0 (v : Byte) : (s.latch v).pc0 = s.pc0 := rfl
@[simp] theorem State.latch_amCycle (v : Byte) : (s.latch v).amCycle = s.amCycle := rfl
@[simp] theorem State.latch_opCycle (v : Byte) : (s.latch v).opCycle = s.opCycle := rfl
@[simp] theorem State.latch_prevAmCycles (v : Byte) : (s.latch v).prevAmCycles = s.prevAmCycles := rfl
@[simp] theorem State.latch_prevOpCycles (v : Byte) : (s.latch v).prevOpCycles = s.prevOpCycles := rfl
@[simp] theorem State.latch_scratchLo (v : Byte) : (s.latch v).scratchLo = s.scratchLo := rfl
@[simp] theorem State.latch_scratchHi (v : Byte) : (s.latch v).scratchHi = s.scratchHi := rfl
@[simp] theorem State.latch_tempAddr (v : Byte) : (s.latch v).tempAddr = s.tempAddr := rfl
@[simp] theorem State.latch_relAddr (v : Byte) : (s.latch v).relAddr = s.relAddr := rfl
@[simp] theorem State.latch_irqLine (v : Byte) : (s.latch v).irqLine = s.irqLine := rfl
@[simp] theorem State.latch_nmiLine (v : Byte) : (s.latch v).nmiLine = s.nmiLine := rfl
@[simp] theorem State.latch_nmiPending (v : Byte) : (s.latch v).nmiPending = s.nmiPending := rfl
@[simp] theorem State.latch_nmiAgain (v : Byte) : (s.latch v).nmiAgain = s.nmiAgain := rfl
@[simp] theorem State.latch_entering (v : Byte) : (s.latch v).entering = s.entering := rfl
@[simp] theorem State.latch_fault (v : Byte) : (s.latch v).fault = s.fault := rfl
@[simp] theorem State.latch_jammed (v : Byte) : (s.latch v).jammed = s.jammed := rfl
@[simp] theorem State.latch_params (v : Byte) : (s.latch v).params = s.params := rfl
@[simp] theorem State.latch_devices (v : Byte) : (s.latch v).devices = s.devices := rfl
@[simp] theorem State.latch_busLog (v : Byte) : (s.latch v).busLog = s.busLog := rfl
@[simp] theorem State.latch_internalDraws (v : Byte) : (s.latch v).internalDraws = s.internalDraws := rfl

@[simp] theorem State.busWrite_a (addr : Word) (v : Byte) : (s.busWrite addr v).a = s.a := rfl
@[simp] theorem State.busWrite_x (addr : Word) (v : Byte) : (s.busWrite addr v).x = s.x := rfl
@[simp] theorem State.busWrite_y (addr : Word) (v : Byte) : (s.busWrite addr v).y = s.y := rfl
@[simp] theorem State.busWrite_sp (addr : Word) (v : Byte) : (s.busWrite addr v).sp = s.sp := rfl
@[simp] theorem State.busWrite_pc (addr : Word) (v : Byte) : (s.busWrite addr v).pc = s.pc := rfl
@[simp] theorem State.busWrite_p (addr : Word) (v : Byte) : (s.busWrite addr v).p = s.p := rfl
@[simp] theorem State.busWrite_unwritten (addr : Word) (v : Byte) : (s.busWrite addr v).unwritten = s.unwritten.filter (fun cell => !([.db] : List Cell).contains cell) := rfl
@[simp] theorem State.busWrite_ab (addr : Word) (v : Byte) : (s.busWrite addr v).ab = addr := rfl
@[simp] theorem State.busWrite_db (addr : Word) (v : Byte) : (s.busWrite addr v).db = v := rfl
@[simp] theorem State.busWrite_rw (addr : Word) (v : Byte) : (s.busWrite addr v).rw = false := rfl
@[simp] theorem State.busWrite_amip (addr : Word) (v : Byte) : (s.busWrite addr v).amip = s.amip := rfl
@[simp] theorem State.busWrite_opip (addr : Word) (v : Byte) : (s.busWrite addr v).opip = s.opip := rfl
@[simp] theorem State.busWrite_opc (addr : Word) (v : Byte) : (s.busWrite addr v).opc = s.opc := rfl
@[simp] theorem State.busWrite_pc0 (addr : Word) (v : Byte) : (s.busWrite addr v).pc0 = s.pc0 := rfl
@[simp] theorem State.busWrite_amCycle (addr : Word) (v : Byte) : (s.busWrite addr v).amCycle = s.amCycle := rfl
@[simp] theorem State.busWrite_opCycle (addr : Word) (v : Byte) : (s.busWrite addr v).opCycle = s.opCycle := rfl
@[simp] theorem State.busWrite_prevAmCycles (addr : Word) (v : Byte) : (s.busWrite addr v).prevAmCycles = s.prevAmCycles := rfl
@[simp] theorem State.busWrite_prevOpCycles (addr : Word) (v : Byte) : (s.busWrite addr v).prevOpCycles = s.prevOpCycles := rfl
@[simp] theorem State.busWrite_scratchLo (addr : Word) (v : Byte) : (s.busWrite addr v).scratchLo = s.scratchLo := rfl
@[simp] theorem State.busWrite_scratchHi (addr : Word) (v : Byte) : (s.busWrite addr v).scratchHi = s.scratchHi := rfl
@[simp] theorem State.busWrite_tempAddr (addr : Word) (v : Byte) : (s.busWrite addr v).tempAddr = s.tempAddr := rfl
@[simp] theorem State.busWrite_relAddr (addr : Word) (v : Byte) : (s.busWrite addr v).relAddr = s.relAddr := rfl
@[simp] theorem State.busWrite_irqLine (addr : Word) (v : Byte) : (s.busWrite addr v).irqLine = s.irqLine := rfl
@[simp] theorem State.busWrite_nmiLine (addr : Word) (v : Byte) : (s.busWrite addr v).nmiLine = s.nmiLine := rfl
@[simp] theorem State.busWrite_nmiPending (addr : Word) (v : Byte) : (s.busWrite addr v).nmiPending = s.nmiPending := rfl
@[simp] theorem State.busWrite_nmiAgain (addr : Word) (v : Byte) : (s.busWrite addr v).nmiAgain = s.nmiAgain := rfl
@[simp] theorem State.busWrite_entering (addr : Word) (v : Byte) : (s.busWrite addr v).entering = s.entering := rfl
@[simp] theorem State.busWrite_fault (addr : Word) (v : Byte) : (s.busWrite addr v).fault = s.fault := rfl
@[simp] theorem State.busWrite_jammed (addr : Word) (v : Byte) : (s.busWrite addr v).jammed = s.jammed := rfl
@[simp] theorem State.busWrite_params (addr : Word) (v : Byte) : (s.busWrite addr v).params = s.params := rfl
@[simp] theorem State.busWrite_devices (addr : Word) (v : Byte) : (s.busWrite addr v).devices = s.devices.map (·.write addr v) := rfl
@[simp] theorem State.busWrite_busLog (addr : Word) (v : Byte) : (s.busWrite addr v).busLog = .write addr v :: .setRw false :: s.busLog := rfl
@[simp] theorem State.busWrite_internalDraws (addr : Word) (v : Byte) : (s.busWrite addr v).internalDraws = s.internalDraws := rfl

@[simp] theorem State.complete_a (k : Nat) : (s.complete k).a = s.a := rfl
@[simp] theorem State.complete_x (k : Nat) : (s.complete k).x = s.x := rfl
@[simp] theorem State.complete_y (k : Nat) : (s.complete k).y = s.y := rfl
@[simp] theorem State.complete_sp (k : Nat) : (s.complete k).sp = s.sp := rfl
@[simp] theorem State.complete_pc (k : Nat) : (s.complete k).pc = s.pc := rfl
@[simp] theorem State.complete_p (k : Nat) : (s.complete k).p = s.p := rfl
@[simp] theorem State.complete_unwritten (k : Nat) : (s.complete k).unwritten = s.unwritten := rfl
@[simp] theorem State.complete_ab (k : Nat) : (s.complete k).ab = s.pc := rfl
@[simp] theorem State.complete_db (k : Nat) : (s.complete k).db = s.db := rfl
@[simp] theorem State.complete_rw (k : Nat) : (s.complete k).rw = s.rw := rfl
@[simp] theorem State.complete_amip (k : Nat) : (s.complete k).amip = false := rfl
@[simp] theorem State.complete_opip (k : Nat) : (s.complete k).opip = false := rfl
@[simp] theorem State.complete_opc (k : Nat) : (s.complete k).opc = s.opc := rfl
@[simp] theorem State.complete_pc0 (k : Nat) : (s.complete k).pc0 = s.pc0 := rfl
@[simp] theorem State.complete_amCycle (k : Nat) : (s.complete k).amCycle = 0 := rfl
@[simp] theorem State.complete_opCycle (k : Nat) : (s.complete k).opCycle = 0 := rfl
@[simp] theorem State.complete_prevAmCycles (k : Nat) : (s.complete k).prevAmCycles = Config.cycleSplit s.internalDraws % (k + 1) := rfl
@[simp] theorem State.complete_prevOpCycles (k : Nat) : (s.complete k).prevOpCycles = k - Config.cycleSplit s.internalDraws % (k + 1) := rfl
@[simp] theorem State.complete_scratchLo (k : Nat) : (s.complete k).scratchLo = Config.scratchLo s.internalDraws := rfl
@[simp] theorem State.complete_scratchHi (k : Nat) : (s.complete k).scratchHi = Config.scratchHi s.internalDraws := rfl
@[simp] theorem State.complete_tempAddr (k : Nat) : (s.complete k).tempAddr = Config.scratchTemp s.internalDraws := rfl
@[simp] theorem State.complete_relAddr (k : Nat) : (s.complete k).relAddr = Config.scratchRel s.internalDraws := rfl
@[simp] theorem State.complete_irqLine (k : Nat) : (s.complete k).irqLine = s.irqLine := rfl
@[simp] theorem State.complete_nmiLine (k : Nat) : (s.complete k).nmiLine = s.nmiLine := rfl
@[simp] theorem State.complete_nmiPending (k : Nat) : (s.complete k).nmiPending = s.nmiPending := rfl
@[simp] theorem State.complete_nmiAgain (k : Nat) : (s.complete k).nmiAgain = s.nmiAgain := rfl
@[simp] theorem State.complete_entering (k : Nat) : (s.complete k).entering = none := rfl
@[simp] theorem State.complete_fault (k : Nat) : (s.complete k).fault = s.fault := rfl
@[simp] theorem State.complete_jammed (k : Nat) : (s.complete k).jammed = s.jammed := rfl
@[simp] theorem State.complete_params (k : Nat) : (s.complete k).params = s.params := rfl
@[simp] theorem State.complete_devices (k : Nat) : (s.complete k).devices = s.devices := rfl
@[simp] theorem State.complete_busLog (k : Nat) : (s.complete k).busLog = s.busLog := rfl
@[simp] theorem State.complete_internalDraws (k : Nat) : (s.complete k).internalDraws = s.internalDraws + 1 := rfl

end

end Sys2Proof.Machine
end

