-- ==== Sys2Proof/Laws/Memory.lean ====
section
/-! SUPPORT. The laws of a RAM's contents, of the devices and of the bus: a read after a write, what a write leaves
alone, that every operation keeps the canonical form, and what one bus access can do. -/

namespace Sys2Proof.Machine

/-! ### Contents of a RAM -/

theorem Memory.wfIn_mono {lo lo' hi : Nat} {m : Memory} (h : Memory.wfIn lo hi m = true) (hlo : lo' ≤ lo) :
    Memory.wfIn lo' hi m = true := by
  cases m with
  | nil => rfl
  | cons c rest =>
    simp only [Memory.wfIn, Bool.and_eq_true, decide_eq_true_eq] at h ⊢
    exact ⟨⟨⟨by omega, h.1.1.2⟩, h.1.2⟩, h.2⟩

/-- Below its first possible address a canonical memory lists nothing. -/
theorem Memory.read_below {lo hi a : Nat} {m : Memory} (h : Memory.wfIn lo hi m = true) (ha : a < lo) :
    Memory.read m a = unwrittenByte := by
  induction m generalizing lo with
  | nil => rfl
  | cons c rest ih =>
    obtain ⟨k, v⟩ := c
    simp only [Memory.wfIn, Bool.and_eq_true, decide_eq_true_eq] at h
    rw [Memory.read, if_neg (by omega)]
    exact ih h.2 (by omega)

theorem Memory.read_write_same {lo hi a : Nat} {m : Memory} (v : Byte) (h : Memory.wfIn lo hi m = true) :
    Memory.read (Memory.write m a v) a = v := by
  induction m generalizing lo with
  | nil => by_cases hv : v = unwrittenByte <;> simp [Memory.write, Memory.read, hv]
  | cons c rest ih =>
    obtain ⟨k, w⟩ := c
    simp only [Memory.wfIn, Bool.and_eq_true, decide_eq_true_eq] at h
    rw [Memory.write]
    split
    · rename_i hlt
      split
      · rename_i hv
        rw [Memory.read, if_neg (by omega), hv]
        exact Memory.read_below h.2 (by omega)
      · rw [Memory.read, if_pos rfl]
    · split
      · rename_i hk
        split
        · rename_i hv
          rw [hv]
          exact Memory.read_below h.2 (by omega)
        · rw [Memory.read, if_pos rfl]
      · rename_i hk
        rw [Memory.read, if_neg (fun e => hk e.symm)]
        exact ih h.2

theorem Memory.read_write_other {a b : Nat} (m : Memory) (v : Byte) (hab : b ≠ a) :
    Memory.read (Memory.write m a v) b = Memory.read m b := by
  induction m with
  | nil =>
    by_cases hv : v = unwrittenByte
    · simp [Memory.write, hv]
    · simp [Memory.write, hv, Memory.read, Ne.symm hab]
  | cons c rest ih =>
    obtain ⟨k, w⟩ := c
    rw [Memory.write]
    split
    · split
      · rfl
      · rw [Memory.read, if_neg (Ne.symm hab)]
    · split
      · rename_i hk
        rw [show Memory.read ((k, w) :: rest) b = Memory.read rest b by rw [Memory.read, if_neg (by omega)]]
        split
        · rfl
        · rw [Memory.read, if_neg (Ne.symm hab)]
      · rw [Memory.read, ih, Memory.read]

theorem Memory.write_wfIn {lo hi a : Nat} {m : Memory} (v : Byte) (h : Memory.wfIn lo hi m = true) (hlo : lo ≤ a)
    (hhi : a < hi) : Memory.wfIn lo hi (Memory.write m a v) = true := by
  induction m generalizing lo with
  | nil =>
    rw [Memory.write]
    split
    · rfl
    · rename_i hv
      simp [Memory.wfIn, hlo, hhi, hv]
  | cons c rest ih =>
    obtain ⟨k, w⟩ := c
    have h' := h
    simp only [Memory.wfIn, Bool.and_eq_true, decide_eq_true_eq] at h
    rw [Memory.write]
    split
    · rename_i hlt
      split
      · exact h'
      · rename_i hv
        simp only [Memory.wfIn, Bool.and_eq_true, decide_eq_true_eq, bne_iff_ne, ne_eq]
        exact ⟨⟨⟨hlo, hhi⟩, hv⟩, ⟨⟨by omega, h.1.1.2⟩, by simpa using h.1.2⟩, h.2⟩
    · rename_i hge
      split
      · rename_i hk
        subst hk
        split
        · exact Memory.wfIn_mono h.2 (by omega)
        · rename_i hv
          simp only [Memory.wfIn, Bool.and_eq_true, decide_eq_true_eq, bne_iff_ne, ne_eq]
          exact ⟨⟨⟨hlo, hhi⟩, hv⟩, h.2⟩
      · rename_i hk
        simp only [Memory.wfIn, Bool.and_eq_true, decide_eq_true_eq]
        exact ⟨h.1, ih h.2 (by omega)⟩

/-- The empty contents are canonical. -/
theorem Memory.wf_nil : Memory.wf [] = true := rfl

/-- A write keeps the canonical form of the whole address space. -/
theorem Memory.write_wf {m : Memory} (a : Word) (v : Byte) (h : Memory.wf m = true) :
    Memory.wf (Memory.write m a.toNat v) = true :=
  Memory.write_wfIn v h (Nat.zero_le _) a.isLt

/-! ### Devices -/

@[simp] theorem Device.write_min (d : Device) (a : Word) (v : Byte) : (d.write a v).min = d.min := by
  unfold Device.write; split <;> [split <;> rfl; rfl]

@[simp] theorem Device.write_max (d : Device) (a : Word) (v : Byte) : (d.write a v).max = d.max := by
  unfold Device.write; split <;> [split <;> rfl; rfl]

@[simp] theorem Device.write_priority (d : Device) (a : Word) (v : Byte) : (d.write a v).priority = d.priority := by
  unfold Device.write; split <;> [split <;> rfl; rfl]

@[simp] theorem Device.write_owns (d : Device) (a b : Word) (v : Byte) : (d.write a v).owns b = d.owns b := by
  simp [Device.owns]

/-- A write keeps a device well formed. -/
theorem Device.write_wf {d : Device} (a : Word) (v : Byte) (h : d.wf = true) : (d.write a v).wf = true := by
  unfold Device.write
  split
  · rename_i ho
    simp only [Device.owns, Bool.and_eq_true, decide_eq_true_eq] at ho
    obtain ⟨priority, lo, hi, behaviour, implements, tracked⟩ := d
    cases behaviour with
    | ram bytes =>
      simp only [Device.wf, Bool.and_eq_true, decide_eq_true_eq] at h ⊢
      exact ⟨h.1, Memory.write_wfIn v h.2 ho.1 ho.2⟩
    | described p initial => exact h
    | undescribed => exact h
  · exact h

/-- A write keeps the registered devices well formed. -/
theorem devicesWf_write {ds : List Device} (a : Word) (v : Byte) (h : devicesWf ds = true) :
    devicesWf (ds.map (·.write a v)) = true := by
  simp only [devicesWf, Bool.and_eq_true, List.all_eq_true, decide_eq_true_eq] at h ⊢
  refine ⟨?_, ?_⟩
  · intro d hd
    obtain ⟨e, he, rfl⟩ := List.mem_map.1 hd
    exact Device.write_wf a v (h.1 e he)
  · rw [List.pairwise_map]
    simpa using h.2

/-- The first owner of an address after a write is the first owner before it, written. -/
theorem firstOwner_write (ds : List Device) (a b : Word) (v : Byte) :
    firstOwner (ds.map (·.write a v)) b = (firstOwner ds b).map (·.write a v) := by
  induction ds with
  | nil => rfl
  | cons d ds ih =>
    simp only [firstOwner, List.map_cons, List.find?_cons, Device.write_owns] at ih ⊢
    cases d.owns b
    · exact ih
    · rfl

/-- A first owner owns the address and is registered. -/
theorem firstOwner_some {ds : List Device} {a : Word} {d : Device} (h : firstOwner ds a = some d) :
    d.owns a = true ∧ d ∈ ds := by
  unfold firstOwner at h
  exact ⟨by simpa using List.find?_some h, List.mem_of_find?_eq_some h⟩

/-! ### Which device answers -/

theorem Device.owns_iff (d : Device) (a : Word) : d.owns a = true ↔ d.min ≤ a.toNat ∧ a.toNat < d.max := by
  simp [Device.owns]

/-- Registered devices stand in ascending priority. -/
theorem devicesWf_ascending {ds : List Device} (h : devicesWf ds = true) :
    ds.Pairwise (fun d e => d.priority < e.priority) := by
  simp only [devicesWf, Bool.and_eq_true, decide_eq_true_eq] at h
  exact h.2

/-- No two registered devices share a priority. -/
theorem eq_of_priority {ds : List Device} {d e : Device} (hp : ds.Pairwise (fun d e => d.priority < e.priority))
    (hd : d ∈ ds) (he : e ∈ ds) (h : e.priority = d.priority) : e = d := by
  induction ds with
  | nil => cases hd
  | cons g gs ih =>
    obtain ⟨hg, hgs⟩ := List.pairwise_cons.1 hp
    rcases List.mem_cons.1 hd with hdg | hdg <;> rcases List.mem_cons.1 he with heg | heg
    · exact heg.trans hdg.symm
    · have := hg e heg
      rw [← hdg] at this
      omega
    · have := hg d hdg
      rw [← heg] at this
      omega
    · exact ih hgs hdg heg

/-- The device that answers an address is its first owner. -/
theorem firstOwner_of_answers {ds : List Device} {a : Word} {d : Device}
    (hp : ds.Pairwise (fun d e => d.priority < e.priority)) (hd : d ∈ ds) (h : d.Answers ds a) :
    firstOwner ds a = some d := by
  induction ds with
  | nil => cases hd
  | cons e es ih =>
    obtain ⟨he, hes⟩ := List.pairwise_cons.1 hp
    unfold firstOwner
    rw [List.find?_cons]
    by_cases ho : e.owns a = true
    · rw [ho]
      rcases List.mem_cons.1 hd with rfl | hd
      · rfl
      · have := h.2 e (by simp) ho
        have := he d hd
        omega
    · rw [Bool.not_eq_true] at ho
      rw [ho]
      rcases List.mem_cons.1 hd with rfl | hd
      · rw [h.1] at ho; cases ho
      · exact ih hes hd ⟨h.1, fun e he => h.2 e (by simp [he])⟩

/-- The first owner of an address answers it. -/
theorem answers_of_firstOwner {ds : List Device} {a : Word} {d : Device}
    (hp : ds.Pairwise (fun d e => d.priority < e.priority)) (h : firstOwner ds a = some d) : d.Answers ds a := by
  refine ⟨(firstOwner_some h).1, ?_⟩
  induction ds with
  | nil => cases h
  | cons e es ih =>
    obtain ⟨he, hes⟩ := List.pairwise_cons.1 hp
    unfold firstOwner at h
    rw [List.find?_cons] at h
    intro g hg ho
    by_cases hoe : e.owns a = true
    · rw [hoe] at h
      cases h
      rcases List.mem_cons.1 hg with rfl | hg
      · exact le_refl _
      · exact le_of_lt (he g hg)
    · rw [Bool.not_eq_true] at hoe
      rw [hoe] at h
      rcases List.mem_cons.1 hg with rfl | hg
      · rw [ho] at hoe; cases hoe
      · exact ih hes h g hg ho

/-! ### The state of a described device -/

/-- A call on a described device keeps its bytes canonical. -/
theorem DeviceProgram.react_wfIn (p : DeviceProgram) (call : BusEvent) (draw : Nat → Byte) {cells : Memory}
    (h : Memory.wfIn 0 p.cells cells = true) : Memory.wfIn 0 p.cells (p.react call draw cells) = true := by
  unfold DeviceProgram.react
  generalize p.effect call = effect
  induction effect generalizing cells with
  | nil => exact h
  | cons assignment rest ih =>
    refine ih ?_
    dsimp only
    split
    · rename_i hi
      exact Memory.write_wfIn _ h (Nat.zero_le _) hi
    · exact h

/-- Whatever calls were made, what a described device keeps is canonical. -/
theorem Device.stateAfter_wfIn (d : Device) (p : DeviceProgram) {initial : Memory}
    (h : Memory.wfIn 0 p.cells initial = true) (log : List BusEvent) :
    Memory.wfIn 0 p.cells (d.stateAfter p initial log) = true := by
  induction log with
  | nil => exact h
  | cons call earlier ih =>
    unfold Device.stateAfter
    dsimp only
    split
    · exact p.react_wfIn call _ ih
    · exact ih

/-- A ROM keeps its bytes, whatever calls are made on it. -/
theorem Device.stateAfter_rom (d : Device) (base size : Nat) (initial : Memory) (log : List BusEvent) :
    d.stateAfter (.rom base size) initial log = initial := by
  induction log with
  | nil => rfl
  | cons call earlier ih =>
    unfold Device.stateAfter
    dsimp only
    rw [ih]
    cases call <;> simp [DeviceProgram.react, DeviceProgram.effect, DeviceProgram.rom]

/-! ### Registration -/

/-- Insertion adds the device and drops none. -/
theorem mem_insertDevice {ds : List Device} {d e : Device} : e ∈ insertDevice ds d ↔ e = d ∨ e ∈ ds := by
  have h := List.takeWhile_append_dropWhile (p := fun e : Device => decide (e.priority < d.priority)) (l := ds)
  constructor
  · intro he
    rw [insertDevice, List.mem_append, List.mem_cons] at he
    rcases he with he | he | he
    · exact .inr (h ▸ List.mem_append_left _ he)
    · exact .inl he
    · exact .inr (h ▸ List.mem_append_right _ he)
  · intro he
    rw [insertDevice, List.mem_append, List.mem_cons]
    rcases he with he | he
    · exact .inr (.inl he)
    · rw [← h, List.mem_append] at he
      exact he.imp id .inr

/-- Insertion at a free priority keeps the devices in ascending priority. -/
theorem insertDevice_ascending {ds : List Device} {d : Device}
    (hp : ds.Pairwise (fun d e => d.priority < e.priority)) (hn : ∀ e ∈ ds, e.priority ≠ d.priority) :
    (insertDevice ds d).Pairwise (fun d e => d.priority < e.priority) := by
  induction ds with
  | nil => simp [insertDevice]
  | cons e es ih =>
    obtain ⟨he, hes⟩ := List.pairwise_cons.1 hp
    by_cases h : e.priority < d.priority
    · have hi : insertDevice (e :: es) d = e :: insertDevice es d := by simp [insertDevice, h]
      rw [hi, List.pairwise_cons]
      refine ⟨fun g hg => ?_, ih hes fun g hg => hn g (by simp [hg])⟩
      rcases mem_insertDevice.1 hg with rfl | hg
      · exact h
      · exact he g hg
    · have hi : insertDevice (e :: es) d = d :: e :: es := by simp [insertDevice, h]
      have hde : d.priority < e.priority := by
        have := hn e (by simp)
        omega
      rw [hi, List.pairwise_cons]
      refine ⟨fun g hg => ?_, hp⟩
      rcases List.mem_cons.1 hg with rfl | hg
      · exact hde
      · exact lt_trans hde (he g hg)

/-- Insertion of a well-formed device at a free priority keeps the devices well formed. -/
theorem insertDevice_wf {ds : List Device} {d : Device} (h : devicesWf ds = true) (hd : d.wf = true)
    (hn : ∀ e ∈ ds, e.priority ≠ d.priority) : devicesWf (insertDevice ds d) = true := by
  have hall : ∀ e ∈ ds, e.wf = true := by
    simp only [devicesWf, Bool.and_eq_true, List.all_eq_true] at h
    exact h.1
  simp only [devicesWf, Bool.and_eq_true, List.all_eq_true, decide_eq_true_eq]
  refine ⟨fun e he => ?_, insertDevice_ascending (devicesWf_ascending h) hn⟩
  rcases mem_insertDevice.1 he with rfl | he
  · exact hd
  · exact hall e he

/-- Registration at a free priority. -/
theorem registerDevice_free {ds : List Device} {capability : Capability} {d : Device}
    (hn : ∀ e ∈ ds, e.priority ≠ d.priority) :
    registerDevice ds capability d = .next (insertDevice ds { d with tracked := d.trackedAs capability }) := by
  have h : ds.find? (fun e => e.priority == d.priority) = none := by
    rw [List.find?_eq_none]
    simpa using hn
  rw [registerDevice, h]

/-- Registration at a priority taken. -/
theorem registerDevice_taken {ds : List Device} {capability : Capability} {d e : Device}
    (hp : ds.Pairwise (fun d e => d.priority < e.priority)) (he : e ∈ ds) (h : e.priority = d.priority) :
    registerDevice ds capability d =
      if e = { d with tracked := e.tracked } then .next ds else .refused .priorityTaken := by
  have hf : ds.find? (fun e => e.priority == d.priority) = some e := by
    cases hg : ds.find? (fun e => e.priority == d.priority) with
    | none => exact absurd (List.find?_eq_none.1 hg e he) (by simp [h])
    | some g =>
      have hgp : g.priority = d.priority := by simpa using List.find?_some hg
      rw [eq_of_priority hp he (List.mem_of_find?_eq_some hg) (hgp.trans h.symm)]
  rw [registerDevice, hf]

/-! ### Peeks -/

@[simp] theorem State.peek_setter {s t : State} (h : t.devices = s.devices) (a : Word) : t.peek a = s.peek a := by
  simp [State.peek, h]

/-- Every other address peeks as before a write. -/
theorem State.peek_write_other {s t : State} {a b : Word} {v : Byte}
    (h : t.devices = s.devices.map (·.write a v)) (hab : b ≠ a) : t.peek b = s.peek b := by
  simp only [State.peek, h, firstOwner_write]
  cases hf : firstOwner s.devices b with
  | none => rfl
  | some d =>
    obtain ⟨priority, lo, hi, behaviour, implements, tracked⟩ := d
    have hne : b.toNat ≠ a.toNat := fun e => hab (BitVec.eq_of_toNat_eq e)
    cases behaviour with
    | ram bytes =>
      by_cases ho : (⟨priority, lo, hi, .ram bytes, implements, tracked⟩ : Device).owns a = true
      · simp [Device.write, ho, Memory.read_write_other _ _ hne]
      · simp [Device.write, ho]
    | described p initial =>
      by_cases ho : (⟨priority, lo, hi, .described p initial, implements, tracked⟩ : Device).owns a = true <;>
        simp [Device.write, ho]
    | undescribed =>
      by_cases ho : (⟨priority, lo, hi, .undescribed, implements, tracked⟩ : Device).owns a = true <;>
        simp [Device.write, ho]

/-- The address written peeks as the byte written, where a plain RAM owns it. -/
theorem State.peek_write_same {s t : State} {a : Word} {v w : Byte} (hwf : devicesWf s.devices = true)
    (h : t.devices = s.devices.map (·.write a v)) (hp : s.peek a = some w) : t.peek a = some v := by
  simp only [State.peek, h, firstOwner_write] at hp ⊢
  cases hf : firstOwner s.devices a with
  | none => simp [hf] at hp
  | some d =>
    obtain ⟨ho, hm⟩ := firstOwner_some hf
    simp only [devicesWf, Bool.and_eq_true, List.all_eq_true] at hwf
    have hd := hwf.1 d hm
    obtain ⟨priority, lo, hi, behaviour, implements, tracked⟩ := d
    cases behaviour with
    | ram bytes =>
      simp only [Device.wf, Bool.and_eq_true] at hd
      simp [Device.write, ho, Memory.read_write_same v hd.2]
    | described p initial => simp [hf] at hp
    | undescribed => simp [hf] at hp

/-! ### The bus -/

/-- `s` with the bus latches, the calls on the devices and the record of unwritten cells taken from `t`. -/
def State.withBusOf (s t : State) : State :=
  { s with ab := t.ab, db := t.db, rw := t.rw, busLog := t.busLog, unwritten := t.unwritten }

/-- The record of unwritten cells after a read: DB is written from then on. -/
theorem filter_db {l : List Cell} (h : Cell.db ∉ l) : l.filter (fun cell => !([.db] : List Cell).contains cell) = l := by
  rw [List.filter_eq_self]
  intro cell hc
  have : cell ≠ .db := fun e => h (e ▸ hc)
  simp [this]

/-- One bus read changes the bus latches and the calls only, marks DB written, and clears no other mark. -/
theorem State.busRead_ok {s t : State} {a : Word} {v : Byte} (h : s.busRead a = .ok (v, t)) :
    t = s.withBusOf t ∧ t.ab = a ∧ t.rw = true ∧ t.db = v ∧
      t.unwritten = s.unwritten.filter (fun cell => !([.db] : List Cell).contains cell) := by
  unfold State.busRead at h
  simp only at h
  split at h
  · cases h; exact ⟨rfl, rfl, rfl, rfl, rfl⟩
  · split at h
    · cases h
    · rename_i hdb
      cases h
      exact ⟨rfl, rfl, rfl, rfl, (filter_db (by simpa using hdb)).symm⟩

/-- A bus read completes once DB is written. -/
theorem State.busRead_completes {s : State} (a : Word) (h : Cell.db ∉ s.unwritten) :
    ∃ v t, s.busRead a = .ok (v, t) := by
  unfold State.busRead
  simp only
  split
  · exact ⟨_, _, rfl⟩
  · simp [h]

/-- A bus read of an owned address: the first owner answers, and it alone is read. -/
theorem State.busRead_of_owner {s : State} {a : Word} {d : Device} (h : firstOwner s.devices a = some d) :
    s.busRead a = .ok (d.answer (.setRw true :: s.busLog) a,
      { (s.driveRead a).latch (d.answer (.setRw true :: s.busLog) a) with
        busLog := .read d.priority a :: .setRw true :: s.busLog }) := by
  unfold State.busRead
  simp only [State.driveRead_devices, h]
  rfl

/-- Where a plain RAM owns the address, a bus read answers what a peek answers. -/
theorem State.busRead_of_peek {s : State} {a : Word} {v : Byte} (h : s.peek a = some v) :
    ∃ t, s.busRead a = .ok (v, t) := by
  unfold State.peek at h
  cases hf : firstOwner s.devices a with
  | none => simp [hf] at h
  | some d =>
    have hv : d.answer (.setRw true :: s.busLog) a = v := by
      cases hb : d.behaviour <;> simp [hf, hb] at h
      simpa [Device.answer, hb] using h
    have hr := State.busRead_of_owner hf
    rw [hv] at hr
    exact ⟨_, hr⟩

/-- A bus read where DB is unwritten and nobody answers is the only fault of the bus. -/
theorem State.busRead_error {s : State} {a : Word} {f : Fault} (h : s.busRead a = .error f) :
    Cell.db ∈ s.unwritten ∧ f = (s.driveRead a).unwrittenRead .db := by
  unfold State.busRead at h
  simp only at h
  split at h
  · cases h
  · split at h
    · rename_i hc
      cases h
      exact ⟨by simpa using hc, rfl⟩
    · cases h

end Sys2Proof.Machine
end

