-- ==== Sys2Proof/Laws/Access.lean ====
section
/-! SUPPORT. What an addressing mode, a push, a pull and a vector read can do: which fields they leave alone, and when
they complete. Later proofs cite these and unfold none of the operations. -/

namespace Sys2Proof.Machine

/-! ### Sequencing -/

theorem bind_ok {α β : Type} {x : Except Fault α} {f : α → Except Fault β} {b : β} (h : x >>= f = .ok b) :
    ∃ a, x = .ok a ∧ f a = .ok b := by
  cases x with
  | ok a => exact ⟨a, rfl, h⟩
  | error e => cases h

@[simp] theorem ok_bind {α β : Type} (a : α) (f : α → Except Fault β) : (Except.ok a >>= f) = f a := rfl

@[simp] theorem error_bind {α β : Type} (e : Fault) (f : α → Except Fault β) :
    ((Except.error e : Except Fault α) >>= f) = .error e := rfl

theorem finish_next {x : Except Fault State} {u : State} : finish x = .next u ↔ x = .ok u := by
  cases x <;> simp [finish]

theorem finish_fault {x : Except Fault State} {f : Fault} : finish x = .fault f ↔ x = .error f := by
  cases x <;> simp [finish]

@[simp] theorem finish_ok (u : State) : finish (.ok u) = .next u := rfl

@[simp] theorem finish_error (f : Fault) : finish (.error f) = .fault f := rfl

/-! ### Reading a cell -/

theorem need_of_written {s : State} {cell : Cell} (h : cell ∉ s.unwritten) : s.need cell = .ok () := by
  simp [State.need, h]

theorem need_of_unwritten {s : State} {cell : Cell} (h : cell ∈ s.unwritten) :
    s.need cell = .error (s.unwrittenRead cell) := by
  simp [State.need, h]

theorem need_ok {s : State} {cell : Cell} {u : Unit} (h : s.need cell = .ok u) : cell ∉ s.unwritten := by
  intro hc
  rw [need_of_unwritten hc] at h
  cases h

theorem readA_of_written {s : State} (h : Cell.a ∉ s.unwritten) : s.readA = .ok s.a := by
  simp [State.readA, need_of_written h]

theorem readX_of_written {s : State} (h : Cell.x ∉ s.unwritten) : s.readX = .ok s.x := by
  simp [State.readX, need_of_written h]

theorem readY_of_written {s : State} (h : Cell.y ∉ s.unwritten) : s.readY = .ok s.y := by
  simp [State.readY, need_of_written h]

theorem readC_of_written {s : State} (h : Cell.c ∉ s.unwritten) : s.readC = .ok s.p.c := by
  simp [State.readC, need_of_written h]

theorem readA_ok {s : State} {v : Byte} (h : s.readA = .ok v) : Cell.a ∉ s.unwritten ∧ v = s.a := by
  obtain ⟨u, hn, h⟩ := bind_ok h
  cases h
  exact ⟨need_ok hn, rfl⟩

theorem readX_ok {s : State} {v : Byte} (h : s.readX = .ok v) : Cell.x ∉ s.unwritten ∧ v = s.x := by
  obtain ⟨u, hn, h⟩ := bind_ok h
  cases h
  exact ⟨need_ok hn, rfl⟩

theorem readY_ok {s : State} {v : Byte} (h : s.readY = .ok v) : Cell.y ∉ s.unwritten ∧ v = s.y := by
  obtain ⟨u, hn, h⟩ := bind_ok h
  cases h
  exact ⟨need_ok hn, rfl⟩

theorem readC_ok {s : State} {v : Bool} (h : s.readC = .ok v) : Cell.c ∉ s.unwritten ∧ v = s.p.c := by
  obtain ⟨u, hn, h⟩ := bind_ok h
  cases h
  exact ⟨need_ok hn, rfl⟩

/-- The five flags a push of P reads. -/
theorem needStatus_of_written {s : State} (h : ∀ cell ∈ statusCells, cell ∉ s.unwritten) :
    s.needStatus = .ok () := by
  simp only [statusCells, List.mem_cons, List.not_mem_nil, or_false, forall_eq_or_imp, forall_eq] at h
  simp [State.needStatus, need_of_written, h]

theorem needStatus_ok {s : State} {u : Unit} (h : s.needStatus = .ok u) :
    ∀ cell ∈ statusCells, cell ∉ s.unwritten := by
  obtain ⟨_, hc, h⟩ := bind_ok h
  obtain ⟨_, hz, h⟩ := bind_ok h
  obtain ⟨_, hd, h⟩ := bind_ok h
  obtain ⟨_, hv, h⟩ := bind_ok h
  simp [statusCells, need_ok hc, need_ok hz, need_ok hd, need_ok hv, need_ok h]

theorem needBinary_of_binary {s : State} (h : Cell.d ∉ s.unwritten) (hd : s.p.d = false) :
    s.needBinary = .ok () := by
  simp [State.needBinary, need_of_written h, hd]

theorem needBinary_of_decimal {s : State} (h : Cell.d ∉ s.unwritten) (hd : s.p.d = true) :
    s.needBinary = .error s.unsupported := by
  simp [State.needBinary, need_of_written h, hd]

theorem needBinary_ok {s : State} {u : Unit} (h : s.needBinary = .ok u) :
    Cell.d ∉ s.unwritten ∧ s.p.d = false := by
  obtain ⟨_, hn, h⟩ := bind_ok h
  split at h
  · cases h
  · rename_i hd
    exact ⟨need_ok hn, by simpa using hd⟩

/-! ### Accesses that only read -/

/-- `t` is `s` but for the bus latches and the calls on the devices. -/
def State.BusOnly (s t : State) : Prop := t = s.withBusOf t ∧ t.unwritten = s.unwritten

theorem State.BusOnly.refl (s : State) : s.BusOnly s := ⟨rfl, rfl⟩

theorem State.BusOnly.trans {s t u : State} (h : s.BusOnly t) (g : t.BusOnly u) : s.BusOnly u := by
  refine ⟨?_, g.2.trans h.2⟩
  rw [g.1, h.1]
  rfl

/-- What an access that only reads leaves alone. -/
theorem State.BusOnly.fields {s t : State} (h : s.BusOnly t) :
    t.a = s.a ∧ t.x = s.x ∧ t.y = s.y ∧ t.sp = s.sp ∧ t.pc = s.pc ∧ t.p = s.p ∧ t.opc = s.opc ∧ t.pc0 = s.pc0 ∧
      t.devices = s.devices ∧ t.params = s.params ∧ t.unwritten = s.unwritten ∧ t.fault = s.fault ∧
      t.jammed = s.jammed := by
  obtain ⟨h, hu⟩ := h
  rw [h]
  exact ⟨rfl, rfl, rfl, rfl, rfl, rfl, rfl, rfl, rfl, rfl, hu, rfl, rfl⟩

theorem State.BusOnly.devices {s t : State} (h : s.BusOnly t) : t.devices = s.devices := by
  rw [h.1]; rfl

theorem State.BusOnly.peek {s t : State} (h : s.BusOnly t) (a : Word) : t.peek a = s.peek a :=
  State.peek_setter h.devices a

theorem State.busRead_only {s t : State} {a : Word} {v : Byte} (hdb : Cell.db ∉ s.unwritten)
    (h : s.busRead a = .ok (v, t)) : s.BusOnly t := by
  obtain ⟨ht, -, -, -, hu⟩ := State.busRead_ok h
  exact ⟨ht, hu.trans (filter_db hdb)⟩

theorem State.busRead_only_completes {s : State} (a : Word) (hdb : Cell.db ∉ s.unwritten) :
    ∃ v t, s.busRead a = .ok (v, t) ∧ s.BusOnly t := by
  obtain ⟨v, t, h⟩ := State.busRead_completes a hdb
  exact ⟨v, t, h, State.busRead_only hdb h⟩

/-- Two reads, one after the other: the shape of every pointer and vector read. -/
theorem State.readPair_completes {s : State} (a b : Word) (hdb : Cell.db ∉ s.unwritten) :
    ∃ l h t u, s.busRead a = .ok (l, t) ∧ t.busRead b = .ok (h, u) ∧ s.BusOnly u := by
  obtain ⟨l, t, h1, ht⟩ := State.busRead_only_completes a hdb
  obtain ⟨h, u, h2, hu⟩ := State.busRead_only_completes b (ht.2 ▸ hdb)
  exact ⟨l, h, t, u, h1, h2, ht.trans hu⟩

theorem State.readZeroPagePointer_only {s t : State} {ptr : Byte} {w : Word} (hdb : Cell.db ∉ s.unwritten)
    (h : s.readZeroPagePointer ptr = .ok (w, t)) : s.BusOnly t := by
  obtain ⟨⟨l, u⟩, h1, h⟩ := bind_ok h
  obtain ⟨⟨b, v⟩, h2, h⟩ := bind_ok h
  cases h
  have hu := State.busRead_only hdb h1
  exact hu.trans (State.busRead_only (hu.2 ▸ hdb) h2)

theorem State.readZeroPagePointer_completes {s : State} (ptr : Byte) (hdb : Cell.db ∉ s.unwritten) :
    ∃ w t, s.readZeroPagePointer ptr = .ok (w, t) ∧ s.BusOnly t := by
  obtain ⟨l, h, t, u, h1, h2, hu⟩ := State.readPair_completes (zext16 ptr) (zext16 (ptr + 1)) hdb
  refine ⟨wordOf h l, u, ?_, hu⟩
  rw [State.readZeroPagePointer, h1, ok_bind]
  dsimp only
  rw [h2, ok_bind]

theorem State.readIndirect_only {s t : State} {ptr w : Word} (hdb : Cell.db ∉ s.unwritten)
    (h : s.readIndirect ptr = .ok (w, t)) : s.BusOnly t := by
  obtain ⟨⟨l, u⟩, h1, h⟩ := bind_ok h
  obtain ⟨⟨b, v⟩, h2, h⟩ := bind_ok h
  cases h
  have hu := State.busRead_only hdb h1
  exact hu.trans (State.busRead_only (hu.2 ▸ hdb) h2)

theorem State.readIndirect_completes {s : State} (ptr : Word) (hdb : Cell.db ∉ s.unwritten) :
    ∃ w t, s.readIndirect ptr = .ok (w, t) ∧ s.BusOnly t := by
  obtain ⟨l, h, t, u, h1, h2, hu⟩ := State.readPair_completes ptr (indirectHigh ptr) hdb
  refine ⟨wordOf h l, u, ?_, hu⟩
  rw [State.readIndirect, h1, ok_bind]
  dsimp only
  rw [h2, ok_bind]

theorem State.readVector_only {s t : State} {vector w : Word} (hdb : Cell.db ∉ s.unwritten)
    (h : s.readVector vector = .ok (w, t)) : s.BusOnly t := by
  obtain ⟨⟨l, u⟩, h1, h⟩ := bind_ok h
  obtain ⟨⟨b, v⟩, h2, h⟩ := bind_ok h
  cases h
  have hu := State.busRead_only hdb h1
  exact hu.trans (State.busRead_only (hu.2 ▸ hdb) h2)

theorem State.readVector_completes {s : State} (vector : Word) (hdb : Cell.db ∉ s.unwritten) :
    ∃ w t, s.readVector vector = .ok (w, t) ∧ s.BusOnly t := by
  obtain ⟨l, h, t, u, h1, h2, hu⟩ := State.readPair_completes vector (vector + 1) hdb
  refine ⟨wordOf h l, u, ?_, hu⟩
  rw [State.readVector, h1, ok_bind]
  dsimp only
  rw [h2, ok_bind]

/-! ### Addressing modes -/

/-- An addressing mode reads only, and only the index register it names. -/
theorem resolve_only {m : MemMode} {s t : State} {r : Resolved} (hdb : Cell.db ∉ s.unwritten)
    (h : resolve m s = .ok (r, t)) : s.BusOnly t ∧ ∀ cell ∈ m.reads, cell ∉ s.unwritten := by
  cases m with
  | zpa zp => cases h; exact ⟨.refl s, by simp [MemMode.reads]⟩
  | abs addr => cases h; exact ⟨.refl s, by simp [MemMode.reads]⟩
  | zpx zp =>
    obtain ⟨x, hx, h⟩ := bind_ok h
    cases h
    exact ⟨.refl s, by simpa [MemMode.reads] using (readX_ok hx).1⟩
  | abx addr =>
    obtain ⟨x, hx, h⟩ := bind_ok h
    cases h
    exact ⟨.refl s, by simpa [MemMode.reads] using (readX_ok hx).1⟩
  | zpy zp =>
    obtain ⟨y, hy, h⟩ := bind_ok h
    cases h
    exact ⟨.refl s, by simpa [MemMode.reads] using (readY_ok hy).1⟩
  | aby addr =>
    obtain ⟨y, hy, h⟩ := bind_ok h
    cases h
    exact ⟨.refl s, by simpa [MemMode.reads] using (readY_ok hy).1⟩
  | izx ptr =>
    obtain ⟨x, hx, h⟩ := bind_ok h
    obtain ⟨⟨w, u⟩, hp, h⟩ := bind_ok h
    cases h
    exact ⟨State.readZeroPagePointer_only hdb hp, by simpa [MemMode.reads] using (readX_ok hx).1⟩
  | izy ptr =>
    obtain ⟨⟨w, u⟩, hp, h⟩ := bind_ok h
    obtain ⟨y, hy, h⟩ := bind_ok h
    cases h
    have hu := State.readZeroPagePointer_only hdb hp
    exact ⟨hu, by simpa [MemMode.reads, hu.2] using (readY_ok hy).1⟩

/-- An addressing mode completes once its index register and DB are written. -/
theorem resolve_completes {m : MemMode} {s : State} (hdb : Cell.db ∉ s.unwritten)
    (hm : ∀ cell ∈ m.reads, cell ∉ s.unwritten) : ∃ r t, resolve m s = .ok (r, t) ∧ s.BusOnly t := by
  cases m with
  | zpa zp => exact ⟨_, s, rfl, .refl s⟩
  | abs addr => exact ⟨_, s, rfl, .refl s⟩
  | zpx zp => exact ⟨Resolved.fixed (zext16 (zp + s.x)), s, by simp [resolve, readX_of_written (hm .x (by simp [MemMode.reads]))], .refl s⟩
  | abx addr => exact ⟨Resolved.indexed addr s.x, s, by simp [resolve, readX_of_written (hm .x (by simp [MemMode.reads]))], .refl s⟩
  | zpy zp => exact ⟨Resolved.fixed (zext16 (zp + s.y)), s, by simp [resolve, readY_of_written (hm .y (by simp [MemMode.reads]))], .refl s⟩
  | aby addr => exact ⟨Resolved.indexed addr s.y, s, by simp [resolve, readY_of_written (hm .y (by simp [MemMode.reads]))], .refl s⟩
  | izx ptr =>
    obtain ⟨w, t, h, ht⟩ := State.readZeroPagePointer_completes (ptr + s.x) hdb
    exact ⟨.fixed w, t, by simp [resolve, readX_of_written (hm .x (by simp [MemMode.reads])), h], ht⟩
  | izy ptr =>
    obtain ⟨w, t, h, ht⟩ := State.readZeroPagePointer_completes ptr hdb
    have hy : Cell.y ∉ t.unwritten := ht.2 ▸ hm .y (by simp [MemMode.reads])
    exact ⟨.indexed w t.y, t, by simp [resolve, readY_of_written hy, h], ht⟩

theorem accessMem_only {m : MemMode} {s t : State} {r : Resolved} {v : Byte} (hdb : Cell.db ∉ s.unwritten)
    (h : accessMem m s = .ok (r, v, t)) : s.BusOnly t ∧ ∀ cell ∈ m.reads, cell ∉ s.unwritten := by
  obtain ⟨⟨r, u⟩, hr, h⟩ := bind_ok h
  obtain ⟨⟨b, w⟩, hb, h⟩ := bind_ok h
  cases h
  obtain ⟨hu, hm⟩ := resolve_only hdb hr
  exact ⟨hu.trans (State.busRead_only (hu.2 ▸ hdb) hb), hm⟩

theorem accessMem_completes {m : MemMode} {s : State} (hdb : Cell.db ∉ s.unwritten)
    (hm : ∀ cell ∈ m.reads, cell ∉ s.unwritten) : ∃ r v t, accessMem m s = .ok (r, v, t) ∧ s.BusOnly t := by
  obtain ⟨r, u, hr, hu⟩ := resolve_completes hdb hm
  obtain ⟨v, t, hb, ht⟩ := State.busRead_only_completes r.ea (hu.2 ▸ hdb)
  exact ⟨r, v, t, by simp [accessMem, hr, hb], hu.trans ht⟩

theorem accessOperand_only {o : ReadOperand} {s t : State} {v : Byte} {crossed : Bool} (hdb : Cell.db ∉ s.unwritten)
    (h : accessOperand o s = .ok (v, crossed, t)) : s.BusOnly t ∧ ∀ cell ∈ o.reads, cell ∉ s.unwritten := by
  cases o with
  | imm value => cases h; exact ⟨.refl s, by simp [ReadOperand.reads]⟩
  | mem m =>
    obtain ⟨⟨r, b, u⟩, hr, h⟩ := bind_ok h
    cases h
    exact accessMem_only hdb hr

theorem accessOperand_completes {o : ReadOperand} {s : State} (hdb : Cell.db ∉ s.unwritten)
    (ho : ∀ cell ∈ o.reads, cell ∉ s.unwritten) :
    ∃ v crossed t, accessOperand o s = .ok (v, crossed, t) ∧ s.BusOnly t := by
  cases o with
  | imm value => exact ⟨value, false, s, rfl, .refl s⟩
  | mem m =>
    obtain ⟨r, v, t, h, ht⟩ := accessMem_completes hdb ho
    exact ⟨v, r.crossed, t, by simp [accessOperand, h], ht⟩

/-! ### The stack -/

/-- The record of unwritten cells after the cells `cs` are written. -/
def without (l : List Cell) (cs : List Cell) : List Cell := l.filter (fun cell => !cs.contains cell)

@[simp] theorem mem_without {l cs : List Cell} {cell : Cell} : cell ∈ without l cs ↔ cell ∈ l ∧ cell ∉ cs := by
  simp [without]

theorem without_without (l cs ds : List Cell) : without (without l cs) ds = without l (cs ++ ds) := by
  simp only [without, List.filter_filter]
  congr 1
  funext cell
  simp only [List.contains_eq_mem, List.mem_append, Bool.decide_or, Bool.not_or, Bool.and_comm]

/-- `s` but for SP, the bus latches, the calls on the devices and the record of unwritten cells. -/
def State.withStackOf (s t : State) : State := { s.withBusOf t with sp := t.sp }

/-- A push: one byte stored, SP one lower. -/
theorem State.push_spec (s : State) (v : Byte) :
    s.push v = { s.withStackOf (s.push v) with devices := s.devices.map (·.write (stackAddr s.sp) v) } ∧
      (s.push v).sp = s.sp - 1 ∧ (s.push v).rw = false ∧ (s.push v).db = v ∧
      (s.push v).unwritten = without (without s.unwritten [.db]) [.sp] :=
  ⟨rfl, rfl, rfl, rfl, rfl⟩

@[simp] theorem State.push_sp (s : State) (v : Byte) : (s.push v).sp = s.sp - 1 := rfl
@[simp] theorem State.push_p (s : State) (v : Byte) : (s.push v).p = s.p := rfl
@[simp] theorem State.push_a (s : State) (v : Byte) : (s.push v).a = s.a := rfl
@[simp] theorem State.push_x (s : State) (v : Byte) : (s.push v).x = s.x := rfl
@[simp] theorem State.push_y (s : State) (v : Byte) : (s.push v).y = s.y := rfl
@[simp] theorem State.push_pc (s : State) (v : Byte) : (s.push v).pc = s.pc := rfl
@[simp] theorem State.push_opc (s : State) (v : Byte) : (s.push v).opc = s.opc := rfl
@[simp] theorem State.push_pc0 (s : State) (v : Byte) : (s.push v).pc0 = s.pc0 := rfl
@[simp] theorem State.push_fault (s : State) (v : Byte) : (s.push v).fault = s.fault := rfl
@[simp] theorem State.push_jammed (s : State) (v : Byte) : (s.push v).jammed = s.jammed := rfl
@[simp] theorem State.push_params (s : State) (v : Byte) : (s.push v).params = s.params := rfl
@[simp] theorem State.push_entering (s : State) (v : Byte) : (s.push v).entering = s.entering := rfl
@[simp] theorem State.push_nmiPending (s : State) (v : Byte) : (s.push v).nmiPending = s.nmiPending := rfl
@[simp] theorem State.push_nmiAgain (s : State) (v : Byte) : (s.push v).nmiAgain = s.nmiAgain := rfl
@[simp] theorem State.push_irqLine (s : State) (v : Byte) : (s.push v).irqLine = s.irqLine := rfl
@[simp] theorem State.push_nmiLine (s : State) (v : Byte) : (s.push v).nmiLine = s.nmiLine := rfl
@[simp] theorem State.push_devices (s : State) (v : Byte) :
    (s.push v).devices = s.devices.map (·.write (stackAddr s.sp) v) := rfl
@[simp] theorem State.push_busLog (s : State) (v : Byte) :
    (s.push v).busLog = .write (stackAddr s.sp) v :: .setRw false :: s.busLog := rfl
@[simp] theorem State.push_unwritten (s : State) (v : Byte) :
    (s.push v).unwritten = without (without s.unwritten [.db]) [.sp] := rfl

theorem State.push_written {s : State} {cell : Cell} (v : Byte) (h : cell ∉ s.unwritten) :
    cell ∉ (s.push v).unwritten := by
  simp [h]

/-- After a push DB is written. -/
theorem State.push_db_written (s : State) (v : Byte) : Cell.db ∉ (s.push v).unwritten := by simp

/-- A pull: SP one higher, one read there. -/
theorem State.pull_spec {s t : State} {v : Byte} (h : s.pull = .ok (v, t)) :
    t = s.withStackOf t ∧ t.sp = s.sp + 1 ∧ (s.setSp (s.sp + 1)).busRead (stackAddr (s.sp + 1)) = .ok (v, t) ∧
      t.unwritten = without (without s.unwritten [.sp]) [.db] := by
  have h' : (s.setSp (s.sp + 1)).busRead (stackAddr (s.sp + 1)) = .ok (v, t) := h
  obtain ⟨ht, -, -, -, hu⟩ := State.busRead_ok h'
  refine ⟨?_, ?_, h', hu⟩
  · rw [ht]; rfl
  · rw [ht]; rfl

theorem State.pull_completes {s : State} (hdb : Cell.db ∉ s.unwritten) : ∃ v t, s.pull = .ok (v, t) :=
  State.busRead_completes _ (by simp [hdb])

/-- Where a plain RAM owns the stack byte, a pull answers what a peek answers. -/
theorem State.pull_of_peek {s : State} {v : Byte} (h : s.peek (stackAddr (s.sp + 1)) = some v) :
    ∃ t, s.pull = .ok (v, t) :=
  State.busRead_of_peek h

/-! ### Taking an exception -/

/-- The frame an exception pushes: the return address, high byte first, then P. -/
def State.frame (s : State) (returnTo : Word) (frameOf : Status → Byte) : State :=
  ((s.push (hiByte returnTo)).push (loByte returnTo)).push (frameOf s.p)

theorem State.frame_db_written (s : State) (returnTo : Word) (frameOf : Status → Byte) :
    Cell.db ∉ (s.frame returnTo frameOf).unwritten := by
  unfold State.frame
  exact State.push_db_written _ _

/-- Taking an exception is the read of P's flags, the frame, and the vector read. -/
theorem State.takeException_eq (s : State) (returnTo : Word) (frameOf : Status → Byte) (vector : Word) :
    s.takeException returnTo frameOf vector =
      (((s.push (hiByte returnTo)).push (loByte returnTo)).needStatus >>=
        fun _ => (s.frame returnTo frameOf).readVector vector) := by
  unfold State.takeException State.frame
  simp only [State.push_p]

theorem State.takeException_completes {s : State} (returnTo : Word) (frameOf : Status → Byte) (vector : Word)
    (h : ∀ cell ∈ statusCells, cell ∉ s.unwritten) :
    ∃ w t, s.takeException returnTo frameOf vector = .ok (w, t) ∧
      (s.frame returnTo frameOf).readVector vector = .ok (w, t) ∧ (s.frame returnTo frameOf).BusOnly t := by
  have hs : ((s.push (hiByte returnTo)).push (loByte returnTo)).needStatus = .ok () :=
    needStatus_of_written fun cell hc => State.push_written _ (State.push_written _ (h cell hc))
  obtain ⟨w, t, hv, ht⟩ := State.readVector_completes vector (State.frame_db_written s returnTo frameOf)
  exact ⟨w, t, by rw [State.takeException_eq, hs, ok_bind, hv], hv, ht⟩

theorem State.takeException_ok {s t : State} {returnTo vector w : Word} {frameOf : Status → Byte}
    (h : s.takeException returnTo frameOf vector = .ok (w, t)) :
    (∀ cell ∈ statusCells, cell ∉ ((s.push (hiByte returnTo)).push (loByte returnTo)).unwritten) ∧
      (s.frame returnTo frameOf).readVector vector = .ok (w, t) ∧ (s.frame returnTo frameOf).BusOnly t := by
  rw [State.takeException_eq] at h
  obtain ⟨u, hs, h⟩ := bind_ok h
  exact ⟨needStatus_ok hs, h, State.readVector_only (State.frame_db_written s returnTo frameOf) h⟩

end Sys2Proof.Machine
end

