-- ==== Sys2Proof/Laws/Decode.lean ====
section
/-! SUPPORT. The small lemmas of the decoder's parts: the byte-order helpers, the operation table, and the splitting
of a byte list into an opcode and its operand bytes. -/

namespace Sys2Proof

theorem wordOf_getLsbD (h l : Byte) (i : Nat) :
    (wordOf h l).getLsbD i = if i < 8 then l.getLsbD i else h.getLsbD (i - 8) := by
  rw [show (wordOf h l).getLsbD i = _ from BitVec.getLsbD_append]

@[simp] theorem loByte_wordOf (h l : Byte) : loByte (wordOf h l) = l := by
  apply BitVec.eq_of_getLsbD_eq
  intro i hi
  simp [loByte, wordOf_getLsbD, hi]

@[simp] theorem hiByte_wordOf (h l : Byte) : hiByte (wordOf h l) = h := by
  apply BitVec.eq_of_getLsbD_eq
  intro i hi
  simp [hiByte, wordOf_getLsbD, hi]

@[simp] theorem wordOf_hiByte_loByte (w : Word) : wordOf (hiByte w) (loByte w) = w := by
  apply BitVec.eq_of_getLsbD_eq
  intro i hi
  by_cases h : i < 8
  · simp [hiByte, loByte, wordOf_getLsbD, h]
  · simp [hiByte, loByte, wordOf_getLsbD, h, show i - 8 < 8 by omega, show 8 + (i - 8) = i by omega]

theorem operationRows_length :
    row0.length = 16 ∧ row1.length = 16 ∧ row2.length = 16 ∧ row3.length = 16 ∧ row4.length = 16 ∧ row5.length = 16 ∧
    row6.length = 16 ∧ row7.length = 16 ∧ row8.length = 16 ∧ row9.length = 16 ∧ rowA.length = 16 ∧ rowB.length = 16 ∧
    rowC.length = 16 ∧ rowD.length = 16 ∧ rowE.length = 16 ∧ rowF.length = 16 := by
  refine ⟨?_, ?_, ?_, ?_, ?_, ?_, ?_, ?_, ?_, ?_, ?_, ?_, ?_, ?_, ?_, ?_⟩ <;> rfl

/-- The table has an entry for every opcode byte (R120, R124). -/
theorem operationTable_length : operationTable.length = 256 := by
  simp only [operationTable, List.length_append, operationRows_length]

/-- So the default of `operation` is never taken. -/
theorem operation_eq (opcode : Byte) :
    operation opcode = operationTable[opcode.toNat]'(by rw [operationTable_length]; exact opcode.isLt) := by
  unfold operation
  rw [List.getD_eq_getElem]

/-- Every mode takes one, two or three bytes (R112). -/
theorem Mode.length_cases (m : Mode) : m.length = 1 ∨ m.length = 2 ∨ m.length = 3 := by
  cases m <;> simp [Mode.length]

theorem splitInstr_one {opcode : Byte} (h : (operation opcode).mode.length = 1) (rest : List Byte) :
    splitInstr opcode rest = some (0, 0, rest) := by
  simp [splitInstr, h]

theorem splitInstr_two {opcode : Byte} (h : (operation opcode).mode.length = 2) (b1 : Byte) (rest : List Byte) :
    splitInstr opcode (b1 :: rest) = some (b1, 0, rest) := by
  simp [splitInstr, h]

theorem splitInstr_three {opcode : Byte} (h : (operation opcode).mode.length = 3) (b1 b2 : Byte) (rest : List Byte) :
    splitInstr opcode (b1 :: b2 :: rest) = some (b1, b2, rest) := by
  simp [splitInstr, h]

/-- A decoded list is an opcode byte, the operand bytes its mode takes, and the rest. -/
theorem decode_ok {bs rest : List Byte} {i : Instr} (h : decode bs = .ok (i, rest)) :
    ∃ opcode tail b1 b2, bs = opcode :: tail ∧ splitInstr opcode tail = some (b1, b2, rest) ∧
      decodeBytes opcode b1 b2 = some i := by
  cases bs with
  | nil => cases h
  | cons opcode tail =>
    simp only [decode] at h
    split at h
    · cases h
    · rename_i b1 b2 rest' hs
      split at h
      · rename_i j hj
        cases h
        exact ⟨opcode, tail, b1, b2, rfl, hs, hj⟩
      · cases h

end Sys2Proof
end

