-- ==== Sys2Proof/Laws/Exec.lean ====
section
/-! SUPPORT. What each way of running an instruction can do: one lemma per skeleton (read, write, read-modify-write,
implied), each giving the next state from what the mode and the operation answer. -/

namespace Sys2Proof.Machine

/-! ### Bookkeeping -/

/-- `u` is `r` but for the bookkeeping. -/
def State.Agrees (r u : State) : Prop := u = r.withBookkeepingOf u

theorem State.Agrees.complete {r u : State} (h : r.Agrees u) (n : Nat) : r.Agrees (u.complete n) := by
  unfold State.Agrees at h ⊢
  rw [h]
  rfl

theorem State.BusOnly.agrees {s t : State} (h : s.BusOnly t) : s.Agrees t := by
  unfold State.Agrees
  rw [h.1]
  rfl

/-- A state that agrees with `s` but for a byte stored. -/
theorem State.Agrees.stored {r u : State} (h : r.Agrees u) (a : Word) (v : Byte) :
    State.Agrees { r with devices := storeTo r.devices (a, v) } (u.busWrite a v) := by
  unfold State.Agrees at h ⊢
  rw [h]
  rfl

/-- What agreement says of each field. -/
theorem State.Agrees.fields {r u : State} (h : r.Agrees u) :
    u.a = r.a ∧ u.x = r.x ∧ u.y = r.y ∧ u.sp = r.sp ∧ u.pc = r.pc ∧ u.p = r.p ∧ u.opc = r.opc ∧ u.pc0 = r.pc0 ∧
      u.devices = r.devices ∧ u.params = r.params ∧ u.fault = r.fault ∧ u.jammed = r.jammed ∧
      u.irqLine = r.irqLine ∧ u.nmiLine = r.nmiLine ∧ u.nmiPending = r.nmiPending := by
  rw [h]
  exact ⟨rfl, rfl, rfl, rfl, rfl, rfl, rfl, rfl, rfl, rfl, rfl, rfl, rfl, rfl, rfl⟩

/-! What each update does to a state that agrees with `r`. -/

theorem State.Agrees.setA {r u : State} (h : r.Agrees u) (v : Byte) :
    State.Agrees { r with a := v } (u.setA v) := by
  unfold State.Agrees at h ⊢
  rw [h]
  rfl

theorem State.Agrees.setX {r u : State} (h : r.Agrees u) (v : Byte) :
    State.Agrees { r with x := v } (u.setX v) := by
  unfold State.Agrees at h ⊢
  rw [h]
  rfl

theorem State.Agrees.setY {r u : State} (h : r.Agrees u) (v : Byte) :
    State.Agrees { r with y := v } (u.setY v) := by
  unfold State.Agrees at h ⊢
  rw [h]
  rfl

theorem State.Agrees.setSp {r u : State} (h : r.Agrees u) (v : Byte) :
    State.Agrees { r with sp := v } (u.setSp v) := by
  unfold State.Agrees at h ⊢
  rw [h]
  rfl

theorem State.Agrees.setPc {r u : State} (h : r.Agrees u) (v : Word) :
    State.Agrees { r with pc := v } (u.setPc v) := by
  unfold State.Agrees at h ⊢
  rw [h]
  rfl

theorem State.Agrees.setC {r u : State} (h : r.Agrees u) (f : Bool) :
    State.Agrees { r with p := { r.p with c := f } } (u.setC f) := by
  unfold State.Agrees at h ⊢
  rw [h]
  rfl

theorem State.Agrees.setV {r u : State} (h : r.Agrees u) (f : Bool) :
    State.Agrees { r with p := { r.p with v := f } } (u.setV f) := by
  unfold State.Agrees at h ⊢
  rw [h]
  rfl

theorem State.Agrees.setD {r u : State} (h : r.Agrees u) (f : Bool) :
    State.Agrees { r with p := { r.p with d := f } } (u.setD f) := by
  unfold State.Agrees at h ⊢
  rw [h]
  rfl

theorem State.Agrees.setB {r u : State} (h : r.Agrees u) (f : Bool) :
    State.Agrees { r with p := { r.p with b := f } } (u.setB f) := by
  unfold State.Agrees at h ⊢
  rw [h]
  rfl

theorem State.Agrees.setI {r u : State} (h : r.Agrees u) (f : Bool) :
    State.Agrees { r with p := { r.p with i := f } } (u.setI f) := by
  unfold State.Agrees at h ⊢
  rw [h]
  rfl

theorem State.Agrees.setNZ {r u : State} (h : r.Agrees u) (v : Byte) :
    State.Agrees { r with p := r.p.withNZ v } (u.setNZ v) := by
  unfold State.Agrees at h ⊢
  rw [h]
  rfl

theorem State.Agrees.setFlagsNZ {r u : State} (h : r.Agrees u) (n z : Bool) :
    State.Agrees { r with p := { r.p with n := n, z := z } } (u.setFlagsNZ n z) := by
  unfold State.Agrees at h ⊢
  rw [h]
  rfl

theorem State.Agrees.setStatus {r u : State} (h : r.Agrees u) (q : Status) :
    State.Agrees { r with p := q } (u.setStatus q) := by
  unfold State.Agrees at h ⊢
  rw [h]
  rfl

theorem State.Agrees.setSum {r u : State} (h : r.Agrees u) (q : Sum) :
    State.Agrees { r with a := q.r, p := { r.p.withNZ q.r with c := q.c, v := q.v } } (u.setSum q) := by
  unfold State.Agrees at h ⊢
  rw [h]
  rfl

theorem State.Agrees.compare {r u : State} (h : r.Agrees u) (x m : Byte) :
    State.Agrees { r with p := { r.p.withNZ (x - m) with c := decide (m.toNat ≤ x.toNat) } } (u.compare x m) := by
  unfold State.Agrees at h ⊢
  rw [h]
  rfl

/-- A push stores one byte and lowers SP. -/
theorem State.Agrees.push {r u : State} (h : r.Agrees u) (v : Byte) :
    State.Agrees { r with sp := r.sp - 1, devices := storeTo r.devices (stackAddr r.sp, v) } (u.push v) := by
  unfold State.Agrees at h ⊢
  rw [h]
  rfl

/-- A bus read changes the bookkeeping only. -/
theorem State.Agrees.busRead {r u t : State} (h : r.Agrees u) {a : Word} {v : Byte} (hr : u.busRead a = .ok (v, t)) :
    r.Agrees t := by
  obtain ⟨ht, -⟩ := State.busRead_ok hr
  unfold State.Agrees at h ⊢
  rw [ht, h]
  rfl

/-- A pull raises SP and changes the bookkeeping only. -/
theorem State.Agrees.pull {r u t : State} (h : r.Agrees u) {v : Byte} (hp : u.pull = .ok (v, t)) :
    State.Agrees { r with sp := r.sp + 1 } t := by
  obtain ⟨ht, hsp, -⟩ := State.pull_spec hp
  have hs : u.sp = r.sp := h.fields.2.2.2.1
  rw [hs] at hsp
  unfold State.Agrees at h ⊢
  rw [← hsp, ht, h]
  rfl

theorem State.Agrees.refl (s : State) : s.Agrees s := rfl

theorem State.Agrees.trans {r u v : State} (h : r.Agrees u) (g : u.Agrees v) : r.Agrees v := by
  unfold State.Agrees at h g ⊢
  rw [g, h]
  rfl

/-- An addressing mode changes the bookkeeping only, whatever is unwritten. -/
theorem resolve_agrees {m : MemMode} {s t : State} {r : Resolved} (h : resolve m s = .ok (r, t)) : s.Agrees t := by
  have pointer : ∀ {p : Byte} {w : Word} {u : State}, s.readZeroPagePointer p = .ok (w, u) → s.Agrees u := by
    intro p w u hp
    obtain ⟨⟨l, a⟩, h1, hp⟩ := bind_ok hp
    obtain ⟨⟨b, c⟩, h2, hp⟩ := bind_ok hp
    cases hp
    exact ((State.Agrees.refl s).busRead h1).busRead h2
  cases m with
  | zpa zp => cases h; exact .refl s
  | abs addr => cases h; exact .refl s
  | zpx zp => obtain ⟨x, hx, h⟩ := bind_ok h; cases h; exact .refl s
  | abx addr => obtain ⟨x, hx, h⟩ := bind_ok h; cases h; exact .refl s
  | zpy zp => obtain ⟨y, hy, h⟩ := bind_ok h; cases h; exact .refl s
  | aby addr => obtain ⟨y, hy, h⟩ := bind_ok h; cases h; exact .refl s
  | izx ptr =>
    obtain ⟨x, hx, h⟩ := bind_ok h
    obtain ⟨⟨w, u⟩, hp, h⟩ := bind_ok h
    cases h
    exact pointer hp
  | izy ptr =>
    obtain ⟨⟨w, u⟩, hp, h⟩ := bind_ok h
    obtain ⟨y, hy, h⟩ := bind_ok h
    cases h
    exact pointer hp

/-! ### Bytes stored -/

theorem State.peek_congr {s t : State} (h : t.devices = s.devices) (a : Word) : t.peek a = s.peek a :=
  State.peek_setter h a

/-- Bytes stored one after the other leave every other address alone. -/
theorem State.peek_stored_other {s : State} {stored : List (Word × Byte)} {b : Word} (h : ∀ w ∈ stored, b ≠ w.1) :
    State.peek { s with devices := stored.foldl storeTo s.devices } b = s.peek b := by
  induction stored generalizing s with
  | nil => rfl
  | cons w rest ih =>
    have h1 : State.peek { s with devices := storeTo s.devices w } b = s.peek b :=
      State.peek_write_other (a := w.1) (v := w.2) rfl (h w (by simp))
    have h2 := ih (s := { s with devices := storeTo s.devices w }) (fun v hv => h v (by simp [hv]))
    exact h2.trans h1

/-- Bytes stored at distinct addresses are what those addresses answer. -/
theorem State.peek_stored {s : State} {stored : List (Word × Byte)} (hwf : devicesWf s.devices = true)
    (hd : stored.Pairwise (fun v w => v.1 ≠ w.1)) {w : Word × Byte} (hw : w ∈ stored) (hp : (s.peek w.1).isSome) :
    State.peek { s with devices := stored.foldl storeTo s.devices } w.1 = some w.2 := by
  induction stored generalizing s with
  | nil => cases hw
  | cons v rest ih =>
    have hwf' : devicesWf (storeTo s.devices v) = true := devicesWf_write v.1 v.2 hwf
    obtain ⟨hv, hrest⟩ := List.pairwise_cons.1 hd
    rcases List.mem_cons.1 hw with rfl | hw
    · obtain ⟨x, hx⟩ := Option.isSome_iff_exists.1 hp
      have h1 : State.peek { s with devices := storeTo s.devices w } w.1 = some w.2 :=
        State.peek_write_same (a := w.1) (v := w.2) hwf rfl hx
      have h2 := State.peek_stored_other (s := { s with devices := storeTo s.devices w }) (stored := rest)
        (b := w.1) (fun z hz => hv z hz)
      exact h2.trans h1
    · have hne : w.1 ≠ v.1 := fun e => hv w hw e.symm
      have h1 : State.peek { s with devices := storeTo s.devices v } w.1 = s.peek w.1 :=
        State.peek_write_other (a := v.1) (v := v.2) rfl hne
      exact ih (s := { s with devices := storeTo s.devices v }) hwf' hrest hw (h1 ▸ hp)

/-- An outcome leads to `r` when it is a next state that agrees with `r` and its stores, at distinct addresses. -/
theorem LeadsTo.intro {outcome : Host.Outcome State Fault Refusal} {s r u : State} {stored : List (Word × Byte)}
    (h : outcome = .next u) (hu : State.Agrees { r with devices := stored.foldl storeTo s.devices } u)
    (hd : stored.Pairwise (fun v w => v.1 ≠ w.1)) : LeadsTo outcome s r stored := by
  have hdev : u.devices = stored.foldl storeTo s.devices := hu.fields.2.2.2.2.2.2.2.2.1
  have hpeek : ∀ b, u.peek b = State.peek { s with devices := stored.foldl storeTo s.devices } b :=
    fun b => State.peek_congr hdev b
  refine ⟨u, h, hu, fun b hb => ?_, fun hwf w hw hp => ?_⟩
  · rw [hpeek, State.peek_stored_other hb]
  · rw [hpeek, State.peek_stored hwf hd hw hp]

/-! ### The four skeletons -/

theorem readInstr_next {o : ReadOperand} {op : Byte → State → Except Fault State} {s t w : State} {v : Byte}
    {crossed : Bool} (ha : accessOperand o s = .ok (v, crossed, t)) (hop : op v t = .ok w) :
    readInstr o op s = .next (w.complete (w.clocks crossed)) := by
  simp [readInstr, ha, hop]

theorem writeInstr_next {m : MemMode} {value : State → Except Fault Byte} {s t : State} {r : Resolved} {v : Byte}
    (hr : resolve m s = .ok (r, t)) (hv : value t = .ok v) :
    writeInstr m value s = .next ((t.busWrite r.ea v).complete ((t.busWrite r.ea v).clocks r.crossed)) := by
  simp [writeInstr, hr, hv]

theorem rmwInstr_next {m : MemMode} {op : Word → Byte → State → Except Fault State} {s t w : State} {r : Resolved}
    {v : Byte} (ha : accessMem m s = .ok (r, v, t)) (hop : op r.ea v t = .ok w) :
    rmwInstr m op s = .next (w.complete (w.clocks r.crossed)) := by
  simp [rmwInstr, ha, hop]

theorem impliedInstr_next {op : State → Except Fault State} {s w : State} (hop : op s = .ok w) :
    impliedInstr op s = .next (w.complete (w.clocks false)) := by
  simp [impliedInstr, hop]

/-- A read instruction completes only through its access and its operation. -/
theorem readInstr_ok {o : ReadOperand} {op : Byte → State → Except Fault State} {s u : State}
    (h : readInstr o op s = .next u) :
    ∃ v crossed t w, accessOperand o s = .ok (v, crossed, t) ∧ op v t = .ok w ∧
      u = w.complete (w.clocks crossed) := by
  rw [readInstr, finish_next] at h
  obtain ⟨⟨v, crossed, t⟩, ha, h⟩ := bind_ok h
  obtain ⟨w, hop, h⟩ := bind_ok h
  cases h
  exact ⟨v, crossed, t, w, ha, hop, rfl⟩

theorem writeInstr_ok {m : MemMode} {value : State → Except Fault Byte} {s u : State}
    (h : writeInstr m value s = .next u) :
    ∃ r t v, resolve m s = .ok (r, t) ∧ value t = .ok v ∧
      u = (t.busWrite r.ea v).complete ((t.busWrite r.ea v).clocks r.crossed) := by
  rw [writeInstr, finish_next] at h
  obtain ⟨⟨r, t⟩, hr, h⟩ := bind_ok h
  obtain ⟨v, hv, h⟩ := bind_ok h
  cases h
  exact ⟨r, t, v, hr, hv, rfl⟩

theorem rmwInstr_ok {m : MemMode} {op : Word → Byte → State → Except Fault State} {s u : State}
    (h : rmwInstr m op s = .next u) :
    ∃ r v t w, accessMem m s = .ok (r, v, t) ∧ op r.ea v t = .ok w ∧ u = w.complete (w.clocks r.crossed) := by
  rw [rmwInstr, finish_next] at h
  obtain ⟨⟨r, v, t⟩, ha, h⟩ := bind_ok h
  obtain ⟨w, hop, h⟩ := bind_ok h
  cases h
  exact ⟨r, v, t, w, ha, hop, rfl⟩

theorem impliedInstr_ok {op : State → Except Fault State} {s u : State} (h : impliedInstr op s = .next u) :
    ∃ w, op s = .ok w ∧ u = w.complete (w.clocks false) := by
  rw [impliedInstr, finish_next] at h
  obtain ⟨w, hop, h⟩ := bind_ok h
  cases h
  exact ⟨w, hop, rfl⟩

/-- A read instruction, by what its operation does to any state that agrees with `s`. -/
theorem LeadsTo.read {o : ReadOperand} {op : Byte → State → Except Fault State} {s r t w : State} {v : Byte}
    {crossed : Bool} (ha : accessOperand o s = .ok (v, crossed, t)) (hop : op v t = .ok w)
    (hw : State.Agrees { r with devices := s.devices } w) : LeadsTo (readInstr o op s) s r [] :=
  .intro (readInstr_next ha hop) (hw.complete _) .nil

/-- A read instruction on an immediate. -/
theorem LeadsTo.readImm {v : Byte} {op : Byte → State → Except Fault State} {s r w : State} (hop : op v s = .ok w)
    (hw : State.Agrees { r with devices := s.devices } w) : LeadsTo (readInstr (.imm v) op s) s r [] :=
  .read (o := .imm v) (t := s) (crossed := false) rfl hop hw

/-- A read instruction without an immediate form. -/
theorem LeadsTo.readMem {m : MemMode} {op : Byte → State → Except Fault State} {s r t w : State} {v : Byte}
    {q : Resolved} (ha : accessMem m s = .ok (q, v, t)) (hop : op v t = .ok w)
    (hw : State.Agrees { r with devices := s.devices } w) : LeadsTo (readInstr (.mem m) op s) s r [] :=
  .read (crossed := q.crossed) (by simp [accessOperand, ha]) hop hw

/-- A write instruction stores its value at the effective address and changes nothing else. -/
theorem LeadsTo.write {m : MemMode} {value : State → Except Fault Byte} {s t : State} {r : Resolved} {v : Byte}
    (hr : resolve m s = .ok (r, t)) (hv : value t = .ok v) (ht : s.BusOnly t) :
    LeadsTo (writeInstr m value s) s s [(r.ea, v)] :=
  .intro (writeInstr_next hr hv) ((ht.agrees.stored r.ea v).complete _) (List.pairwise_singleton _ _)

/-- A read-modify-write instruction. -/
theorem LeadsTo.modify {m : MemMode} {op : Word → Byte → State → Except Fault State} {s r t w : State} {q : Resolved}
    {v b : Byte} (ha : accessMem m s = .ok (q, v, t)) (hop : op q.ea v t = .ok w)
    (hw : State.Agrees { r with devices := storeTo s.devices (q.ea, b) } w) :
    LeadsTo (rmwInstr m op s) s r [(q.ea, b)] :=
  .intro (rmwInstr_next ha hop) (hw.complete _) (List.pairwise_singleton _ _)

/-- An implied instruction that stores nothing. -/
theorem LeadsTo.implied {op : State → Except Fault State} {s r w : State} (hop : op s = .ok w)
    (hw : State.Agrees { r with devices := s.devices } w) : LeadsTo (impliedInstr op s) s r [] :=
  .intro (impliedInstr_next hop) (hw.complete _) .nil

/-- An implied instruction that pushes. -/
theorem LeadsTo.pushes {op : State → Except Fault State} {s r w : State} {stored : List (Word × Byte)}
    (hop : op s = .ok w) (hw : State.Agrees { r with devices := stored.foldl storeTo s.devices } w)
    (hd : stored.Pairwise (fun v w => v.1 ≠ w.1)) : LeadsTo (impliedInstr op s) s r stored :=
  .intro (impliedInstr_next hop) (hw.complete _) hd

/-! ### The rotates -/

theorem rolByte_eq (m : Byte) (c : Bool) :
    rolByte m c = ((m <<< 1) ||| (if c then 0x01#8 else 0x00#8), m.getLsbD 7) := by
  cases c <;> rfl

theorem rorByte_eq (m : Byte) (c : Bool) :
    rorByte m c = ((if c then 0x80#8 else 0x00#8) ||| (m >>> 1), m.getLsbD 0) := by
  cases c <;> rfl

/-! ### Stack addresses -/

theorem stackAddr_toNat (sp : Byte) : (stackAddr sp).toNat = 0x0100 + sp.toNat := by
  have h : stackAddr sp = 0x0100#16 + zext16 sp := by revert sp; decide
  rw [h, BitVec.toNat_add]
  have := sp.isLt
  simp [zext16]
  omega

theorem stackAddr_inj {p q : Byte} (h : stackAddr p = stackAddr q) : p = q := by
  have := congrArg BitVec.toNat h
  simp only [stackAddr_toNat] at this
  exact BitVec.eq_of_toNat_eq (by omega)

/-- The stack page and the vectors do not meet. -/
theorem stackAddr_lt (sp : Byte) : (stackAddr sp).toNat < 0x0200 := by
  rw [stackAddr_toNat]
  have := sp.isLt
  omega

/-- The three addresses of an exception frame are distinct. -/
theorem frame_distinct (sp u v w : Byte) :
    ([(stackAddr sp, u), (stackAddr (sp - 1), v), (stackAddr (sp - 2), w)] : List (Word × Byte)).Pairwise
      (fun v w => v.1 ≠ w.1) := by
  have h1 : stackAddr sp ≠ stackAddr (sp - 1) := fun h => absurd (stackAddr_inj h) (by revert sp; decide)
  have h2 : stackAddr sp ≠ stackAddr (sp - 2) := fun h => absurd (stackAddr_inj h) (by revert sp; decide)
  have h3 : stackAddr (sp - 1) ≠ stackAddr (sp - 2) := fun h => absurd (stackAddr_inj h) (by revert sp; decide)
  simp only [List.pairwise_cons, List.mem_cons, List.not_mem_nil, or_false, forall_eq_or_imp, forall_eq]
  exact ⟨⟨h1, h2⟩, h3, fun _ h => h.elim, .nil⟩

theorem pair_distinct (sp u v : Byte) :
    ([(stackAddr sp, u), (stackAddr (sp - 1), v)] : List (Word × Byte)).Pairwise (fun v w => v.1 ≠ w.1) := by
  have h1 : stackAddr sp ≠ stackAddr (sp - 1) := fun h => absurd (stackAddr_inj h) (by revert sp; decide)
  simp only [List.pairwise_cons, List.mem_cons, List.not_mem_nil, or_false, forall_eq]
  exact ⟨h1, fun _ h => h.elim, .nil⟩

/-! ### Subroutine calls and exceptions -/

/-- Two pushes, one after the other. -/
theorem State.Agrees.pushPair {r u : State} (h : r.Agrees u) (v w : Byte) :
    State.Agrees { r with sp := r.sp - 2,
                          devices := [(stackAddr r.sp, v), (stackAddr (r.sp - 1), w)].foldl storeTo r.devices }
      ((u.push v).push w) := by
  have e : r.sp - 1 - 1 = r.sp - 2 := by generalize r.sp = q; revert q; decide
  have h2 := (h.push v).push w
  dsimp only at h2
  rw [e] at h2
  exact h2

/-- The frame of an exception: three pushes. -/
theorem State.Agrees.frame {r u : State} (h : r.Agrees u) (returnTo : Word) (frameOf : Status → Byte) :
    State.Agrees
      { r with sp := r.sp - 3,
               devices := [(stackAddr r.sp, hiByte returnTo), (stackAddr (r.sp - 1), loByte returnTo),
                 (stackAddr (r.sp - 2), frameOf r.p)].foldl storeTo r.devices }
      (u.frame returnTo frameOf) := by
  have e : r.sp - 2 - 1 = r.sp - 3 := by generalize r.sp = q; revert q; decide
  have hp : u.p = r.p := h.fields.2.2.2.2.2.1
  have h2 := (h.pushPair (hiByte returnTo) (loByte returnTo)).push (frameOf r.p)
  dsimp only at h2
  rw [e] at h2
  unfold State.frame
  rw [hp]
  exact h2

/-- What JSR does once its high operand byte is read. -/
theorem jsrOp_eq {s t : State} {low high : Byte}
    (h : ((s.push (hiByte s.pc)).push (loByte s.pc)).busRead s.pc = .ok (high, t)) :
    jsrOp low s = .ok (t.setPc (wordOf high low)) := by
  unfold jsrOp
  simp only [State.push_pc]
  rw [h]
  rfl

/-! ### Branch targets -/

/-- The branch target is PC plus the signed offset, modulo 2^16. -/
theorem branchTarget_toNat (pc : Word) (off : Byte) :
    ((branchTarget pc off).toNat : Int) = ((pc.toNat : Int) + off.toInt) % 65536 := by
  have h : (sext16 off).toInt = off.toInt := by revert off; decide
  have h2 : ((sext16 off).toNat : Int) % 65536 = off.toInt % 65536 := by
    rw [← h, BitVec.toInt_eq_toNat_cond]
    split <;> omega
  unfold branchTarget
  rw [BitVec.toNat_add]
  omega

/-! ### Completion -/

/-- The two previous counts add up to the clocks consumed. -/
theorem State.complete_sum (s : State) (n : Nat) :
    (s.complete n).prevAmCycles + (s.complete n).prevOpCycles = n := by
  have h : Config.cycleSplit s.internalDraws % (n + 1) < n + 1 := Nat.mod_lt _ (Nat.succ_pos n)
  show Config.cycleSplit s.internalDraws % (n + 1) + (n - Config.cycleSplit s.internalDraws % (n + 1)) = n
  omega

/-- What completion leaves in the driver. -/
theorem State.complete_driver (s : State) (n : Nat) :
    (s.complete n).ab = (s.complete n).pc ∧ (s.complete n).amip = false ∧ (s.complete n).opip = false ∧
      (s.complete n).amCycle = 0 ∧ (s.complete n).opCycle = 0 ∧ (s.complete n).entering = none ∧
      (s.complete n).unwritten = s.unwritten ∧ (s.complete n).db = s.db ∧ (s.complete n).rw = s.rw :=
  ⟨rfl, rfl, rfl, rfl, rfl, rfl, rfl, rfl, rfl⟩

end Sys2Proof.Machine
end

