-- ==== Sys2Proof/Laws/Step.lean ====
section
/-! SUPPORT. What a fetch, a step and a clock can do, said once each: the inversion lemmas of `step` and of `clock`, the
state a fetch leaves, and the driver's counters between the clocks of an instruction. -/

namespace Sys2Proof.Machine

/-- `x ∈ l.filter (not contained in cs)`, as the cells of `wrote` say it. -/
theorem mem_wrote {s : State} {cs : List Cell} {cell : Cell} :
    cell ∈ (s.wrote cs).unwritten ↔ cell ∈ s.unwritten ∧ cell ∉ cs := by
  simp [State.wrote]

/-! ### The fetch -/

/-- A fetched byte: a bus read at PC, and PC one further. -/
theorem State.fetchByte_ok {s t : State} {v : Byte} (h : s.fetchByte = .ok (v, t)) :
    ∃ u, s.busRead s.pc = .ok (v, u) ∧ t = u.setPc (s.pc + 1) := by
  obtain ⟨⟨w, u⟩, hr, h⟩ := bind_ok h
  cases h
  obtain ⟨hu, -⟩ := State.busRead_ok hr
  refine ⟨u, hr, ?_⟩
  rw [show u.pc = s.pc by rw [hu]; rfl]

/-- The opcode fetch (R143): a byte read at PC, latched with its address. -/
theorem State.fetchOpcode_ok {s t : State} {v : Byte} (h : s.fetchOpcode = .ok (v, t)) :
    ∃ u, State.fetchByte { s with pc0 := s.pc } = .ok (v, u) ∧
      t = { u.wrote [.opc] with opc := v, amCycle := 0, opCycle := 0, amip := true } := by
  obtain ⟨⟨w, u⟩, hr, h⟩ := bind_ok h
  cases h
  exact ⟨u, hr, rfl⟩

/-- The instruction of a fetch is what the decoder makes of the opcode byte and two bytes. -/
theorem State.fetchInstr_ok {s t : State} {o : Option Instr} (h : s.fetchInstr = .ok (o, t)) :
    ∃ opcode u, s.fetchOpcode = .ok (opcode, u) ∧ u.fetchOperands opcode = .ok (o, t) := by
  obtain ⟨⟨w, u⟩, hr, h⟩ := bind_ok h
  exact ⟨w, u, hr, h⟩

theorem State.fetchOperands_ok {s t : State} {opcode : Byte} {o : Option Instr}
    (h : s.fetchOperands opcode = .ok (o, t)) :
    ∃ b1 b2, o = decodeBytes opcode b1 b2 ∧
      (((operation opcode).mode.length = 1 ∧ t = s) ∨
        (∃ u, (operation opcode).mode.length = 2 ∧ s.fetchByte = .ok (b1, u) ∧ t = u) ∨
        (∃ u v, (operation opcode).mode.length = 3 ∧ (operation opcode).mnemonic = .JSR ∧
          s.fetchByte = .ok (b1, u) ∧ u.busRead u.pc = .ok (b2, v) ∧ t = u) ∨
        (∃ u, (operation opcode).mode.length = 3 ∧ (operation opcode).mnemonic ≠ .JSR ∧
          s.fetchByte = .ok (b1, u) ∧ u.fetchByte = .ok (b2, t))) := by
  unfold State.fetchOperands at h
  split at h
  · rename_i hl
    cases h
    exact ⟨0, 0, rfl, .inl ⟨hl, rfl⟩⟩
  · rename_i hl
    obtain ⟨⟨b1, u⟩, h1, h⟩ := bind_ok h
    cases h
    exact ⟨b1, 0, rfl, .inr (.inl ⟨t, hl, h1, rfl⟩)⟩
  · rename_i hl1 hl2
    have hl : (operation opcode).mode.length = 3 := by
      rcases Mode.length_cases (operation opcode).mode with h | h | h
      · exact absurd h hl1
      · exact absurd h hl2
      · exact h
    obtain ⟨⟨b1, u⟩, h1, h⟩ := bind_ok h
    dsimp only at h
    split at h
    · rename_i hj
      obtain ⟨⟨b2, v⟩, h2, h⟩ := bind_ok h
      cases h
      exact ⟨b1, b2, rfl, .inr (.inr (.inl ⟨t, v, hl, hj, h1, h2, rfl⟩))⟩
    · rename_i hj
      obtain ⟨⟨b2, v⟩, h2, h⟩ := bind_ok h
      cases h
      exact ⟨b1, b2, rfl, .inr (.inr (.inr ⟨u, hl, hj, h1, h2⟩))⟩

/-! ### The step -/

/-- Everything a step with a next state can be: an interrupt entry, or the execution of the instruction fetched at PC,
each in the state with R and I forced. -/
theorem step_cases {s t : State} (h : step s = .next t) :
    Cell.pc ∉ s.unwritten ∧ s.fault = .none ∧ s.jammed = false ∧ s.idle = true ∧
      ((∃ k, s.force.interruptTaken = some k ∧ s.force.enterInterrupt k = .ok t) ∨
        (s.force.interruptTaken = none ∧ ∃ i u, s.force.fetchInstr = .ok (some i, u) ∧ exec i u = .next t)) := by
  unfold step at h
  split at h
  · cases h
  · rename_i hpc
    split at h
    · cases h
    · rename_i hf
      refine ⟨by simpa using hpc, by simpa using hf, ?_⟩
      split at h
      · cases h
      · rename_i hj
        split at h
        · rename_i hi
          refine ⟨by simpa using hj, hi, ?_⟩
          unfold stepIdle at h
          split at h
          · rename_i k hk
            exact .inl ⟨k, hk, finish_next.1 h⟩
          · rename_i hk
            split at h
            · cases h
            · rename_i i u hu
              exact .inr ⟨hk, i, u, hu, h⟩
            · cases h
        · cases h

/-- With I forced, the only interrupt a boundary takes is a pending NMI (R411). -/
theorem State.force_interruptTaken (s : State) :
    s.force.interruptTaken = if s.params.irqNmiPresent && s.nmiPending then some .nmi else none := by
  simp [State.interruptTaken, State.force]

theorem step_of_running {s : State} (hpc : Cell.pc ∉ s.unwritten) (hf : s.fault = .none) (hj : s.jammed = false)
    (hi : s.idle = true) : step s = stepIdle s.force := by
  simp [step, hpc, hf, hj, hi]

/-! ### The clock -/

theorem clock_of_jammed {s : State} (hpc : Cell.pc ∉ s.unwritten) (hf : s.fault = .none) (hj : s.jammed = true) :
    clock s = .next s.force := by
  simp [clock, hpc, hf, hj]

theorem clock_of_fetch {s : State} (hpc : Cell.pc ∉ s.unwritten) (hf : s.fault = .none) (hj : s.jammed = false)
    (hi : s.idle = true) (hn : s.force.interruptTaken = none) : clock s = finish s.force.firstClock := by
  simp [clock, hpc, hf, hj, hi, hn]

theorem clock_of_interrupt {s : State} {k : Interrupt} (hpc : Cell.pc ∉ s.unwritten) (hf : s.fault = .none)
    (hj : s.jammed = false) (hi : s.idle = true) (hk : s.force.interruptTaken = some k) :
    clock s = .next (s.force.firstInterruptClock k) := by
  simp [clock, hpc, hf, hj, hi, hk]

theorem clock_of_flight {s : State} (hpc : Cell.pc ∉ s.unwritten) (hf : s.fault = .none) (hj : s.jammed = false)
    (hi : s.idle = false) : clock s = s.force.laterClock := by
  simp [clock, hpc, hf, hj, hi]

/-- The two counters add up to the clocks performed, however they split (R52). -/
@[simp] theorem State.performed_setPerformed (s : State) (k : Nat) : (s.setPerformed k).performed = k := by
  simp only [State.performed, State.setPerformed]
  exact Nat.add_sub_cancel' (Nat.le_of_lt_succ (Nat.mod_lt _ (Nat.succ_pos k)))

@[simp] theorem State.performed_setFlight (s : State) : s.setFlight.performed = s.performed := rfl

@[simp] theorem State.performed_force (s : State) : s.force.performed = s.performed := rfl

/-- After an intermediate clock the core is not idle (R145). -/
@[simp] theorem State.setFlight_idle (s : State) : s.setFlight.idle = false := by
  simp only [State.idle, State.setFlight]
  cases Config.flightAmip s.internalDraws <;> simp

/-- An intermediate clock: the micro-operation of the schedule, and one more clock performed. -/
theorem State.laterClock_more {s t : State} {m : MicroOp} (hm : s.microOp (s.performed + 1) = some m)
    (hr : m.run (operation s.opc) s = some (.ok ⟨t, false⟩)) :
    s.laterClock = .next (t.setPerformed (s.performed + 1)).setFlight := by
  simp [State.laterClock, hm, hr]

/-- The last clock: the micro-operation, and `Complete()`. -/
theorem State.laterClock_last {s t : State} {m : MicroOp} (hm : s.microOp (s.performed + 1) = some m)
    (hr : m.run (operation s.opc) s = some (.ok ⟨t, true⟩)) :
    s.laterClock = .next (t.complete (s.performed + 1)) := by
  simp [State.laterClock, hm, hr]

/-- Clocks in sequence. -/
theorem clocks_add {m n : Nat} {s t : State} (h : clocks m s = .next t) : clocks (m + n) s = clocks n t := by
  induction m generalizing s with
  | zero => cases h; simp
  | succ m ih =>
    rw [Nat.add_right_comm]
    simp only [clocks] at h ⊢
    cases hu : clock s with
    | next u => rw [hu] at h; exact ih h
    | fault f => rw [hu] at h; cases h
    | refused r => rw [hu] at h; cases h

end Sys2Proof.Machine
end

