-- ==== Sys2Proof/Laws/Cycle.lean ====
section
/-! SUPPORT. The cycle level against the operations of the instruction level: every operation is blind to the driver's
internal cells, so a clock of an instruction in flight does to the architectural state what the operation does. -/

namespace Sys2Proof.Machine

/-- The driver's cells and the scratch cells, which only the cycle level reads. -/
structure Internal where
  amip    : Bool
  opip    : Bool
  amCycle : Nat
  opCycle : Nat
  lo      : Byte
  hi      : Byte
  temp    : Word
  rel     : Word
  enter   : Option Interrupt
  draws   : Nat

/-- A state with its internal cells replaced. -/
def State.withInternal (s : State) (d : Internal) : State :=
  { s with
    amip := d.amip
    opip := d.opip
    amCycle := d.amCycle
    opCycle := d.opCycle
    scratchLo := d.lo
    scratchHi := d.hi
    tempAddr := d.temp
    relAddr := d.rel
    entering := d.enter
    internalDraws := d.draws }

/-- The internal cells of a state. -/
def State.internal (s : State) : Internal :=
  ⟨s.amip, s.opip, s.amCycle, s.opCycle, s.scratchLo, s.scratchHi, s.tempAddr, s.relAddr, s.entering, s.internalDraws⟩

theorem State.withInternal_self (s : State) : s.withInternal s.internal = s := rfl

theorem State.withInternal_twice (s : State) (d e : Internal) : (s.withInternal d).withInternal e = s.withInternal e :=
  rfl

/-- `Complete()` overwrites every internal cell but the draws, and these are not observed. -/
theorem State.observed_complete (s : State) (d : Internal) (n : Nat) :
    ((s.withInternal d).complete n).observed = (s.complete n).observed := by
  have h : ∀ k, Config.cycleSplit k % (n + 1) + (n - Config.cycleSplit k % (n + 1)) = n :=
    fun k => Nat.add_sub_cancel' (Nat.le_of_lt_succ (Nat.mod_lt _ (Nat.succ_pos n)))
  simp only [State.observed, State.complete, State.withInternal, h]

/-! ### Blindness of the operations -/

/-- An operation that reads no internal cell and leaves them, and the opcode, alone. -/
def Blind (op : State → Except Fault State) : Prop :=
  ∀ (s t : State) (d : Internal), op s = .ok t → op (s.withInternal d) = .ok (t.withInternal d) ∧ t.opc = s.opc

theorem need_internal {s : State} (d : Internal) {cell : Cell} {u : Unit} (h : s.need cell = .ok u) :
    (s.withInternal d).need cell = .ok () :=
  need_of_written (s := s.withInternal d) (show cell ∉ s.unwritten from need_ok h)

theorem needStatus_internal {s : State} (d : Internal) {u : Unit} (h : s.needStatus = .ok u) :
    (s.withInternal d).needStatus = .ok () :=
  needStatus_of_written (s := s.withInternal d)
    (show ∀ cell ∈ statusCells, cell ∉ s.unwritten from needStatus_ok h)

theorem needBinary_internal {s : State} (d : Internal) {u : Unit} (h : s.needBinary = .ok u) :
    (s.withInternal d).needBinary = .ok () :=
  needBinary_of_binary (s := s.withInternal d) (needBinary_ok h).1 (needBinary_ok h).2

theorem readA_internal {s : State} (d : Internal) {v : Byte} (h : s.readA = .ok v) :
    (s.withInternal d).readA = .ok v := by
  rw [readA_of_written (s := s.withInternal d) (readA_ok h).1, (readA_ok h).2]; rfl

theorem readX_internal {s : State} (d : Internal) {v : Byte} (h : s.readX = .ok v) :
    (s.withInternal d).readX = .ok v := by
  rw [readX_of_written (s := s.withInternal d) (readX_ok h).1, (readX_ok h).2]; rfl

theorem readY_internal {s : State} (d : Internal) {v : Byte} (h : s.readY = .ok v) :
    (s.withInternal d).readY = .ok v := by
  rw [readY_of_written (s := s.withInternal d) (readY_ok h).1, (readY_ok h).2]; rfl

theorem readC_internal {s : State} (d : Internal) {v : Bool} (h : s.readC = .ok v) :
    (s.withInternal d).readC = .ok v := by
  rw [readC_of_written (s := s.withInternal d) (readC_ok h).1, (readC_ok h).2]; rfl

theorem busRead_internal {s t : State} (d : Internal) {a : Word} {v : Byte} (h : s.busRead a = .ok (v, t)) :
    (s.withInternal d).busRead a = .ok (v, t.withInternal d) := by
  cases ho : firstOwner s.devices a with
  | none =>
    unfold State.busRead at h ⊢
    simp only [State.driveRead_devices, show (s.withInternal d).devices = s.devices from rfl, ho] at h ⊢
    split at h
    · cases h
    · rename_i hc
      cases h
      exact if_neg hc
  | some e =>
    rw [State.busRead_of_owner ho] at h
    cases h
    exact State.busRead_of_owner (s := s.withInternal d) ho

theorem fetchByte_internal {s t : State} (d : Internal) {v : Byte} (h : s.fetchByte = .ok (v, t)) :
    (s.withInternal d).fetchByte = .ok (v, t.withInternal d) := by
  obtain ⟨⟨w, u⟩, hr, h⟩ := bind_ok h
  cases h
  unfold State.fetchByte
  rw [show (s.withInternal d).pc = s.pc from rfl, busRead_internal d hr]
  rfl

theorem pull_internal {s t : State} (d : Internal) {v : Byte} (h : s.pull = .ok (v, t)) :
    (s.withInternal d).pull = .ok (v, t.withInternal d) :=
  busRead_internal (s := s.setSp (s.sp + 1)) d h

theorem push_internal (s : State) (d : Internal) (v : Byte) : (s.withInternal d).push v = (s.push v).withInternal d :=
  rfl

theorem busWrite_internal (s : State) (d : Internal) (a : Word) (v : Byte) :
    (s.withInternal d).busWrite a v = (s.busWrite a v).withInternal d := rfl

@[simp] theorem State.setSum_opc (s : State) (r : Sum) : (s.setSum r).opc = s.opc := rfl

@[simp] theorem State.compare_opc (s : State) (r m : Byte) : (s.compare r m).opc = s.opc := rfl

theorem State.pull_opc {s t : State} {v : Byte} (h : s.pull = .ok (v, t)) : t.opc = s.opc := by
  rw [(State.pull_spec h).1]; rfl

theorem bind_of_ok {α β : Type} {x : Except Fault α} {f : α → Except Fault β} {a : α} {b : Except Fault β}
    (h : x = .ok a) (g : f a = b) : x >>= f = b := by
  subst h; exact g

theorem ldaOp_blind (v : Byte) : Blind (ldaOp v) := by intro s t d h; cases h; exact ⟨rfl, rfl⟩

theorem ldxOp_blind (v : Byte) : Blind (ldxOp v) := by intro s t d h; cases h; exact ⟨rfl, rfl⟩

theorem ldyOp_blind (v : Byte) : Blind (ldyOp v) := by intro s t d h; cases h; exact ⟨rfl, rfl⟩

theorem laxOp_blind (v : Byte) : Blind (laxOp v) := by intro s t d h; cases h; exact ⟨rfl, rfl⟩

theorem nopReadOp_blind (v : Byte) : Blind (nopReadOp v) := by intro s t d h; cases h; exact ⟨rfl, rfl⟩

theorem unstableOp_blind (v : Byte) : Blind (unstableOp v) := by intro s t d h; cases h

theorem adcOp_blind (v : Byte) : Blind (adcOp v) := by
  intro s t d h
  obtain ⟨_, h1, h⟩ := bind_ok h
  obtain ⟨_, h2, h⟩ := bind_ok h
  obtain ⟨_, h3, h⟩ := bind_ok h
  cases h
  exact ⟨bind_of_ok (needBinary_internal d h1) (bind_of_ok (readA_internal d h2) (bind_of_ok (readC_internal d h3) rfl)), by simp⟩

theorem sbcOp_blind (v : Byte) : Blind (sbcOp v) := by
  intro s t d h
  obtain ⟨_, h1, h⟩ := bind_ok h
  obtain ⟨_, h2, h⟩ := bind_ok h
  obtain ⟨_, h3, h⟩ := bind_ok h
  cases h
  exact ⟨bind_of_ok (needBinary_internal d h1) (bind_of_ok (readA_internal d h2) (bind_of_ok (readC_internal d h3) rfl)), by simp⟩

theorem andOp_blind (v : Byte) : Blind (andOp v) := by
  intro s t d h
  obtain ⟨_, h1, h⟩ := bind_ok h
  cases h
  exact ⟨bind_of_ok (readA_internal d h1) rfl, rfl⟩

theorem oraOp_blind (v : Byte) : Blind (oraOp v) := by
  intro s t d h
  obtain ⟨_, h1, h⟩ := bind_ok h
  cases h
  exact ⟨bind_of_ok (readA_internal d h1) rfl, rfl⟩

theorem eorOp_blind (v : Byte) : Blind (eorOp v) := by
  intro s t d h
  obtain ⟨_, h1, h⟩ := bind_ok h
  cases h
  exact ⟨bind_of_ok (readA_internal d h1) rfl, rfl⟩

theorem bitOp_blind (v : Byte) : Blind (bitOp v) := by
  intro s t d h
  obtain ⟨_, h1, h⟩ := bind_ok h
  cases h
  exact ⟨bind_of_ok (readA_internal d h1) rfl, rfl⟩

theorem cmpOp_blind (v : Byte) : Blind (cmpOp v) := by
  intro s t d h
  obtain ⟨_, h1, h⟩ := bind_ok h
  cases h
  exact ⟨bind_of_ok (readA_internal d h1) rfl, rfl⟩

theorem cpxOp_blind (v : Byte) : Blind (cpxOp v) := by
  intro s t d h
  obtain ⟨_, h1, h⟩ := bind_ok h
  cases h
  exact ⟨bind_of_ok (readX_internal d h1) rfl, rfl⟩

theorem cpyOp_blind (v : Byte) : Blind (cpyOp v) := by
  intro s t d h
  obtain ⟨_, h1, h⟩ := bind_ok h
  cases h
  exact ⟨bind_of_ok (readY_internal d h1) rfl, rfl⟩

theorem ancOp_blind (v : Byte) : Blind (ancOp v) := by
  intro s t d h
  obtain ⟨_, h1, h⟩ := bind_ok h
  cases h
  exact ⟨bind_of_ok (readA_internal d h1) rfl, rfl⟩

theorem alrOp_blind (v : Byte) : Blind (alrOp v) := by
  intro s t d h
  obtain ⟨_, h1, h⟩ := bind_ok h
  cases h
  exact ⟨bind_of_ok (readA_internal d h1) rfl, rfl⟩

theorem arrOp_blind (v : Byte) : Blind (arrOp v) := by
  intro s t d h
  obtain ⟨_, h1, h⟩ := bind_ok h
  obtain ⟨_, h2, h⟩ := bind_ok h
  obtain ⟨_, h3, h⟩ := bind_ok h
  cases h
  exact ⟨bind_of_ok (needBinary_internal d h1) (bind_of_ok (readA_internal d h2) (bind_of_ok (readC_internal d h3) rfl)), rfl⟩

theorem sbxOp_blind (v : Byte) : Blind (sbxOp v) := by
  intro s t d h
  unfold sbxOp at h ⊢
  rw [show (s.withInternal d).params = s.params from rfl]
  cases hm : s.params.sbxMode with
  | unsupported => rw [hm] at h; cases h
  | silicon =>
    rw [hm] at h
    obtain ⟨_, h1, h⟩ := bind_ok h
    obtain ⟨_, h2, h⟩ := bind_ok h
    cases h
    exact ⟨bind_of_ok (readA_internal d h1) (bind_of_ok (readX_internal d h2) rfl), rfl⟩

theorem incOp_blind (ea : Word) (v : Byte) : Blind (incOp ea v) := by intro s t d h; cases h; exact ⟨rfl, rfl⟩

theorem decOp_blind (ea : Word) (v : Byte) : Blind (decOp ea v) := by intro s t d h; cases h; exact ⟨rfl, rfl⟩

theorem sloOp_blind (ea : Word) (v : Byte) : Blind (sloOp ea v) := by
  intro s t d h
  obtain ⟨_, h1, h⟩ := bind_ok h
  cases h
  exact ⟨bind_of_ok (readA_internal d h1) rfl, by simp⟩

theorem rlaOp_blind (ea : Word) (v : Byte) : Blind (rlaOp ea v) := by
  intro s t d h
  obtain ⟨_, h1, h⟩ := bind_ok h
  obtain ⟨_, h2, h⟩ := bind_ok h
  cases h
  exact ⟨bind_of_ok (readC_internal d h1) (bind_of_ok (readA_internal d h2) rfl), by simp⟩

theorem sreOp_blind (ea : Word) (v : Byte) : Blind (sreOp ea v) := by
  intro s t d h
  obtain ⟨_, h1, h⟩ := bind_ok h
  cases h
  exact ⟨bind_of_ok (readA_internal d h1) rfl, by simp⟩

theorem rraOp_blind (ea : Word) (v : Byte) : Blind (rraOp ea v) := by
  intro s t d h
  obtain ⟨_, h1, h⟩ := bind_ok h
  obtain ⟨_, h2, h⟩ := bind_ok h
  obtain ⟨_, h3, h⟩ := bind_ok h
  cases h
  exact ⟨bind_of_ok (needBinary_internal d h1) (bind_of_ok (readC_internal d h2) (bind_of_ok (readA_internal d h3) rfl)), by simp⟩

theorem dcpOp_blind (ea : Word) (v : Byte) : Blind (dcpOp ea v) := by
  intro s t d h
  obtain ⟨_, h1, h⟩ := bind_ok h
  cases h
  exact ⟨bind_of_ok (readA_internal d h1) rfl, by simp⟩

theorem iscOp_blind (ea : Word) (v : Byte) : Blind (iscOp ea v) := by
  intro s t d h
  obtain ⟨_, h1, h⟩ := bind_ok h
  obtain ⟨_, h2, h⟩ := bind_ok h
  obtain ⟨_, h3, h⟩ := bind_ok h
  cases h
  exact ⟨bind_of_ok (needBinary_internal d h1) (bind_of_ok (readA_internal d h2) (bind_of_ok (readC_internal d h3) rfl)), by simp⟩

theorem shiftMem_blind (f : Byte → Byte × Bool) (ea : Word) (v : Byte) : Blind (shiftMem f ea v) := by
  intro s t d h; cases h; exact ⟨rfl, by simp⟩

theorem shiftAcc_blind (f : Byte → Byte × Bool) : Blind (shiftAcc f) := by
  intro s t d h
  obtain ⟨_, h1, h⟩ := bind_ok h
  cases h
  exact ⟨bind_of_ok (readA_internal d h1) rfl, rfl⟩

theorem rotateAcc_blind (f : Byte → Bool → Byte × Bool) : Blind (rotateAcc f) := by
  intro s t d h
  obtain ⟨_, h1, h⟩ := bind_ok h
  obtain ⟨_, h2, h⟩ := bind_ok h
  cases h
  exact ⟨bind_of_ok (readA_internal d h1) (bind_of_ok (readC_internal d h2) rfl), rfl⟩

theorem rotateMem_blind (f : Byte → Bool → Byte × Bool) (ea : Word) (v : Byte) : Blind (rotateMem f ea v) := by
  intro s t d h
  obtain ⟨_, h1, h⟩ := bind_ok h
  cases h
  exact ⟨bind_of_ok (readC_internal d h1) rfl, by simp⟩

theorem clcOp_blind : Blind clcOp := by intro s t d h; cases h; exact ⟨rfl, rfl⟩

theorem secOp_blind : Blind secOp := by intro s t d h; cases h; exact ⟨rfl, rfl⟩

theorem cliOp_blind : Blind cliOp := by intro s t d h; cases h; exact ⟨rfl, rfl⟩

theorem seiOp_blind : Blind seiOp := by intro s t d h; cases h; exact ⟨rfl, rfl⟩

theorem cldOp_blind : Blind cldOp := by intro s t d h; cases h; exact ⟨rfl, rfl⟩

theorem sedOp_blind : Blind sedOp := by intro s t d h; cases h; exact ⟨rfl, rfl⟩

theorem clvOp_blind : Blind clvOp := by intro s t d h; cases h; exact ⟨rfl, rfl⟩

theorem nopOp_blind : Blind nopOp := by intro s t d h; cases h; exact ⟨rfl, rfl⟩

theorem tsxOp_blind : Blind tsxOp := by intro s t d h; cases h; exact ⟨rfl, rfl⟩

theorem taxOp_blind : Blind taxOp := by
  intro s t d h
  obtain ⟨_, h1, h⟩ := bind_ok h
  cases h
  exact ⟨bind_of_ok (readA_internal d h1) rfl, rfl⟩

theorem tayOp_blind : Blind tayOp := by
  intro s t d h
  obtain ⟨_, h1, h⟩ := bind_ok h
  cases h
  exact ⟨bind_of_ok (readA_internal d h1) rfl, rfl⟩

theorem txaOp_blind : Blind txaOp := by
  intro s t d h
  obtain ⟨_, h1, h⟩ := bind_ok h
  cases h
  exact ⟨bind_of_ok (readX_internal d h1) rfl, rfl⟩

theorem tyaOp_blind : Blind tyaOp := by
  intro s t d h
  obtain ⟨_, h1, h⟩ := bind_ok h
  cases h
  exact ⟨bind_of_ok (readY_internal d h1) rfl, rfl⟩

theorem txsOp_blind : Blind txsOp := by
  intro s t d h
  obtain ⟨_, h1, h⟩ := bind_ok h
  cases h
  exact ⟨bind_of_ok (readX_internal d h1) rfl, rfl⟩

theorem inxOp_blind : Blind inxOp := by
  intro s t d h
  obtain ⟨_, h1, h⟩ := bind_ok h
  cases h
  exact ⟨bind_of_ok (readX_internal d h1) rfl, rfl⟩

theorem inyOp_blind : Blind inyOp := by
  intro s t d h
  obtain ⟨_, h1, h⟩ := bind_ok h
  cases h
  exact ⟨bind_of_ok (readY_internal d h1) rfl, rfl⟩

theorem dexOp_blind : Blind dexOp := by
  intro s t d h
  obtain ⟨_, h1, h⟩ := bind_ok h
  cases h
  exact ⟨bind_of_ok (readX_internal d h1) rfl, rfl⟩

theorem deyOp_blind : Blind deyOp := by
  intro s t d h
  obtain ⟨_, h1, h⟩ := bind_ok h
  cases h
  exact ⟨bind_of_ok (readY_internal d h1) rfl, rfl⟩

theorem phaOp_blind : Blind phaOp := by
  intro s t d h
  obtain ⟨_, h1, h⟩ := bind_ok h
  cases h
  exact ⟨bind_of_ok (readA_internal d h1) rfl, rfl⟩

theorem phpOp_blind : Blind phpOp := by
  intro s t d h
  obtain ⟨_, h1, h⟩ := bind_ok h
  cases h
  exact ⟨bind_of_ok (needStatus_internal d h1) rfl, rfl⟩

theorem plaOp_blind : Blind plaOp := by
  intro s t d h
  obtain ⟨⟨v, u⟩, h1, h⟩ := bind_ok h
  cases h
  exact ⟨bind_of_ok (pull_internal d h1) rfl, show u.opc = s.opc from State.pull_opc h1⟩

theorem plpOp_blind : Blind plpOp := by
  intro s t d h
  obtain ⟨⟨v, u⟩, h1, h⟩ := bind_ok h
  cases h
  exact ⟨bind_of_ok (pull_internal d h1) rfl, show u.opc = s.opc from State.pull_opc h1⟩

/-! ### An instruction in flight -/

/-- The scratch values of R53 that the clocks of an instruction keep. -/
structure Scratch where
  lo   : Byte
  hi   : Byte
  temp : Word
  rel  : Word

/-- Internal cells with these scratch values and this interrupt in entry. -/
def Internal.Has (d : Internal) (c : Scratch) (en : Option Interrupt) : Prop :=
  d.lo = c.lo ∧ d.hi = c.hi ∧ d.temp = c.temp ∧ d.rel = c.rel ∧ d.enter = en

/-- A state between the clocks of an instruction that started at `s`: no result is committed yet (R161). -/
structure Calm (s : State) (opc : Byte) (t : State) : Prop where
  a       : t.a = s.a
  x       : t.x = s.x
  y       : t.y = s.y
  p       : t.p = s.force.p
  written : Cell.pc ∉ t.unwritten
  fault   : t.fault = .none
  jammed  : t.jammed = false
  opc     : t.opc = opc

/-- What no earlier clock than the last may have done, as ClocksRefineStep says it. -/
def Quiet (s : State) (k : Nat) : Prop :=
  ∃ v, clocks k s = .next v ∧ v.idle = false ∧ v.jammed = false ∧ v.a = s.a ∧ v.x = s.x ∧ v.y = s.y ∧
    v.p = { s.p with r := true, i := true }

/-- The micro-operations of the clocks 2, 3, … of what is in flight. -/
def microOps (en : Option Interrupt) (opc : Byte) : List MicroOp :=
  match en with
  | some _ => interruptSchedule
  | none => schedule (operation opc)

theorem State.microOp_eq (s : State) (k : Nat) : s.microOp k = (microOps s.entering s.opc)[k - 2]? := by
  unfold State.microOp microOps
  cases s.entering <;> rfl

/-- After `k` clocks from `s` the architectural state is `t`, the scratch values are `c`, and the micro-operations `ms`
are still to come. -/
structure InFlight (s : State) (opc : Byte) (en : Option Interrupt) (k : Nat) (t : State) (c : Scratch)
    (ms : List MicroOp) : Prop where
  run    : ∃ d : Internal, clocks k s = .next (t.withInternal d) ∧ d.amCycle + d.opCycle = k ∧
    (!d.amip && !d.opip) = false ∧ d.Has c en
  calm   : Calm s opc t
  todo   : (microOps en opc).drop (k - 1) = ms
  begun  : 1 ≤ k
  before : ∀ j, 0 < j → j ≤ k → Quiet s j

/-- One more clock of an instruction in flight is its next micro-operation. -/
theorem InFlight.advance {s t : State} {opc : Byte} {en : Option Interrupt} {k : Nat} {c : Scratch} {m : MicroOp}
    {ms : List MicroOp} (h : InFlight s opc en k t c (m :: ms)) :
    ∃ d : Internal, d.Has c en ∧ (∀ u e,
      (m.run (operation opc) (t.withInternal d) = some (.ok ⟨u, false⟩) →
        e = (u.setPerformed (k + 1)).setFlight → clocks (k + 1) s = .next e) ∧
      (m.run (operation opc) (t.withInternal d) = some (.ok ⟨u, true⟩) →
        e = u.complete (k + 1) → clocks (k + 1) s = .next e)) := by
  obtain ⟨d, hrun, hcount, hbusy, hd⟩ := h.run
  have hop : (t.withInternal d).opc = opc := h.calm.opc
  have hp : (t.withInternal d).performed = k := hcount
  have hm : (t.withInternal d).microOp ((t.withInternal d).performed + 1) = some m := by
    rw [State.microOp_eq, hp, hop, show (t.withInternal d).entering = en from hd.2.2.2.2]
    have hk : k + 1 - 2 = k - 1 := by omega
    have h0 := congrArg (fun l => l[0]?) h.todo
    simpa [hk] using h0
  have hf : (t.withInternal d).force = t.withInternal d := by
    have : t.p = { t.p with r := true, i := true } := by rw [h.calm.p]; rfl
    show State.withInternal { t with p := { t.p with r := true, i := true } } d = _
    rw [← this]
  have hc : clock (t.withInternal d) = (t.withInternal d).laterClock := by
    rw [clock_of_flight (s := t.withInternal d) h.calm.written h.calm.fault h.calm.jammed hbusy, hf]
  have h1 : clocks (k + 1) s = clocks 1 (t.withInternal d) := clocks_add hrun
  refine ⟨d, hd, fun u e => ⟨fun hr he => ?_, fun hr he => ?_⟩⟩
  · rw [h1, clocks, hc, State.laterClock_more hm (by rw [hop]; exact hr), he, hp]
    rfl
  · rw [h1, clocks, hc, State.laterClock_last hm (by rw [hop]; exact hr), he, hp]
    rfl

/-- An intermediate clock. -/
theorem InFlight.more {s t u : State} {opc : Byte} {en : Option Interrupt} {k : Nat} {c c' : Scratch} {m : MicroOp}
    {ms : List MicroOp} (h : InFlight s opc en k t c (m :: ms))
    (hr : ∀ d : Internal, d.Has c en → ∃ e : Internal, e.Has c' en ∧
      m.run (operation opc) (t.withInternal d) = some (.ok ⟨u.withInternal e, false⟩))
    (hc : Calm s opc u) : InFlight s opc en (k + 1) u c' ms := by
  obtain ⟨d, hd, hk⟩ := h.advance
  obtain ⟨e, he, hm⟩ := hr d hd
  have hrun := (hk (u.withInternal e) _).1 hm rfl
  have hidle := State.setFlight_idle ((u.withInternal e).setPerformed (k + 1))
  have hperf : (((u.withInternal e).setPerformed (k + 1)).setFlight).performed = k + 1 := by simp
  refine ⟨⟨(((u.withInternal e).setPerformed (k + 1)).setFlight).internal, hrun, hperf, hidle, he⟩, hc, ?_, by omega,
    fun j h0 hj => ?_⟩
  · have := h.begun
    have hk : k + 1 - 1 = k - 1 + 1 := by omega
    rw [hk, ← List.drop_drop, h.todo]
    rfl
  · by_cases hjk : j ≤ k
    · exact h.before j h0 hjk
    · have : j = k + 1 := by omega
      subst this
      exact ⟨_, hrun, hidle, hc.jammed, hc.a, hc.x, hc.y, hc.p⟩

/-- The clocks of an instruction end, after `n` of them, in what `r` observes, and no earlier one commits anything. -/
def Refined (s r : State) (n : Nat) : Prop :=
  ∃ w, clocks n s = .next w ∧ w.observed = r.observed ∧ ∀ j, 0 < j → j < n → Quiet s j

/-- The last clock. -/
theorem InFlight.last {s t u : State} {opc : Byte} {en : Option Interrupt} {k : Nat} {c : Scratch} {m : MicroOp}
    {ms : List MicroOp} (h : InFlight s opc en k t c (m :: ms))
    (hr : ∀ d : Internal, d.Has c en → ∃ e : Internal,
      m.run (operation opc) (t.withInternal d) = some (.ok ⟨u.withInternal e, true⟩)) :
    Refined s (u.complete (k + 1)) (k + 1) := by
  obtain ⟨d, hd, hk⟩ := h.advance
  obtain ⟨e, hm⟩ := hr d hd
  exact ⟨_, (hk (u.withInternal e) _).2 hm rfl, State.observed_complete u e (k + 1),
    fun j h0 hj => h.before j h0 (by omega)⟩

theorem Calm.busRead {s t u : State} {opc v : Byte} {a : Word} (h : Calm s opc t) (hr : t.busRead a = .ok (v, u)) :
    Calm s opc u := by
  obtain ⟨hu, -, -, -, hw⟩ := State.busRead_ok hr
  have hwr : Cell.pc ∉ u.unwritten := by rw [hw]; simp [h.written]
  constructor
  · rw [hu]; exact h.a
  · rw [hu]; exact h.x
  · rw [hu]; exact h.y
  · rw [hu]; exact h.p
  · exact hwr
  · rw [hu]; exact h.fault
  · rw [hu]; exact h.jammed
  · rw [hu]; exact h.opc

theorem Calm.setPc {s t : State} {opc : Byte} (h : Calm s opc t) (w : Word) : Calm s opc (t.setPc w) :=
  ⟨h.a, h.x, h.y, h.p, by simp, h.fault, h.jammed, h.opc⟩

theorem Calm.setSp {s t : State} {opc : Byte} (h : Calm s opc t) (v : Byte) : Calm s opc (t.setSp v) :=
  ⟨h.a, h.x, h.y, h.p, by simp [h.written], h.fault, h.jammed, h.opc⟩

theorem Calm.push {s t : State} {opc : Byte} (h : Calm s opc t) (v : Byte) : Calm s opc (t.push v) :=
  ⟨h.a, h.x, h.y, h.p, State.push_written v h.written, h.fault, h.jammed, h.opc⟩

theorem Calm.pull {s t u : State} {opc v : Byte} (h : Calm s opc t) (hr : t.pull = .ok (v, u)) : Calm s opc u :=
  (h.setSp (t.sp + 1)).busRead hr

theorem Calm.fetchByte {s t u : State} {opc v : Byte} (h : Calm s opc t) (hr : t.fetchByte = .ok (v, u)) :
    Calm s opc u := by
  obtain ⟨w, hw, rfl⟩ := State.fetchByte_ok hr
  exact (h.busRead hw).setPc _

/-! ### The first clock -/

/-- The fetch clock of an instruction other than JAM. -/
theorem InFlight.ofFetch {s t : State} {opc : Byte} (hs : s.BoundaryInv) (hj : s.jammed = false)
    (hn : s.force.interruptTaken = none) (hf : s.force.fetchOpcode = .ok (opc, t))
    (hm : (operation opc).mnemonic ≠ .JAM) :
    InFlight s opc none 1 t ⟨t.scratchLo, t.scratchHi, t.tempAddr, t.relAddr⟩ (schedule (operation opc)) := by
  obtain ⟨-, ham, hop⟩ := hs.idle hj
  have hidle : s.idle = true := by simp [State.idle, ham, hop]
  obtain ⟨u, hb, ht⟩ := State.fetchOpcode_ok hf
  have hcu : Calm s s.opc u :=
    Calm.fetchByte (t := { s.force with pc0 := s.force.pc })
      ⟨rfl, rfl, rfl, rfl, hs.running.2, hs.running.1, hj, rfl⟩ hb
  have hct : Calm s opc t := by
    rw [ht]
    exact ⟨hcu.a, hcu.x, hcu.y, hcu.p, by simpa [State.wrote] using hcu.written, hcu.fault, hcu.jammed, rfl⟩
  have hen : t.entering = none := by
    obtain ⟨v, hv, hu⟩ := State.fetchByte_ok hb
    obtain ⟨hv, -⟩ := State.busRead_ok hv
    rw [ht, hu, hv]
    exact hs.counters.2.2.1
  have hclock : Sys2Proof.Machine.clock s = .next { t.setPerformed 1 with amip := true } := by
    rw [clock_of_fetch hs.running.2 hs.running.1 hj hidle hn]
    have hfc : s.force.firstClock = .ok { t.setPerformed 1 with amip := true } := by
      unfold State.firstClock
      rw [hf, ok_bind]
      exact if_neg hm
    rw [hfc]
    rfl
  have hrun : clocks 1 s = .next { t.setPerformed 1 with amip := true } := by
    rw [clocks, hclock]; rfl
  refine ⟨⟨({ t.setPerformed 1 with amip := true } : State).internal, hrun, State.performed_setPerformed t 1, rfl, rfl, rfl,
    rfl, rfl, hen⟩, hct, rfl, Nat.le_refl 1, fun j h0 hj1 => ?_⟩
  have : j = 1 := by omega
  subst this
  exact ⟨_, hrun, rfl, hct.jammed, hct.a, hct.x, hct.y, hct.p⟩

/-- The first clock of an interrupt sequence. -/
theorem InFlight.ofInterrupt {s : State} {i : Interrupt} (hs : s.BoundaryInv) (hj : s.jammed = false)
    (hk : s.force.interruptTaken = some i) :
    InFlight s s.opc (some i) 1 s.force.beginEntry ⟨s.scratchLo, s.scratchHi, s.tempAddr, s.relAddr⟩ interruptSchedule := by
  obtain ⟨-, ham, hop⟩ := hs.idle hj
  have hidle : s.idle = true := by simp [State.idle, ham, hop]
  have hct : Calm s s.opc s.force.beginEntry := ⟨rfl, rfl, rfl, rfl, hs.running.2, hs.running.1, hj, rfl⟩
  have hrun : clocks 1 s = .next (s.force.firstInterruptClock i) := by
    rw [clocks, clock_of_interrupt hs.running.2 hs.running.1 hj hidle hk]; rfl
  have hb : (s.force.firstInterruptClock i).idle = false := by
    simp [State.idle, State.firstInterruptClock, State.beginEntry, State.setPerformed]
  refine ⟨⟨(s.force.firstInterruptClock i).internal, hrun, State.performed_setPerformed s.force.beginEntry 1, hb, rfl, rfl, rfl, rfl,
    rfl⟩, hct, rfl, Nat.le_refl 1, fun j h0 hj1 => ?_⟩
  have : j = 1 := by omega
  subst this
  exact ⟨_, hrun, hb, hj, rfl, rfl, rfl, rfl⟩

/-! ### The intermediate clocks -/

/-- The vector of what is in flight (R415). -/
def entryVector : Option Interrupt → Word
  | some i => i.vector
  | none => brkVector

theorem State.flightVector_eq (s : State) : s.flightVector = entryVector s.entering := by
  unfold State.flightVector entryVector
  cases s.entering <;> rfl

section
variable {s t u : State} {opc : Byte} {en : Option Interrupt} {k : Nat} {c : Scratch} {ms : List MicroOp}

theorem InFlight.internal (h : InFlight s opc en k t c (.internal :: ms)) : InFlight s opc en (k + 1) t c ms :=
  h.more (fun d hd => ⟨d, hd, rfl⟩) h.calm

theorem InFlight.operandLow {b : Byte} (h : InFlight s opc en k t c (.operandLow :: ms))
    (hf : t.fetchByte = .ok (b, u)) : InFlight s opc en (k + 1) u { c with lo := b } ms :=
  h.more (fun d hd => ⟨{ d with lo := b }, ⟨rfl, hd.2⟩, congrArg some (bind_of_ok (fetchByte_internal d hf) rfl)⟩)
    (h.calm.fetchByte hf)

theorem InFlight.operandHigh {b : Byte} (h : InFlight s opc en k t c (.operandHigh :: ms))
    (hf : t.fetchByte = .ok (b, u)) : InFlight s opc en (k + 1) u { c with hi := b } ms :=
  h.more (fun d hd => ⟨{ d with hi := b }, ⟨hd.1, rfl, hd.2.2⟩,
    congrArg some (bind_of_ok (fetchByte_internal d hf) rfl)⟩) (h.calm.fetchByte hf)

/-- IZX: the pointer is the operand byte plus X. -/
theorem InFlight.pointerLowX {x b : Byte} (h : InFlight s opc en k t c (.pointerLow :: ms))
    (hm : (operation opc).mode = .izx) (hx : t.readX = .ok x) (hr : t.busRead (zext16 (c.lo + x)) = .ok (b, u)) :
    InFlight s opc en (k + 1) u { c with temp := zext16 (c.lo + x), lo := b } ms :=
  h.more (fun d hd => ⟨{ d with temp := zext16 (c.lo + x), lo := b }, ⟨rfl, hd.2.1, rfl, hd.2.2.2⟩, by
    have hp : (t.withInternal d).flightPointer (operation opc).mode = .ok (c.lo + x) := by
      unfold State.flightPointer
      rw [if_pos hm, readX_internal d hx, ok_bind, ← hd.1]
      rfl
    exact congrArg some (bind_of_ok hp (bind_of_ok (busRead_internal d hr) rfl))⟩) (h.calm.busRead hr)

/-- IZY: the pointer is the operand byte. -/
theorem InFlight.pointerLow {b : Byte} (h : InFlight s opc en k t c (.pointerLow :: ms))
    (hm : (operation opc).mode ≠ .izx) (hr : t.busRead (zext16 c.lo) = .ok (b, u)) :
    InFlight s opc en (k + 1) u { c with temp := zext16 c.lo, lo := b } ms :=
  h.more (fun d hd => ⟨{ d with temp := zext16 c.lo, lo := b }, ⟨rfl, hd.2.1, rfl, hd.2.2.2⟩, by
    have hp : (t.withInternal d).flightPointer (operation opc).mode = .ok c.lo := by
      unfold State.flightPointer
      rw [if_neg hm, ← hd.1]
      rfl
    exact congrArg some (bind_of_ok hp (bind_of_ok (busRead_internal d hr) rfl))⟩) (h.calm.busRead hr)

theorem InFlight.pointerHigh {b : Byte} (h : InFlight s opc en k t c (.pointerHigh :: ms))
    (hr : t.busRead (zext16 (loByte c.temp + 1)) = .ok (b, u)) : InFlight s opc en (k + 1) u { c with hi := b } ms :=
  h.more (fun d hd => ⟨{ d with hi := b }, ⟨hd.1, rfl, hd.2.2⟩, by
    have hr' := busRead_internal d hr
    rw [← hd.2.2.1] at hr'
    exact congrArg some (bind_of_ok hr' rfl)⟩) (h.calm.busRead hr)

theorem InFlight.indirectLow {b : Byte} (h : InFlight s opc en k t c (.indirectLow :: ms))
    (hr : t.busRead (wordOf c.hi c.lo) = .ok (b, u)) :
    InFlight s opc en (k + 1) u { c with temp := wordOf c.hi c.lo, lo := b } ms :=
  h.more (fun d hd => ⟨{ d with temp := wordOf c.hi c.lo, lo := b }, ⟨rfl, hd.2.1, rfl, hd.2.2.2⟩, by
    have hr' := busRead_internal d hr
    rw [← hd.2.1, ← hd.1] at hr' ⊢
    exact congrArg some (bind_of_ok hr' rfl)⟩) (h.calm.busRead hr)

theorem InFlight.pushPcHigh (h : InFlight s opc en k t c (.pushPcHigh :: ms)) :
    InFlight s opc en (k + 1) (t.push (hiByte t.pc)) c ms :=
  h.more (fun d hd => ⟨d, hd, rfl⟩) (h.calm.push _)

theorem InFlight.pushPcLow (h : InFlight s opc en k t c (.pushPcLow :: ms)) :
    InFlight s opc en (k + 1) (t.push (loByte t.pc)) c ms :=
  h.more (fun d hd => ⟨d, hd, rfl⟩) (h.calm.push _)

theorem InFlight.pushBrkHigh (h : InFlight s opc en k t c (.pushBrkHigh :: ms)) :
    InFlight s opc en (k + 1) (t.push (hiByte (t.pc + 1))) c ms :=
  h.more (fun d hd => ⟨d, hd, rfl⟩) (h.calm.push _)

theorem InFlight.pushBrkLow (h : InFlight s opc en k t c (.pushBrkLow :: ms)) :
    InFlight s opc en (k + 1) (t.push (loByte (t.pc + 1))) c ms :=
  h.more (fun d hd => ⟨d, hd, rfl⟩) (h.calm.push _)

theorem InFlight.pushStatusBrk (h : InFlight s opc en k t c (.pushStatusBrk :: ms)) {x : Unit}
    (hr : t.needStatus = .ok x) : InFlight s opc en (k + 1) (t.push t.p.packBrk) c ms :=
  h.more (fun d hd => ⟨d, hd, congrArg some (bind_of_ok (needStatus_internal d hr) rfl)⟩) (h.calm.push _)

theorem InFlight.pushStatusInterrupt (h : InFlight s opc en k t c (.pushStatusInterrupt :: ms)) {x : Unit}
    (hr : t.needStatus = .ok x) : InFlight s opc en (k + 1) (t.push t.p.packInterrupt) c ms :=
  h.more (fun d hd => ⟨d, hd, congrArg some (bind_of_ok (needStatus_internal d hr) rfl)⟩) (h.calm.push _)

theorem InFlight.pullLow {b : Byte} (h : InFlight s opc en k t c (.pullLow :: ms)) (hr : t.pull = .ok (b, u)) :
    InFlight s opc en (k + 1) u { c with lo := b } ms :=
  h.more (fun d hd => ⟨{ d with lo := b }, ⟨rfl, hd.2⟩, congrArg some (bind_of_ok (pull_internal d hr) rfl)⟩)
    (h.calm.pull hr)

theorem InFlight.pullHigh {b : Byte} (h : InFlight s opc en k t c (.pullHigh :: ms)) (hr : t.pull = .ok (b, u)) :
    InFlight s opc en (k + 1) u { c with hi := b } ms :=
  h.more (fun d hd => ⟨{ d with hi := b }, ⟨hd.1, rfl, hd.2.2⟩, congrArg some (bind_of_ok (pull_internal d hr) rfl)⟩)
    (h.calm.pull hr)

theorem InFlight.pullStatus {b : Byte} (h : InFlight s opc en k t c (.pullStatus :: ms)) (hr : t.pull = .ok (b, u)) :
    InFlight s opc en (k + 1) u { c with temp := zext16 b } ms :=
  h.more (fun d hd => ⟨{ d with temp := zext16 b }, ⟨hd.1, hd.2.1, rfl, hd.2.2.2⟩,
    congrArg some (bind_of_ok (pull_internal d hr) rfl)⟩) (h.calm.pull hr)

theorem InFlight.vectorLow {b : Byte} (h : InFlight s opc en k t c (.vectorLow :: ms))
    (hr : t.busRead (entryVector en) = .ok (b, u)) : InFlight s opc en (k + 1) u { c with lo := b } ms :=
  h.more (fun d hd => ⟨{ d with lo := b }, ⟨rfl, hd.2⟩, by
    have hv : (t.withInternal d).flightVector = entryVector en := by
      rw [State.flightVector_eq, ← hd.2.2.2.2]; rfl
    have hr' := busRead_internal d hr
    rw [← hv] at hr'
    exact congrArg some (bind_of_ok hr' rfl)⟩) (h.calm.busRead hr)

end

end Sys2Proof.Machine
end

