-- ==== Sys2Proof/Laws/PerInstr.lean ====
section
/-! SUPPORT. One lemma per instruction: the encoder's tables (the "Encoding" lines of the rules) agree with the
operation table of R120, and the operand bytes fill the mode's length (R112). -/

namespace Sys2Proof.Laws.OpcodeTable

/-- A well-formed instruction has an opcode byte, the operation table gives that byte its mnemonic and its mode, and
its operand bytes are as many as the mode takes. -/
def Statement (i : Instr) : Prop :=
  i.wf = true → ∃ opcode, i.opcode = some opcode ∧ (operation opcode).mnemonic = i.mnemonic ∧
    (operation opcode).mode = i.mode ∧ i.operandBytes.length + 1 = i.mode.length

theorem lda (o : ReadOperand) : Statement (.lda o) := by
  rcases o with _ | m
  · intro h; exact ⟨_, rfl, rfl, rfl, rfl⟩
  · cases m <;> intro h <;> first | exact ⟨_, rfl, rfl, rfl, rfl⟩ | exact nomatch h

theorem ldx (o : ReadOperand) : Statement (.ldx o) := by
  rcases o with _ | m
  · intro h; exact ⟨_, rfl, rfl, rfl, rfl⟩
  · cases m <;> intro h <;> first | exact ⟨_, rfl, rfl, rfl, rfl⟩ | exact nomatch h

theorem ldy (o : ReadOperand) : Statement (.ldy o) := by
  rcases o with _ | m
  · intro h; exact ⟨_, rfl, rfl, rfl, rfl⟩
  · cases m <;> intro h <;> first | exact ⟨_, rfl, rfl, rfl, rfl⟩ | exact nomatch h

theorem sta (m : MemMode) : Statement (.sta m) := by
  cases m <;> intro h <;> first | exact ⟨_, rfl, rfl, rfl, rfl⟩ | exact nomatch h

theorem stx (m : MemMode) : Statement (.stx m) := by
  cases m <;> intro h <;> first | exact ⟨_, rfl, rfl, rfl, rfl⟩ | exact nomatch h

theorem sty (m : MemMode) : Statement (.sty m) := by
  cases m <;> intro h <;> first | exact ⟨_, rfl, rfl, rfl, rfl⟩ | exact nomatch h

theorem tax : Statement .tax := fun _ => ⟨_, rfl, rfl, rfl, rfl⟩

theorem tay : Statement .tay := fun _ => ⟨_, rfl, rfl, rfl, rfl⟩

theorem txa : Statement .txa := fun _ => ⟨_, rfl, rfl, rfl, rfl⟩

theorem tya : Statement .tya := fun _ => ⟨_, rfl, rfl, rfl, rfl⟩

theorem tsx : Statement .tsx := fun _ => ⟨_, rfl, rfl, rfl, rfl⟩

theorem txs : Statement .txs := fun _ => ⟨_, rfl, rfl, rfl, rfl⟩

theorem adc (o : ReadOperand) : Statement (.adc o) := by
  rcases o with _ | m
  · intro h; exact ⟨_, rfl, rfl, rfl, rfl⟩
  · cases m <;> intro h <;> first | exact ⟨_, rfl, rfl, rfl, rfl⟩ | exact nomatch h

theorem sbc (o : ReadOperand) : Statement (.sbc o) := by
  rcases o with _ | m
  · intro h; exact ⟨_, rfl, rfl, rfl, rfl⟩
  · cases m <;> intro h <;> first | exact ⟨_, rfl, rfl, rfl, rfl⟩ | exact nomatch h

theorem and (o : ReadOperand) : Statement (.and o) := by
  rcases o with _ | m
  · intro h; exact ⟨_, rfl, rfl, rfl, rfl⟩
  · cases m <;> intro h <;> first | exact ⟨_, rfl, rfl, rfl, rfl⟩ | exact nomatch h

theorem ora (o : ReadOperand) : Statement (.ora o) := by
  rcases o with _ | m
  · intro h; exact ⟨_, rfl, rfl, rfl, rfl⟩
  · cases m <;> intro h <;> first | exact ⟨_, rfl, rfl, rfl, rfl⟩ | exact nomatch h

theorem eor (o : ReadOperand) : Statement (.eor o) := by
  rcases o with _ | m
  · intro h; exact ⟨_, rfl, rfl, rfl, rfl⟩
  · cases m <;> intro h <;> first | exact ⟨_, rfl, rfl, rfl, rfl⟩ | exact nomatch h

theorem bit (m : MemMode) : Statement (.bit m) := by
  cases m <;> intro h <;> first | exact ⟨_, rfl, rfl, rfl, rfl⟩ | exact nomatch h

theorem cmp (o : ReadOperand) : Statement (.cmp o) := by
  rcases o with _ | m
  · intro h; exact ⟨_, rfl, rfl, rfl, rfl⟩
  · cases m <;> intro h <;> first | exact ⟨_, rfl, rfl, rfl, rfl⟩ | exact nomatch h

theorem cpx (o : ReadOperand) : Statement (.cpx o) := by
  rcases o with _ | m
  · intro h; exact ⟨_, rfl, rfl, rfl, rfl⟩
  · cases m <;> intro h <;> first | exact ⟨_, rfl, rfl, rfl, rfl⟩ | exact nomatch h

theorem cpy (o : ReadOperand) : Statement (.cpy o) := by
  rcases o with _ | m
  · intro h; exact ⟨_, rfl, rfl, rfl, rfl⟩
  · cases m <;> intro h <;> first | exact ⟨_, rfl, rfl, rfl, rfl⟩ | exact nomatch h

theorem inc (m : MemMode) : Statement (.inc m) := by
  cases m <;> intro h <;> first | exact ⟨_, rfl, rfl, rfl, rfl⟩ | exact nomatch h

theorem dec (m : MemMode) : Statement (.dec m) := by
  cases m <;> intro h <;> first | exact ⟨_, rfl, rfl, rfl, rfl⟩ | exact nomatch h

theorem inx : Statement .inx := fun _ => ⟨_, rfl, rfl, rfl, rfl⟩

theorem iny : Statement .iny := fun _ => ⟨_, rfl, rfl, rfl, rfl⟩

theorem dex : Statement .dex := fun _ => ⟨_, rfl, rfl, rfl, rfl⟩

theorem dey : Statement .dey := fun _ => ⟨_, rfl, rfl, rfl, rfl⟩

theorem asl (o : ShiftOperand) : Statement (.asl o) := by
  rcases o with _ | m
  · intro h; exact ⟨_, rfl, rfl, rfl, rfl⟩
  · cases m <;> intro h <;> first | exact ⟨_, rfl, rfl, rfl, rfl⟩ | exact nomatch h

theorem lsr (o : ShiftOperand) : Statement (.lsr o) := by
  rcases o with _ | m
  · intro h; exact ⟨_, rfl, rfl, rfl, rfl⟩
  · cases m <;> intro h <;> first | exact ⟨_, rfl, rfl, rfl, rfl⟩ | exact nomatch h

theorem rol (o : ShiftOperand) : Statement (.rol o) := by
  rcases o with _ | m
  · intro h; exact ⟨_, rfl, rfl, rfl, rfl⟩
  · cases m <;> intro h <;> first | exact ⟨_, rfl, rfl, rfl, rfl⟩ | exact nomatch h

theorem ror (o : ShiftOperand) : Statement (.ror o) := by
  rcases o with _ | m
  · intro h; exact ⟨_, rfl, rfl, rfl, rfl⟩
  · cases m <;> intro h <;> first | exact ⟨_, rfl, rfl, rfl, rfl⟩ | exact nomatch h

theorem bcc (off : Byte) : Statement (.bcc off) := fun _ => ⟨_, rfl, rfl, rfl, rfl⟩

theorem bcs (off : Byte) : Statement (.bcs off) := fun _ => ⟨_, rfl, rfl, rfl, rfl⟩

theorem beq (off : Byte) : Statement (.beq off) := fun _ => ⟨_, rfl, rfl, rfl, rfl⟩

theorem bne (off : Byte) : Statement (.bne off) := fun _ => ⟨_, rfl, rfl, rfl, rfl⟩

theorem bmi (off : Byte) : Statement (.bmi off) := fun _ => ⟨_, rfl, rfl, rfl, rfl⟩

theorem bpl (off : Byte) : Statement (.bpl off) := fun _ => ⟨_, rfl, rfl, rfl, rfl⟩

theorem bvc (off : Byte) : Statement (.bvc off) := fun _ => ⟨_, rfl, rfl, rfl, rfl⟩

theorem bvs (off : Byte) : Statement (.bvs off) := fun _ => ⟨_, rfl, rfl, rfl, rfl⟩

theorem jmp (o : JumpOperand) : Statement (.jmp o) := by
  cases o <;> exact fun _ => ⟨_, rfl, rfl, rfl, rfl⟩

theorem jsr (target : Word) : Statement (.jsr target) := fun _ => ⟨_, rfl, rfl, rfl, rfl⟩

theorem rts : Statement .rts := fun _ => ⟨_, rfl, rfl, rfl, rfl⟩

theorem rti : Statement .rti := fun _ => ⟨_, rfl, rfl, rfl, rfl⟩

theorem brk : Statement .brk := fun _ => ⟨_, rfl, rfl, rfl, rfl⟩

theorem pha : Statement .pha := fun _ => ⟨_, rfl, rfl, rfl, rfl⟩

theorem php : Statement .php := fun _ => ⟨_, rfl, rfl, rfl, rfl⟩

theorem pla : Statement .pla := fun _ => ⟨_, rfl, rfl, rfl, rfl⟩

theorem plp : Statement .plp := fun _ => ⟨_, rfl, rfl, rfl, rfl⟩

theorem clc : Statement .clc := fun _ => ⟨_, rfl, rfl, rfl, rfl⟩

theorem sec : Statement .sec := fun _ => ⟨_, rfl, rfl, rfl, rfl⟩

theorem cli : Statement .cli := fun _ => ⟨_, rfl, rfl, rfl, rfl⟩

theorem sei : Statement .sei := fun _ => ⟨_, rfl, rfl, rfl, rfl⟩

theorem cld : Statement .cld := fun _ => ⟨_, rfl, rfl, rfl, rfl⟩

theorem sed : Statement .sed := fun _ => ⟨_, rfl, rfl, rfl, rfl⟩

theorem clv : Statement .clv := fun _ => ⟨_, rfl, rfl, rfl, rfl⟩

theorem nop (opcode : Byte) (o : NopOperand) : Statement (.nop opcode o) := by
  rcases o with _ | v | m
  · intro h
    rcases (by simpa [Instr.wf, nopBytes, NopOperand.mode] using h : opcode = _ ∨ _) with
      rfl | rfl | rfl | rfl | rfl | rfl | rfl <;> exact ⟨_, rfl, rfl, rfl, rfl⟩
  · intro h
    rcases (by simpa [Instr.wf, nopBytes, NopOperand.mode] using h : opcode = _ ∨ _) with
      rfl | rfl | rfl | rfl | rfl <;> exact ⟨_, rfl, rfl, rfl, rfl⟩
  · intro h
    cases m <;> simp [Instr.wf, nopBytes, NopOperand.mode, MemMode.mode] at h
    · rcases h with rfl | rfl | rfl <;> exact ⟨_, rfl, rfl, rfl, rfl⟩
    · rcases h with rfl | rfl | rfl | rfl | rfl | rfl <;> exact ⟨_, rfl, rfl, rfl, rfl⟩
    · subst h; exact ⟨_, rfl, rfl, rfl, rfl⟩
    · rcases h with rfl | rfl | rfl | rfl | rfl | rfl <;> exact ⟨_, rfl, rfl, rfl, rfl⟩

theorem slo (m : MemMode) : Statement (.slo m) := by
  cases m <;> intro h <;> first | exact ⟨_, rfl, rfl, rfl, rfl⟩ | exact nomatch h

theorem rla (m : MemMode) : Statement (.rla m) := by
  cases m <;> intro h <;> first | exact ⟨_, rfl, rfl, rfl, rfl⟩ | exact nomatch h

theorem sre (m : MemMode) : Statement (.sre m) := by
  cases m <;> intro h <;> first | exact ⟨_, rfl, rfl, rfl, rfl⟩ | exact nomatch h

theorem rra (m : MemMode) : Statement (.rra m) := by
  cases m <;> intro h <;> first | exact ⟨_, rfl, rfl, rfl, rfl⟩ | exact nomatch h

theorem sax (m : MemMode) : Statement (.sax m) := by
  cases m <;> intro h <;> first | exact ⟨_, rfl, rfl, rfl, rfl⟩ | exact nomatch h

theorem lax (m : MemMode) : Statement (.lax m) := by
  cases m <;> intro h <;> first | exact ⟨_, rfl, rfl, rfl, rfl⟩ | exact nomatch h

theorem dcp (m : MemMode) : Statement (.dcp m) := by
  cases m <;> intro h <;> first | exact ⟨_, rfl, rfl, rfl, rfl⟩ | exact nomatch h

theorem isc (m : MemMode) : Statement (.isc m) := by
  cases m <;> intro h <;> first | exact ⟨_, rfl, rfl, rfl, rfl⟩ | exact nomatch h

theorem anc (opcode : Byte) (value : Byte) : Statement (.anc opcode value) := by
  intro h
  rcases (by simpa [Instr.wf, ancBytes] using h : opcode = _ ∨ _) with rfl | rfl <;> exact ⟨_, rfl, rfl, rfl, rfl⟩

theorem alr (value : Byte) : Statement (.alr value) := fun _ => ⟨_, rfl, rfl, rfl, rfl⟩

theorem arr (value : Byte) : Statement (.arr value) := fun _ => ⟨_, rfl, rfl, rfl, rfl⟩

theorem usbc (value : Byte) : Statement (.usbc value) := fun _ => ⟨_, rfl, rfl, rfl, rfl⟩

theorem ane (value : Byte) : Statement (.ane value) := fun _ => ⟨_, rfl, rfl, rfl, rfl⟩

theorem lxa (value : Byte) : Statement (.lxa value) := fun _ => ⟨_, rfl, rfl, rfl, rfl⟩

theorem sha (m : MemMode) : Statement (.sha m) := by
  cases m <;> intro h <;> first | exact ⟨_, rfl, rfl, rfl, rfl⟩ | exact nomatch h

theorem tas (m : MemMode) : Statement (.tas m) := by
  cases m <;> intro h <;> first | exact ⟨_, rfl, rfl, rfl, rfl⟩ | exact nomatch h

theorem shy (m : MemMode) : Statement (.shy m) := by
  cases m <;> intro h <;> first | exact ⟨_, rfl, rfl, rfl, rfl⟩ | exact nomatch h

theorem shx (m : MemMode) : Statement (.shx m) := by
  cases m <;> intro h <;> first | exact ⟨_, rfl, rfl, rfl, rfl⟩ | exact nomatch h

theorem las (m : MemMode) : Statement (.las m) := by
  cases m <;> intro h <;> first | exact ⟨_, rfl, rfl, rfl, rfl⟩ | exact nomatch h

theorem sbx (value : Byte) : Statement (.sbx value) := fun _ => ⟨_, rfl, rfl, rfl, rfl⟩

theorem jam (opcode : Byte) : Statement (.jam opcode) := by
  intro h
  rcases (by simpa [Instr.wf, jamBytes] using h : opcode = _ ∨ _) with
    rfl | rfl | rfl | rfl | rfl | rfl | rfl | rfl | rfl | rfl | rfl | rfl <;> exact ⟨_, rfl, rfl, rfl, rfl⟩

end Sys2Proof.Laws.OpcodeTable
end

