-- ==== Sys2Proof/Laws/Schedule.lean ====
section
/-! SUPPORT. The schedule of R160 run from the fetch to the last clock: each class of instruction ends, at the cycle
level, in what its instruction-level meaning gives. -/

namespace Sys2Proof.Machine

/-- The clocks that form the effective address of a mode. -/
def addressOps : Mode → List MicroOp
  | .zpa => [.operandLow]
  | .zpx | .zpy => [.operandLow, .internal]
  | .abs | .abx | .aby => [.operandLow, .operandHigh]
  | .izx => [.operandLow, .internal, .pointerLow, .pointerHigh]
  | .izy => [.operandLow, .pointerLow, .pointerHigh]
  | .imp | .acc | .imm | .rel | .ind => []

/-- The modes whose effective address can cross a page (R195). -/
def crossing : Mode → Bool
  | .abx | .aby | .izy => true
  | _ => false

/-- The modes that compute an effective address. -/
def addressing : Mode → Bool
  | .zpa | .zpx | .zpy | .abs | .abx | .aby | .izx | .izy => true
  | .imp | .acc | .imm | .rel | .ind => false

/-- The scratch values determine the effective address of the mode. -/
def HasAddress (t : State) (c : Scratch) (mode : Mode) (r : Resolved) : Prop :=
  ∀ d : Internal, d.Has c none → (t.withInternal d).flightAddress mode = .ok r

section
variable {s t u : State} {opc : Byte} {k : Nat} {c : Scratch} {ms : List MicroOp}

theorem InFlight.addressZpa {zp : Byte} {r : Resolved} {t1 t2 : State}
    (h : InFlight s opc none k t c (addressOps .zpa ++ ms)) (hf : t.fetchByte = .ok (zp, t1))
    (hr : resolve (.zpa zp) t1 = .ok (r, t2)) :
    ∃ c', InFlight s opc none (k + 1) t2 c' ms ∧ HasAddress t2 c' .zpa r := by
  cases hr
  refine ⟨_, h.operandLow hf, fun d hd => ?_⟩
  show Except.ok (Resolved.fixed (zext16 d.lo)) = _
  rw [hd.1]

theorem InFlight.addressZpx {zp : Byte} {r : Resolved} {t1 t2 : State}
    (h : InFlight s opc none k t c (addressOps .zpx ++ ms)) (hf : t.fetchByte = .ok (zp, t1))
    (hr : resolve (.zpx zp) t1 = .ok (r, t2)) :
    ∃ c', InFlight s opc none (k + 2) t2 c' ms ∧ HasAddress t2 c' .zpx r := by
  obtain ⟨x, hx, hr⟩ := bind_ok hr
  cases hr
  refine ⟨_, (h.operandLow hf).internal, fun d hd => bind_of_ok (readX_internal d hx) ?_⟩
  show Except.ok (Resolved.fixed (zext16 (d.lo + x))) = _
  rw [hd.1]

theorem InFlight.addressZpy {zp : Byte} {r : Resolved} {t1 t2 : State}
    (h : InFlight s opc none k t c (addressOps .zpy ++ ms)) (hf : t.fetchByte = .ok (zp, t1))
    (hr : resolve (.zpy zp) t1 = .ok (r, t2)) :
    ∃ c', InFlight s opc none (k + 2) t2 c' ms ∧ HasAddress t2 c' .zpy r := by
  obtain ⟨y, hy, hr⟩ := bind_ok hr
  cases hr
  refine ⟨_, (h.operandLow hf).internal, fun d hd => bind_of_ok (readY_internal d hy) ?_⟩
  show Except.ok (Resolved.fixed (zext16 (d.lo + y))) = _
  rw [hd.1]

theorem InFlight.addressAbs {lo hi : Byte} {r : Resolved} {t0 t1 t2 : State}
    (h : InFlight s opc none k t c (addressOps .abs ++ ms)) (hf : t.fetchByte = .ok (lo, t0))
    (hg : t0.fetchByte = .ok (hi, t1)) (hr : resolve (.abs (wordOf hi lo)) t1 = .ok (r, t2)) :
    ∃ c', InFlight s opc none (k + 2) t2 c' ms ∧ HasAddress t2 c' .abs r := by
  cases hr
  refine ⟨_, (h.operandLow hf).operandHigh hg, fun d hd => ?_⟩
  show Except.ok (Resolved.fixed (wordOf d.hi d.lo)) = _
  rw [hd.1, hd.2.1]

theorem InFlight.addressAbx {lo hi : Byte} {r : Resolved} {t0 t1 t2 : State}
    (h : InFlight s opc none k t c (addressOps .abx ++ ms)) (hf : t.fetchByte = .ok (lo, t0))
    (hg : t0.fetchByte = .ok (hi, t1)) (hr : resolve (.abx (wordOf hi lo)) t1 = .ok (r, t2)) :
    ∃ c', InFlight s opc none (k + 2) t2 c' ms ∧ HasAddress t2 c' .abx r := by
  obtain ⟨x, hx, hr⟩ := bind_ok hr
  cases hr
  refine ⟨_, (h.operandLow hf).operandHigh hg, fun d hd => bind_of_ok (readX_internal d hx) ?_⟩
  show Except.ok (Resolved.indexed (wordOf d.hi d.lo) x) = _
  rw [hd.1, hd.2.1]

theorem InFlight.addressAby {lo hi : Byte} {r : Resolved} {t0 t1 t2 : State}
    (h : InFlight s opc none k t c (addressOps .aby ++ ms)) (hf : t.fetchByte = .ok (lo, t0))
    (hg : t0.fetchByte = .ok (hi, t1)) (hr : resolve (.aby (wordOf hi lo)) t1 = .ok (r, t2)) :
    ∃ c', InFlight s opc none (k + 2) t2 c' ms ∧ HasAddress t2 c' .aby r := by
  obtain ⟨y, hy, hr⟩ := bind_ok hr
  cases hr
  refine ⟨_, (h.operandLow hf).operandHigh hg, fun d hd => bind_of_ok (readY_internal d hy) ?_⟩
  show Except.ok (Resolved.indexed (wordOf d.hi d.lo) y) = _
  rw [hd.1, hd.2.1]

theorem loByte_zext16 (b : Byte) : loByte (zext16 b) = b := by revert b; decide

theorem InFlight.addressIzx {p : Byte} {r : Resolved} {t1 t2 : State}
    (h : InFlight s opc none k t c (addressOps .izx ++ ms)) (hm : (operation opc).mode = .izx)
    (hf : t.fetchByte = .ok (p, t1)) (hr : resolve (.izx p) t1 = .ok (r, t2)) :
    ∃ c', InFlight s opc none (k + 4) t2 c' ms ∧ HasAddress t2 c' .izx r := by
  obtain ⟨x, hx, hr⟩ := bind_ok hr
  obtain ⟨⟨w, u⟩, hp, hr⟩ := bind_ok hr
  cases hr
  obtain ⟨⟨l, u1⟩, h1, hp⟩ := bind_ok hp
  obtain ⟨⟨b, u2⟩, h2, hp⟩ := bind_ok hp
  cases hp
  refine ⟨_, ((h.operandLow hf).internal.pointerLowX hm hx h1).pointerHigh (by rw [loByte_zext16]; exact h2),
    fun d hd => ?_⟩
  show Except.ok (Resolved.fixed (wordOf d.hi d.lo)) = _
  rw [hd.1, hd.2.1]

theorem InFlight.addressIzy {p : Byte} {r : Resolved} {t1 t2 : State}
    (h : InFlight s opc none k t c (addressOps .izy ++ ms)) (hm : (operation opc).mode = .izy)
    (hf : t.fetchByte = .ok (p, t1)) (hr : resolve (.izy p) t1 = .ok (r, t2)) :
    ∃ c', InFlight s opc none (k + 3) t2 c' ms ∧ HasAddress t2 c' .izy r := by
  obtain ⟨⟨w, u⟩, hp, hr⟩ := bind_ok hr
  obtain ⟨y, hy, hr⟩ := bind_ok hr
  cases hr
  obtain ⟨⟨l, u1⟩, h1, hp⟩ := bind_ok hp
  obtain ⟨⟨b, u2⟩, h2, hp⟩ := bind_ok hp
  cases hp
  refine ⟨_, ((h.operandLow hf).pointerLow (by rw [hm]; decide) h1).pointerHigh (by rw [loByte_zext16]; exact h2),
    fun d hd => bind_of_ok (readY_internal d hy) ?_⟩
  show Except.ok (Resolved.indexed (wordOf d.hi d.lo) y) = _
  rw [hd.1, hd.2.1]

/-- The clocks that form the effective address reach the state and the address of `resolve`. -/
theorem InFlight.address {t1 : State} {o : Option Instr} (ha : addressing (operation opc).mode = true)
    (hj : (operation opc).mnemonic ≠ .JSR) (h : InFlight s opc none 1 t c (addressOps (operation opc).mode ++ ms))
    (hf : t.fetchOperands opc = .ok (o, t1)) :
    ∃ b1 b2, o = decodeBytes opc b1 b2 ∧ ∃ m, memMode (operation opc).mode b1 b2 = some m ∧
      ∀ r t2, resolve m t1 = .ok (r, t2) → ∃ c',
        InFlight s opc none (1 + (addressOps (operation opc).mode).length) t2 c' ms ∧
          HasAddress t2 c' (operation opc).mode r := by
  obtain ⟨b1, b2, ho, hcase⟩ := State.fetchOperands_ok hf
  refine ⟨b1, b2, ho, ?_⟩
  generalize hm : (operation opc).mode = mode at *
  rcases hcase with ⟨hl, -⟩ | ⟨u, hl, h1, rfl⟩ | ⟨u, v, -, hj', -⟩ | ⟨u, hl, -, h1, h2⟩
  · cases mode <;> first | exact absurd ha (by decide) | exact absurd hl (by decide)
  · cases mode <;> first
      | exact absurd ha (by decide)
      | exact absurd hl (by decide)
      | exact ⟨_, rfl, fun r t2 hr => h.addressZpa h1 hr⟩
      | exact ⟨_, rfl, fun r t2 hr => h.addressZpx h1 hr⟩
      | exact ⟨_, rfl, fun r t2 hr => h.addressZpy h1 hr⟩
      | exact ⟨_, rfl, fun r t2 hr => h.addressIzx hm h1 hr⟩
      | exact ⟨_, rfl, fun r t2 hr => h.addressIzy hm h1 hr⟩
  · exact absurd hj' hj
  · cases mode <;> first
      | exact absurd ha (by decide)
      | exact absurd hl (by decide)
      | exact ⟨_, rfl, fun r t2 hr => h.addressAbs h1 h2 hr⟩
      | exact ⟨_, rfl, fun r t2 hr => h.addressAbx h1 h2 hr⟩
      | exact ⟨_, rfl, fun r t2 hr => h.addressAby h1 h2 hr⟩

/-! ### The last clocks -/

theorem InFlight.readOperandLast {v : Byte} {w : State} {r : Resolved} {op : Byte → State → Except Fault State}
    (h : InFlight s opc none k t c (.readOperand :: ms)) (ha : HasAddress t c (operation opc).mode r)
    (hop : readOp (operation opc).mnemonic = some op) (hb : Blind (op v)) (hr : t.busRead r.ea = .ok (v, u))
    (hw : op v u = .ok w) : Refined s (w.complete (k + 1)) (k + 1) :=
  h.last fun d hd => ⟨d, by
    unfold MicroOp.run
    simp only [hop, Option.map_some]
    exact congrArg some (bind_of_ok (ha d hd) (bind_of_ok (busRead_internal d hr)
      (bind_of_ok (hb u w d hw).1 rfl)))⟩

theorem InFlight.readUncrossed {v : Byte} {w : State} {r : Resolved} {op : Byte → State → Except Fault State}
    (h : InFlight s opc none k t c (.readUnlessCrossed :: ms)) (ha : HasAddress t c (operation opc).mode r)
    (hc : r.crossed = false) (hop : readOp (operation opc).mnemonic = some op) (hb : Blind (op v))
    (hr : t.busRead r.ea = .ok (v, u)) (hw : op v u = .ok w) : Refined s (w.complete (k + 1)) (k + 1) :=
  h.last fun d hd => ⟨d, by
    unfold MicroOp.run
    simp only [hop, Option.map_some]
    refine congrArg some (bind_of_ok (ha d hd) ?_)
    rw [hc]
    exact bind_of_ok (busRead_internal d hr) (bind_of_ok (hb u w d hw).1 rfl)⟩

theorem InFlight.readCrossed {r : Resolved} {op : Byte → State → Except Fault State}
    (h : InFlight s opc none k t c (.readUnlessCrossed :: ms)) (ha : HasAddress t c (operation opc).mode r)
    (hc : r.crossed = true) (hop : readOp (operation opc).mnemonic = some op) :
    InFlight s opc none (k + 1) t c ms :=
  h.more (fun d hd => ⟨d, hd, by
    unfold MicroOp.run
    simp only [hop, Option.map_some]
    refine congrArg some (bind_of_ok (ha d hd) ?_)
    rw [hc]
    rfl⟩) h.calm

theorem InFlight.readImmediateLast {v : Byte} {w : State} {op : Byte → State → Except Fault State}
    (h : InFlight s opc none k t c (.readImmediate :: ms)) (hop : readOp (operation opc).mnemonic = some op)
    (hb : Blind (op v)) (hf : t.fetchByte = .ok (v, u)) (hw : op v u = .ok w) :
    Refined s (w.complete (k + 1)) (k + 1) :=
  h.last fun d hd => ⟨d, by
    unfold MicroOp.run
    simp only [hop, Option.map_some]
    exact congrArg some (bind_of_ok (fetchByte_internal d hf) (bind_of_ok (hb u w d hw).1 rfl))⟩

theorem InFlight.storeLast {v : Byte} {r : Resolved} {value : State → Except Fault Byte}
    (h : InFlight s opc none k t c (.store :: ms)) (ha : HasAddress t c (operation opc).mode r)
    (hop : writeValue (operation opc).mnemonic = some value)
    (hv : ∀ d, value (t.withInternal d) = .ok v) : Refined s ((t.busWrite r.ea v).complete (k + 1)) (k + 1) :=
  h.last fun d hd => ⟨d, by
    unfold MicroOp.run
    simp only [hop, Option.map_some]
    exact congrArg some (bind_of_ok (ha d hd) (bind_of_ok (hv d) rfl))⟩

theorem InFlight.latchOperand {v : Byte} {r : Resolved}
    (h : InFlight s opc none k t c (.latchOperand :: ms)) (ha : HasAddress t c (operation opc).mode r)
    (hr : t.busRead r.ea = .ok (v, u)) : InFlight s opc none (k + 1) u c ms :=
  h.more (fun d hd => ⟨d, hd, congrArg some (bind_of_ok (ha d hd) (bind_of_ok (busRead_internal d hr) rfl))⟩)
    (h.calm.busRead hr)

theorem InFlight.modifyLast {v : Byte} {w : State} {r : Resolved} {op : Word → Byte → State → Except Fault State}
    (h : InFlight s opc none k t c (.modify :: ms)) (ha : HasAddress t c (operation opc).mode r)
    (hop : rmwOp (operation opc).mnemonic = some op) (hb : Blind (op r.ea v)) (hdb : t.db = v)
    (hw : op r.ea v t = .ok w) : Refined s (w.complete (k + 1)) (k + 1) :=
  h.last fun d hd => ⟨d, by
    unfold MicroOp.run
    simp only [hop, Option.map_some]
    refine congrArg some (bind_of_ok (ha d hd) (bind_of_ok ?_ rfl))
    rw [show (t.withInternal d).db = v from hdb]
    exact (hb t w d hw).1⟩

theorem InFlight.impliedLast {w : State} {op : State → Except Fault State}
    (h : InFlight s opc none k t c (.implied :: ms)) (hop : impliedOp (operation opc).mnemonic = some op)
    (hb : Blind op) (hw : op t = .ok w) : Refined s (w.complete (k + 1)) (k + 1) :=
  h.last fun d hd => ⟨d, by
    unfold MicroOp.run
    simp only [hop, Option.map_some]
    exact congrArg some (bind_of_ok (hb t w d hw).1 rfl)⟩

end

/-! ### The operation table's rows fit the schedule -/

/-- The class, the mode and the cycle count of a row fit together: the declared count is the number of clocks of the
schedule without the page penalty, and the penalty belongs to the reads that can cross a page. -/
def rowOk (o : Operation) : Bool :=
  match o.cls with
  | .read => (readOp o.mnemonic).isSome &&
      ((o.mode == .imm && o.cycles == some 2 && !o.pagePenalty) ||
        (addressing o.mode && o.cycles == some (2 + (addressOps o.mode).length) && o.pagePenalty == crossing o.mode))
  | .write => (writeValue o.mnemonic).isSome && addressing o.mode && !o.pagePenalty &&
      o.cycles == some (2 + (addressOps o.mode).length + bitOf (crossing o.mode))
  | .rmw => (rmwOp o.mnemonic).isSome && addressing o.mode && !o.pagePenalty &&
      o.cycles == some (4 + (addressOps o.mode).length + bitOf (crossing o.mode))
  | .implied => (impliedOp o.mnemonic).isSome && o.mode.length == 1 && o.cycles == some 2 && !o.pagePenalty
  | .branch => o.mode == .rel && o.cycles == some 2 && !o.pagePenalty
  | .jump => o.mnemonic == .JMP && !o.pagePenalty &&
      ((o.mode == .abs && o.cycles == some 3) || (o.mode == .ind && o.cycles == some 5))
  | .special => !o.pagePenalty && (o.mnemonic == .JAM ||
      (o.mode == (if o.mnemonic = .JSR then .abs else .imp) &&
        o.cycles == some (1 + (specialSchedule o.mnemonic).length)))

theorem rows_ok : ∀ opcode : Byte, rowOk (operation opcode) = true := by decide

/-- No row of the four classes with operations is JSR or JAM, which are special. -/
def plainClass : OpClass → Bool
  | .read | .write | .rmw | .implied | .branch | .jump => true
  | .special => false

theorem plain_rows : ∀ opcode : Byte, plainClass (operation opcode).cls = true →
    (operation opcode).mnemonic ≠ .JSR ∧ (operation opcode).mnemonic ≠ .JAM := by decide

theorem declaredCycles_of {opc : Byte} {n : Nat} (h : (operation opc).cycles = some n) : declaredCycles opc = n := by
  simp [declaredCycles, h]

theorem State.clocks_of {w : State} {opc : Byte} {n : Nat} {crossed : Bool} (ho : w.opc = opc)
    (h : (operation opc).cycles = some n) :
    w.clocks crossed = n + bitOf ((operation opc).pagePenalty && crossed) := by
  rw [State.clocks, ho, declaredCycles_of h]

theorem schedule_read {opc : Byte} (hc : (operation opc).cls = .read) (ha : addressing (operation opc).mode = true) :
    schedule (operation opc) = addressOps (operation opc).mode ++
      (if crossing (operation opc).mode then [.readUnlessCrossed, .readOperand] else [.readOperand]) := by
  unfold schedule
  rw [hc]
  cases hm : (operation opc).mode <;> first | rfl | (rw [hm] at ha; cases ha)

theorem schedule_write {opc : Byte} (hc : (operation opc).cls = .write) (ha : addressing (operation opc).mode = true) :
    schedule (operation opc) = addressOps (operation opc).mode ++
      (if crossing (operation opc).mode then [.internal, .store] else [.store]) := by
  unfold schedule
  rw [hc]
  cases hm : (operation opc).mode <;> first | rfl | (rw [hm] at ha; cases ha)

theorem schedule_rmw {opc : Byte} (hc : (operation opc).cls = .rmw) (ha : addressing (operation opc).mode = true) :
    schedule (operation opc) = addressOps (operation opc).mode ++
      (if crossing (operation opc).mode then [.internal, .latchOperand, .internal, .modify]
        else [.latchOperand, .internal, .modify]) := by
  unfold schedule
  rw [hc]
  cases hm : (operation opc).mode <;> first | rfl | (rw [hm] at ha; cases ha)

/-! ### The classes -/

/-- The fetch of an instruction at a boundary of a running core, where no interrupt is taken. -/
structure Fetched (s : State) (opc : Byte) (t : State) (i : Instr) (t1 : State) : Prop where
  inv      : s.BoundaryInv
  running  : s.jammed = false
  noEntry  : s.force.interruptTaken = none
  opcode   : s.force.fetchOpcode = .ok (opc, t)
  operands : t.fetchOperands opc = .ok (some i, t1)

theorem Fetched.flight {s t t1 : State} {opc : Byte} {i : Instr} (h : Fetched s opc t i t1)
    (hm : (operation opc).mnemonic ≠ .JAM) :
    InFlight s opc none 1 t ⟨t.scratchLo, t.scratchHi, t.tempAddr, t.relAddr⟩ (schedule (operation opc)) :=
  .ofFetch h.inv h.running h.noEntry h.opcode hm

/-- A completed instruction's clock count is the sum of the counts it latches. -/
theorem Refined.latched {s w : State} {n : Nat} (h : Refined s (w.complete n) n) :
    Refined s (w.complete n) ((w.complete n).prevAmCycles + (w.complete n).prevOpCycles) := by
  rw [State.complete_sum]; exact h

/-- Reads with an effective address. -/
theorem Fetched.read {s t t1 r : State} {opc : Byte} {i : Instr} {m : MemMode}
    {op : Byte → State → Except Fault State} (h : Fetched s opc t i t1) (hc : (operation opc).cls = .read)
    (ha : addressing (operation opc).mode = true) (hop : readOp (operation opc).mnemonic = some op)
    (hb : ∀ v, Blind (op v))
    (hm : ∀ b1 b2, some i = decodeBytes opc b1 b2 → memMode (operation opc).mode b1 b2 = some m)
    (hr : readInstr (.mem m) op t1 = .next r) : Refined s r (r.prevAmCycles + r.prevOpCycles) := by
  have hrow := rows_ok opc
  obtain ⟨hj, hjam⟩ := plain_rows opc (by rw [hc]; rfl)
  have hf := h.flight hjam
  rw [schedule_read hc ha] at hf
  obtain ⟨b1, b2, ho, m', hm', haddr⟩ := InFlight.address ha hj hf h.operands
  rw [hm b1 b2 ho] at hm'
  cases hm'
  obtain ⟨v, crossed, t3, w, hacc, hw, rfl⟩ := readInstr_ok hr
  obtain ⟨⟨q0, v', u⟩, hacc, hx⟩ := bind_ok hacc
  cases hx
  obtain ⟨⟨q1, t2⟩, hres, hacc⟩ := bind_ok hacc
  obtain ⟨⟨v', u⟩, hread, hx⟩ := bind_ok hacc
  cases hx
  obtain ⟨c', hfl, hhas⟩ := haddr _ t2 hres
  have hopc : w.opc = opc := ((hb v t3 w t3.internal hw).2).trans (hfl.calm.busRead hread).opc
  have himm : ((operation opc).mode == Mode.imm) = false := by
    cases hmode : (operation opc).mode <;> first | rfl | (rw [hmode] at ha; cases ha)
  unfold rowOk at hrow
  rw [hc] at hrow
  simp only [himm, Bool.false_and, Bool.false_or, Bool.and_eq_true, beq_iff_eq] at hrow
  obtain ⟨-, ⟨-, hcyc⟩, hpp⟩ := hrow
  apply Refined.latched
  rw [State.clocks_of hopc hcyc, hpp]
  cases hcr : crossing (operation opc).mode with
  | false =>
    rw [hcr] at hfl
    have hl := hfl.readOperandLast hhas hop (hb v) hread hw
    have e : 2 + (addressOps (operation opc).mode).length + bitOf (false && q0.crossed) =
        1 + (addressOps (operation opc).mode).length + 1 := by simp [bitOf]; omega
    rw [e]; exact hl
  | true =>
    rw [hcr] at hfl
    cases hq : q0.crossed with
    | false =>
      have hl := hfl.readUncrossed hhas hq hop (hb v) hread hw
      have e : 2 + (addressOps (operation opc).mode).length + bitOf (true && false) =
          1 + (addressOps (operation opc).mode).length + 1 := by simp [bitOf]; omega
      rw [e]; exact hl
    | true =>
      have hl := (hfl.readCrossed hhas hq hop).readOperandLast hhas hop (hb v) hread hw
      have e : 2 + (addressOps (operation opc).mode).length + bitOf (true && true) =
          1 + (addressOps (operation opc).mode).length + 1 + 1 := by simp [bitOf]; omega
      rw [e]; exact hl

/-- Reads of an immediate. -/
theorem Fetched.readImm {s t t1 r : State} {opc b : Byte} {i : Instr} {op : Byte → State → Except Fault State}
    (h : Fetched s opc t i t1) (hc : (operation opc).cls = .read) (ha : (operation opc).mode = .imm)
    (hop : readOp (operation opc).mnemonic = some op) (hb : ∀ v, Blind (op v))
    (hm : ∀ b1 b2, some i = decodeBytes opc b1 b2 → b1 = b)
    (hr : readInstr (.imm b) op t1 = .next r) : Refined s r (r.prevAmCycles + r.prevOpCycles) := by
  have hrow := rows_ok opc
  obtain ⟨hj, hjam⟩ := plain_rows opc (by rw [hc]; rfl)
  have hf := h.flight hjam
  have hs : schedule (operation opc) = [.readImmediate] := by unfold schedule; rw [hc, ha]; rfl
  rw [hs] at hf
  obtain ⟨b1, b2, ho, hcase⟩ := State.fetchOperands_ok h.operands
  rw [ha] at hcase
  obtain ⟨v, crossed, t3, w, hacc, hw, rfl⟩ := readInstr_ok hr
  cases hacc
  have hfetch : t.fetchByte = .ok (b, t1) := by
    rcases hcase with ⟨hl, -⟩ | ⟨u, -, h1, rfl⟩ | ⟨u, v, hl, -⟩ | ⟨u, hl, -⟩
    · exact absurd hl (by decide)
    · rw [hm b1 b2 ho] at h1; exact h1
    · exact absurd hl (by decide)
    · exact absurd hl (by decide)
  have hopc : w.opc = opc := ((hb b t1 w t1.internal hw).2).trans (hf.calm.fetchByte hfetch).opc
  unfold rowOk at hrow
  rw [hc, ha] at hrow
  simp only [addressing, Bool.false_and, Bool.or_false, Bool.and_eq_true, beq_iff_eq, Bool.not_eq_true'] at hrow
  obtain ⟨-, ⟨-, hcyc⟩, hpp⟩ := hrow
  apply Refined.latched
  rw [State.clocks_of hopc hcyc, hpp]
  exact hf.readImmediateLast hop (hb b) hfetch hw

/-- Writes. -/
theorem Fetched.write {s t t1 r : State} {opc : Byte} {i : Instr} {m : MemMode} {value : State → Except Fault Byte}
    (h : Fetched s opc t i t1) (hc : (operation opc).cls = .write) (hop : writeValue (operation opc).mnemonic = some value)
    (hb : ∀ u v d, value u = .ok v → value (State.withInternal u d) = .ok v)
    (hm : ∀ b1 b2, some i = decodeBytes opc b1 b2 → memMode (operation opc).mode b1 b2 = some m)
    (hr : writeInstr m value t1 = .next r) : Refined s r (r.prevAmCycles + r.prevOpCycles) := by
  have hrow := rows_ok opc
  unfold rowOk at hrow
  rw [hc] at hrow
  simp only [Bool.and_eq_true, beq_iff_eq, Bool.not_eq_true'] at hrow
  obtain ⟨⟨⟨-, ha⟩, hpp⟩, hcyc⟩ := hrow
  obtain ⟨hj, hjam⟩ := plain_rows opc (by rw [hc]; rfl)
  have hf := h.flight hjam
  rw [schedule_write hc ha] at hf
  obtain ⟨b1, b2, ho, m', hm', haddr⟩ := InFlight.address ha hj hf h.operands
  rw [hm b1 b2 ho] at hm'
  cases hm'
  obtain ⟨q, t2, v, hres, hv, rfl⟩ := writeInstr_ok hr
  obtain ⟨c', hfl, hhas⟩ := haddr _ t2 hres
  have hopc : (t2.busWrite q.ea v).opc = opc := hfl.calm.opc
  apply Refined.latched
  rw [State.clocks_of hopc hcyc, hpp]
  cases hcr : crossing (operation opc).mode with
  | false =>
    rw [hcr] at hfl
    have hl := hfl.storeLast hhas hop (fun d => hb t2 v d hv)
    have e : 2 + (addressOps (operation opc).mode).length + bitOf false + bitOf (false && q.crossed) =
        1 + (addressOps (operation opc).mode).length + 1 := by simp [bitOf]; omega
    rw [e]; exact hl
  | true =>
    rw [hcr] at hfl
    have hl := hfl.internal.storeLast hhas hop (fun d => hb t2 v d hv)
    have e : 2 + (addressOps (operation opc).mode).length + bitOf true + bitOf (false && q.crossed) =
        1 + (addressOps (operation opc).mode).length + 1 + 1 := by simp [bitOf]; omega
    rw [e]; exact hl

/-- Read-modify-writes. -/
theorem Fetched.rmw {s t t1 r : State} {opc : Byte} {i : Instr} {m : MemMode}
    {op : Word → Byte → State → Except Fault State} (h : Fetched s opc t i t1) (hc : (operation opc).cls = .rmw)
    (hop : rmwOp (operation opc).mnemonic = some op) (hb : ∀ ea v, Blind (op ea v))
    (hm : ∀ b1 b2, some i = decodeBytes opc b1 b2 → memMode (operation opc).mode b1 b2 = some m)
    (hr : rmwInstr m op t1 = .next r) : Refined s r (r.prevAmCycles + r.prevOpCycles) := by
  have hrow := rows_ok opc
  unfold rowOk at hrow
  rw [hc] at hrow
  simp only [Bool.and_eq_true, beq_iff_eq, Bool.not_eq_true'] at hrow
  obtain ⟨⟨⟨-, ha⟩, hpp⟩, hcyc⟩ := hrow
  obtain ⟨hj, hjam⟩ := plain_rows opc (by rw [hc]; rfl)
  have hf := h.flight hjam
  rw [schedule_rmw hc ha] at hf
  obtain ⟨b1, b2, ho, m', hm', haddr⟩ := InFlight.address ha hj hf h.operands
  rw [hm b1 b2 ho] at hm'
  cases hm'
  obtain ⟨q, v, t3, w, hacc, hw, rfl⟩ := rmwInstr_ok hr
  obtain ⟨⟨q1, t2⟩, hres, hacc⟩ := bind_ok hacc
  obtain ⟨⟨v', u⟩, hread, hx⟩ := bind_ok hacc
  cases hx
  obtain ⟨c', hfl, hhas⟩ := haddr _ t2 hres
  have hopc : w.opc = opc := ((hb q.ea v t3 w t3.internal hw).2).trans (hfl.calm.busRead hread).opc
  have hdb : t3.db = v := (State.busRead_ok hread).2.2.2.1
  have hhas3 : HasAddress t3 c' (operation opc).mode q := by
    intro d hd
    have h1 := hhas d hd
    have ht := (State.busRead_ok hread).1
    have hx : Cell.x ∈ t3.unwritten ↔ Cell.x ∈ t2.unwritten := by rw [(State.busRead_ok hread).2.2.2.2]; simp
    have hy : Cell.y ∈ t3.unwritten ↔ Cell.y ∈ t2.unwritten := by rw [(State.busRead_ok hread).2.2.2.2]; simp
    have hxv : t3.x = t2.x := by rw [ht]; rfl
    have hyv : t3.y = t2.y := by rw [ht]; rfl
    have hrx : ∀ x, (t2.withInternal d).readX = .ok x → (t3.withInternal d).readX = .ok x := by
      intro x hx1
      obtain ⟨hn, he⟩ := readX_ok hx1
      rw [readX_of_written (s := t3.withInternal d) (fun hm => hn (hx.1 hm)), he]
      exact congrArg _ hxv
    have hry : ∀ y, (t2.withInternal d).readY = .ok y → (t3.withInternal d).readY = .ok y := by
      intro y hy1
      obtain ⟨hn, he⟩ := readY_ok hy1
      rw [readY_of_written (s := t3.withInternal d) (fun hm => hn (hy.1 hm)), he]
      exact congrArg _ hyv
    unfold State.flightAddress at h1 ⊢
    cases hmode : (operation opc).mode <;> rw [hmode] at h1 <;> dsimp only at h1 ⊢ <;>
      first
        | exact h1
        | (obtain ⟨x, hx1, h1⟩ := bind_ok h1; exact bind_of_ok (hrx x hx1) h1)
        | (obtain ⟨y, hy1, h1⟩ := bind_ok h1; exact bind_of_ok (hry y hy1) h1)
  apply Refined.latched
  rw [State.clocks_of hopc hcyc, hpp]
  cases hcr : crossing (operation opc).mode with
  | false =>
    rw [hcr] at hfl
    have hl := ((hfl.latchOperand hhas hread).internal).modifyLast hhas3 hop (hb q.ea v) hdb hw
    have e : 4 + (addressOps (operation opc).mode).length + bitOf false + bitOf (false && q.crossed) =
        1 + (addressOps (operation opc).mode).length + 1 + 1 + 1 := by simp [bitOf]; omega
    rw [e]; exact hl
  | true =>
    rw [hcr] at hfl
    have hl := ((hfl.internal.latchOperand hhas hread).internal).modifyLast hhas3 hop (hb q.ea v) hdb hw
    have e : 4 + (addressOps (operation opc).mode).length + bitOf true + bitOf (false && q.crossed) =
        1 + (addressOps (operation opc).mode).length + 1 + 1 + 1 + 1 := by simp [bitOf]; omega
    rw [e]; exact hl

/-- Implied and accumulator instructions. -/
theorem Fetched.implied {s t t1 r : State} {opc : Byte} {i : Instr} {op : State → Except Fault State}
    (h : Fetched s opc t i t1) (hc : (operation opc).cls = .implied)
    (hop : impliedOp (operation opc).mnemonic = some op) (hb : Blind op) (hr : impliedInstr op t1 = .next r) :
    Refined s r (r.prevAmCycles + r.prevOpCycles) := by
  have hrow := rows_ok opc
  unfold rowOk at hrow
  rw [hc] at hrow
  simp only [Bool.and_eq_true, beq_iff_eq, Bool.not_eq_true'] at hrow
  obtain ⟨⟨⟨-, hlen⟩, hcyc⟩, hpp⟩ := hrow
  obtain ⟨hj, hjam⟩ := plain_rows opc (by rw [hc]; rfl)
  have hf := h.flight hjam
  have hs : schedule (operation opc) = [.implied] := by unfold schedule; rw [hc]
  rw [hs] at hf
  have ht : t1 = t := by
    obtain ⟨b1, b2, ho, hcase⟩ := State.fetchOperands_ok h.operands
    rw [hlen] at hcase
    rcases hcase with ⟨-, ht⟩ | ⟨u, hl, -⟩ | ⟨u, v, hl, -⟩ | ⟨u, hl, -⟩
    · exact ht
    · cases hl
    · cases hl
    · cases hl
  subst ht
  obtain ⟨w, hw, rfl⟩ := impliedInstr_ok hr
  have hopc : w.opc = opc := ((hb t1 w t1.internal hw).2).trans hf.calm.opc
  apply Refined.latched
  rw [State.clocks_of hopc hcyc, hpp]
  exact hf.impliedLast hop hb hw

/-! ### Branches, jumps, the special instructions and interrupt entry -/

theorem branch_rows {opc : Byte} (hc : (operation opc).cls = .branch) :
    (operation opc).mode = .rel ∧ (operation opc).cycles = some 2 ∧
      schedule (operation opc) = [.branchOffset, .branchTaken, .branchFixup] := by
  have hrow := rows_ok opc
  unfold rowOk at hrow
  rw [hc] at hrow
  simp only [Bool.and_eq_true, beq_iff_eq] at hrow
  exact ⟨hrow.1.1, hrow.1.2, by unfold schedule; rw [hc]⟩

theorem Fetched.branch {s t t1 r : State} {opc off : Byte} {i : Instr} {cell : Cell} {flag : Status → Bool} {want : Bool}
    {penalty : Config.BranchPagePenalty → Bool} (h : Fetched s opc t i t1) (hc : (operation opc).cls = .branch)
    (hb : ∀ u : State, branchCondition u (operation opc).mnemonic =
      some ⟨cell, flag u.p == want, penalty u.params.branchPagePenalty⟩)
    (hm : ∀ b1 b2, some i = decodeBytes opc b1 b2 → b1 = off)
    (hr : branchInstr cell flag want penalty off t1 = .next r) : Refined s r (r.prevAmCycles + r.prevOpCycles) := by
  obtain ⟨hmode, hcyc, hs⟩ := branch_rows hc
  have hf := h.flight (plain_rows opc (by rw [hc]; rfl)).2
  rw [hs] at hf
  obtain ⟨b1, b2, ho, hcase⟩ := State.fetchOperands_ok h.operands
  rw [hmode] at hcase
  have hfetch : t.fetchByte = .ok (off, t1) := by
    rcases hcase with ⟨hl, -⟩ | ⟨u, -, h1, rfl⟩ | ⟨u, v, hl, -⟩ | ⟨u, hl, -⟩
    · exact absurd hl (by decide)
    · rw [hm b1 b2 ho] at h1; exact h1
    · exact absurd hl (by decide)
    · exact absurd hl (by decide)
  have hcalm := hf.calm.fetchByte hfetch
  have hp : t.p = t1.p := hf.calm.p.trans hcalm.p.symm
  rw [branchInstr, finish_next] at hr
  obtain ⟨_, hn, hr⟩ := bind_ok hr
  cases hr
  have hd : declaredCycles t1.opc = 2 := by rw [hcalm.opc]; exact declaredCycles_of hcyc
  apply Refined.latched
  rw [hd]
  cases htk : (flag t1.p == want) with
  | false =>
    refine hf.last fun d hd => ⟨d, ?_⟩
    unfold MicroOp.run
    rw [hb]
    refine congrArg some (bind_of_ok (fetchByte_internal d hfetch) (bind_of_ok (need_internal d hn) ?_))
    show (if (flag t.p == want) = true then _ else _) = _
    rw [hp, htk]
    rfl
  | true =>
    have h1 : InFlight s opc none 2 t1 ⟨t.scratchLo, t.scratchHi, t.tempAddr, sext16 off⟩ [.branchTaken, .branchFixup] :=
      hf.more (fun d hd => ⟨{ d with rel := sext16 off }, ⟨hd.1, hd.2.1, hd.2.2.1, rfl, hd.2.2.2.2⟩, by
        unfold MicroOp.run
        rw [hb]
        refine congrArg some (bind_of_ok (fetchByte_internal d hfetch) (bind_of_ok (need_internal d hn) ?_))
        show (if (flag t.p == want) = true then _ else _) = _
        rw [hp, htk]
        rfl⟩) hcalm
    cases hx : (penalty t1.params.branchPagePenalty && hiByte t1.pc != hiByte (branchTarget t1.pc off)) with
    | false =>
      have e : branchClocks 2 true (penalty t1.params.branchPagePenalty) t1.pc (branchTarget t1.pc off) = 3 := by
        simp [branchClocks, Bool.true_and, hx, bitOf]
      rw [e]
      refine h1.last fun d hd => ⟨d, ?_⟩
      unfold MicroOp.run
      rw [hb]
      refine congrArg some ?_
      show (if (penalty t1.params.branchPagePenalty && hiByte t1.pc != hiByte (t1.pc + d.rel)) = true then
        Progress.more (t1.withInternal d) else Progress.last ((t1.withInternal d).setPc (t1.pc + d.rel))) = _
      rw [hd.2.2.2.1]
      exact if_neg (by rw [show t1.pc + sext16 off = branchTarget t1.pc off from rfl, hx]; decide)
    | true =>
      have e : branchClocks 2 true (penalty t1.params.branchPagePenalty) t1.pc (branchTarget t1.pc off) = 4 := by
        simp [branchClocks, Bool.true_and, hx, bitOf]
      rw [e]
      have h2 : InFlight s opc none 3 t1 ⟨t.scratchLo, t.scratchHi, t.tempAddr, sext16 off⟩ [.branchFixup] :=
        h1.more (fun d hd => ⟨d, hd, by
          unfold MicroOp.run
          rw [hb]
          refine congrArg some ?_
          show (if (penalty t1.params.branchPagePenalty && hiByte t1.pc != hiByte (t1.pc + d.rel)) = true then
            Progress.more (t1.withInternal d) else Progress.last ((t1.withInternal d).setPc (t1.pc + d.rel))) = _
          rw [hd.2.2.2.1]
          exact if_pos (by rw [show t1.pc + sext16 off = branchTarget t1.pc off from rfl, hx])⟩) hcalm
      refine h2.last fun d hd => ⟨d, ?_⟩
      refine congrArg some ?_
      show Progress.last ((t1.withInternal d).setPc (t1.pc + d.rel)) = _
      rw [hd.2.2.2.1]
      rfl

theorem jump_rows {opc : Byte} (hc : (operation opc).cls = .jump) :
    (operation opc).mnemonic = .JMP ∧ (operation opc).pagePenalty = false ∧
      (((operation opc).mode = .abs ∧ (operation opc).cycles = some 3 ∧
          schedule (operation opc) = [.operandLow, .jumpAbsolute]) ∨
        ((operation opc).mode = .ind ∧ (operation opc).cycles = some 5 ∧
          schedule (operation opc) = [.operandLow, .operandHigh, .indirectLow, .jumpIndirect])) := by
  have hrow := rows_ok opc
  unfold rowOk at hrow
  rw [hc] at hrow
  simp only [Bool.and_eq_true, Bool.or_eq_true, beq_iff_eq, Bool.not_eq_true'] at hrow
  obtain ⟨⟨hm, hp⟩, ⟨hmode, hcyc⟩ | ⟨hmode, hcyc⟩⟩ := hrow
  · exact ⟨hm, hp, .inl ⟨hmode, hcyc, by unfold schedule; rw [hc, hmode]; rfl⟩⟩
  · exact ⟨hm, hp, .inr ⟨hmode, hcyc, by unfold schedule; rw [hc, hmode]; rfl⟩⟩

theorem Fetched.jump {s t t1 r : State} {opc : Byte} {i : Instr} {o : JumpOperand} (h : Fetched s opc t i t1)
    (hc : (operation opc).cls = .jump)
    (hm : ∀ b1 b2, some i = decodeBytes opc b1 b2 → jumpOperand (operation opc).mode b1 b2 = some o)
    (hr : execJmp o t1 = .next r) : Refined s r (r.prevAmCycles + r.prevOpCycles) := by
  obtain ⟨hmn, hpp, hrows⟩ := jump_rows hc
  obtain ⟨hj, hjam⟩ := plain_rows opc (by rw [hc]; rfl)
  have hf := h.flight hjam
  obtain ⟨b1, b2, ho, hcase⟩ := State.fetchOperands_ok h.operands
  have hop := hm b1 b2 ho
  have hfetch : ∃ u, t.fetchByte = .ok (b1, u) ∧ u.fetchByte = .ok (b2, t1) := by
    have hl3 : (operation opc).mode.length = 3 := by
      rcases hrows with ⟨hmode, -⟩ | ⟨hmode, -⟩ <;> rw [hmode] <;> rfl
    rw [hl3] at hcase
    rcases hcase with ⟨hl, -⟩ | ⟨u, hl, -⟩ | ⟨u, v, -, hj', -⟩ | ⟨u, -, -, h1, h2⟩
    · cases hl
    · cases hl
    · exact absurd hj' hj
    · exact ⟨u, h1, h2⟩
  obtain ⟨u, h1, h2⟩ := hfetch
  rcases hrows with ⟨hmode, hcyc, hs⟩ | ⟨hmode, hcyc, hs⟩
  · rw [hmode] at hop
    cases hop
    rw [hs] at hf
    have hl := hf.operandLow h1
    have hopc := (hl.calm.fetchByte h2).opc
    cases hr
    apply Refined.latched
    rw [State.clocks_of (w := t1) hopc hcyc, hpp]
    refine hl.last fun d hd => ⟨d, congrArg some (bind_of_ok (fetchByte_internal d h2) ?_)⟩
    show Progress.last ((t1.withInternal d).setPc (wordOf b2 d.lo)) = _
    rw [hd.1]
    rfl
  · rw [hmode] at hop
    cases hop
    rw [hs] at hf
    rw [execJmp, finish_next] at hr
    obtain ⟨⟨w, v⟩, hri, hr⟩ := bind_ok hr
    cases hr
    obtain ⟨⟨l, v1⟩, hr1, hri⟩ := bind_ok hri
    obtain ⟨⟨b, v2⟩, hr2, hri⟩ := bind_ok hri
    cases hri
    have hl := ((hf.operandLow h1).operandHigh h2).indirectLow hr1
    have hopc := (hl.calm.busRead hr2).opc
    apply Refined.latched
    rw [State.clocks_of (w := v) hopc hcyc, hpp]
    refine hl.last fun d hd => ⟨d, ?_⟩
    have hr' := busRead_internal d hr2
    rw [show wordOf b2 b1 = d.temp from hd.2.2.1.symm] at hr'
    refine congrArg some (bind_of_ok hr' ?_)
    show Progress.last ((v.withInternal d).setPc (wordOf b d.lo)) = _
    rw [hd.1]
    rfl

theorem special_rows {opc : Byte} (hc : (operation opc).cls = .special) (hj : (operation opc).mnemonic ≠ .JAM) :
    (operation opc).pagePenalty = false ∧
      (operation opc).mode = (if (operation opc).mnemonic = .JSR then .abs else .imp) ∧
      (operation opc).cycles = some (1 + (specialSchedule (operation opc).mnemonic).length) ∧
      schedule (operation opc) = specialSchedule (operation opc).mnemonic := by
  have hrow := rows_ok opc
  unfold rowOk at hrow
  rw [hc] at hrow
  simp only [Bool.and_eq_true, Bool.or_eq_true, beq_iff_eq, Bool.not_eq_true'] at hrow
  obtain ⟨hp, hjam | ⟨hmode, hcyc⟩⟩ := hrow
  · exact absurd hjam hj
  · exact ⟨hp, hmode, hcyc, by unfold schedule; rw [hc]⟩

/-- A special instruction of implied mode: its meaning starts where the opcode fetch ends. -/
theorem Fetched.special {s t t1 : State} {opc : Byte} {i : Instr} (h : Fetched s opc t i t1)
    (hc : (operation opc).cls = .special) (hj : (operation opc).mnemonic ≠ .JAM)
    (hs : (operation opc).mnemonic ≠ .JSR) :
    t1 = t ∧ (∀ w : State, w.opc = opc → w.clocks false = 1 + (specialSchedule (operation opc).mnemonic).length) ∧
      InFlight s opc none 1 t ⟨t.scratchLo, t.scratchHi, t.tempAddr, t.relAddr⟩
        (specialSchedule (operation opc).mnemonic) := by
  obtain ⟨hpp, hmode, hcyc, hsch⟩ := special_rows hc hj
  rw [if_neg hs] at hmode
  have hf := h.flight hj
  rw [hsch] at hf
  refine ⟨?_, fun w hw => ?_, hf⟩
  · obtain ⟨b1, b2, ho, hcase⟩ := State.fetchOperands_ok h.operands
    rw [hmode] at hcase
    rcases hcase with ⟨-, ht⟩ | ⟨u, hl, -⟩ | ⟨u, v, hl, -⟩ | ⟨u, hl, -⟩
    · exact ht
    · cases hl
    · cases hl
    · cases hl
  · rw [State.clocks_of hw hcyc, hpp]
    rfl

/-- PHA, PHP, PLA and PLP. -/
theorem Fetched.stack {s t t1 r : State} {opc : Byte} {i : Instr} {op : State → Except Fault State}
    (h : Fetched s opc t i t1) (hc : (operation opc).cls = .special)
    (hm : (operation opc).mnemonic = .PHA ∨ (operation opc).mnemonic = .PHP ∨ (operation opc).mnemonic = .PLA ∨
      (operation opc).mnemonic = .PLP)
    (hop : impliedOp (operation opc).mnemonic = some op) (hb : Blind op) (hr : impliedInstr op t1 = .next r) :
    Refined s r (r.prevAmCycles + r.prevOpCycles) := by
  have hj : (operation opc).mnemonic ≠ .JAM := by rcases hm with h | h | h | h <;> rw [h] <;> decide
  have hs : (operation opc).mnemonic ≠ .JSR := by rcases hm with h | h | h | h <;> rw [h] <;> decide
  obtain ⟨rfl, hclk, hf⟩ := h.special hc hj hs
  obtain ⟨w, hw, rfl⟩ := impliedInstr_ok hr
  have hopc : w.opc = opc := ((hb t1 w t1.internal hw).2).trans hf.calm.opc
  apply Refined.latched
  rw [hclk w hopc]
  rcases hm with hm | hm | hm | hm <;> rw [hm] at hf ⊢
  · exact hf.internal.impliedLast hop hb hw
  · exact hf.internal.impliedLast hop hb hw
  · exact hf.internal.internal.impliedLast hop hb hw
  · exact hf.internal.internal.impliedLast hop hb hw

theorem Fetched.rts {s t t1 r : State} {opc : Byte} {i : Instr} (h : Fetched s opc t i t1)
    (hc : (operation opc).cls = .special) (hm : (operation opc).mnemonic = .RTS) (hr : execRts t1 = .next r) :
    Refined s r (r.prevAmCycles + r.prevOpCycles) := by
  obtain ⟨rfl, hclk, hf⟩ := h.special hc (by rw [hm]; decide) (by rw [hm]; decide)
  obtain ⟨w, hw, rfl⟩ := impliedInstr_ok hr
  obtain ⟨⟨l, u⟩, h1, hw⟩ := bind_ok hw
  obtain ⟨⟨b, v⟩, h2, hw⟩ := bind_ok hw
  cases hw
  rw [hm] at hf hclk
  have hl := (hf.internal.internal.pullLow h1).pullHigh h2
  apply Refined.latched
  rw [hclk (v.setPc (wordOf b l + 1)) hl.calm.opc]
  refine hl.last fun d hd => ⟨d, congrArg some ?_⟩
  show Progress.last ((v.withInternal d).setPc (wordOf d.hi d.lo + 1)) = _
  rw [hd.1, hd.2.1]
  rfl

theorem Fetched.rti {s t t1 r : State} {opc : Byte} {i : Instr} (h : Fetched s opc t i t1)
    (hc : (operation opc).cls = .special) (hm : (operation opc).mnemonic = .RTI) (hr : execRti t1 = .next r) :
    Refined s r (r.prevAmCycles + r.prevOpCycles) := by
  obtain ⟨rfl, hclk, hf⟩ := h.special hc (by rw [hm]; decide) (by rw [hm]; decide)
  obtain ⟨w, hw, rfl⟩ := impliedInstr_ok hr
  obtain ⟨⟨q, u⟩, h1, hw⟩ := bind_ok hw
  obtain ⟨⟨l, v⟩, h2, hw⟩ := bind_ok hw
  obtain ⟨⟨b, x⟩, h3, hw⟩ := bind_ok hw
  cases hw
  rw [hm] at hf hclk
  have hl := (hf.internal.internal.pullStatus h1).pullLow h2
  apply Refined.latched
  rw [hclk ((x.setStatus (Status.restore q)).setPc (wordOf b l)) (hl.calm.pull h3).opc]
  refine hl.last fun d hd => ⟨d, congrArg some (bind_of_ok (pull_internal d h3) ?_)⟩
  show Progress.last (((x.withInternal d).setStatus (Status.restore (loByte d.temp))).setPc (wordOf b d.lo)) = _
  rw [hd.1, hd.2.2.1, loByte_zext16]
  rfl

theorem Fetched.brk {s t t1 r : State} {opc : Byte} {i : Instr} (h : Fetched s opc t i t1)
    (hc : (operation opc).cls = .special) (hm : (operation opc).mnemonic = .BRK) (hr : execBrk t1 = .next r) :
    Refined s r (r.prevAmCycles + r.prevOpCycles) := by
  obtain ⟨rfl, hclk, hf⟩ := h.special hc (by rw [hm]; decide) (by rw [hm]; decide)
  obtain ⟨w, hw, rfl⟩ := impliedInstr_ok hr
  obtain ⟨⟨target, x⟩, h1, hw⟩ := bind_ok hw
  cases hw
  obtain ⟨_, hn, h1⟩ := bind_ok h1
  obtain ⟨⟨l, u⟩, h2, h1⟩ := bind_ok h1
  obtain ⟨⟨b, v⟩, h3, h1⟩ := bind_ok h1
  cases h1
  rw [hm] at hf hclk
  have hl := ((hf.internal.pushBrkHigh.pushBrkLow).pushStatusBrk hn).vectorLow h2
  apply Refined.latched
  rw [hclk (((x.setB false).setI true).setPc (wordOf b l)) (hl.calm.busRead h3).opc]
  refine hl.last fun d hd => ⟨d, ?_⟩
  have hv : (u.withInternal d).flightVector = brkVector := by
    rw [State.flightVector_eq, show (u.withInternal d).entering = none from hd.2.2.2.2]
    rfl
  have h3' := busRead_internal d h3
  rw [← hv] at h3'
  refine congrArg some (bind_of_ok h3' ?_)
  show Progress.last ((x.withInternal d).commitVector (wordOf b d.lo)) = _
  unfold State.commitVector
  rw [show (x.withInternal d).entering = none from hd.2.2.2.2, hd.1]
  rfl

theorem Fetched.jsr {s t t1 r : State} {opc : Byte} {i : Instr} {target : Word} (h : Fetched s opc t i t1)
    (hc : (operation opc).cls = .special) (hm : (operation opc).mnemonic = .JSR)
    (hi : ∀ b1 b2, some i = decodeBytes opc b1 b2 → loByte target = b1) (hr : execJsr target t1 = .next r) :
    Refined s r (r.prevAmCycles + r.prevOpCycles) := by
  obtain ⟨hpp, hmode, hcyc, hsch⟩ := special_rows hc (by rw [hm]; decide)
  rw [if_pos hm] at hmode
  have hf := h.flight (by rw [hm]; decide)
  rw [hsch, hm] at hf
  rw [hm] at hcyc
  obtain ⟨b1, b2, ho, hcase⟩ := State.fetchOperands_ok h.operands
  have hlow := hi b1 b2 ho
  have h1 : t.fetchByte = .ok (b1, t1) := by
    rw [hmode] at hcase
    rcases hcase with ⟨hl, -⟩ | ⟨u, hl, -⟩ | ⟨u, v, -, -, h1, -, rfl⟩ | ⟨u, -, hj, -⟩
    · cases hl
    · cases hl
    · exact h1
    · exact absurd hm hj
  obtain ⟨w, hw, rfl⟩ := impliedInstr_ok hr
  obtain ⟨⟨b, v⟩, h2, hw⟩ := bind_ok hw
  cases hw
  rw [hlow]
  have hl := (hf.operandLow h1).internal.pushPcHigh.pushPcLow
  apply Refined.latched
  rw [State.clocks_of (w := v.setPc (wordOf b b1)) (hl.calm.busRead h2).opc hcyc, hpp]
  refine hl.last fun d hd => ⟨d, congrArg some (bind_of_ok (busRead_internal d h2) ?_)⟩
  show Progress.last ((v.withInternal d).setPc (wordOf b d.lo)) = _
  rw [hd.1]
  rfl

/-- JAM: its fetch clock is its only one. -/
theorem Fetched.jam {s t t1 r : State} {opc : Byte} {i : Instr} (h : Fetched s opc t i t1)
    (hm : (operation opc).mnemonic = .JAM) (hmode : (operation opc).mode = .imp) (hr : execJam t1 = .next r) :
    Refined s r 1 := by
  have ht : t1 = t := by
    obtain ⟨b1, b2, ho, hcase⟩ := State.fetchOperands_ok h.operands
    rw [hmode] at hcase
    rcases hcase with ⟨-, ht⟩ | ⟨u, hl, -⟩ | ⟨u, v, hl, -⟩ | ⟨u, hl, -⟩
    · exact ht
    · cases hl
    · cases hl
    · cases hl
  subst ht
  obtain ⟨-, ham, hop⟩ := h.inv.idle h.running
  have hidle : s.idle = true := by simp [State.idle, ham, hop]
  cases hr
  refine ⟨{ t1 with jammed := true, opip := true, amip := false }, ?_, rfl, fun j h0 h1 => by omega⟩
  rw [clocks, clock_of_fetch h.inv.running.2 h.inv.running.1 h.running hidle h.noEntry]
  have hfc : s.force.firstClock = .ok { t1 with jammed := true, opip := true, amip := false } := by
    unfold State.firstClock
    rw [h.opcode, ok_bind]
    exact if_pos hm
  rw [hfc]
  rfl

/-- Interrupt entry: seven clocks. -/
theorem refined_interrupt {s r : State} {k : Interrupt} (hs : s.BoundaryInv) (hj : s.jammed = false)
    (hk : s.force.interruptTaken = some k) (hr : s.force.enterInterrupt k = .ok r) : Refined s r 7 := by
  have hf := InFlight.ofInterrupt hs hj hk
  obtain ⟨⟨target, x⟩, h1, hw⟩ := bind_ok hr
  have hl := hf.internal.pushPcHigh.pushPcLow
  obtain ⟨_, hn, h1⟩ := bind_ok h1
  obtain ⟨⟨l, u⟩, h2, h1⟩ := bind_ok h1
  obtain ⟨⟨b, v⟩, h3, h1⟩ := bind_ok h1
  cases h1
  have hl := (hl.pushStatusInterrupt hn).vectorLow h2
  have hlast := hl.last (u := x.commitEntry k (wordOf b l)) fun d hd => ⟨d, by
    have hv : (u.withInternal d).flightVector = k.vector := by
      rw [State.flightVector_eq, show (u.withInternal d).entering = some k from hd.2.2.2.2]
      rfl
    have h3' := busRead_internal d h3
    rw [← hv] at h3'
    refine congrArg some (bind_of_ok h3' ?_)
    show Progress.last ((x.withInternal d).commitVector (wordOf b d.lo)) = _
    unfold State.commitVector
    rw [show (x.withInternal d).entering = some k from hd.2.2.2.2, hd.1]
    rfl⟩
  cases hw
  exact hlast

/-! ### An NMI entry in flight, whatever the host's lines do between its clocks -/

/-- `k` clocks of an NMI entry have been performed. -/
structure InEntry (k : Nat) (s : State) : Prop where
  running  : Cell.pc ∉ s.unwritten ∧ s.fault = .none ∧ s.jammed = false
  busy     : s.idle = false
  entering : s.entering = some .nmi
  clocks   : s.performed = k
  status   : ∀ cell ∈ statusCells, cell ∉ s.unwritten
  latched  : 3 ≤ k → Cell.db ∉ s.unwritten

theorem InEntry.microOp {k : Nat} {s : State} (h : InEntry k s) :
    s.force.microOp (s.force.performed + 1) = interruptSchedule[k - 1]? := by
  have he : s.force.entering = some .nmi := h.entering
  unfold State.microOp
  rw [he]
  simp [h.clocks]

/-- One clock of an NMI entry before its last: the note of a later edge and the parameters stay. -/
theorem InEntry.more {k : Nat} {s : State} (h : InEntry k s) (h1 : 1 ≤ k) (h6 : k < 6) :
    ∃ t, clock s = .next t ∧ InEntry (k + 1) t ∧ t.nmiAgain = s.nmiAgain ∧ t.params = s.params := by
  rw [clock_of_flight h.running.1 h.running.2.1 h.running.2.2 h.busy]
  have key : ∀ (m : MicroOp) (t : State), interruptSchedule[k - 1]? = some m →
      m.run (operation s.force.opc) s.force = some (.ok ⟨t, false⟩) →
      (t.fault = .none ∧ t.jammed = false ∧ t.entering = some .nmi ∧ t.nmiAgain = s.nmiAgain ∧ t.params = s.params) →
      (∀ cell, cell ∉ s.unwritten → cell ∉ t.unwritten) → (3 ≤ k + 1 → Cell.db ∉ t.unwritten) →
      ∃ t, s.force.laterClock = .next t ∧ InEntry (k + 1) t ∧ t.nmiAgain = s.nmiAgain ∧ t.params = s.params := by
    intro m t hm hr ⟨hf, hj, he, hn, hp⟩ hu hdb
    exact ⟨_, State.laterClock_more (h.microOp.trans hm) hr, ⟨⟨hu _ h.running.1, hf, hj⟩, State.setFlight_idle _, he,
      by simp [h.clocks], fun cell hc => hu _ (h.status cell hc), hdb⟩, hn, hp⟩
  have hpush : ∀ b, (s.force.push b).fault = .none ∧ (s.force.push b).jammed = false ∧
      (s.force.push b).entering = some .nmi ∧ (s.force.push b).nmiAgain = s.nmiAgain ∧
      (s.force.push b).params = s.params := fun b => by
    refine ⟨?_, ?_, ?_, ?_, ?_⟩ <;> simp [h.running, h.entering]
  interval_cases k
  · exact key .internal s.force rfl rfl ⟨h.running.2.1, h.running.2.2, h.entering, rfl, rfl⟩ (fun _ hc => hc)
      (by omega)
  · exact key .pushPcHigh _ rfl rfl (hpush _) (fun _ hc => State.push_written _ hc) (fun _ => State.push_db_written _ _)
  · exact key .pushPcLow _ rfl rfl (hpush _) (fun _ hc => State.push_written _ hc) (fun _ => State.push_db_written _ _)
  · exact key .pushStatusInterrupt (s.force.push s.force.p.packInterrupt) rfl
      (congrArg some (bind_of_ok (needStatus_of_written h.status) rfl)) (hpush _) (fun _ hc => State.push_written _ hc)
      (fun _ => State.push_db_written _ _)
  · obtain ⟨v, t, hr⟩ := State.busRead_completes (s := s.force) s.force.flightVector (h.latched (by omega))
    obtain ⟨ht, -, -, -, hu⟩ := State.busRead_ok hr
    refine key .vectorLow { t with scratchLo := v } rfl (congrArg some (bind_of_ok hr rfl)) ?_
      (fun cell hc => by simp [hu, hc]) (fun _ => by simp [hu])
    rw [ht]
    exact ⟨h.running.2.1, h.running.2.2, h.entering, rfl, rfl⟩

/-- The last clock of an NMI entry: idle again, with the latch holding what came during the entry (R412, R414). -/
theorem InEntry.last {s : State} (h : InEntry 6 s) :
    ∃ t, clock s = .next t ∧ t.idle = true ∧ t.nmiPending = s.nmiAgain ∧ t.params = s.params := by
  rw [clock_of_flight h.running.1 h.running.2.1 h.running.2.2 h.busy]
  obtain ⟨v, t, hr⟩ := State.busRead_completes (s := s.force) (s.force.flightVector + 1) (h.latched (by omega))
  obtain ⟨ht, -⟩ := State.busRead_ok hr
  have hcommit : t.commitVector (wordOf v t.scratchLo) = t.commitEntry .nmi (wordOf v t.scratchLo) := by
    unfold State.commitVector
    rw [show t.entering = some .nmi by rw [ht]; exact h.entering]
  refine ⟨_, State.laterClock_last (h.microOp.trans rfl) (t := t.commitVector (wordOf v t.scratchLo))
    (congrArg some (bind_of_ok hr rfl)), rfl, ?_, ?_⟩
  · rw [hcommit]
    show t.nmiAgain = s.nmiAgain
    rw [ht]
    rfl
  · rw [hcommit]
    show t.params = s.params
    rw [ht]
    rfl

end Sys2Proof.Machine
end

