-- ==== Sys2Proof/Tests/Slice0.lean ====
section
/-! SUPPORT. The model's own tests: the WellFormed checks refuse ill-formed terms, words written out from the encoding
tables decode, one or two rows of 95_test_vectors.md per instruction, and a witness for the hypotheses of every
statement that has any. Expected values come from the spec's rows, never from the model. -/

namespace Sys2Proof.Tests

open Sys2Proof Sys2Proof.Machine

/-! ### WellFormed refuses ill-formed terms: one per check -/

theorem test_wf_accumulator_ops : (Instr.lda (.mem (.zpy 0x10))).wf = false ∧ (Instr.adc (.mem (.zpy 0x10))).wf = false ∧
    (Instr.sbc (.mem (.zpy 0x10))).wf = false ∧ (Instr.and (.mem (.zpy 0x10))).wf = false ∧
    (Instr.ora (.mem (.zpy 0x10))).wf = false ∧ (Instr.eor (.mem (.zpy 0x10))).wf = false ∧
    (Instr.cmp (.mem (.zpy 0x10))).wf = false := by decide
theorem test_wf_ldx_ldy : (Instr.ldx (.mem (.abx 0x1234))).wf = false ∧ (Instr.ldy (.mem (.aby 0x1234))).wf = false := by
  decide
theorem test_wf_stores : (Instr.sta (.zpy 0x10)).wf = false ∧ (Instr.stx (.zpx 0x10)).wf = false ∧
    (Instr.sty (.zpy 0x10)).wf = false := by decide
theorem test_wf_bit_compares : (Instr.bit (.abx 0x1234)).wf = false ∧ (Instr.cpx (.mem (.zpx 0x10))).wf = false ∧
    (Instr.cpy (.mem (.zpx 0x10))).wf = false := by decide
theorem test_wf_modify : (Instr.inc (.aby 0x1234)).wf = false ∧ (Instr.dec (.izx 0x10)).wf = false ∧
    (Instr.asl (.mem (.zpy 0x10))).wf = false ∧ (Instr.ror (.mem (.izy 0x10))).wf = false := by decide
theorem test_wf_nop : (Instr.nop 0xEA (.imm 0x00)).wf = false ∧ (Instr.nop 0x80 .implied).wf = false ∧
    (Instr.nop 0x0C (.mem (.zpa 0x10))).wf = false := by decide
theorem test_wf_composites : (Instr.slo (.zpy 0x10)).wf = false ∧ (Instr.isc (.zpy 0x10)).wf = false ∧
    (Instr.sax (.abx 0x1234)).wf = false ∧ (Instr.lax (.zpx 0x10)).wf = false := by decide
theorem test_wf_unstable : (Instr.sha (.abx 0x1234)).wf = false ∧ (Instr.tas (.abx 0x1234)).wf = false ∧
    (Instr.shx (.abx 0x1234)).wf = false ∧ (Instr.las (.abx 0x1234)).wf = false ∧
    (Instr.shy (.aby 0x1234)).wf = false := by decide
theorem test_wf_opcode_lists : (Instr.anc 0x0C 0x00).wf = false ∧ (Instr.jam 0x82).wf = false := by decide
theorem test_encode_refuses_ill_formed : encode (.stx (.zpx 0x10)) = none ∧ encode (.jam 0x82) = none := by decide

/-! ### Words written out from the "Encoding" lines and R113 decode to what they stand for, one family a theorem -/

theorem test_decode_load_store : -- R200, R204, R211
    decode [0xBD, 0x34, 0x12] = .ok (.lda (.mem (.abx 0x1234)), []) ∧ decode [0x96, 0xF0] = .ok (.stx (.zpy 0xF0), []) ∧
    decode [0x9A] = .ok (.txs, []) := by decide
theorem test_decode_arithmetic : -- R223, R228, R229
    decode [0x69, 0x01] = .ok (.adc (.imm 0x01), []) ∧ decode [0x2C, 0x34, 0x12] = .ok (.bit (.abs 0x1234), []) ∧
    decode [0xD1, 0x40] = .ok (.cmp (.mem (.izy 0x40)), []) := by decide
theorem test_decode_shift : -- R250, R253
    decode [0x0A] = .ok (.asl .acc, []) ∧ decode [0x6E, 0x00, 0x03] = .ok (.ror (.mem (.abs 0x0300)), []) := by decide
theorem test_decode_control : -- R264, R270, R271, R276
    decode [0xD0, 0xFB] = .ok (.bne 0xFB, []) ∧ decode [0x6C, 0xFF, 0x10] = .ok (.jmp (.ind 0x10FF), []) ∧
    decode [0x20, 0x00, 0x07] = .ok (.jsr 0x0700, []) ∧ decode [0x00] = .ok (.brk, []) := by decide
theorem test_decode_stack : -- R291, R299, R301
    decode [0x08] = .ok (.php, []) ∧ decode [0xF8] = .ok (.sed, []) ∧
    decode [0x3C, 0x34, 0x12] = .ok (.nop 0x3C (.mem (.abx 0x1234)), []) := by decide
theorem test_decode_undocumented : -- R318, R319, R325, R328, R332
    decode [0xE3, 0x20] = .ok (.isc (.izx 0x20), []) ∧ decode [0x2B, 0x7F] = .ok (.anc 0x2B 0x7F, []) ∧
    decode [0x93, 0x10] = .ok (.sha (.izy 0x10), []) ∧ decode [0xCB, 0x01] = .ok (.sbx 0x01, []) ∧
    decode [0x02] = .ok (.jam 0x02, []) := by decide
theorem test_decode_rejects_by_name : decode [] = .error .noBytes ∧ decode [0xAD, 0x34] = .error (.truncated 0xAD) := by
  decide
theorem test_decode_leaves_the_rest : decode [0xA9, 0x42, 0xAA] = .ok (.lda (.imm 0x42), [0xAA]) := by decide
theorem test_decode_table_word : decodeTableWord 24 0x1234AD = some (.lda (.mem (.abs 0x1234))) ∧
    decodeTableWord 8 0x60 = some .rts := by decide
theorem test_declared_cycles : -- W2, W1
    declaredCycles 0xA9 = 2 ∧ declaredCycles 0xBD = 4 ∧ (operation 0xBD).pagePenalty = true ∧
    declaredCycles 0x69 = 2 ∧ declaredCycles 0x6C = 5 ∧ (operation 0x02).cycles = none := by decide

/-! ### The rows of 95_test_vectors.md, run by the step -/

/-- The RAM of section 0 with the listed bytes. -/
def ram (bytes : List (Nat × Byte)) : Memory := bytes.foldl (fun m w => Memory.write m w.1 w.2) []

/-- An instruction's bytes at consecutive addresses. -/
def placed (start : Nat) (code : List Byte) : List (Nat × Byte) := code.mapIdx (fun k b => (start + k, b))

/-- The default start state of section 0: the code at PC, the listed bytes, SP = 0xFD, the flags clear but I and R. -/
def launch (pc : Word) (code : List Byte) (bytes : List (Nat × Byte)) : State :=
  { State.reset with
    pc := pc
    ab := pc
    devices := [.ram 1 0 0x10000 (ram (placed pc.toNat code ++ bytes))] }

/-- The status of the default start state. -/
def clear : Status := State.reset.p

/-- The parameters of section 0 but with `SBX_MODE` = silicon. -/
def silicon : Config.Params := { Config.Params.default with sbxMode := .silicon }

/-- What a row lists: A, X, Y where shown, SP, PC, the flags N V D I Z C, and the bytes written. -/
structure Row where
  a     : Option Byte
  x     : Option Byte
  y     : Option Byte
  sp    : Byte
  pc    : Word
  flags : Nat
  bytes : List (Word × Byte)

/-- N V D I Z C as a number. -/
def flagsOf (p : Status) : Nat :=
  bitOf p.n * 32 + bitOf p.v * 16 + bitOf p.d * 8 + bitOf p.i * 4 + bitOf p.z * 2 + bitOf p.c

/-- The listed bytes stand in memory. -/
def holds (s : State) (bytes : List (Word × Byte)) : Bool := bytes.all (fun w => s.peek w.1 == some w.2)

/-- One step from the state ends in the row's state. -/
def stepsTo (s : State) (r : Row) : Bool :=
  match step s with
  | .next u => r.a.all (· == u.a) && r.x.all (· == u.x) && r.y.all (· == u.y) && u.sp == r.sp && u.pc == r.pc &&
      flagsOf u.p == r.flags && u.p.r && !u.p.b && holds u r.bytes
  | .fault _ | .refused _ => false

/-- One step from the state raises the row's fault, with the row's bytes written and the registers and flags kept. -/
def faultsWith (s : State) (f : FaultRecord) (bytes : List (Word × Byte)) : Bool :=
  match step s with
  | .fault (.unsupported _ _ u) | .fault (.unwrittenRead _ u) =>
      u.fault == f && holds u bytes && u.a == s.a && u.x == s.x && u.y == s.y && u.p == s.p
  | .next _ | .refused _ => false

/-- One step from the state jams the core with PC there. -/
def halts (s : State) (pc : Word) : Bool :=
  match step s with
  | .next u => u.jammed && u.opip && !u.amip && u.pc == pc
  | .fault _ | .refused _ => false

theorem test_ldx_V41_4 :
    stepsTo { launch 0x0200 [0xB6, 0xF0] [(0x0010, 0x44)] with y := 0x20 }
      ⟨none, some 0x44, some 0x20, 0xFD, 0x0202, 0b000100, []⟩ = true := by decide

theorem test_lda_V41_13 :
    stepsTo { launch 0x0200 [0xA1, 0xFF] [(0x00FF, 0x34), (0x0000, 0x12), (0x1234, 0x55)] with x := 0x00 }
      ⟨some 0x55, some 0x00, none, 0xFD, 0x0202, 0b000100, []⟩ = true := by decide

theorem test_lda_V41_17 :
    stepsTo { launch 0x0200 [0xB1, 0xFF] [(0x00FF, 0x00), (0x0000, 0x50), (0x5001, 0x24)] with y := 0x01 }
      ⟨some 0x24, none, some 0x01, 0xFD, 0x0202, 0b000100, []⟩ = true := by decide

theorem test_sta_V41_18 :
    stepsTo { launch 0x0200 [0x91, 0x10] [(0x0010, 0xF0), (0x0011, 0x12)] with a := 0x77, y := 0x20 }
      ⟨some 0x77, none, some 0x20, 0xFD, 0x0202, 0b000100, [(0x1310, 0x77)]⟩ = true := by decide

theorem test_ldy_V42_4 :
    stepsTo (launch 0x0200 [0xA4, 0x10] [(0x0010, 0xFF)])
      ⟨none, none, some 0xFF, 0xFD, 0x0202, 0b100100, []⟩ = true := by decide

theorem test_stx_V42_6 :
    stepsTo { launch 0x0200 [0x96, 0x10] [] with x := 0xAB, y := 0xF8 }
      ⟨none, some 0xAB, some 0xF8, 0xFD, 0x0202, 0b000100, [(0x0008, 0xAB)]⟩ = true := by decide

theorem test_sty_V42_7 :
    stepsTo { launch 0x0200 [0x8C, 0x34, 0x12] [] with y := 0xCD }
      ⟨none, none, some 0xCD, 0xFD, 0x0203, 0b000100, [(0x1234, 0xCD)]⟩ = true := by decide

theorem test_tax_V42_8 :
    stepsTo { launch 0x0200 [0xAA] [] with a := 0x00, x := 0x55 }
      ⟨some 0x00, some 0x00, none, 0xFD, 0x0201, 0b000110, []⟩ = true := by decide

theorem test_tay_V42_9 :
    stepsTo { launch 0x0200 [0xA8] [] with a := 0x90 }
      ⟨some 0x90, none, some 0x90, 0xFD, 0x0201, 0b100100, []⟩ = true := by decide

theorem test_txa_V42_10 :
    stepsTo { launch 0x0200 [0x8A] [] with x := 0x7F, a := 0x00 }
      ⟨some 0x7F, some 0x7F, none, 0xFD, 0x0201, 0b000100, []⟩ = true := by decide

theorem test_tya_V42_11 :
    stepsTo { launch 0x0200 [0x98] [] with y := 0xFF }
      ⟨some 0xFF, none, some 0xFF, 0xFD, 0x0201, 0b100100, []⟩ = true := by decide

theorem test_tsx_V42_12 :
    stepsTo (launch 0x0200 [0xBA] [])
      ⟨none, some 0xFD, none, 0xFD, 0x0201, 0b100100, []⟩ = true := by decide

theorem test_txs_V42_13 :
    stepsTo { launch 0x0200 [0x9A] [] with x := 0x00, p := { clear with n := true } }
      ⟨none, some 0x00, none, 0x00, 0x0201, 0b100100, []⟩ = true := by decide

theorem test_tax_V42_15 :
    faultsWith { launch 0x0200 [0xAA] [] with unwritten := [.a] } (.unwrittenRead .a) [] = true := by decide

theorem test_adc_V43_4 :
    stepsTo { launch 0x0200 [0x69, 0xFF] [] with a := 0xFF, p := { clear with c := true } }
      ⟨some 0xFF, none, none, 0xFD, 0x0202, 0b100101, []⟩ = true := by decide

theorem test_adc_V43_6 :
    faultsWith { launch 0x0200 [0x69, 0x01] [] with a := 0x09, p := { clear with d := true } } (.unsupported 0x69 0x0200) [] = true := by decide

theorem test_sbc_V43_11 :
    stepsTo { launch 0x0200 [0xE9, 0xB0] [] with a := 0x50, p := { clear with c := true } }
      ⟨some 0xA0, none, none, 0xFD, 0x0202, 0b110100, []⟩ = true := by decide

theorem test_sbc_V43_12 :
    stepsTo { launch 0x0200 [0xE9, 0x01] [] with a := 0x80, p := { clear with c := true } }
      ⟨some 0x7F, none, none, 0xFD, 0x0202, 0b010101, []⟩ = true := by decide

theorem test_and_V43_16 :
    stepsTo { launch 0x0200 [0x29, 0xF0] [] with a := 0x9C }
      ⟨some 0x90, none, none, 0xFD, 0x0202, 0b100100, []⟩ = true := by decide

theorem test_ora_V43_17 :
    stepsTo { launch 0x0200 [0x09, 0x80] [] with a := 0x01 }
      ⟨some 0x81, none, none, 0xFD, 0x0202, 0b100100, []⟩ = true := by decide

theorem test_eor_V43_20 :
    stepsTo { launch 0x0200 [0x49, 0x0F] [] with a := 0xF0 }
      ⟨some 0xFF, none, none, 0xFD, 0x0202, 0b100100, []⟩ = true := by decide

theorem test_bit_V43_21 :
    stepsTo { launch 0x0200 [0x24, 0x10] [(0x0010, 0xC0)] with a := 0x00 }
      ⟨some 0x00, none, none, 0xFD, 0x0202, 0b110110, []⟩ = true := by decide

theorem test_cmp_V43_26 :
    stepsTo { launch 0x0200 [0xC9, 0xFF] [] with a := 0x00 }
      ⟨some 0x00, none, none, 0xFD, 0x0202, 0b000100, []⟩ = true := by decide

theorem test_cpx_V43_27 :
    stepsTo { launch 0x0200 [0xE0, 0x10] [] with x := 0x20 }
      ⟨none, some 0x20, none, 0xFD, 0x0202, 0b000101, []⟩ = true := by decide

theorem test_cpy_V43_28 :
    stepsTo { launch 0x0200 [0xC4, 0x10] [(0x0010, 0x06)] with y := 0x05 }
      ⟨none, none, some 0x05, 0xFD, 0x0202, 0b100100, []⟩ = true := by decide

theorem test_inc_V43_29 :
    stepsTo (launch 0x0200 [0xE6, 0x10] [(0x0010, 0xFF)])
      ⟨none, none, none, 0xFD, 0x0202, 0b000110, [(0x0010, 0x00)]⟩ = true := by decide

theorem test_dec_V43_31 :
    stepsTo { launch 0x0200 [0xDE, 0x33, 0x12] [(0x1234, 0x00)] with x := 0x01 }
      ⟨none, some 0x01, none, 0xFD, 0x0203, 0b100100, [(0x1234, 0xFF)]⟩ = true := by decide

theorem test_inx_V43_33 :
    stepsTo { launch 0x0200 [0xE8] [] with x := 0xFF }
      ⟨none, some 0x00, none, 0xFD, 0x0201, 0b000110, []⟩ = true := by decide

theorem test_iny_V43_34 :
    stepsTo { launch 0x0200 [0xC8] [] with y := 0x7F }
      ⟨none, none, some 0x80, 0xFD, 0x0201, 0b100100, []⟩ = true := by decide

theorem test_dex_V43_35 :
    stepsTo { launch 0x0200 [0xCA] [] with x := 0x00 }
      ⟨none, some 0xFF, none, 0xFD, 0x0201, 0b100100, []⟩ = true := by decide

theorem test_dey_V43_36 :
    stepsTo { launch 0x0200 [0x88] [] with y := 0x01 }
      ⟨none, none, some 0x00, 0xFD, 0x0201, 0b000110, []⟩ = true := by decide

theorem test_asl_V44_2 :
    stepsTo { launch 0x0200 [0x0A] [] with a := 0x81 }
      ⟨some 0x02, none, none, 0xFD, 0x0201, 0b000101, []⟩ = true := by decide

theorem test_lsr_V44_5 :
    stepsTo (launch 0x0200 [0x4E, 0x34, 0x12] [(0x1234, 0xFF)])
      ⟨none, none, none, 0xFD, 0x0203, 0b000101, [(0x1234, 0x7F)]⟩ = true := by decide

theorem test_rol_V44_7 :
    stepsTo { launch 0x0200 [0x2A] [] with a := 0x40, p := { clear with c := true } }
      ⟨some 0x81, none, none, 0xFD, 0x0201, 0b100100, []⟩ = true := by decide

theorem test_rol_V44_8 :
    stepsTo { launch 0x0200 [0x36, 0x10] [(0x0011, 0x00)] with x := 0x01, p := { clear with c := true } }
      ⟨none, some 0x01, none, 0xFD, 0x0202, 0b000100, [(0x0011, 0x01)]⟩ = true := by decide

theorem test_ror_V44_10 :
    stepsTo { launch 0x0200 [0x6A] [] with a := 0x00, p := { clear with c := true } }
      ⟨some 0x80, none, none, 0xFD, 0x0201, 0b100100, []⟩ = true := by decide

theorem test_ror_V44_11 :
    stepsTo { launch 0x0200 [0x7E, 0x00, 0x12] [(0x1234, 0x03)] with x := 0x34 }
      ⟨none, some 0x34, none, 0xFD, 0x0203, 0b000101, [(0x1234, 0x01)]⟩ = true := by decide

theorem test_bpl_V45_1 :
    stepsTo (launch 0x0200 [0x10, 0x10] [])
      ⟨none, none, none, 0xFD, 0x0212, 0b000100, []⟩ = true := by decide

theorem test_bpl_V45_2 :
    stepsTo { launch 0x0200 [0x10, 0x10] [] with p := { clear with n := true } }
      ⟨none, none, none, 0xFD, 0x0202, 0b100100, []⟩ = true := by decide

theorem test_bmi_V45_3 :
    stepsTo { launch 0x0200 [0x30, 0x10] [] with p := { clear with n := true } }
      ⟨none, none, none, 0xFD, 0x0212, 0b100100, []⟩ = true := by decide

theorem test_bvc_V45_5 :
    stepsTo (launch 0x0200 [0x50, 0x10] [])
      ⟨none, none, none, 0xFD, 0x0212, 0b000100, []⟩ = true := by decide

theorem test_bvs_V45_7 :
    stepsTo { launch 0x0200 [0x70, 0x10] [] with p := { clear with v := true } }
      ⟨none, none, none, 0xFD, 0x0212, 0b010100, []⟩ = true := by decide

theorem test_bcc_V45_9 :
    stepsTo (launch 0x0200 [0x90, 0x10] [])
      ⟨none, none, none, 0xFD, 0x0212, 0b000100, []⟩ = true := by decide

theorem test_bcc_V45_10 :
    stepsTo { launch 0x0200 [0x90, 0x10] [] with p := { clear with c := true } }
      ⟨none, none, none, 0xFD, 0x0202, 0b000101, []⟩ = true := by decide

theorem test_bcs_V45_11 :
    stepsTo { launch 0x0200 [0xB0, 0x10] [] with p := { clear with c := true } }
      ⟨none, none, none, 0xFD, 0x0212, 0b000101, []⟩ = true := by decide

theorem test_beq_V45_15 :
    stepsTo { launch 0x0200 [0xF0, 0x10] [] with p := { clear with z := true } }
      ⟨none, none, none, 0xFD, 0x0212, 0b000110, []⟩ = true := by decide

theorem test_beq_V45_20 :
    stepsTo { launch 0x0200 [0xF0, 0x80] [] with p := { clear with z := true } }
      ⟨none, none, none, 0xFD, 0x0182, 0b000110, []⟩ = true := by decide

theorem test_bne_V45_18 :
    stepsTo (launch 0x02F0 [0xD0, 0x7F] [])
      ⟨none, none, none, 0xFD, 0x0371, 0b000100, []⟩ = true := by decide

theorem test_jmp_V45_22 :
    stepsTo (launch 0x0200 [0x4C, 0x34, 0x12] [])
      ⟨none, none, none, 0xFD, 0x1234, 0b000100, []⟩ = true := by decide

theorem test_jmp_V45_24 :
    stepsTo (launch 0x0200 [0x6C, 0xFF, 0x10] [(0x10FF, 0x34), (0x1000, 0x12), (0x1100, 0x56)])
      ⟨none, none, none, 0xFD, 0x1234, 0b000100, []⟩ = true := by decide

theorem test_jsr_V45_25 :
    stepsTo (launch 0x0200 [0x20, 0x34, 0x12] [])
      ⟨none, none, none, 0xFB, 0x1234, 0b000100, [(0x01FD, 0x02), (0x01FC, 0x02)]⟩ = true := by decide

theorem test_rts_V45_26 :
    stepsTo { launch 0x0200 [0x60] [(0x01FC, 0x02), (0x01FD, 0x02)] with sp := 0xFB }
      ⟨none, none, none, 0xFD, 0x0203, 0b000100, []⟩ = true := by decide

theorem test_rti_V45_28 :
    stepsTo { launch 0x0200 [0x40] [(0x01FB, 0x00), (0x01FC, 0x34), (0x01FD, 0x12)] with sp := 0xFA }
      ⟨none, none, none, 0xFD, 0x1234, 0b000000, []⟩ = true := by decide

theorem test_brk_V45_29 :
    stepsTo { launch 0x0200 [0x00, 0xEA] [(0xFFFE, 0x00), (0xFFFF, 0x80)] with p := { clear with c := true, z := true } }
      ⟨none, none, none, 0xFA, 0x8000, 0b000111, [(0x01FD, 0x02), (0x01FC, 0x02), (0x01FB, 0x37)]⟩ = true := by decide

theorem test_brk_V45_30 :
    stepsTo { launch 0x0200 [0x00] [(0xFFFE, 0x00), (0xFFFF, 0x80)] with sp := 0x01 }
      ⟨none, none, none, 0xFE, 0x8000, 0b000100, [(0x0101, 0x02), (0x0100, 0x02), (0x01FF, 0x34)]⟩ = true := by decide

theorem test_pha_V46_2 :
    stepsTo { launch 0x0200 [0x48] [] with a := 0x42, sp := 0x00 }
      ⟨some 0x42, none, none, 0xFF, 0x0201, 0b000100, [(0x0100, 0x42)]⟩ = true := by decide

theorem test_php_V46_4 :
    stepsTo { launch 0x0200 [0x08] [] with p := { clear with z := true } }
      ⟨none, none, none, 0xFC, 0x0201, 0b000110, [(0x01FD, 0x36)]⟩ = true := by decide

theorem test_pla_V46_8 :
    stepsTo { launch 0x0200 [0x68] [(0x0100, 0x01)] with sp := 0xFF }
      ⟨some 0x01, none, none, 0x00, 0x0201, 0b000100, []⟩ = true := by decide

theorem test_plp_V46_9 :
    stepsTo (launch 0x0200 [0x28] [(0x01FE, 0xFF)])
      ⟨none, none, none, 0xFE, 0x0201, 0b111111, []⟩ = true := by decide

theorem test_clc_V46_11 :
    stepsTo { launch 0x0200 [0x18] [] with p := { clear with c := true } }
      ⟨none, none, none, 0xFD, 0x0201, 0b000100, []⟩ = true := by decide

theorem test_sec_V46_12 :
    stepsTo (launch 0x0200 [0x38] [])
      ⟨none, none, none, 0xFD, 0x0201, 0b000101, []⟩ = true := by decide

theorem test_cli_V46_13 :
    stepsTo (launch 0x0200 [0x58] [])
      ⟨none, none, none, 0xFD, 0x0201, 0b000000, []⟩ = true := by decide

theorem test_sei_V46_14 :
    stepsTo (launch 0x0200 [0x78] [])
      ⟨none, none, none, 0xFD, 0x0201, 0b000100, []⟩ = true := by decide

theorem test_cld_V46_15 :
    stepsTo { launch 0x0200 [0xD8] [] with p := { clear with d := true } }
      ⟨none, none, none, 0xFD, 0x0201, 0b000100, []⟩ = true := by decide

theorem test_sed_V46_16 :
    stepsTo (launch 0x0200 [0xF8] [])
      ⟨none, none, none, 0xFD, 0x0201, 0b001100, []⟩ = true := by decide

theorem test_clv_V46_17 :
    stepsTo { launch 0x0200 [0xB8] [] with p := { clear with v := true } }
      ⟨none, none, none, 0xFD, 0x0201, 0b000100, []⟩ = true := by decide

theorem test_nop_V46_21 :
    stepsTo { launch 0x0200 [0x1C, 0xFF, 0x12] [] with x := 0x01 }
      ⟨none, some 0x01, none, 0xFD, 0x0203, 0b000100, []⟩ = true := by decide

theorem test_slo_V47_1 :
    stepsTo { launch 0x0200 [0x07, 0x10] [(0x0010, 0x81)] with a := 0x01 }
      ⟨some 0x03, none, none, 0xFD, 0x0202, 0b000101, [(0x0010, 0x02)]⟩ = true := by decide

theorem test_rla_V47_2 :
    stepsTo { launch 0x0200 [0x27, 0x10] [(0x0010, 0x80)] with a := 0xFF, p := { clear with c := true } }
      ⟨some 0x01, none, none, 0xFD, 0x0202, 0b000101, [(0x0010, 0x01)]⟩ = true := by decide

theorem test_rla_V47_3 :
    faultsWith { launch 0x0200 [0x27, 0x10] [(0x0010, 0x81)] with unwritten := [.a] } (.unwrittenRead .a) [(0x0010, 0x02)] = true := by decide

theorem test_sre_V47_4 :
    stepsTo { launch 0x0200 [0x47, 0x10] [(0x0010, 0x03)] with a := 0x01 }
      ⟨some 0x00, none, none, 0xFD, 0x0202, 0b000111, [(0x0010, 0x01)]⟩ = true := by decide

theorem test_rra_V47_6 :
    stepsTo { launch 0x0200 [0x67, 0x10] [(0x0010, 0x01)] with a := 0xFF }
      ⟨some 0x00, none, none, 0xFD, 0x0202, 0b000111, [(0x0010, 0x00)]⟩ = true := by decide

theorem test_sax_V47_8 :
    stepsTo { launch 0x0200 [0x87, 0x10] [] with a := 0xF0, x := 0x3C }
      ⟨some 0xF0, some 0x3C, none, 0xFD, 0x0202, 0b000100, [(0x0010, 0x30)]⟩ = true := by decide

theorem test_lax_V47_10 :
    stepsTo { launch 0x0200 [0xB3, 0x10] [(0x0010, 0xF0), (0x0011, 0x12), (0x1310, 0x00)] with y := 0x20 }
      ⟨some 0x00, some 0x00, some 0x20, 0xFD, 0x0202, 0b000110, []⟩ = true := by decide

theorem test_dcp_V47_12 :
    stepsTo { launch 0x0200 [0xC7, 0x10] [(0x0010, 0x00)] with a := 0xFF }
      ⟨some 0xFF, none, none, 0xFD, 0x0202, 0b000111, [(0x0010, 0xFF)]⟩ = true := by decide

theorem test_isc_V47_14 :
    stepsTo { launch 0x0200 [0xE7, 0x10] [(0x0010, 0x04)] with a := 0x10, p := { clear with c := true } }
      ⟨some 0x0B, none, none, 0xFD, 0x0202, 0b000101, [(0x0010, 0x05)]⟩ = true := by decide

theorem test_anc_V47_16 :
    stepsTo { launch 0x0200 [0x0B, 0x80] [] with a := 0xFF }
      ⟨some 0x80, none, none, 0xFD, 0x0202, 0b100101, []⟩ = true := by decide

theorem test_alr_V47_18 :
    stepsTo { launch 0x0200 [0x4B, 0x03] [] with a := 0xFF }
      ⟨some 0x01, none, none, 0xFD, 0x0202, 0b000101, []⟩ = true := by decide

theorem test_arr_V47_22 :
    stepsTo { launch 0x0200 [0x6B, 0x40] [] with a := 0xFF }
      ⟨some 0x20, none, none, 0xFD, 0x0202, 0b010100, []⟩ = true := by decide

theorem test_usbc_V47_24 :
    stepsTo { launch 0x0200 [0xEB, 0x03] [] with a := 0x05, p := { clear with c := true } }
      ⟨some 0x02, none, none, 0xFD, 0x0202, 0b000101, []⟩ = true := by decide

theorem test_ane_V47_25 :
    faultsWith { launch 0x0200 [0x8B, 0xFF] [] with a := 0xFF, x := 0xFF } (.unsupported 0x8B 0x0200) [] = true := by decide

theorem test_lxa_V47_26 :
    faultsWith { launch 0x0200 [0xAB, 0xFF] [] with a := 0xFF } (.unsupported 0xAB 0x0200) [] = true := by decide

theorem test_sha_V47_27 :
    faultsWith { launch 0x0200 [0x9F, 0x34, 0x12] [] with a := 0xFF, x := 0xFF, y := 0x00 } (.unsupported 0x9F 0x0200) [] = true := by decide

theorem test_tas_V47_29 :
    faultsWith { launch 0x0200 [0x9B, 0x34, 0x12] [] with a := 0xFF, x := 0xFF, y := 0x00 } (.unsupported 0x9B 0x0200) [] = true := by decide

theorem test_shy_V47_30 :
    faultsWith { launch 0x0200 [0x9C, 0x34, 0x12] [] with y := 0xFF, x := 0x00 } (.unsupported 0x9C 0x0200) [] = true := by decide

theorem test_sbx_V47_31 :
    faultsWith { launch 0x0200 [0xCB, 0x05] [] with a := 0xFF, x := 0x0F } (.unsupported 0xCB 0x0200) [] = true := by decide

theorem test_sbx_V47_33 :
    stepsTo { launch 0x0200 [0xCB, 0x10] [] with a := 0xFF, x := 0x0F, params := silicon }
      ⟨some 0xFF, some 0xFF, none, 0xFD, 0x0202, 0b100100, []⟩ = true := by decide

theorem test_shx_V47_34 :
    faultsWith { launch 0x0200 [0x9E, 0x34, 0x12] [] with x := 0xFF, y := 0x00 } (.unsupported 0x9E 0x0200) [] = true := by decide

theorem test_las_V47_35 :
    faultsWith { launch 0x0200 [0xBB, 0x34, 0x12] [(0x1234, 0xFF)] with y := 0x00 } (.unsupported 0xBB 0x0200) [] = true := by decide

theorem test_jam_V47_36 :
    halts (launch 0x0200 [0x02] []) 0x0201 = true := by decide

/-! ### Interrupts, reset, the bus and the clock (95_test_vectors.md section 4) -/

theorem test_nmi_entry_V60_1 :
    stepsTo { launch 0x0200 [0xEA] [(0xFFFA, 0x00), (0xFFFB, 0x03)] with
      nmiPending := true, p := { clear with c := true, v := true } }
      ⟨none, none, none, 0xFA, 0x0300, 0b010101, [(0x01FD, 0x02), (0x01FC, 0x00), (0x01FB, 0x65)]⟩ = true := by decide
theorem test_nmi_unwritten_V60_2 :
    faultsWith { launch 0x0200 [0xEA] [(0xFFFA, 0x00), (0xFFFB, 0x03)] with nmiPending := true, unwritten := [.n] }
      (.unwrittenRead .n) [(0x01FD, 0x02), (0x01FC, 0x00)] = true := by decide
theorem test_irq_never_V60_6 :
    stepsTo { launch 0x0201 [0xEA] [(0xFFFE, 0x00), (0xFFFF, 0x03)] with irqLine := true, p := { clear with i := false } }
      ⟨none, none, none, 0xFD, 0x0202, 0b000100, []⟩ = true := by decide
theorem test_decimal_before_unwritten_V60_9 :
    faultsWith { launch 0x0200 [0x69, 0x01] [] with unwritten := [.a, .d] } (.unwrittenRead .d) [] = true := by decide
theorem test_decimal_fault_V60_10 :
    faultsWith { launch 0x0200 [0x69, 0x01] [] with unwritten := [.a], p := { clear with d := true } }
      (.unsupported 0x69 0x0200) [] = true := by decide
theorem test_decimal_no_write_V60_11 :
    faultsWith { launch 0x0200 [0xE7, 0x10] [(0x0010, 0x05)] with p := { clear with d := true } }
      (.unsupported 0xE7 0x0200) [(0x0010, 0x05)] = true := by decide

/-- `RES` ends with these SP, PC, AB and DB, with R = I = 1, and these cells unwritten. -/
def resets (o : Except Fault State) (sp : Byte) (pc : Word) (db : Byte) (unwritten : List Cell) : Bool :=
  match o with
  | .ok u => u.sp == sp && u.pc == pc && u.ab == pc && u.db == db && u.p.r && u.p.i && u.unwritten == unwritten
  | .error _ => false

theorem test_res_vector_V70_1 :
    resets ((powerOnWith Config.Params.default [.ram 1 0 0x10000 (ram [(0xFFFC, 0x34), (0xFFFD, 0x12)])]).res none)
      0xFD 0x1234 0x12 [.a, .x, .y, .c, .z, .d, .v, .n, .b, .opc] = true := by decide
theorem test_res_explicit_V70_2 : -- no bus access: DB stays unwritten
    resets ((powerOnWith Config.Params.default defaultPlatform).res (some 0x0400))
      0xFD 0x0400 State.reset.db [.a, .x, .y, .c, .z, .d, .v, .n, .b, .db, .opc] = true := by decide
theorem test_res_unowned_V70_8 :
    (match (powerOnWith Config.Params.default [.ram 1 0 0x8000 []]).res none with
      | .error (.unwrittenRead .db u) => u.sp == 0xFD && u.p.r && u.p.i && u.unwritten.contains .pc
      | _ => false) = true := by decide
theorem test_open_bus_V70_9 :
    stepsTo { launch 0x0200 [] [] with
      devices := [.ram 1 0 0x8000 (ram [(0x0200, 0xAD), (0x0201, 0x00), (0x0202, 0x90)])] }
      ⟨some 0x90, none, none, 0xFD, 0x0203, 0b100100, []⟩ = true := by decide
theorem test_reset_state_is_res : -- R59, R500 on the reset platform: its calls on the devices too
    (match (powerOnWith Config.Params.default defaultPlatform).res none with
      | .ok u => { u with unwritten := [] } == State.reset && u.unwritten == [.a, .x, .y, .c, .z, .d, .v, .n, .b, .opc]
      | .error _ => false) = true := by decide
theorem test_withFetchWord_runs :
    (match step (State.reset.withFetchWord 16 0x80A9) with
      | .next u => u.a == 0x80 && u.pc == 0x0002 && u.p.n
      | _ => false) = true := by decide
theorem test_write_reaches_both_owners : -- R81: both RAMs own 0x0010, the first answers reads
    (match (({ launch 0 [] [] with devices := [.ram 1 0 0x20 [], .ram 2 0x10 0x30 []] }).busWrite 0x0010
        0x55).devices with
      | [⟨_, _, _, .ram m, _, _⟩, ⟨_, _, _, .ram n, _, _⟩] => Memory.read m 0x10 == 0x55 && Memory.read n 0x10 == 0x55
      | _ => false) = true := by decide
/-- The devices a registration ends with, or none where it is rejected. -/
def registered (o : Host.Outcome (List Device) Fault Refusal) : Option (List Device) :=
  match o with
  | .next ds => some ds
  | .fault _ | .refused _ => none

theorem test_register : -- R75: a tie, the same device again, a lower number, and the tracking of capabilities
    registered (registerDevice [.of 1 0 8 .undescribed] .data (.of 1 8 16 .undescribed)) = none ∧
    registered (registerDevice [.of 1 0 8 .undescribed] .data (.of 1 0 8 .undescribed)) =
      some [.of 1 0 8 .undescribed] ∧
    registered (registerDevice [.of 3 0 8 .undescribed] .address (.of (-1) 8 16 .undescribed)) =
      some [.of (-1) 8 16 .undescribed, .of 3 0 8 .undescribed] ∧
    registered (registerDevice [] .address ⟨1, 0, 8, .undescribed, ⟨true, false⟩, ⟨false, false⟩⟩) =
      some [⟨1, 0, 8, .undescribed, ⟨true, false⟩, ⟨true, false⟩⟩] := by decide

/-- Devices of a platform: a ROM, and a port that counts its clocks, clears when read, and keeps the byte written and
the direction it was told. -/
def port : DeviceProgram where
  cells := 3
  answer := .op .add (.cell (.lit 0)) (.cell (.op .sub .addr (.lit 0x4000)))
  onRead := [(.lit 0, .lit 0)]
  onWrite := [(.lit 1, .data)]
  onClock := [(.lit 0, .op .add (.cell (.lit 0)) (.lit 1))]
  onSetRw := [(.lit 2, .data)]

def platform : List Device :=
  [.of 0 0x4000 0x4003 (.described port [(0, 0x05)]), .of 1 0x8000 0x8010 (.described (.rom 0x8000 0x10) [(2, 0x42)]),
   .ram 2 0 0x10000 (ram [(0x0200, 0xAD), (0x0201, 0x02), (0x0202, 0x80)])]

/-- The byte a bus read answers. -/
def answers (o : Except Fault (Byte × State)) (v : Byte) : Bool :=
  match o with
  | .ok (b, _) => b == v
  | .error _ => false

theorem test_rom_ignores_writes : -- R73, R97: the ROM answers, the write reaches the RAM behind it and not the ROM
    stepsTo { launch 0x0200 [] [] with devices := platform } ⟨some 0x42, none, none, 0xFD, 0x0203, 0b000100, []⟩ = true ∧
    answers (({ launch 0x0200 [] [] with devices := platform }.busWrite 0x8002 0x55).busRead 0x8002) 0x42 = true := by
  decide
theorem test_device_clock_and_read : -- R97, R518: one clock, then a read, whose side effect the next read sees
    (let s := { launch 0x0200 [] [] with devices := platform, busLog := [] };
      answers (s.busRead 0x4000) 0x0A && answers (s.clockDevices.busRead 0x4000) 0x0C &&
        (match s.busRead 0x4000 with | .ok (_, t) => answers (t.busRead 0x4000) 0x00 | .error _ => false) &&
        s.hostPeek 0x4000 == some 0x0A) = true := by decide
theorem test_device_write_and_direction : -- R81, R84: cell 1 keeps the byte written, cell 2 the last direction
    (let s := { launch 0x0200 [] [] with devices := platform, busLog := [] };
      answers ((s.busWrite 0x4000 0x33).busRead 0x4001) 0x38 && answers ((s.busWrite 0x4000 0x33).busRead 0x4002) 0x06 &&
        answers ((s.busWrite 0x5000 0x33).busRead 0x4001) 0x05) = true := by decide
theorem test_nmi_edge_during_entry : -- R414: a rise between clocks 6 and 7 of an NMI entry is pending after it
    (match ({ launch 0x0200 [] [] with
        nmiPending := true, entering := some .nmi, opip := true, amCycle := 6 }).setNmi true with
      | .next s => (match clock s with | .next u => u.nmiPending && u.idle && !u.nmiAgain | _ => false)
      | _ => false) = true ∧
    (match clock { launch 0x0200 [] [] with nmiPending := true, entering := some .nmi, opip := true, amCycle := 6 } with
      | .next u => !u.nmiPending && u.idle
      | _ => false) = true := by decide
theorem test_jammed_has_no_step : -- R153, R154
    (match step { launch 0x0200 [0xEA] [] with jammed := true, opip := true } with
      | .refused .jammed => true
      | _ => false) = true := by decide
theorem test_clock_fetches : -- R143: clock 1 of a LDA ABS
    (match clock (launch 0x0200 [0xAD, 0x34, 0x12] []) with
      | .next u => u.pc == 0x0201 && u.opc == 0xAD && u.pc0 == 0x0200 && u.amip && u.db == 0xAD && u.ab == 0x0200
      | _ => false) = true := by decide
theorem test_clock_last : -- R160: clock 2 of TAX, its last
    (match clock { launch 0x0201 [] [] with a := 0x80, opc := 0xAA, amCycle := 1, amip := true } with
      | .next u => u.x == 0x80 && u.p.n && !u.amip && !u.opip && u.ab == 0x0201
      | _ => false) = true := by decide
theorem test_clock_jsr_push_V70_5 : -- R160: clock 4 of JSR pushes the high byte of PC
    (match clock { launch 0x0202 [] [] with sp := 0xFF, opc := 0x20, amCycle := 3, amip := true } with
      | .next u => u.peek 0x01FF == some 0x02 && u.sp == 0xFE && u.pc == 0x0202
      | _ => false) = true := by decide

/-! ### Witnesses: the hypotheses of the statements can be met -/

/-- Every executing instruction is completable in every state with everything written and D = 0. -/
theorem completable_of_written (i : Instr) (s : State) (hw : s.unwritten = []) (hd : s.p.d = false)
    (he : i.executes s.params = true) : i.Completable s :=
  ⟨he, fun cell _ => by simp [hw], fun _ => hd⟩

/-! One instruction of every constructor that executes (SBX under `silicon`), with boundary operands. -/

def executingData : List Instr :=
  [.lda (.imm 0xFF), .ldx (.mem (.zpy 0xFF)), .ldy (.mem (.abx 0xFFFF)), .sta (.izy 0xFF), .stx (.zpy 0xFF),
   .sty (.zpx 0xFF), .tax, .tay, .txa, .tya, .tsx, .txs, .adc (.mem (.izx 0xFF)), .sbc (.imm 0x00), .and (.imm 0x00),
   .ora (.imm 0x80), .eor (.imm 0xFF), .bit (.abs 0xFFFF), .cmp (.imm 0x00), .cpx (.imm 0xFF), .cpy (.imm 0x80)]

def executingShifts : List Instr :=
  [.inc (.abx 0xFFFF), .dec (.zpa 0x00), .inx, .iny, .dex, .dey, .asl .acc, .lsr (.mem (.zpa 0xFF)), .rol .acc,
   .ror (.mem (.abs 0x0000)), .bcc 0x80, .bcs 0x7F, .beq 0xFE, .bne 0x00, .bmi 0x80, .bpl 0x7F, .bvc 0x80, .bvs 0x7F]

def executingControl : List Instr :=
  [.jmp (.ind 0x10FF), .jsr 0xFFFF, .rts, .rti, .brk, .pha, .php, .pla, .plp, .clc, .sec, .cli, .sei, .cld, .sed, .clv,
   .nop 0xEA .implied]

def executingUndocumented : List Instr :=
  [.slo (.aby 0xFFFF), .rla (.abx 0xFFFF), .sre (.izy 0xFF), .rra (.izx 0xFF), .sax (.zpy 0xFF), .lax (.aby 0xFFFF),
   .dcp (.izy 0xFF), .isc (.abs 0xFFFF), .anc 0x2B 0x80, .alr 0x01, .arr 0xC0, .usbc 0xFF, .sbx 0x05, .jam 0x02]

def executing : List Instr := executingData ++ executingShifts ++ executingControl ++ executingUndocumented

theorem witness_executing : ∀ i ∈ executing, i.wf = true ∧ i.executes silicon = true := by decide

/-- Each of them is completable in one concrete state. -/
theorem witness_completable : ∀ i ∈ executing, i.Completable { launch 0x0200 [] [] with params := silicon } :=
  fun i hi => completable_of_written i _ rfl rfl (witness_executing i hi).2

theorem witness_encode : (Instr.jmp (.ind 0xFFFF)).wf = true ∧ (Instr.nop 0xDC (.mem (.abx 0xFFFF))).wf = true := by
  decide
theorem witness_decode : decode [0xFF, 0xFF, 0xFF, 0x00] = .ok (.isc (.abx 0xFFFF), [0x00]) := by decide

/-- StepRunsDecodedInstruction: a three-byte instruction whose bytes wrap past 0xFFFF. -/
theorem witness_step_runs :
    let s := launch 0xFFFE [0xBD, 0xF8] [(0x0000, 0x12)]
    Cell.pc ∉ s.unwritten ∧ s.fault = .none ∧ s.jammed = false ∧ s.idle = true ∧
      (s.params.irqNmiPresent && s.nmiPending) = false ∧ decode [0xBD, 0xF8, 0x12] = .ok (.lda (.mem (.abx 0x12F8)), []) ∧
      s.peek s.pc = some 0xBD ∧ s.peek (s.pc + 1) = some 0xF8 ∧ s.peek (s.pc + 2) = some 0x12 := by decide
theorem witness_step_fetch : ∃ i t, (launch 0x0200 [0xAA] []).force.fetchInstr = .ok (some i, t) := ⟨_, _, rfl⟩

/-- CoreWithoutInstructionStep: a state of each clause. -/
theorem witness_core_without_step :
    Cell.pc ∈ (powerOnWith Config.Params.default []).unwritten ∧
    (let s := { launch 0x0200 [] [] with fault := .unwrittenRead .a };
      Cell.pc ∉ s.unwritten ∧ s.fault ≠ .none) ∧
    (let s := { launch 0x0200 [] [] with jammed := true, opip := true };
      Cell.pc ∉ s.unwritten ∧ s.fault = .none ∧ s.jammed = true) ∧
    (let s := { launch 0x0200 [] [] with amip := true };
      Cell.pc ∉ s.unwritten ∧ s.fault = .none ∧ s.jammed = false ∧ s.idle = false) := by decide

theorem witness_forcing : (∃ t, step (launch 0x0200 [0xAA] []) = .next t) ∧
    (∃ t, clock (launch 0x0200 [0xAA] []) = .next t) := ⟨⟨_, rfl⟩, ⟨_, rfl⟩⟩

/-- StepKeepsBoundaryInv, ClocksRefineStep: a boundary state of an instruction, of a JAM, and of an NMI. -/
theorem witness_boundary (s : State)
    (hs : s ∈ [launch 0x0200 [0xAA] [], launch 0x0200 [0x02] [], { launch 0x0200 [0xAA] [] with nmiPending := true }]) :
    s.BoundaryInv ∧ s.jammed = false ∧ ∃ t, step s = .next t := by
  simp only [List.mem_cons, List.not_mem_nil, or_false] at hs
  rcases hs with rfl | rfl | rfl <;>
    exact ⟨⟨by decide, rfl, fun _ => rfl, fun _ => ⟨rfl, rfl, rfl⟩, nofun, ⟨rfl, rfl, rfl, rfl⟩, ⟨rfl, by decide⟩⟩, rfl,
      ⟨_, rfl⟩⟩

/-- InstructionsComplete, CompletionConverges, CompletionMarksWrittenCells: an instruction that completes. -/
theorem witness_exec_next : let s := { launch 0x0200 [] [] with unwritten := [.x, .n, .v] }
    Cell.db ∉ s.unwritten ∧ Cell.pc ∉ s.unwritten ∧ Instr.tax.isJam = false ∧ ∃ u, exec .tax s = .next u :=
  ⟨by decide, by decide, rfl, ⟨_, rfl⟩⟩

/-- DeclaredCyclesConsumed: no memory operand; one that crosses a page; one that does not. -/
theorem witness_declared_cycles : Instr.tax.isJam = false ∧ Instr.tax.isBranch = false ∧ Instr.tax.memOperand = none ∧
    (∃ u, exec .tax (launch 0 [] []) = .next u) ∧
    (∀ m ∈ [MemMode.abx 0xFFFF, MemMode.abx 0x1234], (∃ r t,
      resolve m { launch 0 [] [] with x := 0x01 } = .ok (r, t) ∧ (r.crossed = true ↔ m = .abx 0xFFFF)) ∧
      ∃ u, exec (.lda (.mem m)) { launch 0 [] [] with x := 0x01, opc := 0xBD } = .next u) := by
  refine ⟨rfl, rfl, rfl, ⟨_, rfl⟩, fun m hm => ?_⟩
  simp only [List.mem_cons, List.not_mem_nil, or_false] at hm
  rcases hm with rfl | rfl <;> exact ⟨⟨_, _, rfl, by decide⟩, ⟨_, rfl⟩⟩

/-- BranchCycles: not taken, taken, and taken to another page. -/
theorem witness_branch_cycles : ∀ s ∈ [{ launch 0x0202 [] [] with opc := 0xD0, p := { clear with z := true } },
      { launch 0x0202 [] [] with opc := 0xD0 }, { launch 0x02F2 [] [] with opc := 0xD0 }],
    declaredCycles s.opc = 2 ∧ ∃ u, exec (.bne 0x7F) s = .next u := by
  intro s hs
  simp only [List.mem_cons, List.not_mem_nil, or_false] at hs
  rcases hs with rfl | rfl | rfl <;> exact ⟨by decide, ⟨_, rfl⟩⟩

/-- Two overlapping devices, the second undescribed, and a described one. -/
def twoDevices : State := { launch 0 [] [] with
  devices := [.ram 1 0 0x20 [(0x1F, 0x55)], .of 2 0x10 0x30 .undescribed, .of 3 0x40 0x43 (.described port [(0, 0x05)])],
  unwritten := [.db] }

/-- BusReadTakesFirstOwner: at the last address of the RAM, which two own, and at the last of each other device. -/
theorem witness_first_owner : devicesWf twoDevices.devices = true ∧
    (∃ d ∈ twoDevices.devices, d.min ≤ 0x1F ∧ 0x1F < d.max ∧ d.behaviour = .ram [(0x1F, 0x55)] ∧
      ∀ e ∈ twoDevices.devices, e.min ≤ 0x1F → 0x1F < e.max → d.priority ≤ e.priority) ∧
    (∃ d ∈ twoDevices.devices, d.min ≤ 0x2F ∧ 0x2F < d.max ∧ d.behaviour = .undescribed ∧
      ∀ e ∈ twoDevices.devices, e.min ≤ 0x2F → 0x2F < e.max → d.priority ≤ e.priority) ∧
    (∃ d ∈ twoDevices.devices, d.min ≤ 0x42 ∧ 0x42 < d.max ∧ d.behaviour = .described port [(0, 0x05)] ∧
      ∀ e ∈ twoDevices.devices, e.min ≤ 0x42 → 0x42 < e.max → d.priority ≤ e.priority) := by
  refine ⟨by decide, ⟨.ram 1 0 0x20 [(0x1F, 0x55)], ?_⟩, ⟨.of 2 0x10 0x30 .undescribed, ?_⟩,
    ⟨.of 3 0x40 0x43 (.described port [(0, 0x05)]), ?_⟩⟩ <;> decide

/-- DescribedDeviceFollowsProgram: a read that the device answers at the end of its range, one that another answers,
one that nobody answers; a write that it owns and one that it does not. -/
theorem witness_described : let s := { twoDevices with unwritten := [] }
    let d := Device.of 3 0x40 0x43 (.described port [(0, 0x05)])
    devicesWf s.devices = true ∧ d ∈ s.devices ∧ d.Answers s.devices 0x0042 ∧ ¬ d.Answers s.devices 0x001F ∧
      ¬ d.Answers s.devices 0x0043 ∧ (∃ v t, s.busRead 0x0042 = .ok (v, t)) ∧ (∃ v t, s.busRead 0x001F = .ok (v, t)) ∧
      (∃ v t, s.busRead 0x0043 = .ok (v, t)) ∧ d.owns 0x0040 = true ∧ d.owns 0x003F = false :=
  ⟨by decide, by decide, by unfold Device.Answers; decide, by unfold Device.Answers; decide,
    by unfold Device.Answers; decide, ⟨_, _, rfl⟩, ⟨_, _, rfl⟩, ⟨_, _, rfl⟩, by decide, by decide⟩

/-- OpenBusReadsLatch, BusWriteReachesEveryOwner, ReadAfterWrite: the first address nobody owns, and DB in both
conditions; an owned address that answers a peek, and its neighbour outside. -/
theorem witness_bus : (∀ d ∈ twoDevices.devices, ¬ (d.min ≤ 0x30 ∧ 0x30 < d.max)) ∧
    Cell.db ∈ twoDevices.unwritten ∧ Cell.db ∉ (launch 0 [] []).unwritten ∧
    twoDevices.devices[0]? = some (.ram 1 0 0x20 [(0x1F, 0x55)]) ∧
    (twoDevices.busWrite 0x001F 0xAA).devices[0]? = some (.ram 1 0 0x20 [(0x1F, 0xAA)]) ∧
    (twoDevices.busWrite 0x0020 0xAA).devices[0]? = some (.ram 1 0 0x20 [(0x1F, 0x55)]) ∧
    (twoDevices.peek 0x001F).isSome ∧ twoDevices.peek 0x0020 = none := by decide

theorem witness_canonical : Memory.wf [(0, 0xFF), (0xFFFF, 0x01)] = true ∧
    Memory.wf (Memory.write [(0, 0xFF), (0xFFFF, 0x01)] 0xFFFF 0x00) = true := by decide

/-- RegistrationRules: a priority taken by the same device and by another, a free one, and the capabilities. -/
theorem witness_registration : let ds := [Device.ram 1 0 0x10000 []]
    devicesWf ds = true ∧ (∃ e ∈ ds, e.priority = 1 ∧ { Device.ram 1 0 0x10000 [] with tracked := e.tracked } = e ∧
      { Device.of 1 0 0x10000 .undescribed with tracked := e.tracked } ≠ e) ∧ (∀ e ∈ ds, e.priority ≠ 0) ∧
      (Device.of 1 0 0x10000 .undescribed).wf = true ∧ (Device.ram 0 0xFFFF 0x10000 [(0xFFFF, 0x01)]).wf = true ∧
      (Device.ram 0 0xFFFF 0x10000 []).implements = ⟨true, true⟩ ∧
      (Device.mk 0 0 8 .undescribed ⟨true, false⟩ ⟨false, false⟩).implements ≠ ⟨true, true⟩ := by
  decide

/-- DirectAddresses, PointerAddresses, OperandIsByteAtEffectiveAddress: pointers that wrap in page zero. -/
theorem witness_pointers : let s := launch 0x0200 [] [(0x00FF, 0x34), (0x0000, 0x12)]
    Cell.x ∉ s.unwritten ∧ Cell.y ∉ s.unwritten ∧
      s.peek (zext16 (0xFF + s.x)) = some 0x34 ∧ s.peek (zext16 (0xFF + s.x + 1)) = some 0x12 ∧
      s.peek (zext16 0xFF) = some 0x34 ∧ s.peek (zext16 (0xFF + 1)) = some 0x12 := by decide
theorem witness_pointer_reads : let s := launch 0x0200 [] []
    Cell.db ∉ s.unwritten ∧
      (∃ l h t u, s.busRead (zext16 (0xFF + s.x)) = .ok (l, t) ∧ t.busRead (zext16 (0xFF + s.x + 1)) = .ok (h, u)) ∧
      ∃ l h t u, s.busRead (zext16 0xFF) = .ok (l, t) ∧ t.busRead (zext16 (0xFF + 1)) = .ok (h, u) :=
  ⟨by decide, ⟨_, _, _, _, rfl, rfl⟩, ⟨_, _, _, _, rfl, rfl⟩⟩
theorem witness_operand : let s := launch 0x0200 [] [(0x00FF, 0x34), (0x0000, 0x12), (0x1234, 0x55)]
    ∃ r t u, resolve (.izy 0xFF) s = .ok (r, t) ∧ t.busRead r.ea = .ok (0x55, u) ∧ s.peek r.ea = some 0x55 :=
  ⟨_, _, _, rfl, rfl, rfl⟩

/-- LastAccessStaysOnBus, StoreResults and NopResults: each access and an execution of each clause completes. -/
theorem witness_last_access : let s := launch 0x0200 [] []
    (∃ v c t, accessOperand (.imm 0xFF) s = .ok (v, c, t)) ∧ (∃ u, exec (.lda (.imm 0xFF)) s = .next u) ∧
    (∃ r v t, accessMem (.abs 0xFFFF) s = .ok (r, v, t)) ∧ (∃ u, exec (.lda (.mem (.abs 0xFFFF))) s = .next u) ∧
    (∃ u, exec (.nop 0x0C (.mem (.abs 0xFFFF))) s = .next u) ∧ (∃ u, exec (.isc (.abs 0xFFFF)) s = .next u) ∧
    (∃ r t, resolve (.abs 0xFFFF) s = .ok (r, t)) ∧ (∃ u, exec (.sta (.abs 0xFFFF)) s = .next u) ∧
    (∃ u, exec .pha s = .next u) ∧ (∃ u, exec .php s = .next u) ∧
    (∃ v t, s.pull = .ok (v, t) ∧ ∃ w x, t.pull = .ok (w, x) ∧ ∃ y z, x.pull = .ok (y, z)) ∧
    (∃ u, exec .pla s = .next u) ∧ (∃ u, exec .rts s = .next u) ∧ (∃ u, exec .rti s = .next u) ∧
    (∃ h t, ((s.push (hiByte s.pc)).push (loByte s.pc)).busRead s.pc = .ok (h, t)) ∧
    (∃ u, exec (.jsr 0xFFFF) s = .next u) ∧ (∃ u, exec .brk s = .next u) ∧ (∃ u, exec (.jmp (.ind 0x10FF)) s = .next u) ∧
    (∃ l t, s.busRead 0x10FF = .ok (l, t) ∧ ∃ h v, t.busRead (wordOf (hiByte 0x10FF) (loByte 0x10FF + 1)) = .ok (h, v)) ∧
    (∃ l t, (((s.push (hiByte (s.pc + 1))).push (loByte (s.pc + 1))).push { s.p with b := true }.pack).busRead 0xFFFE =
      .ok (l, t) ∧ ∃ h v, t.busRead 0xFFFF = .ok (h, v)) ∧
    (∃ u, exec .inx s = .next u) ∧ (∃ u, exec .clc s = .next u) ∧ (∃ u, exec (.bcc 0x80) s = .next u) ∧
    (∃ u, exec (.arr 0xFF) s = .next u) :=
  ⟨⟨_, _, _, rfl⟩, ⟨_, rfl⟩, ⟨_, _, _, rfl⟩, ⟨_, rfl⟩, ⟨_, rfl⟩, ⟨_, rfl⟩, ⟨_, _, rfl⟩, ⟨_, rfl⟩, ⟨_, rfl⟩, ⟨_, rfl⟩,
    ⟨_, _, rfl, _, _, rfl, _, _, rfl⟩, ⟨_, rfl⟩, ⟨_, rfl⟩, ⟨_, rfl⟩, ⟨_, _, rfl⟩, ⟨_, rfl⟩, ⟨_, rfl⟩, ⟨_, rfl⟩,
    ⟨_, _, rfl, _, _, rfl⟩, ⟨_, _, rfl, _, _, rfl⟩, ⟨_, rfl⟩, ⟨_, rfl⟩, ⟨_, rfl⟩, ⟨_, rfl⟩⟩

/-- DecimalModeFaults, UnstableOpcodesFault: D = 1, A and C never written, the index register written. -/
theorem witness_faulting : let s := { launch 0x0200 [] [] with p := { clear with d := true }, unwritten := [.a, .c] }
    Cell.db ∉ s.unwritten ∧ Cell.d ∉ s.unwritten ∧ s.p.d = true ∧
    (∀ cell ∈ (ReadOperand.mem (.izx 0xFF)).reads, cell ∉ s.unwritten) ∧
    (∀ cell ∈ (MemMode.aby 0xFFFF).reads, cell ∉ s.unwritten) ∧
    (∃ cell ∈ (MemMode.aby 0xFFFF).reads, cell ∈ { s with unwritten := [Cell.y] }.unwritten) := by
  decide

/-- BranchResults: a target exists, the offset at both ends of its range, PC wrapping both ways. -/
theorem witness_branch_target :
    ((0x006F#16).toNat : Int) = ((0xFFF0#16).toNat + (0x7F#8).toInt) % 65536 ∧
    ((0xFF80#16).toNat : Int) = ((0x0000#16).toNat + (0x80#8).toInt) % 65536 := by decide

/-- JumpResults, SubroutineCallResults, SubroutineReturnResults, InterruptReturnResults, BreakResults, PullResults:
the bytes they peek are there, SP at both ends; a JSR whose third byte is each of the two pushed bytes, and neither. -/
theorem witness_control :
    (let s := launch 0x0202 [] [(0x10FF, 0x34), (0x1000, 0x12), (0xFFFE, 0x00), (0xFFFF, 0x80)];
      s.peek 0x10FF = some 0x34 ∧ s.peek (wordOf (hiByte 0x10FF) (loByte 0x10FF + 1)) = some 0x12 ∧
      s.peek 0xFFFE = some 0x00 ∧ s.peek 0xFFFF = some 0x80 ∧ devicesWf s.devices = true ∧
      s.peek s.pc = some 0x00 ∧ s.pc ≠ stackAddr s.sp ∧ s.pc ≠ stackAddr (s.sp - 1)) ∧
    (let s := launch 0x01FD [] [];
      devicesWf s.devices = true ∧ (s.peek s.pc).isSome ∧ s.pc = stackAddr s.sp) ∧
    (let s := { launch 0x01FF [] [] with sp := 0x00 };
      devicesWf s.devices = true ∧ (s.peek s.pc).isSome ∧ s.pc = stackAddr (s.sp - 1)) ∧
    (let s := { launch 0x0202 [] [(0x0100, 0x11), (0x0101, 0x22), (0x0102, 0x33)] with sp := 0xFF };
      s.peek (stackAddr (s.sp + 1)) = some 0x11 ∧ s.peek (stackAddr (s.sp + 2)) = some 0x22 ∧
      s.peek (stackAddr (s.sp + 3)) = some 0x33) := by decide

/-- SbxByMode: both values of the parameter. -/
theorem witness_sbx : (launch 0 [] []).params.sbxMode = .unsupported ∧
    (Instr.sbx 0x05).Completable { launch 0 [] [] with params := silicon } :=
  ⟨rfl, completable_of_written _ _ rfl rfl rfl⟩

theorem witness_jam : let s := { launch 0x0200 [] [] with jammed := true, opip := true }
    s.jammed = true ∧ Cell.pc ∉ s.unwritten ∧ s.fault = .none ∧ ∃ t, s.res (some 0xFFFF) = .ok t :=
  ⟨rfl, by decide, rfl, ⟨_, rfl⟩⟩

/-- NmiEntry: SP at the end of its page, so the frame wraps. -/
theorem witness_nmi_entry :
    let s := { launch 0x0200 [] [(0xFFFA, 0x00), (0xFFFB, 0x03)] with nmiPending := true, sp := 0x01 }
    Cell.pc ∉ s.unwritten ∧ s.fault = .none ∧ s.jammed = false ∧ s.idle = true ∧ s.params.irqNmiPresent = true ∧
      s.nmiPending = true ∧ (∀ cell ∈ statusCells, cell ∉ s.unwritten) ∧ s.peek 0xFFFA = some 0x00 ∧
      s.peek 0xFFFB = some 0x03 := by decide

/-- IrqNeverTaken: the line high and I cleared by CLI. -/
theorem witness_irq : let s := { launch 0x0200 [0xEA] [] with irqLine := true, p := { clear with i := false } }
    s.params.irqNmiPresent = true ∧ Cell.pc ∉ s.unwritten ∧ s.fault = .none ∧ s.jammed = false ∧ s.idle = true ∧
      (s.params.irqNmiPresent && s.nmiPending) = false := by decide

/-- NmiEdgeLatched: the inputs exist, and they do not; a boundary with an NMI pending and P written; a rise during an
NMI entry. -/
theorem witness_nmi_edge : (launch 0 [] []).params.irqNmiPresent = true ∧
    ({ launch 0 [] [] with params := { Config.Params.default with irqNmiPresent := false } }).params.irqNmiPresent =
      false ∧
    (let s := { launch 0x0200 [] [] with nmiPending := true };
      s.jammed = false ∧ s.nmiPending = true ∧ ∀ cell ∈ statusCells, cell ∉ s.unwritten) ∧
    (let s := { launch 0x0200 [] [] with entering := some .nmi };
      s.nmiLine = false ∧ s.entering = some .nmi) := by decide

/-- ResetValues: from power-on with the vector in RAM, with DB written, and with DB unwritten and 0xFFFC unowned. -/
theorem witness_reset :
    (let s := powerOnWith Config.Params.default [.ram 1 0 0x10000 [(0xFFFC, 0x34), (0xFFFD, 0x12)]];
      s.peek 0xFFFC = some 0x34 ∧ s.peek 0xFFFD = some 0x12 ∧ ∃ t, s.res none = .ok t) ∧
    Cell.db ∉ (launch 0 [] []).unwritten ∧
    (∃ l h t u, (launch 0 [] []).busRead 0xFFFC = .ok (l, t) ∧ t.busRead 0xFFFD = .ok (h, u)) ∧
    (let s := powerOnWith Config.Params.default [.ram 1 0 0xFFFC []];
      Cell.db ∈ s.unwritten ∧ ∀ d ∈ s.devices, ¬ (d.min ≤ 0xFFFC ∧ 0xFFFC < d.max)) :=
  ⟨⟨by decide, by decide, ⟨_, rfl⟩⟩, by decide, ⟨_, _, _, _, rfl, rfl⟩, by decide⟩

/-- UnwrittenReadFaults: a register; A of a decimal instruction with D = 0; D itself with D = 1; an unstable index. -/
theorem witness_unwritten_read : let s := { launch 0x0200 [] [] with unwritten := [.a, .y] }
    let t := { launch 0x0200 [] [] with unwritten := [.d], p := { clear with d := true } }
    Cell.db ∉ s.unwritten ∧ (∃ left, exec .tax s = .fault (.unwrittenRead .a left)) ∧
    (∀ i ∈ [Instr.tax, .arr 0xFF], i.reads.find? (fun read => s.unwritten.contains read) = some .a ∧
      i.executes s.params = true ∧ s.p.d = false) ∧
    (Instr.las (.aby 0xFFFF)).reads.find? (fun read => s.unwritten.contains read) = some .y ∧
    Cell.db ∉ t.unwritten ∧ (Instr.adc (.imm 0xFF)).reads.find? (fun read => t.unwritten.contains read) = some .d :=
  ⟨by decide, ⟨_, rfl⟩, by decide, by decide, by decide, by decide⟩

/-- UnwrittenReadFaults, the state left: BRK; a composite at A and ISC at C; a read form at A and at its index; an NMI
entry. -/
theorem witness_unwritten_left : let s := { launch 0x0200 [] [(0x00FF, 0x7F)] with unwritten := [.a, .c, .y, .n] }
    (∃ left, exec .brk s = .fault (.unwrittenRead .c left)) ∧
    (∃ left, exec (.dcp (.zpa 0xFF)) s = .fault (.unwrittenRead .a left)) ∧
    (∃ x, (Instr.dcp (.zpa 0xFF)).storedBefore .a s.p.c = some x) ∧
    (∃ left, exec (.isc (.zpa 0xFF)) { s with unwritten := [.c] } = .fault (.unwrittenRead .c left)) ∧
    (∃ x, (Instr.isc (.zpa 0xFF)).storedBefore .c s.p.c = some x) ∧
    (∃ left, exec (.and (.mem (.abs 0xFFFF))) s = .fault (.unwrittenRead .a left)) ∧
    (Instr.and (.mem (.abs 0xFFFF))).storedBefore .a s.p.c = none ∧
    (∃ t, (Instr.and (.mem (.abs 0xFFFF))).afterOperand s = .ok t) ∧
    (∃ left, exec (.sta (.izy 0xFF)) s = .fault (.unwrittenRead .y left)) ∧
    (∃ fault, (Instr.sta (.izy 0xFF)).afterOperand s = .error fault) ∧
    statusCells.find? (fun read => s.unwritten.contains read) = some .c :=
  ⟨⟨_, rfl⟩, ⟨_, rfl⟩, ⟨_, rfl⟩, ⟨_, rfl⟩, ⟨_, rfl⟩, ⟨_, rfl⟩, rfl, ⟨_, rfl⟩, ⟨_, rfl⟩, ⟨_, rfl⟩, by decide⟩
theorem witness_unwritten_nmi : let s := { launch 0x0200 [] [] with unwritten := [.n], nmiPending := true }
    Cell.pc ∉ s.unwritten ∧ s.fault = .none ∧ s.jammed = false ∧ s.idle = true ∧ s.params.irqNmiPresent = true ∧
      statusCells.find? (fun read => s.unwritten.contains read) = some .n := by decide

/-- V47.13 of 95_test_vectors.md: DCP with A unwritten leaves its write. -/
theorem test_dcp_V47_13 :
    (match exec (.dcp (.zpa 0x10)) { launch 0x0202 [] [(0x0010, 0x06)] with unwritten := [.a] } with
    | .fault (.unwrittenRead .a left) => (left.sp, left.pc, left.peek 0x0010)
    | _ => (0, 0, none)) = (0xFD, 0x0202, some 0x05) := by decide

/-- PowerOnState: registrations that are accepted, and two different devices at one priority. -/
theorem witness_power_on :
    (let rs := [(Capability.data, Device.ram 1 0 0x10000 []), (.address, .of 0 0 8 .undescribed)];
      rs.Pairwise (fun x y => x.2.priority ≠ y.2.priority) ∧ (∀ x ∈ rs, x.2.wf = true)) ∧
    (let x := (Capability.data, Device.ram 1 0 0x10000 []);
      let y := (Capability.data, Device.of 1 0 8 .undescribed);
      x.2.priority = y.2.priority ∧ { x.2 with tracked := y.2.tracked } ≠ y.2) := by
  decide

end Sys2Proof.Tests
end

section
/-! PROOFS. What an operation can do to the cells the boundary invariant speaks of, to the record of unwritten cells and
to the bus: one relation per kind of effect, and one lemma per operation. -/

namespace Sys2Proof.Machine

/-! ### Writing cells -/

/-- `t` is reached from `s` by writing the register and flag cells `cells`, with or without accesses to the bus and writes
of PC (whose marks, DB's and PC's, are left open): what the boundary invariant asks of the devices, of R, of B and of the
latches stays good, and no other mark is cleared. -/
structure State.Writes (cells : List Cell) (s t : State) : Prop where
  devices  : devicesWf s.devices = true → devicesWf t.devices = true
  reserved : s.p.r = true → t.p.r = true
  noBreak  : (Cell.b ∉ s.unwritten → s.p.b = false) → Cell.b ∉ t.unwritten → t.p.b = false
  marks    : ∀ cell, cell ≠ .db → cell ≠ .pc → (cell ∈ t.unwritten ↔ cell ∈ s.unwritten ∧ cell ∉ cells)
  fewer    : ∀ cell, cell ∈ t.unwritten → cell ∈ s.unwritten
  latches  : t.fault = s.fault ∧ t.jammed = s.jammed ∧ t.nmiAgain = s.nmiAgain

theorem State.Writes.refl (s : State) : State.Writes [] s s :=
  ⟨id, id, id, by simp, fun _ h => h, rfl, rfl, rfl⟩

theorem State.Writes.trans {cs ds : List Cell} {s t u : State} (h : State.Writes cs s t) (g : State.Writes ds t u) :
    State.Writes (cs ++ ds) s u where
  devices hs := g.devices (h.devices hs)
  reserved hs := g.reserved (h.reserved hs)
  noBreak hs := g.noBreak (h.noBreak hs)
  marks cell hdb hpc := by
    rw [g.marks cell hdb hpc, h.marks cell hdb hpc, List.mem_append, not_or, and_assoc]
  fewer cell hc := h.fewer cell (g.fewer cell hc)
  latches := by
    obtain ⟨hf, hj, hn⟩ := h.latches
    obtain ⟨gf, gj, gn⟩ := g.latches
    exact ⟨gf.trans hf, gj.trans hj, gn.trans hn⟩

/-- The order and the repeats of the cells do not matter, nor whether DB and PC are among them. -/
theorem State.Writes.congr {cs ds : List Cell} {s t : State} (h : State.Writes cs s t)
    (hc : ∀ cell, cell ≠ .db → cell ≠ .pc → (cell ∈ cs ↔ cell ∈ ds)) : State.Writes ds s t :=
  { h with marks := fun cell hdb hpc => by rw [h.marks cell hdb hpc, hc cell hdb hpc] }

/-- An update that marks `cs` as written, B apart, and keeps R, B, the devices and the latches. -/
theorem State.Writes.of_marks {cs : List Cell} {s t : State} (hu : t.unwritten = without s.unwritten cs)
    (hd : t.devices = s.devices) (hr : t.p.r = s.p.r) (hb : t.p.b = s.p.b) (hc : Cell.b ∉ cs)
    (hl : t.fault = s.fault ∧ t.jammed = s.jammed ∧ t.nmiAgain = s.nmiAgain) : State.Writes cs s t where
  devices hs := by rw [hd]; exact hs
  reserved hs := hr.trans hs
  noBreak hs ht := by
    rw [hu, mem_without] at ht
    exact hb.trans (hs fun hm => ht ⟨hm, hc⟩)
  marks cell _ _ := by rw [hu, mem_without]
  fewer cell ht := by
    rw [hu, mem_without] at ht
    exact ht.1
  latches := hl

theorem busWrite_writes (s : State) (a : Word) (v : Byte) : State.Writes [] s (s.busWrite a v) where
  devices hs := devicesWf_write a v hs
  reserved hs := hs
  noBreak hs hb := hs (by simpa using hb)
  marks cell hdb _ := by simp [hdb]
  fewer cell hc := by simp at hc; exact hc.1
  latches := ⟨rfl, rfl, rfl⟩

theorem busRead_writes {s t : State} {a : Word} {v : Byte} (h : s.busRead a = .ok (v, t)) : State.Writes [] s t := by
  obtain ⟨ht, -, -, -, hu⟩ := State.busRead_ok h
  have hw : State.Writes [.db] s t :=
    .of_marks hu (by rw [ht]; rfl) (by rw [ht]; rfl) (by rw [ht]; rfl) (by simp)
      (by rw [ht]; exact ⟨rfl, rfl, rfl⟩)
  exact hw.congr fun cell hdb _ => by simp [hdb]

/-- An access that only reads. -/
theorem State.BusOnly.writes {s t : State} (h : s.BusOnly t) : State.Writes [] s t :=
  .of_marks (by simp [h.2, without]) h.devices (by rw [h.1]; rfl) (by rw [h.1]; rfl) (by simp)
    (by rw [h.1]; exact ⟨rfl, rfl, rfl⟩)

/-! ### Results committed to the registers -/

/-- `t` is `s` with the cells `cells` written and no access to the bus. -/
structure State.Commits (cells : List Cell) (s t : State) : Prop where
  writes : State.Writes cells s t
  bus    : t.BusAs s

theorem State.BusAs.refl (s : State) : s.BusAs s := ⟨rfl, rfl, rfl⟩

theorem State.BusAs.trans {s t u : State} (h : u.BusAs t) (g : t.BusAs s) : u.BusAs s := by
  obtain ⟨hdb, hrw, hlog⟩ := h
  obtain ⟨gdb, grw, glog⟩ := g
  exact ⟨hdb.trans gdb, hrw.trans grw, hlog.trans glog⟩

theorem State.BusAs.complete {s t : State} (h : t.BusAs s) (n : Nat) : (t.complete n).BusAs s := h

theorem State.Commits.refl (s : State) : State.Commits [] s s := ⟨.refl s, .refl s⟩

theorem State.Commits.trans {cs ds : List Cell} {s t u : State} (h : State.Commits cs s t)
    (g : State.Commits ds t u) : State.Commits (cs ++ ds) s u :=
  ⟨h.writes.trans g.writes, g.bus.trans h.bus⟩

theorem State.Commits.congr {cs ds : List Cell} {s t : State} (h : State.Commits cs s t)
    (hc : ∀ cell, cell ≠ .db → cell ≠ .pc → (cell ∈ cs ↔ cell ∈ ds)) : State.Commits ds s t :=
  ⟨h.writes.congr hc, h.bus⟩

section
variable (s : State)

theorem setA_commits (v : Byte) : State.Commits [.a] s (s.setA v) :=
  ⟨.of_marks rfl rfl rfl rfl (by decide) ⟨rfl, rfl, rfl⟩, .refl s⟩

theorem setX_commits (v : Byte) : State.Commits [.x] s (s.setX v) :=
  ⟨.of_marks rfl rfl rfl rfl (by decide) ⟨rfl, rfl, rfl⟩, .refl s⟩

theorem setY_commits (v : Byte) : State.Commits [.y] s (s.setY v) :=
  ⟨.of_marks rfl rfl rfl rfl (by decide) ⟨rfl, rfl, rfl⟩, .refl s⟩

theorem setSp_commits (v : Byte) : State.Commits [.sp] s (s.setSp v) :=
  ⟨.of_marks rfl rfl rfl rfl (by decide) ⟨rfl, rfl, rfl⟩, .refl s⟩

theorem setC_commits (f : Bool) : State.Commits [.c] s (s.setC f) :=
  ⟨.of_marks rfl rfl rfl rfl (by decide) ⟨rfl, rfl, rfl⟩, .refl s⟩

theorem setV_commits (f : Bool) : State.Commits [.v] s (s.setV f) :=
  ⟨.of_marks rfl rfl rfl rfl (by decide) ⟨rfl, rfl, rfl⟩, .refl s⟩

theorem setD_commits (f : Bool) : State.Commits [.d] s (s.setD f) :=
  ⟨.of_marks rfl rfl rfl rfl (by decide) ⟨rfl, rfl, rfl⟩, .refl s⟩

theorem setI_commits (f : Bool) : State.Commits [] s (s.setI f) :=
  ⟨.of_marks (by simp [without]) rfl rfl rfl (by decide) ⟨rfl, rfl, rfl⟩, .refl s⟩

theorem setFlagsNZ_commits (n z : Bool) : State.Commits [.n, .z] s (s.setFlagsNZ n z) :=
  ⟨.of_marks rfl rfl rfl rfl (by decide) ⟨rfl, rfl, rfl⟩, .refl s⟩

theorem setNZ_commits (v : Byte) : State.Commits [.n, .z] s (s.setNZ v) := setFlagsNZ_commits s _ _

/-- PC's mark is left open. -/
theorem setPc_commits (w : Word) : State.Commits [] s (s.setPc w) :=
  State.Commits.congr (cs := [.pc])
    ⟨.of_marks rfl rfl rfl rfl (by decide) ⟨rfl, rfl, rfl⟩, .refl s⟩
    fun cell _ hpc => by simp [hpc]

/-- B is written only with 0 (R44). -/
theorem clearB_commits : State.Commits [.b] s (s.setB false) :=
  ⟨⟨id, id, fun _ _ => rfl, fun _ _ _ => mem_wrote, fun _ h => (mem_wrote.1 h).1, rfl, rfl, rfl⟩, .refl s⟩

/-- PLP and RTI leave B = 0 and R = 1 (R275, R293). -/
theorem restore_commits (b : Byte) : State.Commits [.c, .z, .d, .b, .v, .n] s (s.setStatus (Status.restore b)) :=
  ⟨⟨id, fun _ => rfl, fun _ _ => rfl, fun _ _ _ => mem_wrote, fun _ h => (mem_wrote.1 h).1, rfl, rfl, rfl⟩,
    .refl s⟩

theorem setSum_commits (q : Sum) : State.Commits [.a, .c, .v, .n, .z] s (s.setSum q) :=
  (((setA_commits s _).trans (setC_commits _ _)).trans (setV_commits _ _)).trans (setNZ_commits _ _)

theorem compare_commits (r m : Byte) : State.Commits [.c, .n, .z] s (s.compare r m) :=
  (setC_commits s _).trans (setNZ_commits _ _)

theorem push_writes (v : Byte) : State.Writes [.sp] s (s.push v) :=
  (busWrite_writes s _ v).trans (setSp_commits _ _).writes

end

theorem pull_writes {s t : State} {v : Byte} (h : s.pull = .ok (v, t)) : State.Writes [.sp] s t := by
  obtain ⟨-, -, hr, -⟩ := State.pull_spec h
  exact (setSp_commits s _).writes.trans (busRead_writes hr)

/-! ### Operations that make no access -/

/-- Where the operation completes it writes these cells and makes no access to the bus. -/
def CommitsOnly (cells : List Cell) (op : State → Except Fault State) : Prop :=
  ∀ s t : State, op s = .ok t → State.Commits cells s t

theorem ldaOp_commits (v : Byte) : CommitsOnly [.a, .n, .z] (ldaOp v) := by
  intro s t h; cases h
  exact (setA_commits s v).trans (setNZ_commits _ v)

theorem ldxOp_commits (v : Byte) : CommitsOnly [.x, .n, .z] (ldxOp v) := by
  intro s t h; cases h
  exact (setX_commits s v).trans (setNZ_commits _ v)

theorem ldyOp_commits (v : Byte) : CommitsOnly [.y, .n, .z] (ldyOp v) := by
  intro s t h; cases h
  exact (setY_commits s v).trans (setNZ_commits _ v)

theorem laxOp_commits (v : Byte) : CommitsOnly [.a, .x, .n, .z] (laxOp v) := by
  intro s t h; cases h
  exact ((setA_commits s v).trans (setX_commits _ v)).trans (setNZ_commits _ v)

theorem nopReadOp_commits (v : Byte) : CommitsOnly [] (nopReadOp v) := by
  intro s t h; cases h
  exact .refl s

theorem nopOp_commits : CommitsOnly [] nopOp := by
  intro s t h; cases h
  exact .refl s

theorem unstableOp_commits (v : Byte) : CommitsOnly [] (unstableOp v) := by
  intro s t h; cases h

theorem adcOp_commits (v : Byte) : CommitsOnly [.a, .c, .v, .n, .z] (adcOp v) := by
  intro s t h
  obtain ⟨_, -, h⟩ := bind_ok h
  obtain ⟨a, -, h⟩ := bind_ok h
  obtain ⟨c, -, h⟩ := bind_ok h
  cases h
  exact setSum_commits s _

theorem sbcOp_commits (v : Byte) : CommitsOnly [.a, .c, .v, .n, .z] (sbcOp v) := by
  intro s t h
  obtain ⟨_, -, h⟩ := bind_ok h
  obtain ⟨a, -, h⟩ := bind_ok h
  obtain ⟨c, -, h⟩ := bind_ok h
  cases h
  exact setSum_commits s _

theorem andOp_commits (v : Byte) : CommitsOnly [.a, .n, .z] (andOp v) := by
  intro s t h
  obtain ⟨a, -, h⟩ := bind_ok h
  cases h
  exact (setA_commits s _).trans (setNZ_commits _ _)

theorem oraOp_commits (v : Byte) : CommitsOnly [.a, .n, .z] (oraOp v) := by
  intro s t h
  obtain ⟨a, -, h⟩ := bind_ok h
  cases h
  exact (setA_commits s _).trans (setNZ_commits _ _)

theorem eorOp_commits (v : Byte) : CommitsOnly [.a, .n, .z] (eorOp v) := by
  intro s t h
  obtain ⟨a, -, h⟩ := bind_ok h
  cases h
  exact (setA_commits s _).trans (setNZ_commits _ _)

theorem bitOp_commits (v : Byte) : CommitsOnly [.n, .z, .v] (bitOp v) := by
  intro s t h
  obtain ⟨a, -, h⟩ := bind_ok h
  cases h
  exact (setFlagsNZ_commits s _ _).trans (setV_commits _ _)

theorem cmpOp_commits (v : Byte) : CommitsOnly [.c, .n, .z] (cmpOp v) := by
  intro s t h
  obtain ⟨r, -, h⟩ := bind_ok h
  cases h
  exact compare_commits s r v

theorem cpxOp_commits (v : Byte) : CommitsOnly [.c, .n, .z] (cpxOp v) := by
  intro s t h
  obtain ⟨r, -, h⟩ := bind_ok h
  cases h
  exact compare_commits s r v

theorem cpyOp_commits (v : Byte) : CommitsOnly [.c, .n, .z] (cpyOp v) := by
  intro s t h
  obtain ⟨r, -, h⟩ := bind_ok h
  cases h
  exact compare_commits s r v

theorem ancOp_commits (v : Byte) : CommitsOnly [.a, .c, .n, .z] (ancOp v) := by
  intro s t h
  obtain ⟨a, -, h⟩ := bind_ok h
  cases h
  exact (((setA_commits s _).trans (setNZ_commits _ _)).trans (setC_commits _ _)).congr
    fun cell _ _ => by cases cell <;> decide

theorem alrOp_commits (v : Byte) : CommitsOnly [.a, .c, .n, .z] (alrOp v) := by
  intro s t h
  obtain ⟨a, -, h⟩ := bind_ok h
  cases h
  exact ((setA_commits s _).trans (setC_commits _ _)).trans (setNZ_commits _ _)

theorem arrOp_commits (v : Byte) : CommitsOnly [.a, .c, .v, .n, .z] (arrOp v) := by
  intro s t h
  obtain ⟨_, -, h⟩ := bind_ok h
  obtain ⟨a, -, h⟩ := bind_ok h
  obtain ⟨c, -, h⟩ := bind_ok h
  cases h
  exact ((((setA_commits s _).trans (setNZ_commits _ _)).trans (setC_commits _ _)).trans (setV_commits _ _)).congr
    fun cell _ _ => by cases cell <;> decide

theorem sbxOp_commits (v : Byte) : CommitsOnly [.x, .c, .n, .z] (sbxOp v) := by
  intro s t h
  unfold sbxOp at h
  split at h
  · cases h
  · obtain ⟨a, -, h⟩ := bind_ok h
    obtain ⟨x, -, h⟩ := bind_ok h
    cases h
    exact (((setC_commits s _).trans (setX_commits _ _)).trans (setNZ_commits _ _)).congr
      fun cell _ _ => by cases cell <;> decide

theorem taxOp_commits : CommitsOnly [.x, .n, .z] taxOp := by
  intro s t h
  obtain ⟨v, -, h⟩ := bind_ok h
  cases h
  exact (setX_commits s v).trans (setNZ_commits _ v)

theorem tayOp_commits : CommitsOnly [.y, .n, .z] tayOp := by
  intro s t h
  obtain ⟨v, -, h⟩ := bind_ok h
  cases h
  exact (setY_commits s v).trans (setNZ_commits _ v)

theorem txaOp_commits : CommitsOnly [.a, .n, .z] txaOp := by
  intro s t h
  obtain ⟨v, -, h⟩ := bind_ok h
  cases h
  exact (setA_commits s v).trans (setNZ_commits _ v)

theorem tyaOp_commits : CommitsOnly [.a, .n, .z] tyaOp := by
  intro s t h
  obtain ⟨v, -, h⟩ := bind_ok h
  cases h
  exact (setA_commits s v).trans (setNZ_commits _ v)

theorem tsxOp_commits : CommitsOnly [.x, .n, .z] tsxOp := by
  intro s t h; cases h
  exact (setX_commits s _).trans (setNZ_commits _ _)

theorem txsOp_commits : CommitsOnly [.sp] txsOp := by
  intro s t h
  obtain ⟨v, -, h⟩ := bind_ok h
  cases h
  exact setSp_commits s v

theorem inxOp_commits : CommitsOnly [.x, .n, .z] inxOp := by
  intro s t h
  obtain ⟨v, -, h⟩ := bind_ok h
  cases h
  exact (setX_commits s _).trans (setNZ_commits _ _)

theorem inyOp_commits : CommitsOnly [.y, .n, .z] inyOp := by
  intro s t h
  obtain ⟨v, -, h⟩ := bind_ok h
  cases h
  exact (setY_commits s _).trans (setNZ_commits _ _)

theorem dexOp_commits : CommitsOnly [.x, .n, .z] dexOp := by
  intro s t h
  obtain ⟨v, -, h⟩ := bind_ok h
  cases h
  exact (setX_commits s _).trans (setNZ_commits _ _)

theorem deyOp_commits : CommitsOnly [.y, .n, .z] deyOp := by
  intro s t h
  obtain ⟨v, -, h⟩ := bind_ok h
  cases h
  exact (setY_commits s _).trans (setNZ_commits _ _)

theorem shiftAcc_commits (f : Byte → Byte × Bool) : CommitsOnly [.a, .c, .n, .z] (shiftAcc f) := by
  intro s t h
  obtain ⟨a, -, h⟩ := bind_ok h
  cases h
  exact ((setA_commits s _).trans (setC_commits _ _)).trans (setNZ_commits _ _)

theorem rotateAcc_commits (f : Byte → Bool → Byte × Bool) : CommitsOnly [.a, .c, .n, .z] (rotateAcc f) := by
  intro s t h
  obtain ⟨a, -, h⟩ := bind_ok h
  obtain ⟨c, -, h⟩ := bind_ok h
  cases h
  exact ((setA_commits s _).trans (setC_commits _ _)).trans (setNZ_commits _ _)

theorem clcOp_commits : CommitsOnly [.c] clcOp := by intro s t h; cases h; exact setC_commits s _

theorem secOp_commits : CommitsOnly [.c] secOp := by intro s t h; cases h; exact setC_commits s _

theorem cliOp_commits : CommitsOnly [] cliOp := by intro s t h; cases h; exact setI_commits s _

theorem seiOp_commits : CommitsOnly [] seiOp := by intro s t h; cases h; exact setI_commits s _

theorem cldOp_commits : CommitsOnly [.d] cldOp := by intro s t h; cases h; exact setD_commits s _

theorem sedOp_commits : CommitsOnly [.d] sedOp := by intro s t h; cases h; exact setD_commits s _

theorem clvOp_commits : CommitsOnly [.v] clvOp := by intro s t h; cases h; exact setV_commits s _

/-! ### Operations that write M back -/

/-- Where the operation completes it has written `result v C` at the effective address, for the byte `v` read there and
the carry C before it, and then these cells, with no further access. -/
def WritesBack (cells : List Cell) (result : Byte → Bool → Byte) (op : Word → Byte → State → Except Fault State) :
    Prop :=
  ∀ (ea : Word) (v : Byte) (s t : State), op ea v s = .ok t →
    State.Commits cells (s.busWrite ea (result v s.p.c)) t

/-- Its write marks DB only, which `Writes` leaves open. -/
theorem WritesBack.writes {cells : List Cell} {result : Byte → Bool → Byte}
    {op : Word → Byte → State → Except Fault State} (hop : WritesBack cells result op) {ea : Word} {v : Byte}
    {s t : State} (h : op ea v s = .ok t) : State.Writes cells s t :=
  (busWrite_writes s _ _).trans (hop ea v s t h).writes

theorem incOp_writesBack : WritesBack [.n, .z] (fun v _ => v + 1) incOp := by
  intro ea v s t h; cases h
  exact setNZ_commits _ _

theorem decOp_writesBack : WritesBack [.n, .z] (fun v _ => v - 1) decOp := by
  intro ea v s t h; cases h
  exact setNZ_commits _ _

theorem shiftMem_writesBack (f : Byte → Byte × Bool) : WritesBack [.c, .n, .z] (fun v _ => (f v).1) (shiftMem f) := by
  intro ea v s t h; cases h
  exact (setC_commits _ _).trans (setNZ_commits _ _)

theorem rotateMem_writesBack (f : Byte → Bool → Byte × Bool) :
    WritesBack [.c, .n, .z] (fun v c => (f v c).1) (rotateMem f) := by
  intro ea v s t h
  obtain ⟨c, hc, h⟩ := bind_ok h
  obtain ⟨-, rfl⟩ := readC_ok hc
  cases h
  exact (setC_commits _ _).trans (setNZ_commits _ _)

theorem sloOp_writesBack : WritesBack [.a, .c, .n, .z] (fun v _ => (aslByte v).1) sloOp := by
  intro ea v s t h
  obtain ⟨a, -, h⟩ := bind_ok h
  cases h
  exact ((setA_commits _ _).trans (setC_commits _ _)).trans (setNZ_commits _ _)

theorem rlaOp_writesBack : WritesBack [.a, .c, .n, .z] (fun v c => (rolByte v c).1) rlaOp := by
  intro ea v s t h
  obtain ⟨c, hc, h⟩ := bind_ok h
  obtain ⟨-, rfl⟩ := readC_ok hc
  obtain ⟨a, -, h⟩ := bind_ok h
  cases h
  exact ((setA_commits _ _).trans (setC_commits _ _)).trans (setNZ_commits _ _)

theorem sreOp_writesBack : WritesBack [.a, .c, .n, .z] (fun v _ => (lsrByte v).1) sreOp := by
  intro ea v s t h
  obtain ⟨a, -, h⟩ := bind_ok h
  cases h
  exact ((setA_commits _ _).trans (setC_commits _ _)).trans (setNZ_commits _ _)

theorem rraOp_writesBack : WritesBack [.a, .c, .v, .n, .z] (fun v c => (rorByte v c).1) rraOp := by
  intro ea v s t h
  obtain ⟨_, -, h⟩ := bind_ok h
  obtain ⟨c, hc, h⟩ := bind_ok h
  obtain ⟨-, rfl⟩ := readC_ok hc
  obtain ⟨a, -, h⟩ := bind_ok h
  cases h
  exact setSum_commits _ _

theorem dcpOp_writesBack : WritesBack [.c, .n, .z] (fun v _ => v - 1) dcpOp := by
  intro ea v s t h
  obtain ⟨a, -, h⟩ := bind_ok h
  cases h
  exact compare_commits _ _ _

theorem iscOp_writesBack : WritesBack [.a, .c, .v, .n, .z] (fun v _ => v + 1) iscOp := by
  intro ea v s t h
  obtain ⟨_, -, h⟩ := bind_ok h
  obtain ⟨a, -, h⟩ := bind_ok h
  obtain ⟨c, -, h⟩ := bind_ok h
  cases h
  exact setSum_commits _ _

/-! ### Operations on the stack -/

/-- PHA pushes A. -/
theorem phaOp_ok {s t : State} (h : phaOp s = .ok t) : t = s.push s.a := by
  obtain ⟨a, ha, h⟩ := bind_ok h
  obtain ⟨-, rfl⟩ := readA_ok ha
  cases h
  rfl

/-- PHP pushes P with B and R set. -/
theorem phpOp_ok {s t : State} (h : phpOp s = .ok t) : t = s.push s.p.packPhp := by
  obtain ⟨_, -, h⟩ := bind_ok h
  cases h
  rfl

theorem plaOp_ok {s t : State} (h : plaOp s = .ok t) :
    ∃ v u, s.pull = .ok (v, u) ∧ State.Commits [.a, .n, .z] u t := by
  obtain ⟨⟨v, u⟩, hp, h⟩ := bind_ok h
  cases h
  exact ⟨v, u, hp, (setA_commits u v).trans (setNZ_commits _ v)⟩

theorem plpOp_ok {s t : State} (h : plpOp s = .ok t) :
    ∃ v u, s.pull = .ok (v, u) ∧ State.Commits [.c, .z, .d, .b, .v, .n] u t := by
  obtain ⟨⟨v, u⟩, hp, h⟩ := bind_ok h
  cases h
  exact ⟨v, u, hp, restore_commits u v⟩

theorem jsrOp_ok {low : Byte} {s t : State} (h : jsrOp low s = .ok t) :
    ∃ high u, ((s.push (hiByte s.pc)).push (loByte s.pc)).busRead s.pc = .ok (high, u) ∧ State.Commits [] u t := by
  unfold jsrOp at h
  simp only [State.push_pc] at h
  obtain ⟨⟨high, u⟩, hr, h⟩ := bind_ok h
  cases h
  exact ⟨high, u, hr, setPc_commits u _⟩

theorem rtsOp_ok {s t : State} (h : rtsOp s = .ok t) :
    ∃ l u v w, s.pull = .ok (l, u) ∧ u.pull = .ok (v, w) ∧ State.Commits [] w t := by
  obtain ⟨⟨l, u⟩, h1, h⟩ := bind_ok h
  obtain ⟨⟨v, w⟩, h2, h⟩ := bind_ok h
  cases h
  exact ⟨l, u, v, w, h1, h2, setPc_commits w _⟩

theorem returnFromInterrupt_ok {s t : State} (h : s.returnFromInterrupt = .ok t) :
    ∃ q u l v high w, s.pull = .ok (q, u) ∧ u.pull = .ok (l, v) ∧ v.pull = .ok (high, w) ∧
      State.Commits [.c, .z, .d, .b, .v, .n] w t := by
  obtain ⟨⟨q, u⟩, h1, h⟩ := bind_ok h
  obtain ⟨⟨l, v⟩, h2, h⟩ := bind_ok h
  obtain ⟨⟨high, w⟩, h3, h⟩ := bind_ok h
  cases h
  exact ⟨q, u, l, v, high, w, h1, h2, h3, (restore_commits w q).trans (setPc_commits _ _)⟩

theorem readVector_ok {s t : State} {vector target : Word} (h : s.readVector vector = .ok (target, t)) :
    ∃ l u high, s.busRead vector = .ok (l, u) ∧ u.busRead (vector + 1) = .ok (high, t) ∧ target = wordOf high l := by
  obtain ⟨⟨l, u⟩, h1, h⟩ := bind_ok h
  obtain ⟨⟨high, v⟩, h2, h⟩ := bind_ok h
  cases h
  exact ⟨l, u, high, h1, h2, rfl⟩

theorem brkOp_ok {s t : State} (h : brkOp s = .ok t) :
    ∃ target u, (s.frame (s.pc + 1) Status.packBrk).readVector brkVector = .ok (target, u) ∧
      State.Commits [.b] u t := by
  obtain ⟨⟨target, u⟩, he, h⟩ := bind_ok h
  cases h
  exact ⟨target, u, (State.takeException_ok he).2.1,
    ((clearB_commits u).trans (setI_commits _ true)).trans (setPc_commits _ target)⟩

theorem frame_writes (s : State) (returnTo : Word) (frameOf : Status → Byte) :
    State.Writes [.sp] s (s.frame returnTo frameOf) :=
  (((push_writes s _).trans (push_writes _ _)).trans (push_writes _ _)).congr fun cell _ _ => by cases cell <;> decide

theorem readVector_writes {s t : State} {vector target : Word} (h : s.readVector vector = .ok (target, t)) :
    State.Writes [] s t := by
  obtain ⟨l, u, high, h1, h2, -⟩ := readVector_ok h
  exact (busRead_writes h1).trans (busRead_writes h2)

end Sys2Proof.Machine
end

section
/-! PROOFS. What a completed instruction writes, and the boundary invariant: it holds after reset and every step keeps
it. -/

namespace Sys2Proof.Machine

/-! ### What a completed instruction writes -/

/-- `u` is the completion of a state that is `s` with these cells written. -/
def State.CompletesAs (cells : List Cell) (s u : State) : Prop :=
  ∃ w n, u = w.complete n ∧ State.Writes cells s w

theorem readInstr_completesAs {o : ReadOperand} {op : Byte → State → Except Fault State} {cells : List Cell}
    {s u : State} (hop : ∀ v, CommitsOnly cells (op v)) (hdb : Cell.db ∉ s.unwritten)
    (h : readInstr o op s = .next u) : s.CompletesAs cells u := by
  obtain ⟨v, crossed, t, w, ha, hw, rfl⟩ := readInstr_ok h
  exact ⟨w, _, rfl, (accessOperand_only hdb ha).1.writes.trans (hop v t w hw).writes⟩

theorem writeInstr_completesAs {m : MemMode} {value : State → Except Fault Byte} {s u : State}
    (hdb : Cell.db ∉ s.unwritten) (h : writeInstr m value s = .next u) : s.CompletesAs [] u := by
  obtain ⟨r, t, v, hr, -, rfl⟩ := writeInstr_ok h
  exact ⟨_, _, rfl, (resolve_only hdb hr).1.writes.trans (busWrite_writes t _ v)⟩

theorem rmwInstr_completesAs {m : MemMode} {op : Word → Byte → State → Except Fault State} {cells : List Cell}
    {result : Byte → Bool → Byte} {s u : State} (hop : WritesBack cells result op) (hdb : Cell.db ∉ s.unwritten)
    (h : rmwInstr m op s = .next u) : s.CompletesAs cells u := by
  obtain ⟨r, v, t, w, ha, hw, rfl⟩ := rmwInstr_ok h
  exact ⟨w, _, rfl, (accessMem_only hdb ha).1.writes.trans (hop.writes hw)⟩

theorem impliedInstr_completesAs {op : State → Except Fault State} {cells : List Cell} {s u : State}
    (hop : ∀ {w}, op s = .ok w → State.Writes cells s w) (h : impliedInstr op s = .next u) :
    s.CompletesAs cells u := by
  obtain ⟨w, hw, rfl⟩ := impliedInstr_ok h
  exact ⟨w, _, rfl, hop hw⟩

/-- An implied instruction that makes no access. -/
theorem registerInstr_completesAs {op : State → Except Fault State} {cells : List Cell} {s u : State}
    (hop : CommitsOnly cells op) (h : impliedInstr op s = .next u) : s.CompletesAs cells u :=
  impliedInstr_completesAs (fun hw => (hop _ _ hw).writes) h

/-- A branch ends where it was or at its target, and makes no access. -/
theorem branchInstr_ok {cell : Cell} {flag : Status → Bool} {want : Bool} {penalty : Config.BranchPagePenalty → Bool}
    {off : Byte} {s u : State} (h : branchInstr cell flag want penalty off s = .next u) :
    ∃ w n, u = w.complete n ∧ State.Commits [] s w := by
  rw [branchInstr, finish_next] at h
  obtain ⟨_, -, h⟩ := bind_ok h
  cases h
  refine ⟨_, _, rfl, ?_⟩
  split
  · exact setPc_commits s _
  · exact .refl s

theorem branchInstr_completesAs {cell : Cell} {flag : Status → Bool} {want : Bool}
    {penalty : Config.BranchPagePenalty → Bool} {off : Byte} {s u : State}
    (h : branchInstr cell flag want penalty off s = .next u) : s.CompletesAs [] u := by
  obtain ⟨w, n, hu, hw⟩ := branchInstr_ok h
  exact ⟨w, n, hu, hw.writes⟩

/-- JMP IND reads its target through the pointer and commits it. -/
theorem jumpIndirect_ok {ptr : Word} {s u : State} (h : exec (.jmp (.ind ptr)) s = .next u) :
    ∃ target t n, s.readIndirect ptr = .ok (target, t) ∧ u = (t.setPc target).complete n := by
  obtain ⟨⟨target, t⟩, hr, h⟩ := bind_ok (finish_next.1 (show finish _ = .next u from h))
  cases h
  exact ⟨target, t, _, hr, rfl⟩

theorem jmp_completesAs {o : JumpOperand} {s u : State} (hdb : Cell.db ∉ s.unwritten)
    (h : exec (.jmp o) s = .next u) : s.CompletesAs [] u := by
  cases o with
  | abs target =>
    cases h
    exact ⟨_, _, rfl, (setPc_commits s target).writes⟩
  | ind ptr =>
    obtain ⟨target, t, n, hr, rfl⟩ := jumpIndirect_ok h
    exact ⟨_, n, rfl, (State.readIndirect_only hdb hr).writes.trans (setPc_commits t target).writes⟩

theorem phaOp_writes {s t : State} (h : phaOp s = .ok t) : State.Writes [.sp] s t :=
  phaOp_ok h ▸ push_writes s s.a

theorem phpOp_writes {s t : State} (h : phpOp s = .ok t) : State.Writes [.sp] s t :=
  phpOp_ok h ▸ push_writes s s.p.packPhp

theorem plaOp_writes {s t : State} (h : plaOp s = .ok t) : State.Writes [.sp, .a, .n, .z] s t := by
  obtain ⟨v, u, hp, hc⟩ := plaOp_ok h
  exact (pull_writes hp).trans hc.writes

theorem plpOp_writes {s t : State} (h : plpOp s = .ok t) : State.Writes [.sp, .c, .z, .d, .b, .v, .n] s t := by
  obtain ⟨v, u, hp, hc⟩ := plpOp_ok h
  exact (pull_writes hp).trans hc.writes

theorem jsrOp_writes {low : Byte} {s t : State} (h : jsrOp low s = .ok t) : State.Writes [.sp] s t := by
  obtain ⟨high, u, hr, hc⟩ := jsrOp_ok h
  exact ((((push_writes s _).trans (push_writes _ _)).trans (busRead_writes hr)).trans hc.writes).congr
    fun cell _ _ => by cases cell <;> decide

theorem rtsOp_writes {s t : State} (h : rtsOp s = .ok t) : State.Writes [.sp] s t := by
  obtain ⟨l, u, v, w, h1, h2, hc⟩ := rtsOp_ok h
  exact (((pull_writes h1).trans (pull_writes h2)).trans hc.writes).congr fun cell _ _ => by cases cell <;> decide

theorem returnFromInterrupt_writes {s t : State} (h : s.returnFromInterrupt = .ok t) :
    State.Writes [.sp, .c, .z, .d, .b, .v, .n] s t := by
  obtain ⟨q, u, l, v, high, w, h1, h2, h3, hc⟩ := returnFromInterrupt_ok h
  exact ((((pull_writes h1).trans (pull_writes h2)).trans (pull_writes h3)).trans hc.writes).congr
    fun cell _ _ => by cases cell <;> decide

theorem brkOp_writes {s t : State} (h : brkOp s = .ok t) : State.Writes [.sp, .b] s t := by
  obtain ⟨target, u, hv, hc⟩ := brkOp_ok h
  exact ((frame_writes s _ _).trans (readVector_writes hv)).trans hc.writes

/-- A completed instruction other than JAM is the completion of a state in which it has written its cells. -/
theorem exec_completesAs {i : Instr} {s u : State} (hj : i.isJam = false) (hdb : Cell.db ∉ s.unwritten)
    (h : exec i s = .next u) : s.CompletesAs i.writes u := by
  cases i with
  | lda o => exact readInstr_completesAs ldaOp_commits hdb h
  | ldx o => exact readInstr_completesAs ldxOp_commits hdb h
  | ldy o => exact readInstr_completesAs ldyOp_commits hdb h
  | adc o => exact readInstr_completesAs adcOp_commits hdb h
  | sbc o => exact readInstr_completesAs sbcOp_commits hdb h
  | and o => exact readInstr_completesAs andOp_commits hdb h
  | ora o => exact readInstr_completesAs oraOp_commits hdb h
  | eor o => exact readInstr_completesAs eorOp_commits hdb h
  | bit m => exact readInstr_completesAs bitOp_commits hdb h
  | cmp o => exact readInstr_completesAs cmpOp_commits hdb h
  | cpx o => exact readInstr_completesAs cpxOp_commits hdb h
  | cpy o => exact readInstr_completesAs cpyOp_commits hdb h
  | lax m => exact readInstr_completesAs laxOp_commits hdb h
  | anc opcode v => exact readInstr_completesAs ancOp_commits hdb h
  | alr v => exact readInstr_completesAs alrOp_commits hdb h
  | arr v => exact readInstr_completesAs arrOp_commits hdb h
  | usbc v => exact readInstr_completesAs sbcOp_commits hdb h
  | sbx v => exact readInstr_completesAs sbxOp_commits hdb h
  | ane v => exact readInstr_completesAs (o := .imm v) unstableOp_commits hdb h
  | lxa v => exact readInstr_completesAs (o := .imm v) unstableOp_commits hdb h
  | las m => exact readInstr_completesAs unstableOp_commits hdb h
  | nop opcode o =>
    cases o with
    | implied => exact registerInstr_completesAs nopOp_commits h
    | imm v => exact readInstr_completesAs (o := .imm v) nopReadOp_commits hdb h
    | mem m => exact readInstr_completesAs nopReadOp_commits hdb h
  | sta m => exact writeInstr_completesAs hdb h
  | stx m => exact writeInstr_completesAs hdb h
  | sty m => exact writeInstr_completesAs hdb h
  | sax m => exact writeInstr_completesAs hdb h
  | sha m => exact writeInstr_completesAs hdb h
  | tas m => exact writeInstr_completesAs hdb h
  | shy m => exact writeInstr_completesAs hdb h
  | shx m => exact writeInstr_completesAs hdb h
  | inc m => exact rmwInstr_completesAs incOp_writesBack hdb h
  | dec m => exact rmwInstr_completesAs decOp_writesBack hdb h
  | slo m => exact rmwInstr_completesAs sloOp_writesBack hdb h
  | rla m => exact rmwInstr_completesAs rlaOp_writesBack hdb h
  | sre m => exact rmwInstr_completesAs sreOp_writesBack hdb h
  | rra m => exact rmwInstr_completesAs rraOp_writesBack hdb h
  | dcp m => exact rmwInstr_completesAs dcpOp_writesBack hdb h
  | isc m => exact rmwInstr_completesAs iscOp_writesBack hdb h
  | asl o =>
    cases o with
    | acc => exact registerInstr_completesAs (shiftAcc_commits aslByte) h
    | mem m => exact rmwInstr_completesAs (shiftMem_writesBack aslByte) hdb h
  | lsr o =>
    cases o with
    | acc => exact registerInstr_completesAs (shiftAcc_commits lsrByte) h
    | mem m => exact rmwInstr_completesAs (shiftMem_writesBack lsrByte) hdb h
  | rol o =>
    cases o with
    | acc => exact registerInstr_completesAs (rotateAcc_commits rolByte) h
    | mem m => exact rmwInstr_completesAs (rotateMem_writesBack rolByte) hdb h
  | ror o =>
    cases o with
    | acc => exact registerInstr_completesAs (rotateAcc_commits rorByte) h
    | mem m => exact rmwInstr_completesAs (rotateMem_writesBack rorByte) hdb h
  | tax => exact registerInstr_completesAs taxOp_commits h
  | tay => exact registerInstr_completesAs tayOp_commits h
  | txa => exact registerInstr_completesAs txaOp_commits h
  | tya => exact registerInstr_completesAs tyaOp_commits h
  | tsx => exact registerInstr_completesAs tsxOp_commits h
  | txs => exact registerInstr_completesAs txsOp_commits h
  | inx => exact registerInstr_completesAs inxOp_commits h
  | iny => exact registerInstr_completesAs inyOp_commits h
  | dex => exact registerInstr_completesAs dexOp_commits h
  | dey => exact registerInstr_completesAs deyOp_commits h
  | clc => exact registerInstr_completesAs clcOp_commits h
  | sec => exact registerInstr_completesAs secOp_commits h
  | cli => exact registerInstr_completesAs cliOp_commits h
  | sei => exact registerInstr_completesAs seiOp_commits h
  | cld => exact registerInstr_completesAs cldOp_commits h
  | sed => exact registerInstr_completesAs sedOp_commits h
  | clv => exact registerInstr_completesAs clvOp_commits h
  | bcc off => exact branchInstr_completesAs h
  | bcs off => exact branchInstr_completesAs h
  | beq off => exact branchInstr_completesAs h
  | bne off => exact branchInstr_completesAs h
  | bmi off => exact branchInstr_completesAs h
  | bpl off => exact branchInstr_completesAs h
  | bvc off => exact branchInstr_completesAs h
  | bvs off => exact branchInstr_completesAs h
  | jmp o => exact jmp_completesAs hdb h
  | jsr target => exact impliedInstr_completesAs jsrOp_writes h
  | rts => exact impliedInstr_completesAs rtsOp_writes h
  | rti => exact impliedInstr_completesAs returnFromInterrupt_writes h
  | brk => exact impliedInstr_completesAs brkOp_writes h
  | pha => exact impliedInstr_completesAs phaOp_writes h
  | php => exact impliedInstr_completesAs phpOp_writes h
  | pla => exact impliedInstr_completesAs plaOp_writes h
  | plp => exact impliedInstr_completesAs plpOp_writes h
  | jam opcode => cases hj

/-- JAM is the one instruction that never completes (R332). -/
theorem isJam_iff {i : Instr} : i.isJam = true ↔ ∃ opcode, i = .jam opcode := by
  constructor
  · cases i with
    | jam opcode => exact fun _ => ⟨opcode, rfl⟩
    | _ => intro h; cases h
  · rintro ⟨opcode, rfl⟩
    rfl

/-- Settles O58: every instruction but JAM is the completion of a state with its cells written, and JAM writes none. -/
theorem completionMarksWrittenCells : Obligations.CompletionMarksWrittenCells := by
  unfold Obligations.CompletionMarksWrittenCells
  intro i s u hdb hpc h cell
  cases hj : i.isJam with
  | true =>
    obtain ⟨opcode, rfl⟩ := isJam_iff.1 hj
    cases h
    simp [Instr.writes]
  | false =>
    obtain ⟨w, n, rfl, hw⟩ := exec_completesAs hj hdb h
    have written : ∀ {other}, other ∉ s.unwritten →
        (other ∈ (w.complete n).unwritten ↔ other ∈ s.unwritten ∧ other ∉ i.writes) := fun hc =>
      ⟨fun hm => absurd (hw.fewer _ hm) hc, fun hm => absurd hm.1 hc⟩
    by_cases hd : cell = .db
    · exact hd ▸ written hdb
    · by_cases hp : cell = .pc
      · exact hp ▸ written hpc
      · exact hw.marks cell hd hp

/-! ### The boundary invariant -/

/-- What holds of a running core all through a step: the part of the boundary invariant that is not the driver's. -/
structure State.Running (s : State) : Prop where
  devices  : devicesWf s.devices = true
  reserved : s.p.r = true
  noBreak  : Cell.b ∉ s.unwritten → s.p.b = false
  latches  : s.fault = .none ∧ s.jammed = false ∧ s.nmiAgain = false
  started  : Cell.pc ∉ s.unwritten

/-- A running core stays one, whatever cells it writes. -/
theorem State.Running.writes {cells : List Cell} {s t : State} (h : s.Running) (hw : State.Writes cells s t) :
    t.Running := by
  obtain ⟨hf, hj, hn⟩ := h.latches
  obtain ⟨tf, tj, tn⟩ := hw.latches
  exact ⟨hw.devices h.devices, hw.reserved h.reserved, hw.noBreak h.noBreak, ⟨tf.trans hf, tj.trans hj, tn.trans hn⟩,
    fun hc => h.started (hw.fewer _ hc)⟩

/-- Completion takes a running core to the boundary. -/
theorem State.Running.complete {s : State} (h : s.Running) (n : Nat) : (s.complete n).BoundaryInv := by
  obtain ⟨hf, hj, hn⟩ := h.latches
  exact ⟨h.devices, h.reserved, h.noBreak, fun _ => ⟨rfl, rfl, rfl⟩, fun hc => (nomatch hj.symm.trans hc),
    ⟨rfl, rfl, rfl, hn⟩, hf, h.started⟩

theorem boundaryInv_running {s : State} (h : s.BoundaryInv) (hj : s.jammed = false) : s.force.Running := by
  obtain ⟨-, -, -, hn⟩ := h.counters
  obtain ⟨hf, hpc⟩ := h.running
  exact ⟨h.devices, rfl, h.noBreak, ⟨hf, hj, hn⟩, hpc⟩

/-- An interrupt entry pushes its frame, reads its vector, and commits (R412). -/
theorem enterInterrupt_ok {s t : State} {k : Interrupt} (h : s.enterInterrupt k = .ok t) :
    ∃ target u, State.Writes [.sp] s.beginEntry u ∧ t = (u.commitEntry k target).complete 7 := by
  obtain ⟨⟨target, u⟩, he, h⟩ := bind_ok h
  cases h
  exact ⟨target, u, (frame_writes s.beginEntry _ _).trans (readVector_writes (State.takeException_ok he).2.1), rfl⟩

/-- An interrupt entry ends at the boundary. -/
theorem enterInterrupt_keeps {s t : State} {k : Interrupt} (hs : s.Running) (h : s.enterInterrupt k = .ok t) :
    t.BoundaryInv := by
  obtain ⟨target, u, hw, rfl⟩ := enterInterrupt_ok h
  have began : s.beginEntry.Running := { hs with latches := ⟨hs.latches.1, hs.latches.2.1, rfl⟩ }
  have hc : ((u.setI true).setPc target).Running :=
    (began.writes hw).writes ((setI_commits u true).trans (setPc_commits _ target)).writes
  have committed : (u.commitEntry k target).Running := { hc with latches := ⟨hc.latches.1, hc.latches.2.1, rfl⟩ }
  exact committed.complete 7

/-- A fetched byte: DB is written from then on, and the counters and the interrupt in entry stay. -/
theorem fetchByte_effect {s t : State} {v : Byte} (h : s.fetchByte = .ok (v, t)) :
    State.Writes [] s t ∧ Cell.db ∉ t.unwritten ∧ t.p = s.p ∧ t.amCycle = s.amCycle ∧ t.opCycle = s.opCycle ∧
      t.entering = s.entering := by
  obtain ⟨u, hr, rfl⟩ := State.fetchByte_ok h
  obtain ⟨hu, -, -, -, hw⟩ := State.busRead_ok hr
  refine ⟨(busRead_writes hr).trans (setPc_commits u _).writes, by simp [hw], ?_⟩
  rw [hu]
  exact ⟨rfl, rfl, rfl, rfl⟩

/-- The opcode fetch writes opc beside, and clears the counters. -/
theorem fetchOpcode_effect {s t : State} {v : Byte} (h : s.fetchOpcode = .ok (v, t)) :
    State.Writes [.opc] s t ∧ Cell.db ∉ t.unwritten ∧ t.p = s.p ∧ t.amCycle = 0 ∧ t.opCycle = 0 ∧
      t.entering = s.entering := by
  obtain ⟨u, hf, rfl⟩ := State.fetchOpcode_ok h
  obtain ⟨hw, hdb, hp, -, -, he⟩ := fetchByte_effect hf
  have h0 : State.Writes [] s { s with pc0 := s.pc } := .of_marks (by simp [without]) rfl rfl rfl (by simp) ⟨rfl, rfl, rfl⟩
  have h1 : State.Writes [.opc] u { u.wrote [.opc] with opc := v, amCycle := 0, opCycle := 0, amip := true } :=
    .of_marks rfl rfl rfl rfl (by simp) ⟨rfl, rfl, rfl⟩
  exact ⟨(h0.trans hw).trans h1, fun hc => hdb (mem_wrote.1 hc).1, hp, rfl, rfl, he⟩

/-- The whole fetch: opc's mark cleared, DB written, P and the interrupt in entry kept, the counters cleared. -/
theorem fetchInstr_effect {s t : State} {o : Option Instr} (h : s.fetchInstr = .ok (o, t)) :
    State.Writes [.opc] s t ∧ Cell.db ∉ t.unwritten ∧ t.p = s.p ∧ t.amCycle = 0 ∧ t.opCycle = 0 ∧
      t.entering = s.entering := by
  obtain ⟨opcode, u, ho, h⟩ := State.fetchInstr_ok h
  obtain ⟨hw, hdb, hp, ham, hop, he⟩ := fetchOpcode_effect ho
  obtain ⟨b1, b2, -, hcase⟩ := State.fetchOperands_ok h
  have one : ∀ {b : Byte} {x y : State}, State.Writes [.opc] s x ∧ x.p = s.p ∧ x.amCycle = 0 ∧ x.opCycle = 0 ∧
      x.entering = s.entering → x.fetchByte = .ok (b, y) → State.Writes [.opc] s y ∧ Cell.db ∉ y.unwritten ∧
        y.p = s.p ∧ y.amCycle = 0 ∧ y.opCycle = 0 ∧ y.entering = s.entering := by
    rintro b x y ⟨xw, xp, xa, xo, xe⟩ hb
    obtain ⟨yw, ydb, yp, ya, yo, ye⟩ := fetchByte_effect hb
    exact ⟨xw.trans yw, ydb, yp.trans xp, ya.trans xa, yo.trans xo, ye.trans xe⟩
  rcases hcase with ⟨-, rfl⟩ | ⟨v, -, h1, rfl⟩ | ⟨v, w, -, -, h1, -, rfl⟩ | ⟨v, -, -, h1, h2⟩
  · exact ⟨hw, hdb, hp, ham, hop, he⟩
  · exact one ⟨hw, hp, ham, hop, he⟩ h1
  · exact one ⟨hw, hp, ham, hop, he⟩ h1
  · obtain ⟨vw, -, hv⟩ := one ⟨hw, hp, ham, hop, he⟩ h1
    exact one ⟨vw, hv⟩ h2

/-- The execution of a fetched instruction ends at the boundary. -/
theorem exec_keeps {i : Instr} {s t : State} (hs : s.Running) (hdb : Cell.db ∉ s.unwritten)
    (hc : s.amCycle = 0 ∧ s.opCycle = 0 ∧ s.entering = none) (h : exec i s = .next t) : t.BoundaryInv := by
  cases hj : i.isJam with
  | true =>
    obtain ⟨opcode, rfl⟩ := isJam_iff.1 hj
    obtain ⟨hf, -, hn⟩ := hs.latches
    obtain ⟨ha, ho, he⟩ := hc
    cases h
    exact ⟨hs.devices, hs.reserved, hs.noBreak, nofun, fun _ => ⟨rfl, rfl⟩, ⟨ha, ho, he, hn⟩, hf, hs.started⟩
  | false =>
    obtain ⟨w, n, rfl, hw⟩ := exec_completesAs hj hdb h
    exact (hs.writes hw).complete n

/-- Settles O9: an interrupt entry and the execution of a fetched instruction both end at the boundary. -/
theorem stepKeepsBoundaryInv : Obligations.StepKeepsBoundaryInv := by
  unfold Obligations.StepKeepsBoundaryInv
  intro s t hs h
  obtain ⟨-, -, hj, -, ⟨k, -, hk⟩ | ⟨-, i, u, hf, hx⟩⟩ := step_cases h
  · exact enterInterrupt_keeps (boundaryInv_running hs hj) hk
  · obtain ⟨hw, hdb, -, ham, hop, he⟩ := fetchInstr_effect hf
    obtain ⟨-, -, hen, -⟩ := hs.counters
    exact exec_keeps ((boundaryInv_running hs hj).writes hw) hdb ⟨ham, hop, he.trans hen⟩ hx

/-- Settles O8: each clause, of the default platform's state. -/
theorem resetMeetsBoundaryInv : Obligations.ResetMeetsBoundaryInv := by
  unfold Obligations.ResetMeetsBoundaryInv
  exact {
    devices := by decide
    reserved := rfl
    noBreak := fun _ => rfl
    idle := fun _ => ⟨rfl, rfl, rfl⟩
    jam := nofun
    counters := ⟨rfl, rfl, rfl, rfl⟩
    running := ⟨rfl, by decide⟩ }

end Sys2Proof.Machine
end

section
/-! PROOFS. When the core has a step or a clock, and the forcing of R and I before either. -/

namespace Sys2Proof.Machine

/-! ### Refusals -/

theorem step_before_reset {s : State} (h : Cell.pc ∈ s.unwritten) : step s = .refused .clockBeforeReset := by
  simp [step, h]

theorem clock_before_reset {s : State} (h : Cell.pc ∈ s.unwritten) : clock s = .refused .clockBeforeReset := by
  simp [clock, h]

theorem step_of_faulted {s : State} (hpc : Cell.pc ∉ s.unwritten) (hf : s.fault ≠ .none) :
    step s = .refused (.faulted s.fault) := by
  simp [step, hpc, hf]

theorem clock_of_faulted {s : State} (hpc : Cell.pc ∉ s.unwritten) (hf : s.fault ≠ .none) :
    clock s = .refused (.faulted s.fault) := by
  simp [clock, hpc, hf]

/-- A faulted core has neither a step nor a clock, whether or not `RES()` has happened (R404, R503). -/
theorem refused_of_faulted {s : State} (hf : s.fault ≠ .none) :
    (∃ r, step s = .refused r) ∧ ∃ r, clock s = .refused r := by
  by_cases hpc : Cell.pc ∈ s.unwritten
  · exact ⟨⟨_, step_before_reset hpc⟩, _, clock_before_reset hpc⟩
  · exact ⟨⟨_, step_of_faulted hpc hf⟩, _, clock_of_faulted hpc hf⟩

/-- Settles O6: the tests of `step` and `clock` in their order. -/
theorem coreWithoutInstructionStep : Obligations.CoreWithoutInstructionStep := by
  unfold Obligations.CoreWithoutInstructionStep
  intro s
  refine ⟨fun hpc => ⟨step_before_reset hpc, clock_before_reset hpc⟩,
    fun hpc hf => ⟨step_of_faulted hpc hf, clock_of_faulted hpc hf⟩,
    fun hpc hf hj => ⟨?_, clock_of_jammed hpc hf hj⟩, fun hpc hf hj hi => ?_⟩
  · simp [step, hpc, hf, hj]
  · simp [step, hpc, hf, hj, hi]

/-! ### R after an operation of the cycle level -/

/-- Every read-class operation writes registers and flags only. -/
theorem readOp_commits {mnemonic : Mnemonic} {op : Byte → State → Except Fault State}
    (h : readOp mnemonic = some op) : ∃ cells, ∀ v, CommitsOnly cells (op v) := by
  unfold readOp at h
  split at h <;> cases h
  · exact ⟨_, ldaOp_commits⟩
  · exact ⟨_, ldxOp_commits⟩
  · exact ⟨_, ldyOp_commits⟩
  · exact ⟨_, adcOp_commits⟩
  · exact ⟨_, sbcOp_commits⟩
  · exact ⟨_, sbcOp_commits⟩
  · exact ⟨_, andOp_commits⟩
  · exact ⟨_, oraOp_commits⟩
  · exact ⟨_, eorOp_commits⟩
  · exact ⟨_, bitOp_commits⟩
  · exact ⟨_, cmpOp_commits⟩
  · exact ⟨_, cpxOp_commits⟩
  · exact ⟨_, cpyOp_commits⟩
  · exact ⟨_, nopReadOp_commits⟩
  · exact ⟨_, laxOp_commits⟩
  · exact ⟨_, ancOp_commits⟩
  · exact ⟨_, alrOp_commits⟩
  · exact ⟨_, arrOp_commits⟩
  · exact ⟨_, sbxOp_commits⟩
  · exact ⟨_, unstableOp_commits⟩
  · exact ⟨_, unstableOp_commits⟩
  · exact ⟨_, unstableOp_commits⟩

/-- Every read-modify-write operation makes one write, and writes registers and flags. -/
theorem rmwOp_writesBack {mnemonic : Mnemonic} {op : Word → Byte → State → Except Fault State}
    (h : rmwOp mnemonic = some op) : ∃ cells result, WritesBack cells result op := by
  unfold rmwOp at h
  split at h <;> cases h
  · exact ⟨_, _, shiftMem_writesBack aslByte⟩
  · exact ⟨_, _, shiftMem_writesBack lsrByte⟩
  · exact ⟨_, _, rotateMem_writesBack rolByte⟩
  · exact ⟨_, _, rotateMem_writesBack rorByte⟩
  · exact ⟨_, _, incOp_writesBack⟩
  · exact ⟨_, _, decOp_writesBack⟩
  · exact ⟨_, _, sloOp_writesBack⟩
  · exact ⟨_, _, rlaOp_writesBack⟩
  · exact ⟨_, _, sreOp_writesBack⟩
  · exact ⟨_, _, rraOp_writesBack⟩
  · exact ⟨_, _, dcpOp_writesBack⟩
  · exact ⟨_, _, iscOp_writesBack⟩

theorem CommitsOnly.writes {cells : List Cell} {op : State → Except Fault State} (h : CommitsOnly cells op) :
    ∃ cells, ∀ s t, op s = .ok t → State.Writes cells s t :=
  ⟨cells, fun s t hop => (h s t hop).writes⟩

/-- Every implied operation writes registers and flags, the pushes and pulls the stack beside. -/
theorem impliedOp_writes {mnemonic : Mnemonic} {op : State → Except Fault State} (h : impliedOp mnemonic = some op) :
    ∃ cells, ∀ s t, op s = .ok t → State.Writes cells s t := by
  unfold impliedOp at h
  split at h <;> cases h
  · exact taxOp_commits.writes
  · exact tayOp_commits.writes
  · exact txaOp_commits.writes
  · exact tyaOp_commits.writes
  · exact tsxOp_commits.writes
  · exact txsOp_commits.writes
  · exact inxOp_commits.writes
  · exact inyOp_commits.writes
  · exact dexOp_commits.writes
  · exact deyOp_commits.writes
  · exact (shiftAcc_commits aslByte).writes
  · exact (shiftAcc_commits lsrByte).writes
  · exact (rotateAcc_commits rolByte).writes
  · exact (rotateAcc_commits rorByte).writes
  · exact clcOp_commits.writes
  · exact secOp_commits.writes
  · exact cliOp_commits.writes
  · exact seiOp_commits.writes
  · exact cldOp_commits.writes
  · exact sedOp_commits.writes
  · exact clvOp_commits.writes
  · exact nopOp_commits.writes
  · exact ⟨_, fun _ _ => phaOp_writes⟩
  · exact ⟨_, fun _ _ => phpOp_writes⟩
  · exact ⟨_, fun _ _ => plaOp_writes⟩
  · exact ⟨_, fun _ _ => plpOp_writes⟩

theorem readAndOperate_reserved {s : State} {ea : Word} {op : Byte → State → Except Fault State} {r : Progress}
    {cells : List Cell} (hop : ∀ v, CommitsOnly cells (op v)) (h : s.readAndOperate ea op = .ok r)
    (hs : s.p.r = true) : r.state.p.r = true := by
  obtain ⟨⟨v, t⟩, hr, h⟩ := bind_ok h
  obtain ⟨w, hw, h⟩ := bind_ok h
  cases h
  exact (hop v t w hw).writes.reserved ((busRead_writes hr).reserved hs)

theorem commitVector_reserved {s : State} (target : Word) (hs : s.p.r = true) :
    (s.commitVector target).p.r = true := by
  unfold State.commitVector
  cases s.entering <;> exact hs

/-- No clock of an instruction in flight clears R. -/
theorem MicroOp.run_reserved {m : MicroOp} {o : Operation} {s : State} {r : Progress}
    (h : m.run o s = some (.ok r)) (hs : s.p.r = true) : r.state.p.r = true := by
  cases m with
  | internal | pushPcHigh | pushPcLow | pushBrkHigh | pushBrkLow | branchFixup | returnSubroutine =>
    cases h
    exact hs
  | operandLow | operandHigh | jumpAbsolute =>
    obtain ⟨⟨b, u⟩, hf, h⟩ := bind_ok (Option.some.inj h)
    cases h
    exact (fetchByte_effect hf).1.reserved hs
  | pointerHigh | indirectLow | jumpIndirect | jumpSubroutine | vectorLow =>
    obtain ⟨⟨b, u⟩, hr, h⟩ := bind_ok (Option.some.inj h)
    cases h
    exact (busRead_writes hr).reserved hs
  | vectorHigh =>
    obtain ⟨⟨b, u⟩, hr, h⟩ := bind_ok (Option.some.inj h)
    cases h
    exact commitVector_reserved _ ((busRead_writes hr).reserved hs)
  | pullLow | pullHigh | pullStatus =>
    obtain ⟨⟨b, u⟩, hp, h⟩ := bind_ok (Option.some.inj h)
    cases h
    exact (pull_writes hp).reserved hs
  | returnInterrupt =>
    obtain ⟨⟨b, u⟩, hp, h⟩ := bind_ok (Option.some.inj h)
    cases h
    rfl
  | pointerLow =>
    obtain ⟨p, -, h⟩ := bind_ok (Option.some.inj h)
    obtain ⟨⟨b, u⟩, hr, h⟩ := bind_ok h
    cases h
    exact (busRead_writes hr).reserved hs
  | latchOperand =>
    obtain ⟨q, -, h⟩ := bind_ok (Option.some.inj h)
    obtain ⟨⟨b, u⟩, hr, h⟩ := bind_ok h
    cases h
    exact (busRead_writes hr).reserved hs
  | pushStatusBrk | pushStatusInterrupt =>
    obtain ⟨_, -, h⟩ := bind_ok (Option.some.inj h)
    cases h
    exact hs
  | readImmediate =>
    obtain ⟨op, ho, h⟩ := Option.map_eq_some_iff.1 h
    obtain ⟨cells, hop⟩ := readOp_commits ho
    obtain ⟨⟨v, u⟩, hf, h⟩ := bind_ok h
    obtain ⟨w, hw, h⟩ := bind_ok h
    cases h
    exact (hop v u w hw).writes.reserved ((fetchByte_effect hf).1.reserved hs)
  | readOperand =>
    obtain ⟨op, ho, h⟩ := Option.map_eq_some_iff.1 h
    obtain ⟨cells, hop⟩ := readOp_commits ho
    obtain ⟨q, -, h⟩ := bind_ok h
    exact readAndOperate_reserved hop h hs
  | readUnlessCrossed =>
    obtain ⟨op, ho, h⟩ := Option.map_eq_some_iff.1 h
    obtain ⟨cells, hop⟩ := readOp_commits ho
    obtain ⟨q, -, h⟩ := bind_ok h
    split at h
    · cases h
      exact hs
    · exact readAndOperate_reserved hop h hs
  | store =>
    obtain ⟨value, -, h⟩ := Option.map_eq_some_iff.1 h
    obtain ⟨q, -, h⟩ := bind_ok h
    obtain ⟨v, -, h⟩ := bind_ok h
    cases h
    exact hs
  | modify =>
    obtain ⟨op, ho, h⟩ := Option.map_eq_some_iff.1 h
    obtain ⟨cells, result, hop⟩ := rmwOp_writesBack ho
    obtain ⟨q, -, h⟩ := bind_ok h
    obtain ⟨w, hw, h⟩ := bind_ok h
    cases h
    exact (hop.writes hw).reserved hs
  | implied =>
    obtain ⟨op, ho, h⟩ := Option.map_eq_some_iff.1 h
    obtain ⟨cells, hop⟩ := impliedOp_writes ho
    obtain ⟨w, hw, h⟩ := bind_ok h
    cases h
    exact (hop s w hw).reserved hs
  | branchOffset =>
    obtain ⟨b, -, h⟩ := Option.map_eq_some_iff.1 h
    obtain ⟨⟨off, u⟩, hf, h⟩ := bind_ok h
    obtain ⟨_, -, h⟩ := bind_ok h
    have hu := (fetchByte_effect hf).1.reserved hs
    split at h <;> cases h <;> exact hu
  | branchTaken =>
    obtain ⟨b, -, h⟩ := Option.map_eq_some_iff.1 h
    dsimp only at h
    split at h <;> cases h <;> exact hs

/-! ### Every step and every clock begins by forcing R and I -/

/-- Everything a clock with a next state can be: a jammed core's, the first of an interrupt entry or of an instruction, or
a later one, each in the state with R and I forced. -/
theorem clock_cases {s t : State} (h : clock s = .next t) :
    (s.jammed = true ∧ t = s.force) ∨
      (s.jammed = false ∧ s.idle = true ∧
        ((∃ k, t = s.force.firstInterruptClock k) ∨ s.force.firstClock = .ok t)) ∨
      (s.jammed = false ∧ s.idle = false ∧ s.force.laterClock = .next t) := by
  unfold clock at h
  split at h
  · cases h
  split at h
  · cases h
  split at h
  · rename_i hj
    cases h
    exact .inl ⟨hj, rfl⟩
  rename_i hj
  rw [Bool.not_eq_true] at hj
  split at h
  · rename_i hi
    refine .inr (.inl ⟨hj, hi, ?_⟩)
    split at h
    · rename_i k _
      cases h
      exact .inl ⟨k, rfl⟩
    · exact .inr (finish_next.1 h)
  · rename_i hi
    exact .inr (.inr ⟨hj, by simpa using hi, h⟩)

/-- The fetch clock leaves P alone. -/
theorem firstClock_status {s t : State} (h : s.firstClock = .ok t) : t.p = s.p := by
  obtain ⟨⟨opcode, u⟩, hf, h⟩ := bind_ok h
  have hp : u.p = s.p := (fetchOpcode_effect hf).2.2.1
  dsimp only at h
  split at h <;> cases h <;> exact hp

theorem laterClock_reserved {s t : State} (h : s.laterClock = .next t) (hs : s.p.r = true) : t.p.r = true := by
  unfold State.laterClock at h
  dsimp only at h
  split at h
  · cases h
  · cases h
  · rename_i r hr
    obtain ⟨m, -, hm⟩ := Option.bind_eq_some_iff.1 hr
    have hp := MicroOp.run_reserved hm hs
    split at h <;> cases h <;> exact hp

theorem clock_reserved {s t : State} (h : clock s = .next t) : t.p.r = true := by
  obtain ⟨-, rfl⟩ | ⟨-, -, ⟨k, rfl⟩ | hf⟩ | ⟨-, -, hl⟩ := clock_cases h
  · rfl
  · rfl
  · rw [firstClock_status hf]; rfl
  · exact laterClock_reserved hl rfl

theorem exec_reserved {i : Instr} {s t : State} (hdb : Cell.db ∉ s.unwritten) (h : exec i s = .next t)
    (hs : s.p.r = true) : t.p.r = true := by
  cases hj : i.isJam with
  | true =>
    obtain ⟨opcode, rfl⟩ := isJam_iff.1 hj
    cases h
    exact hs
  | false =>
    obtain ⟨w, n, rfl, hw⟩ := exec_completesAs hj hdb h
    exact hw.reserved hs

theorem step_reserved {s t : State} (h : step s = .next t) : t.p.r = true := by
  obtain ⟨-, -, -, -, ⟨k, -, hk⟩ | ⟨-, i, u, hf, hx⟩⟩ := step_cases h
  · obtain ⟨target, u, hw, rfl⟩ := enterInterrupt_ok hk
    exact hw.reserved rfl
  · obtain ⟨hw, hdb, -⟩ := fetchInstr_effect hf
    exact exec_reserved hdb hx (hw.reserved rfl)

/-- Settles O7: `step` and `clock` test no flag before they force R and I; R survives every operation after that, and
the first clock of an instruction or an interrupt entry, like a jammed core's, leaves P as forced. -/
theorem forcingComesFirst : Obligations.ForcingComesFirst := by
  unfold Obligations.ForcingComesFirst
  intro s
  refine ⟨rfl, rfl, fun t => step_reserved, fun t => clock_reserved, fun t hs h => ?_⟩
  obtain ⟨-, rfl⟩ | ⟨-, -, ⟨k, rfl⟩ | hf⟩ | ⟨hj, hi, -⟩ := clock_cases h
  · rfl
  · rfl
  · rw [firstClock_status hf]; rfl
  · rw [hj, hi] at hs
    simp at hs

end Sys2Proof.Machine
end

section
/-! PROOFS. The packed status, the stack instructions and RTI. -/

namespace Sys2Proof.Machine

/-! ### The packed status -/

/-- Settles O25: over the eight flags, and over the bytes. -/
theorem packAndUnpack : Obligations.PackAndUnpack := by
  unfold Obligations.PackAndUnpack
  refine ⟨?_, ?_, by decide⟩
  · rintro ⟨n, v, r, b, d, i, z, c⟩
    revert n v r b d i z c
    decide
  · rintro ⟨n, v, r, b, d, i, z, c⟩
    revert n v r b d i z c
    decide

/-- What PHP pushes is P with B and R set (R291). -/
theorem Status.packPhp_eq (p : Status) : p.packPhp = { p with b := true, r := true }.pack := by
  obtain ⟨n, v, r, b, d, i, z, c⟩ := p
  revert n v r b d i z c
  decide

/-! ### Pushes -/

theorem phaOp_of_written {s : State} (h : Cell.a ∉ s.unwritten) : phaOp s = .ok (s.push s.a) := by
  simp [phaOp, readA_of_written h]

theorem phpOp_of_written {s : State} (h : ∀ cell ∈ statusCells, cell ∉ s.unwritten) :
    phpOp s = .ok (s.push s.p.packPhp) := by
  simp [phpOp, needStatus_of_written h]

/-- An instruction that is one push. -/
theorem LeadsTo.push {op : State → Except Fault State} {s : State} {v : Byte} (h : op s = .ok (s.push v)) :
    LeadsTo (impliedInstr op s) s { s with sp := s.sp - 1 } [(stackAddr s.sp, v)] :=
  .pushes h ((State.Agrees.refl s).push v) (List.pairwise_singleton _ _)

/-- Settles O44: both instructions are one push, of A and of P with B and R set. -/
theorem pushResults : Obligations.PushResults := by
  unfold Obligations.PushResults
  intro s
  refine ⟨stackAddr_toNat s.sp, fun h => ?_, fun h => ?_⟩
  · exact .push (op := phaOp) (phaOp_of_written (h.written .a (by simp [Instr.reads])))
  · rw [← Status.packPhp_eq]
    exact .push (op := phpOp) (phpOp_of_written fun cell hc => h.written cell (List.mem_cons_of_mem _ hc))

/-! ### Pulls -/

/-- A pull leaves DB written, the devices alone, and SP one higher. -/
theorem pull_effect {s t : State} {v : Byte} (h : s.pull = .ok (v, t)) :
    Cell.db ∉ t.unwritten ∧ t.sp = s.sp + 1 ∧ ∀ a, t.peek a = s.peek a := by
  obtain ⟨ht, hsp, -, hu⟩ := State.pull_spec h
  exact ⟨by simp [hu], hsp, State.peek_congr (by rw [ht]; rfl)⟩

/-- Where a plain RAM owns the stack byte, it is the byte pulled. -/
theorem pull_eq_of_peek {s t : State} {v b : Byte} (h : s.pull = .ok (v, t))
    (hb : s.peek (stackAddr (s.sp + 1)) = some b) : v = b := by
  obtain ⟨u, hu⟩ := State.pull_of_peek hb
  rw [hu] at h
  cases h
  rfl

theorem returnFromInterrupt_of_pulls {s t u v : State} {q l h : Byte} (h1 : s.pull = .ok (q, t))
    (h2 : t.pull = .ok (l, u)) (h3 : u.pull = .ok (h, v)) :
    s.returnFromInterrupt = .ok ((v.setStatus (Status.restore q)).setPc (wordOf h l)) := by
  simp [State.returnFromInterrupt, h1, h2, h3]

/-- Settles O42: three pulls, the status restored, and PC from the last two bytes. -/
theorem interruptReturnResults : Obligations.InterruptReturnResults := by
  unfold Obligations.InterruptReturnResults
  intro s hc
  obtain ⟨q, t, h1⟩ := State.pull_completes (hc.written .db (by simp))
  obtain ⟨tdb, tsp, tpeek⟩ := pull_effect h1
  obtain ⟨l, u, h2⟩ := State.pull_completes tdb
  obtain ⟨udb, usp, upeek⟩ := pull_effect h2
  obtain ⟨h, v, h3⟩ := State.pull_completes udb
  have two : s.sp + 1 + 1 = s.sp + 2 := by rw [BitVec.add_assoc]; rfl
  have three : s.sp + 2 + 1 = s.sp + 3 := by rw [BitVec.add_assoc]; rfl
  refine ⟨q, l, h, t, u, v, h1, h2, h3, ?_, fun b => pull_eq_of_peek h1, fun b hb => ?_, fun b hb => ?_⟩
  · refine .implied (op := State.returnFromInterrupt) (returnFromInterrupt_of_pulls h1 h2 h3) ?_
    have pulled := (((State.Agrees.refl s).pull h1).pull h2).pull h3
    dsimp only at pulled
    rw [two, three] at pulled
    exact (pulled.setStatus (Status.restore q)).setPc (wordOf h l)
  · exact pull_eq_of_peek h2 (by rw [tpeek, tsp, two, hb])
  · exact pull_eq_of_peek h3 (by rw [upeek, tpeek, usp, tsp, two, three, hb])

end Sys2Proof.Machine
end

section
/-! PROOFS. The bus keeps what the last access of an instruction left (R54, R84, R90). -/

namespace Sys2Proof.Machine

/-! ### The skeletons -/

theorem readInstr_bus {o : ReadOperand} {op : Byte → State → Except Fault State} {cells : List Cell} {s t u : State}
    {v : Byte} {crossed : Bool} (hop : ∀ v, CommitsOnly cells (op v)) (ha : accessOperand o s = .ok (v, crossed, t))
    (h : readInstr o op s = .next u) : u.BusAs t := by
  obtain ⟨v', crossed', t', w, ha', hw, rfl⟩ := readInstr_ok h
  rw [ha] at ha'
  cases ha'
  exact (hop v t w hw).bus

theorem readInstr_mem_bus {m : MemMode} {op : Byte → State → Except Fault State} {cells : List Cell} {s t u : State}
    {r : Resolved} {v : Byte} (hop : ∀ v, CommitsOnly cells (op v)) (ha : accessMem m s = .ok (r, v, t))
    (h : readInstr (.mem m) op s = .next u) : u.BusAs t :=
  readInstr_bus (v := v) (crossed := r.crossed) hop (by simp [accessOperand, ha]) h

theorem readInstr_imm_bus {op : Byte → State → Except Fault State} {cells : List Cell} {s u : State} {v : Byte}
    (hop : ∀ v, CommitsOnly cells (op v)) (h : readInstr (.imm v) op s = .next u) : u.BusAs s :=
  readInstr_bus (o := .imm v) hop rfl h

/-- The read of M leaves M in DB, RW at read, and P alone. -/
theorem accessMem_effect {m : MemMode} {s t : State} {r : Resolved} {v : Byte} (h : accessMem m s = .ok (r, v, t)) :
    t.db = v ∧ t.rw = true ∧ t.p = s.p := by
  obtain ⟨⟨r, u⟩, hr, h⟩ := bind_ok h
  obtain ⟨⟨b, w⟩, hb, h⟩ := bind_ok h
  cases h
  obtain ⟨-, -, hrw, hdb, -⟩ := State.busRead_ok hb
  obtain ⟨-, -, -, -, -, hp, -⟩ := ((resolve_agrees hr).busRead hb).fields
  exact ⟨hdb, hrw, hp⟩

theorem rmwInstr_bus {m : MemMode} {op : Word → Byte → State → Except Fault State} {cells : List Cell}
    {result : Byte → Bool → Byte} {s t u : State} {r : Resolved} {v w : Byte} (hop : WritesBack cells result op)
    (ha : accessMem m s = .ok (r, v, t)) (hw : w = result v s.p.c) (h : rmwInstr m op s = .next u) :
    u.BusAs (t.busWrite r.ea w) := by
  obtain ⟨r', v', t', x, ha', hx, rfl⟩ := rmwInstr_ok h
  rw [ha] at ha'
  cases ha'
  obtain ⟨-, -, hp⟩ := accessMem_effect ha
  rw [hw, ← hp]
  exact (hop r.ea v t x hx).bus

theorem writeInstr_bus {m : MemMode} {value : State → Except Fault Byte} {s t u : State} {r : Resolved} {v : Byte}
    (hr : resolve m s = .ok (r, t)) (hv : ∀ w, value t = .ok w → w = v) (h : writeInstr m value s = .next u) :
    u.BusAs (t.busWrite r.ea v) := by
  obtain ⟨r', t', w, hr', hw, rfl⟩ := writeInstr_ok h
  rw [hr] at hr'
  cases hr'
  rw [hv w hw]
  exact .refl _

/-- An implied instruction leaves the bus as its operation does. -/
theorem impliedInstr_bus {op : State → Except Fault State} {s t u : State}
    (hop : ∀ w, op s = .ok w → w.BusAs t) (h : impliedInstr op s = .next u) : u.BusAs t := by
  obtain ⟨w, hw, rfl⟩ := impliedInstr_ok h
  exact hop w hw

theorem registerInstr_bus {op : State → Except Fault State} {cells : List Cell} {s u : State}
    (hop : CommitsOnly cells op) (h : impliedInstr op s = .next u) : u.BusAs s :=
  impliedInstr_bus (fun w hw => (hop s w hw).bus) h

theorem branchInstr_bus {cell : Cell} {flag : Status → Bool} {want : Bool} {penalty : Config.BranchPagePenalty → Bool}
    {off : Byte} {s u : State} (h : branchInstr cell flag want penalty off s = .next u) : u.BusAs s := by
  obtain ⟨w, n, rfl, hw⟩ := branchInstr_ok h
  exact hw.bus

/-! ### The instructions, by their last access -/

/-- The bus after the instructions that read M or an immediate. -/
theorem read_bus {s t u : State} {o : ReadOperand} {v : Byte} {crossed : Bool}
    (ha : accessOperand o s = .ok (v, crossed, t)) :
    ∀ i ∈ [Instr.lda o, .ldx o, .ldy o, .adc o, .sbc o, .and o, .ora o, .eor o, .cmp o, .cpx o, .cpy o],
      exec i s = .next u → u.BusAs t := by
  simp only [List.forall_mem_cons]
  exact ⟨readInstr_bus ldaOp_commits ha, readInstr_bus ldxOp_commits ha, readInstr_bus ldyOp_commits ha,
    readInstr_bus adcOp_commits ha, readInstr_bus sbcOp_commits ha, readInstr_bus andOp_commits ha,
    readInstr_bus oraOp_commits ha, readInstr_bus eorOp_commits ha, readInstr_bus cmpOp_commits ha,
    readInstr_bus cpxOp_commits ha, readInstr_bus cpyOp_commits ha, List.forall_mem_nil _⟩

/-- The bus after the instructions that only read memory. -/
theorem readMem_bus {s t u : State} {m : MemMode} {r : Resolved} {v : Byte} (ha : accessMem m s = .ok (r, v, t))
    (opcode : Byte) : ∀ i ∈ [Instr.bit m, .lax m, .nop opcode (.mem m)], exec i s = .next u → u.BusAs t := by
  simp only [List.forall_mem_cons]
  exact ⟨readInstr_mem_bus bitOp_commits ha, readInstr_mem_bus laxOp_commits ha,
    readInstr_mem_bus nopReadOp_commits ha, List.forall_mem_nil _⟩

/-- The bus after the instructions that write M back. -/
theorem modify_bus {s t u : State} {m : MemMode} {r : Resolved} {v left right : Byte}
    (ha : accessMem m s = .ok (r, v, t)) (hl : left = (rolByte v s.p.c).1) (hr : right = (rorByte v s.p.c).1) :
    ∀ x ∈ [(Instr.inc m, v + 1), (.dec m, v - 1), (.asl (.mem m), v <<< 1), (.lsr (.mem m), v >>> 1),
        (.rol (.mem m), left), (.ror (.mem m), right), (.slo m, v <<< 1), (.rla m, left), (.sre m, v >>> 1),
        (.rra m, right), (.dcp m, v - 1), (.isc m, v + 1)],
      exec x.1 s = .next u → u.BusAs (t.busWrite r.ea x.2) := by
  simp only [List.forall_mem_cons]
  exact ⟨rmwInstr_bus incOp_writesBack ha rfl, rmwInstr_bus decOp_writesBack ha rfl,
    rmwInstr_bus (shiftMem_writesBack aslByte) ha rfl, rmwInstr_bus (shiftMem_writesBack lsrByte) ha rfl,
    rmwInstr_bus (rotateMem_writesBack rolByte) ha hl, rmwInstr_bus (rotateMem_writesBack rorByte) ha hr,
    rmwInstr_bus sloOp_writesBack ha rfl, rmwInstr_bus rlaOp_writesBack ha hl, rmwInstr_bus sreOp_writesBack ha rfl,
    rmwInstr_bus rraOp_writesBack ha hr, rmwInstr_bus dcpOp_writesBack ha rfl, rmwInstr_bus iscOp_writesBack ha rfl,
    List.forall_mem_nil _⟩

theorem saxValue_ok {s : State} {w : Byte} (h : saxValue s = .ok w) : w = s.a &&& s.x := by
  obtain ⟨a, ha, h⟩ := bind_ok h
  obtain ⟨x, hx, h⟩ := bind_ok h
  obtain ⟨-, rfl⟩ := readA_ok ha
  obtain ⟨-, rfl⟩ := readX_ok hx
  cases h
  rfl

/-- The bus after a store. -/
theorem store_bus {s t u : State} {m : MemMode} {r : Resolved} (hr : resolve m s = .ok (r, t)) :
    ∀ x ∈ [(Instr.sta m, s.a), (.stx m, s.x), (.sty m, s.y), (.sax m, s.a &&& s.x)],
      exec x.1 s = .next u → u.BusAs (t.busWrite r.ea x.2) := by
  obtain ⟨ha, hx, hy, -⟩ := (resolve_agrees hr).fields
  simp only [List.forall_mem_cons]
  exact ⟨writeInstr_bus hr fun w hw => (readA_ok hw).2.trans ha,
    writeInstr_bus hr fun w hw => (readX_ok hw).2.trans hx,
    writeInstr_bus hr fun w hw => (readY_ok hw).2.trans hy,
    writeInstr_bus hr fun w hw => (saxValue_ok hw).trans (by rw [ha, hx]), List.forall_mem_nil _⟩

/-- The bus after a pull. -/
theorem pull_bus {s t u : State} {v : Byte} (hp : s.pull = .ok (v, t)) :
    ∀ i ∈ [Instr.pla, .plp], exec i s = .next u → u.BusAs t := by
  have pla : ∀ w, plaOp s = .ok w → w.BusAs t := fun w hw => by
    obtain ⟨v', t', hp', hc⟩ := plaOp_ok hw
    rw [hp] at hp'
    cases hp'
    exact hc.bus
  have plp : ∀ w, plpOp s = .ok w → w.BusAs t := fun w hw => by
    obtain ⟨v', t', hp', hc⟩ := plpOp_ok hw
    rw [hp] at hp'
    cases hp'
    exact hc.bus
  simp only [List.forall_mem_cons]
  exact ⟨impliedInstr_bus pla, impliedInstr_bus plp, List.forall_mem_nil _⟩

theorem jsr_bus {s t u : State} {target : Word} {h : Byte}
    (hr : ((s.push (hiByte s.pc)).push (loByte s.pc)).busRead s.pc = .ok (h, t))
    (hx : exec (.jsr target) s = .next u) : u.BusAs t := by
  refine impliedInstr_bus (fun w hw => ?_) hx
  obtain ⟨h', t', hr', hc⟩ := jsrOp_ok hw
  rw [hr] at hr'
  cases hr'
  exact hc.bus

theorem rts_bus {s t v u : State} {l h : Byte} (h1 : s.pull = .ok (l, t)) (h2 : t.pull = .ok (h, v))
    (hx : exec .rts s = .next u) : u.BusAs v := by
  refine impliedInstr_bus (fun w hw => ?_) hx
  obtain ⟨l', t', h', v', h1', h2', hc⟩ := rtsOp_ok hw
  rw [h1] at h1'
  cases h1'
  rw [h2] at h2'
  cases h2'
  exact hc.bus

theorem rti_bus {s t v w u : State} {q l h : Byte} (h1 : s.pull = .ok (q, t)) (h2 : t.pull = .ok (l, v))
    (h3 : v.pull = .ok (h, w)) (hx : exec .rti s = .next u) : u.BusAs w := by
  refine impliedInstr_bus (fun x hr => ?_) hx
  rw [returnFromInterrupt_of_pulls h1 h2 h3] at hr
  cases hr
  exact .refl _

theorem readVector_of_reads {s t v : State} {vector : Word} {l h : Byte} (h1 : s.busRead vector = .ok (l, t))
    (h2 : t.busRead (vector + 1) = .ok (h, v)) : s.readVector vector = .ok (wordOf h l, v) :=
  bind_of_ok h1 (bind_of_ok h2 rfl)

theorem brk_bus {s t v u : State} {l h : Byte}
    (h1 : (s.frame (s.pc + 1) Status.packBrk).busRead brkVector = .ok (l, t))
    (h2 : t.busRead (brkVector + 1) = .ok (h, v)) (hx : exec .brk s = .next u) : u.BusAs v := by
  refine impliedInstr_bus (fun w hw => ?_) hx
  obtain ⟨target, v', hv, hc⟩ := brkOp_ok hw
  rw [readVector_of_reads h1 h2] at hv
  cases hv
  exact hc.bus

theorem jumpIndirect_bus {s t v u : State} {ptr : Word} {l h : Byte} (h1 : s.busRead ptr = .ok (l, t))
    (h2 : t.busRead (indirectHigh ptr) = .ok (h, v)) (hx : exec (.jmp (.ind ptr)) s = .next u) : u.BusAs v := by
  obtain ⟨target, v', n, hr, rfl⟩ := jumpIndirect_ok hx
  have hr' : s.readIndirect ptr = .ok (wordOf h l, v) := by simp [State.readIndirect, h1, h2]
  rw [hr'] at hr
  cases hr
  exact .refl _

/-- The bus after the transfers, the register increments and the accumulator shifts. -/
theorem register_bus {s u : State} :
    ∀ i ∈ [Instr.tax, .tay, .txa, .tya, .tsx, .txs, .inx, .iny, .dex, .dey, .asl .acc, .lsr .acc, .rol .acc,
      .ror .acc], exec i s = .next u → u.BusAs s := by
  simp only [List.forall_mem_cons]
  exact ⟨registerInstr_bus taxOp_commits, registerInstr_bus tayOp_commits, registerInstr_bus txaOp_commits,
    registerInstr_bus tyaOp_commits, registerInstr_bus tsxOp_commits, registerInstr_bus txsOp_commits,
    registerInstr_bus inxOp_commits, registerInstr_bus inyOp_commits, registerInstr_bus dexOp_commits,
    registerInstr_bus deyOp_commits, registerInstr_bus (shiftAcc_commits aslByte),
    registerInstr_bus (shiftAcc_commits lsrByte), registerInstr_bus (rotateAcc_commits rolByte),
    registerInstr_bus (rotateAcc_commits rorByte), List.forall_mem_nil _⟩

/-- The bus after the flag instructions. -/
theorem flag_bus {s u : State} :
    ∀ i ∈ [Instr.clc, .sec, .cli, .sei, .cld, .sed, .clv], exec i s = .next u → u.BusAs s := by
  simp only [List.forall_mem_cons]
  exact ⟨registerInstr_bus clcOp_commits, registerInstr_bus secOp_commits, registerInstr_bus cliOp_commits,
    registerInstr_bus seiOp_commits, registerInstr_bus cldOp_commits, registerInstr_bus sedOp_commits,
    registerInstr_bus clvOp_commits, List.forall_mem_nil _⟩

theorem jumpAbsolute_bus {s u : State} {target : Word} (h : exec (.jmp (.abs target)) s = .next u) : u.BusAs s := by
  cases h
  exact .refl s

/-- The bus after the branches and JMP ABS. -/
theorem branch_bus {s u : State} (off : Byte) (target : Word) :
    ∀ i ∈ [Instr.bcc off, .bcs off, .beq off, .bne off, .bmi off, .bpl off, .bvc off, .bvs off, .jmp (.abs target)],
      exec i s = .next u → u.BusAs s := by
  simp only [List.forall_mem_cons]
  exact ⟨branchInstr_bus, branchInstr_bus, branchInstr_bus, branchInstr_bus, branchInstr_bus, branchInstr_bus,
    branchInstr_bus, branchInstr_bus, jumpAbsolute_bus, List.forall_mem_nil _⟩

theorem jam_bus {s u : State} {opcode : Byte} (h : exec (.jam opcode) s = .next u) : u.BusAs s := by
  cases h
  exact .refl s

/-- The bus after the immediates, the implied NOP, and JAM. -/
theorem immediate_bus {s u : State} (opcode v : Byte) :
    ∀ i ∈ [Instr.nop opcode .implied, .nop opcode (.imm v), .anc opcode v, .alr v, .arr v, .usbc v, .sbx v,
      .jam opcode], exec i s = .next u → u.BusAs s := by
  simp only [List.forall_mem_cons]
  exact ⟨registerInstr_bus nopOp_commits, readInstr_imm_bus (v := v) nopReadOp_commits,
    readInstr_imm_bus ancOp_commits, readInstr_imm_bus alrOp_commits, readInstr_imm_bus arrOp_commits,
    readInstr_imm_bus sbcOp_commits, readInstr_imm_bus sbxOp_commits, jam_bus, List.forall_mem_nil _⟩

/-- Settles O29: each form by its skeleton, whose operation makes no access beyond those named. -/
theorem lastAccessStaysOnBus : Obligations.LastAccessStaysOnBus := by
  unfold Obligations.LastAccessStaysOnBus
  intro s u
  refine ⟨fun o v crossed t => read_bus, fun m r v t ha => ?_, fun m r t hr i w hi => store_bus hr (i, w) hi,
    fun h => ?_, fun h => ?_, fun v t => pull_bus, fun target h t => jsr_bus, fun l h t v => rts_bus,
    fun q l h t v w => rti_bus, fun l h t v => brk_bus, fun ptr l h t v => jumpIndirect_bus, register_bus, flag_bus,
    branch_bus, immediate_bus⟩
  · obtain ⟨hdb, hrw, -⟩ := accessMem_effect ha
    refine ⟨hdb, hrw, readMem_bus ha, fun left right hl hr i w hi => modify_bus ha ?_ ?_ (i, w) hi⟩
    · rw [hl, rolByte_eq]
    · rw [hr, rorByte_eq]
  · exact impliedInstr_bus (fun w hw => phaOp_ok hw ▸ .refl _) h
  · rw [← Status.packPhp_eq]
    exact impliedInstr_bus (fun w hw => phpOp_ok hw ▸ .refl _) h

end Sys2Proof.Machine
end

section
/-! PROOFS. The host's actions: `RES()` and construction. -/

namespace Sys2Proof.Machine

/-! ### `RES()` -/

/-- A bus read and the assignments of `RES()` before the vector read do not meet. -/
theorem busRead_resetCells {s t : State} {a : Word} {v : Byte} (h : s.busRead a = .ok (v, t)) :
    s.resetCells.busRead a = .ok (v, t.resetCells) := by
  cases ho : firstOwner s.devices a with
  | none =>
    unfold State.busRead at h ⊢
    simp only [State.driveRead_devices, show s.resetCells.devices = s.devices from rfl, ho] at h ⊢
    split at h
    · cases h
    · rename_i hdb
      cases h
      exact if_neg fun hc => hdb (by simpa [State.resetCells] using hc)
  | some d =>
    rw [State.busRead_of_owner ho] at h
    cases h
    rw [State.busRead_of_owner (s := s.resetCells) ho]
    simp only [State.resetCells, State.setSp, State.wrote, State.latch, State.driveRead]
    rw [List.filter_comm]

/-- `RES()` with a vector that the bus answers starts at the word read. -/
theorem res_of_reads {s t u : State} {l h : Byte} (h1 : s.busRead resetVector = .ok (l, t))
    (h2 : t.busRead (resetVector + 1) = .ok (h, u)) :
    s.res none = .ok (u.resetCells.startAt (wordOf h l)) :=
  bind_of_ok (readVector_of_reads (busRead_resetCells h1) (busRead_resetCells h2)) rfl

/-- `RES()` whose first vector read faults leaves the assignments before it. -/
theorem res_of_open_bus {s : State} (hdb : Cell.db ∈ s.unwritten) (ho : firstOwner s.devices resetVector = none) :
    s.res none = .error ((s.resetCells.driveRead resetVector).unwrittenRead .db) := by
  have hr : s.resetCells.busRead resetVector =
      .error ((s.resetCells.driveRead resetVector).unwrittenRead .db) := by
    unfold State.busRead
    simp only [State.driveRead_devices, show s.resetCells.devices = s.devices from rfl, ho]
    exact if_pos (by simpa [State.resetCells] using hdb)
  simp [State.res, State.readVector, hr]

/-- Whichever vector it takes, `RES()` starts at it from a state that the assignments before it and reads alone made. -/
theorem res_ok {s t : State} {vector : Option Word} (h : s.res vector = .ok t) :
    ∃ target u, t = u.startAt target ∧ u = s.resetCells.withBusOf u ∧
      ∀ cell, cell ≠ .db → (cell ∈ u.unwritten ↔ cell ∈ s.resetCells.unwritten) := by
  cases vector with
  | some target =>
    cases h
    exact ⟨target, s.resetCells, rfl, rfl, fun _ _ => .rfl⟩
  | none =>
    obtain ⟨⟨target, u⟩, hv, h⟩ := bind_ok h
    cases h
    obtain ⟨l, v, high, h1, h2, -⟩ := readVector_ok hv
    obtain ⟨hv, -, -, -, vw⟩ := State.busRead_ok h1
    obtain ⟨hu, -, -, -, uw⟩ := State.busRead_ok h2
    refine ⟨target, u, rfl, ?_, fun cell hc => by simp [uw, vw, hc]⟩
    rw [hu, hv]
    rfl

/-- `RES()` writes SP and PC. -/
theorem mem_startAt_unwritten {u : State} {target : Word} {cell : Cell} :
    cell ∈ (u.startAt target).unwritten ↔ cell ∈ u.unwritten ∧ cell ≠ .pc := by
  simp [State.startAt]

theorem mem_resetCells_unwritten {s : State} {cell : Cell} :
    cell ∈ s.resetCells.unwritten ↔ cell ∈ s.unwritten ∧ cell ≠ .sp := by
  simp [State.resetCells]

/-- Starting `u` after the assignments of `RES()` leaves DB's mark as it was in `u`. -/
theorem db_mem_restart {u : State} {target : Word} :
    Cell.db ∈ (u.resetCells.startAt target).unwritten ↔ Cell.db ∈ u.unwritten := by
  simp [mem_startAt_unwritten, mem_resetCells_unwritten]

/-- Nobody owns an address outside every range. -/
theorem firstOwner_eq_none {ds : List Device} {a : Word} (h : ∀ d ∈ ds, ¬ (d.min ≤ a.toNat ∧ a.toNat < d.max)) :
    firstOwner ds a = none := by
  rw [firstOwner, List.find?_eq_none]
  exact fun d hd ho => h d hd (d.owns_iff a |>.1 ho)

/-- Settles O56: the assignments before the vector read, the read of the vector by whoever answers it, and the start. -/
theorem resetValues : Obligations.ResetValues := by
  unfold Obligations.ResetValues
  intro s
  refine ⟨fun vector => ?_, fun hdb => ?_, fun l h t u h1 h2 => ?_, fun hdb ho => ?_, fun l h hl hh => ?_,
    fun vector t ht => ?_⟩
  · exact ⟨_, rfl, rfl, ⟨rfl, rfl, rfl⟩, db_mem_restart⟩
  · obtain ⟨l, h, t, u, h1, h2, -⟩ := State.readPair_completes 0xFFFC 0xFFFD hdb
    exact ⟨l, h, t, u, h1, h2⟩
  · exact ⟨_, res_of_reads h1 h2, rfl, ⟨rfl, rfl, rfl⟩, db_mem_restart⟩
  · obtain ⟨hstep, hclock⟩ := refused_of_faulted
      (s := { s.resetCells.driveRead resetVector with fault := .unwrittenRead .db }) (by simp)
    exact ⟨_, res_of_open_bus hdb (firstOwner_eq_none ho), rfl, ⟨rfl, rfl, rfl⟩, fun _ => mem_resetCells_unwritten,
      rfl, rfl, rfl, rfl, rfl, rfl, hstep, hclock⟩
  · obtain ⟨t, h1⟩ := State.busRead_of_peek hl
    have ht : t.devices = s.devices := by rw [(State.busRead_ok h1).1]; rfl
    obtain ⟨u, h2⟩ := State.busRead_of_peek ((State.peek_congr ht 0xFFFD).trans hh)
    obtain ⟨-, -, hrw, hdb, -⟩ := State.busRead_ok h2
    exact ⟨_, res_of_reads h1 h2, rfl, hdb, hrw⟩
  · obtain ⟨target, u, rfl, hu, hw⟩ := res_ok ht
    refine ⟨?_, rfl, ?_⟩
    · rw [hu]
      rfl
    · rw [hu]
      refine ⟨rfl, rfl, rfl, rfl, rfl, rfl, fun cell hc => ?_⟩
      rw [← hu, mem_startAt_unwritten, hw cell hc, mem_resetCells_unwritten, and_assoc]

/-! ### Construction -/

/-- Registration among devices in ascending priority: it keeps them all and their order and has the device among them, or
the priority is taken. -/
theorem registerDevice_cases {ds : List Device} (capability : Capability) (d : Device)
    (hp : ds.Pairwise (fun d e => d.priority < e.priority)) :
    (∃ es, registerDevice ds capability d = .next es ∧ es.Pairwise (fun d e => d.priority < e.priority) ∧
        (∀ e ∈ ds, e ∈ es) ∧ ∃ e ∈ es, e = { d with tracked := e.tracked }) ∨
      registerDevice ds capability d = .refused .priorityTaken := by
  by_cases hn : ∀ e ∈ ds, e.priority ≠ d.priority
  · exact .inl ⟨_, registerDevice_free hn, insertDevice_ascending hp hn, fun e he => mem_insertDevice.2 (.inr he), _,
      mem_insertDevice.2 (.inl rfl), rfl⟩
  · push Not at hn
    obtain ⟨e, he, hpr⟩ := hn
    rw [registerDevice_taken hp he hpr]
    by_cases hsame : e = { d with tracked := e.tracked }
    · exact .inl ⟨ds, if_pos hsame, hp, fun _ h => h, e, he, hsame⟩
    · exact .inr (if_neg hsame)

/-- Registrations one after the other are all accepted, each device among those registered, or one finds its priority
taken. -/
theorem registerAll_cases {ds : List Device} (registrations : List (Capability × Device))
    (hp : ds.Pairwise (fun d e => d.priority < e.priority)) :
    (∃ es, registerAll ds registrations = .next es ∧ es.Pairwise (fun d e => d.priority < e.priority) ∧
        (∀ e ∈ ds, e ∈ es) ∧ ∀ x ∈ registrations, ∃ e ∈ es, e = { x.2 with tracked := e.tracked }) ∨
      registerAll ds registrations = .refused .priorityTaken := by
  induction registrations generalizing ds with
  | nil => exact .inl ⟨ds, rfl, hp, fun _ h => h, by simp⟩
  | cons x rest ih =>
    obtain ⟨capability, d⟩ := x
    rcases registerDevice_cases capability d hp with ⟨es, hr, hes, hsub, e, he, hd⟩ | hr
    · rw [registerAll, hr]
      rcases ih hes with ⟨fs, hall, hfs, hsub', hrest⟩ | hall
      · exact .inl ⟨fs, hall, hfs, fun g hg => hsub' g (hsub g hg),
          List.forall_mem_cons.2 ⟨⟨e, hsub' e he, hd⟩, hrest⟩⟩
      · exact .inr hall
    · exact .inr (by rw [registerAll, hr])

/-- Registrations at distinct free priorities are all accepted. -/
theorem registerAll_distinct {ds : List Device} {registrations : List (Capability × Device)}
    (hwf : devicesWf ds = true) (hd : registrations.Pairwise (fun x y => x.2.priority ≠ y.2.priority))
    (hw : ∀ x ∈ registrations, x.2.wf = true)
    (hfree : ∀ x ∈ registrations, ∀ e ∈ ds, e.priority ≠ x.2.priority) :
    ∃ es, registerAll ds registrations = .next es ∧ devicesWf es = true ∧
      ∀ d, d ∈ es ↔ d ∈ ds ∨ ∃ x ∈ registrations, d = { x.2 with tracked := x.2.trackedAs x.1 } := by
  induction registrations generalizing ds with
  | nil => exact ⟨ds, rfl, hwf, by simp⟩
  | cons x rest ih =>
    obtain ⟨capability, d⟩ := x
    obtain ⟨hx, hrest⟩ := List.pairwise_cons.1 hd
    obtain ⟨hwx, hwrest⟩ := List.forall_mem_cons.1 hw
    obtain ⟨hfx, hfrest⟩ := List.forall_mem_cons.1 hfree
    have free : ∀ y ∈ rest, ∀ e ∈ insertDevice ds { d with tracked := d.trackedAs capability },
        e.priority ≠ y.2.priority := by
      intro y hy e he
      rcases mem_insertDevice.1 he with rfl | he
      · exact hx y hy
      · exact hfrest y hy e he
    obtain ⟨es, hall, hes, hmem⟩ := ih
      (insertDevice_wf (d := { d with tracked := d.trackedAs capability }) hwf hwx hfx) hrest hwrest free
    refine ⟨es, ?_, hes, fun e => ?_⟩
    · rw [registerAll, registerDevice_free hfx]
      exact hall
    · rw [hmem, mem_insertDevice, List.exists_mem_cons_iff, or_assoc, or_left_comm]

/-- Construction with registrations that are accepted. -/
theorem powerOn_of_registered {params : Config.Params} {registrations : List (Capability × Device)} {ds : List Device}
    (h : registerAll [] registrations = .next ds) : powerOn params registrations = .next (powerOnWith params ds) := by
  rw [powerOn, h]

/-- Every cell is on the power-on list. -/
theorem mem_powerOnCells (cell : Cell) : cell ∈ powerOnCells := by
  cases cell <;> decide

/-- Two different devices at one priority are not both accepted. -/
theorem registerAll_conflict {registrations : List (Capability × Device)} {x y : Capability × Device}
    (hx : x ∈ registrations) (hy : y ∈ registrations) (hp : x.2.priority = y.2.priority)
    (hne : { x.2 with tracked := y.2.tracked } ≠ y.2) :
    registerAll [] registrations = .refused .priorityTaken := by
  rcases registerAll_cases (ds := []) registrations .nil with ⟨es, -, hes, -, hmem⟩ | hr
  · obtain ⟨d, hd, hdx⟩ := hmem x hx
    obtain ⟨e, he, hey⟩ := hmem y hy
    have hde : d = e := by
      refine eq_of_priority hes he hd ?_
      rw [hdx, hey]
      exact hp
    refine absurd ?_ hne
    rw [hde, hey] at hdx
    exact (congrArg (fun g : Device => { g with tracked := y.2.tracked }) hdx).symm
  · exact hr

/-- Settles O59: construction is the registrations and then `powerOnWith`; a registration is refused only at a priority
another device has. -/
theorem powerOnState : Obligations.PowerOnState := by
  unfold Obligations.PowerOnState
  intro params registrations
  refine ⟨fun ds h => ?_, fun hd hw => ?_, fun x hx y hy hp hne => ?_⟩
  · exact ⟨powerOnWith params ds, powerOn_of_registered h, rfl, rfl, rfl, mem_powerOnCells, rfl, rfl,
      step_before_reset (mem_powerOnCells .pc), clock_before_reset (mem_powerOnCells .pc)⟩
  · simpa using registerAll_distinct (ds := []) rfl hd hw (by simp)
  · rw [powerOn, registerAll_conflict hx hy hp hne]

end Sys2Proof.Machine
end

section
/-! PROOFS. Memory and the bus: canonical contents, which device answers a read, open bus, what a write reaches. -/

namespace Sys2Proof.Machine

/-! ### Canonical contents -/

theorem Memory.wfIn_cons {lo hi k : Nat} {v : Byte} {rest : Memory} :
    Memory.wfIn lo hi ((k, v) :: rest) = true ↔
      lo ≤ k ∧ k < hi ∧ v ≠ unwrittenByte ∧ Memory.wfIn (k + 1) hi rest = true := by
  simp [Memory.wfIn, and_assoc]

@[simp] theorem Memory.read_head (k : Nat) (v : Byte) (rest : Memory) : Memory.read ((k, v) :: rest) k = v :=
  if_pos rfl

theorem Memory.read_tail {k a : Nat} (v : Byte) (rest : Memory) (h : k ≠ a) :
    Memory.read ((k, v) :: rest) a = Memory.read rest a :=
  if_neg h

/-- Canonical contents that list an address begin at or below it. -/
theorem Memory.exists_head_le {lo hi a : Nat} {m : Memory} (h : Memory.wfIn lo hi m = true)
    (ha : Memory.read m a ≠ unwrittenByte) : ∃ k v rest, m = (k, v) :: rest ∧ k ≤ a := by
  cases m with
  | nil => exact absurd rfl ha
  | cons c rest =>
    obtain ⟨k, v⟩ := c
    obtain ⟨-, hk, hv, hrest⟩ := Memory.wfIn_cons.1 h
    refine ⟨k, v, rest, rfl, ?_⟩
    by_contra hlt
    exact ha (Memory.read_below (Memory.wfIn_cons.2 ⟨le_refl k, hk, hv, hrest⟩) (by omega))

/-- Canonical contents that read alike are equal: both begin at the least address that is listed, with the same byte, and
the rests read alike. -/
theorem Memory.eq_of_read {lo hi : Nat} {m m' : Memory} (h : Memory.wfIn lo hi m = true)
    (h' : Memory.wfIn lo hi m' = true) (hr : ∀ a < hi, Memory.read m a = Memory.read m' a) : m = m' := by
  induction m generalizing lo m' with
  | nil =>
    cases m' with
    | nil => rfl
    | cons c rest =>
      obtain ⟨k, v⟩ := c
      obtain ⟨-, hk, hv, -⟩ := Memory.wfIn_cons.1 h'
      exact absurd ((hr k hk).trans (Memory.read_head k v rest)).symm hv
  | cons c rest ih =>
    obtain ⟨k, v⟩ := c
    obtain ⟨-, hk, hv, hrest⟩ := Memory.wfIn_cons.1 h
    have hkm : Memory.read m' k = v := by rw [← hr k hk, Memory.read_head]
    obtain ⟨j, w, rest', rfl, hjk⟩ := Memory.exists_head_le h' (hkm ▸ hv)
    obtain ⟨-, hj, hw, hrest'⟩ := Memory.wfIn_cons.1 h'
    have hjm : Memory.read ((k, v) :: rest) j = w := by rw [hr j hj, Memory.read_head]
    obtain ⟨i, x, r, hi, hij⟩ := Memory.exists_head_le h (hjm ▸ hw)
    cases hi
    obtain rfl : j = k := le_antisymm hjk hij
    rw [Memory.read_head] at hkm
    rw [hkm, ih hrest hrest' fun a ha => ?_]
    by_cases haj : a < j + 1
    · rw [Memory.read_below hrest haj, Memory.read_below hrest' haj]
    · have hne : j ≠ a := by omega
      rw [← Memory.read_tail v rest hne, hr a ha, Memory.read_tail w rest' hne]

/-- Settles O19: a write keeps the form, and contents in it are determined by what they read as. -/
theorem canonicalMemory : Obligations.CanonicalMemory := by
  unfold Obligations.CanonicalMemory
  exact ⟨fun m a v h => Memory.write_wf a v h, fun m m' h h' hr => Memory.eq_of_read h h' hr⟩

/-! ### What a device answers and stores -/

theorem Device.answer_ram {d : Device} {bytes : Memory} (h : d.behaviour = .ram bytes) (log : List BusEvent)
    (a : Word) : d.answer log a = Memory.read bytes a.toNat := by
  simp [Device.answer, h]

theorem Device.answer_described {d : Device} {p : DeviceProgram} {initial : Memory}
    (h : d.behaviour = .described p initial) (log : List BusEvent) (a : Word) :
    d.answer log a = BitVec.ofNat 8 (p.answer.eval (d.stateAfter p initial log) (.read d.priority a)
      (d.draws (.read d.priority a :: log))) := by
  simp [Device.answer, h]

theorem Device.answer_undescribed {d : Device} (h : d.behaviour = .undescribed) (log : List BusEvent) (a : Word) :
    d.answer log a = Config.deviceByte d.priority (.read d.priority a :: log) 0 := by
  simp [Device.answer, Device.draws, h]

theorem Device.write_of_not_owns {d : Device} {a : Word} (v : Byte) (h : ¬ d.owns a = true) : d.write a v = d :=
  if_neg h

theorem Device.write_of_not_ram {d : Device} (a : Word) (v : Byte) (h : ∀ bytes, d.behaviour ≠ .ram bytes) :
    d.write a v = d := by
  unfold Device.write
  split
  · cases hb : d.behaviour with
    | ram bytes => exact absurd hb (h bytes)
    | described p initial => rfl
    | undescribed => rfl
  · rfl

theorem Device.write_ram {d : Device} {a : Word} {bytes : Memory} (v : Byte) (ho : d.owns a = true)
    (hb : d.behaviour = .ram bytes) : (d.write a v).behaviour = .ram (Memory.write bytes a.toNat v) := by
  simp [Device.write, ho, hb]

theorem devicesWf_forall {ds : List Device} (h : devicesWf ds = true) : ∀ d ∈ ds, d.wf = true := by
  simp only [devicesWf, Bool.and_eq_true, List.all_eq_true] at h
  exact h.1

theorem Device.wfIn_of_ram {d : Device} {bytes : Memory} (h : d.wf = true) (hb : d.behaviour = .ram bytes) :
    Memory.wfIn d.min d.max bytes = true := by
  simp only [Device.wf, hb, Bool.and_eq_true] at h
  exact h.2

theorem Device.wfIn_of_described {d : Device} {p : DeviceProgram} {initial : Memory} (h : d.wf = true)
    (hb : d.behaviour = .described p initial) : Memory.wfIn 0 p.cells initial = true := by
  simp only [Device.wf, hb, Bool.and_eq_true] at h
  exact h.2

/-! ### Reads -/

/-- Settles O15: the owner with the lowest priority number is the first owner, and its `Read` is the answer. -/
theorem busReadTakesFirstOwner : Obligations.BusReadTakesFirstOwner := by
  unfold Obligations.BusReadTakesFirstOwner
  intro s a d hwf hd hmin hmax hleast
  have hans : d.Answers s.devices a :=
    ⟨(d.owns_iff a).2 ⟨hmin, hmax⟩, fun e he ho =>
      have ⟨hemin, hemax⟩ := (e.owns_iff a).1 ho
      hleast e he hemin hemax⟩
  have hread := State.busRead_of_owner (firstOwner_of_answers (devicesWf_ascending hwf) hd hans)
  exact ⟨_, _, hread, rfl, fun cell => by simp, fun bytes hb => Device.answer_ram hb _ a,
    fun p initial hb => Device.answer_described hb _ a, fun hb => Device.answer_undescribed hb _ a⟩

/-- A read nobody answers gives the latch, which stays. -/
theorem State.busRead_of_nobody {s : State} {a : Word} (ho : firstOwner s.devices a = none)
    (hdb : Cell.db ∉ s.unwritten) : s.busRead a = .ok (s.db, s.driveRead a) := by
  unfold State.busRead
  simp only [State.driveRead_devices, ho]
  exact if_neg (by simpa using hdb)

/-- A read nobody answers, of a latch never written. -/
theorem State.busRead_of_nobody_unwritten {s : State} {a : Word} (ho : firstOwner s.devices a = none)
    (hdb : Cell.db ∈ s.unwritten) : s.busRead a = .error ((s.driveRead a).unwrittenRead .db) := by
  unfold State.busRead
  simp only [State.driveRead_devices, ho]
  exact if_pos (by simpa using hdb)

/-- Settles O16: without an owner there is no first owner, and every access leaves its byte in DB. -/
theorem openBusReadsLatch : Obligations.OpenBusReadsLatch := by
  unfold Obligations.OpenBusReadsLatch
  refine ⟨fun s a hno => ?_, fun s t a v h => ?_, fun s a v => rfl⟩
  · have ho := firstOwner_eq_none hno
    exact ⟨fun hdb => State.busRead_of_nobody ho hdb,
      fun hdb => ⟨_, State.busRead_of_nobody_unwritten ho hdb, rfl⟩⟩
  · obtain ⟨-, -, -, hdb, -⟩ := State.busRead_ok h
    exact hdb

/-! ### Writes -/

/-- Settles O17: each device is offered the byte, and `Device.write` says what it does with it. -/
theorem busWriteReachesEveryOwner : Obligations.BusWriteReachesEveryOwner := by
  unfold Obligations.BusWriteReachesEveryOwner
  intro s a v hwf
  refine ⟨rfl, rfl, rfl, rfl, List.length_map _, fun k d e hd he => ?_⟩
  obtain rfl : d.write a v = e := by simpa [hd] using he
  refine ⟨d.write_priority a v, d.write_min a v, d.write_max a v, fun hno => ?_, Device.write_of_not_ram a v,
    fun hmin hmax bytes hb => ?_⟩
  · exact Device.write_of_not_owns v (mt (d.owns_iff a).1 hno)
  · have hcanon := Device.wfIn_of_ram (devicesWf_forall hwf d (List.mem_of_getElem? hd)) hb
    exact ⟨_, Device.write_ram v ((d.owns_iff a).2 ⟨hmin, hmax⟩) hb, Memory.read_write_same v hcanon,
      fun b hne => Memory.read_write_other bytes v hne⟩

/-- A write to an address nobody owns leaves the devices alone. -/
theorem State.busWrite_devices_of_nobody {s : State} {a : Word} (v : Byte) (h : ∀ d ∈ s.devices, ¬ d.owns a = true) :
    (s.busWrite a v).devices = s.devices :=
  (List.map_congr_left fun d hd => Device.write_of_not_owns v (h d hd)).trans (List.map_id _)

/-- Settles O18: the byte written is what the address peeks as, and a read answers the peek. -/
theorem readAfterWrite : Obligations.ReadAfterWrite := by
  unfold Obligations.ReadAfterWrite
  intro s a v hwf
  refine ⟨fun hp => ?_, fun b hne => State.peek_write_other rfl hne, fun hno => ?_⟩
  · obtain ⟨w, hw⟩ := Option.isSome_iff_exists.1 hp
    exact State.busRead_of_peek (State.peek_write_same hwf rfl hw)
  · exact State.busWrite_devices_of_nobody v fun d hd => mt (d.owns_iff a).1 (hno d hd)

end Sys2Proof.Machine
end

section
/-! PROOFS. Registration, and devices that run a program of the platform's. -/

namespace Sys2Proof.Machine

/-! ### Registration -/

theorem Device.trackedAs_both {d : Device} (capability : Capability) (h : d.implements = ⟨true, true⟩) :
    d.trackedAs capability = ⟨true, true⟩ :=
  if_pos h

theorem Device.trackedAs_single {d : Device} (capability : Capability) (h : d.implements ≠ ⟨true, true⟩) :
    d.trackedAs capability = ⟨decide (capability = .address), decide (capability = .data)⟩ := by
  refine (if_neg h).trans ?_
  cases capability <;> rfl

/-- The tracking decides nothing of what a described device keeps. -/
theorem Device.stateAfter_tracked (d : Device) (tracked : Capabilities) (p : DeviceProgram) (initial : Memory)
    (log : List BusEvent) :
    Device.stateAfter { d with tracked := tracked } p initial log = d.stateAfter p initial log := by
  induction log with
  | nil => rfl
  | cons call earlier ih =>
    unfold Device.stateAfter
    rw [ih]
    rfl

/-- The tracking decides no answer. -/
theorem Device.answer_tracked (d : Device) (tracked : Capabilities) (log : List BusEvent) (a : Word) :
    Device.answer { d with tracked := tracked } log a = d.answer log a := by
  unfold Device.answer
  simp only [Device.stateAfter_tracked]
  rfl

/-- Settles O20: at a free priority the device is inserted and is then the one at its priority; at a priority taken the
answer turns on sameness. -/
theorem registrationRules : Obligations.RegistrationRules := by
  unfold Obligations.RegistrationRules
  intro ds capability d hwf hd
  refine ⟨fun hfree => ?_, fun e he hpr => ?_, Device.trackedAs_both capability, Device.trackedAs_single capability,
    fun tracked log a => ⟨rfl, d.answer_tracked tracked log a⟩⟩
  · have hes : devicesWf (insertDevice ds { d with tracked := d.trackedAs capability }) = true :=
      insertDevice_wf hwf hd hfree
    refine ⟨_, registerDevice_free hfree, hes, ?_, fun e => mem_insertDevice⟩
    exact (registerDevice_taken (d := d) (devicesWf_ascending hes) (mem_insertDevice.2 (.inl rfl)) rfl).trans
      (if_pos rfl)
  · rw [registerDevice_taken (devicesWf_ascending hwf) he hpr]
    exact ⟨fun hsame => if_pos hsame.symm, fun hdiff => if_neg fun hsame => hdiff hsame.symm⟩

/-! ### Described devices -/

/-- A call that reaches the device runs its program. -/
theorem Device.stateAfter_of_sees {d : Device} {call : BusEvent} (p : DeviceProgram) (initial : Memory)
    (log : List BusEvent) (h : d.sees call = true) :
    d.stateAfter p initial (call :: log) = p.react call (d.draws (call :: log)) (d.stateAfter p initial log) :=
  if_pos h

/-- A call that does not reach the device leaves what it keeps. -/
theorem Device.stateAfter_of_not_sees {d : Device} {call : BusEvent} (p : DeviceProgram) (initial : Memory)
    (log : List BusEvent) (h : ¬ d.sees call = true) :
    d.stateAfter p initial (call :: log) = d.stateAfter p initial log :=
  if_neg h

/-- A read that another device answers, or nobody, tells the device the direction only. -/
theorem Device.held_of_not_answers {s t : State} {d : Device} {a : Word} {v : Byte} (p : DeviceProgram)
    (initial : Memory) (hwf : devicesWf s.devices = true) (hd : d ∈ s.devices) (hna : ¬ d.Answers s.devices a)
    (h : s.busRead a = .ok (v, t)) : d.held p initial t = d.stateAfter p initial (.setRw true :: s.busLog) := by
  have hasc := devicesWf_ascending hwf
  cases ho : firstOwner s.devices a with
  | none =>
    by_cases hdb : Cell.db ∈ s.unwritten
    · rw [State.busRead_of_nobody_unwritten ho hdb] at h
      cases h
    · rw [State.busRead_of_nobody ho hdb] at h
      cases h
      rfl
  | some e =>
    have hother : e.priority ≠ d.priority := fun hpr =>
      hna (eq_of_priority hasc hd (firstOwner_some ho).2 hpr ▸ answers_of_firstOwner hasc ho)
    rw [State.busRead_of_owner ho] at h
    cases h
    exact Device.stateAfter_of_not_sees p initial _ (by simpa [Device.sees] using hother)

/-- Settles O60: what the device keeps after an access is its program run on the calls of that access that reach it. -/
theorem describedDeviceFollowsProgram : Obligations.DescribedDeviceFollowsProgram := by
  unfold Obligations.DescribedDeviceFollowsProgram
  intro s d p initial hwf hd hb
  refine ⟨fun told htold => ?_, Device.stateAfter_of_sees p initial s.busLog rfl, rfl,
    Device.stateAfter_wfIn d p (Device.wfIn_of_described (devicesWf_forall hwf d hd) hb) s.busLog⟩
  have direction (read : Bool) : d.stateAfter p initial (.setRw read :: s.busLog) = told read :=
    (Device.stateAfter_of_sees p initial s.busLog rfl).trans (htold read).symm
  refine ⟨fun a v t h => ⟨fun hans => ?_, fun hna => ?_⟩, fun a v => ?_⟩
  · rw [State.busRead_of_owner (firstOwner_of_answers (devicesWf_ascending hwf) hd hans)] at h
    cases h
    rw [← direction true]
    exact ⟨Device.answer_described hb _ a, Device.stateAfter_of_sees p initial _ (by simp [Device.sees])⟩
  · rw [Device.held_of_not_answers p initial hwf hd hna h, direction]
  · rw [← direction false]
    split
    · rename_i ho
      exact Device.stateAfter_of_sees p initial _ ho
    · rename_i ho
      exact Device.stateAfter_of_not_sees p initial _ ho

end Sys2Proof.Machine
end

section
/-! PROOFS. The stores, and the subroutine call. -/

namespace Sys2Proof.Machine

/-! ### Stores -/

theorem saxValue_of_written {s : State} (ha : Cell.a ∉ s.unwritten) (hx : Cell.x ∉ s.unwritten) :
    saxValue s = .ok (s.a &&& s.x) := by
  simp [saxValue, readA_of_written ha, readX_of_written hx]

/-- A store whose mode completes and whose value does not depend on the mode's accesses. -/
theorem writeInstr_results {m : MemMode} {value : State → Except Fault Byte} {s : State} {v : Byte}
    (hdb : Cell.db ∉ s.unwritten) (hm : ∀ cell ∈ m.reads, cell ∉ s.unwritten)
    (hv : ∀ t, s.BusOnly t → value t = .ok v) :
    ∃ r t, resolve m s = .ok (r, t) ∧ LeadsTo (writeInstr m value s) s s [(r.ea, v)] ∧
      ∀ u, writeInstr m value s = .next u → u.BusAs (t.busWrite r.ea v) := by
  obtain ⟨r, t, hr, ht⟩ := resolve_completes hdb hm
  have hvt := hv t ht
  refine ⟨r, t, hr, .write hr hvt ht, fun u => writeInstr_bus hr fun w hw => ?_⟩
  rw [hvt] at hw
  cases hw
  rfl

/-- Settles O27: each store reads registers that its mode leaves alone. -/
theorem storeResults : Obligations.StoreResults := by
  unfold Obligations.StoreResults
  intro s m
  refine ⟨fun h => ?_, fun h => ?_, fun h => ?_, fun h => ?_⟩
  all_goals
    have written := h.written
    simp only [Instr.reads, List.mem_cons, List.mem_append, List.not_mem_nil, or_false] at written
    refine writeInstr_results (written .db (.inl rfl)) (fun cell hc => written cell (.inr (.inl hc))) fun t ht => ?_
    obtain ⟨ta, tx, ty, -, -, -, -, -, -, -, tu, -, -⟩ := ht.fields
  · rw [← ta]
    exact readA_of_written (tu ▸ written .a (by simp))
  · rw [← tx]
    exact readX_of_written (tu ▸ written .x (by simp))
  · rw [← ty]
    exact readY_of_written (tu ▸ written .y (by simp))
  · rw [← ta, ← tx]
    exact saxValue_of_written (tu ▸ written .a (by simp)) (tu ▸ written .x (by simp))

/-! ### The subroutine call -/

/-- Where a plain RAM owns the address, its byte is what a read answers. -/
theorem busRead_eq_of_peek {s t : State} {a : Word} {v b : Byte} (h : s.busRead a = .ok (v, t))
    (hb : s.peek a = some b) : v = b := by
  obtain ⟨u, hu⟩ := State.busRead_of_peek hb
  rw [hu] at h
  cases h
  rfl

section
variable {s t u : State} {stored : List (Word × Byte)} {a : Word} {v : Byte}

/-- A read after stores elsewhere answers the RAM byte that was there before them. -/
theorem busRead_of_not_stored {b : Byte} (hu : u.devices = stored.foldl storeTo s.devices)
    (hr : u.busRead a = .ok (v, t)) (hne : ∀ w ∈ stored, a ≠ w.1) (hb : s.peek a = some b) : v = b := by
  have hp : u.peek a = State.peek { s with devices := stored.foldl storeTo s.devices } a := State.peek_congr hu a
  exact busRead_eq_of_peek hr (hp.trans ((State.peek_stored_other hne).trans hb))

/-- A read of an address of plain RAM that was stored to answers the byte stored. -/
theorem busRead_of_stored {w : Word × Byte} (hu : u.devices = stored.foldl storeTo s.devices)
    (hr : u.busRead a = .ok (v, t)) (hd : stored.Pairwise (fun v w => v.1 ≠ w.1)) (hw : w ∈ stored) (ha : a = w.1)
    (hwf : devicesWf s.devices = true) (hp : (s.peek a).isSome) : v = w.2 := by
  subst ha
  have hpeek : u.peek w.1 = State.peek { s with devices := stored.foldl storeTo s.devices } w.1 :=
    State.peek_congr hu w.1
  exact busRead_eq_of_peek hr (hpeek.trans (State.peek_stored hwf hd hw hp))

end

/-- Settles O40: two pushes, the read at PC, and PC; the byte read is what the two stores left there. -/
theorem subroutineCallResults : Obligations.SubroutineCallResults := by
  unfold Obligations.SubroutineCallResults
  intro s target _
  have distinct := pair_distinct s.sp (hiByte s.pc) (loByte s.pc)
  have pushed := (State.Agrees.refl s).pushPair (hiByte s.pc) (loByte s.pc)
  obtain ⟨-, -, -, -, -, -, -, -, hdev, -⟩ := pushed.fields
  obtain ⟨h, t, hr⟩ := State.busRead_completes s.pc (State.push_db_written (s.push (hiByte s.pc)) (loByte s.pc))
  refine ⟨h, t, hr, ?_, fun b hb hhigh hlow => ?_, fun hwf hp heq => ?_, fun hwf hp heq => ?_⟩
  · exact .pushes (op := jsrOp (loByte target)) (jsrOp_eq hr) ((pushed.busRead hr).setPc _) distinct
  · exact busRead_of_not_stored hdev hr (List.forall_mem_cons.2 ⟨hhigh, List.forall_mem_singleton.2 hlow⟩) hb
  · exact busRead_of_stored hdev hr distinct List.mem_cons_self heq hwf hp
  · exact busRead_of_stored hdev hr distinct (List.mem_cons_of_mem _ List.mem_cons_self) heq hwf hp

end Sys2Proof.Machine
end

section
/-! PROOFS. The encoder and the decoder undo each other, and every opcode byte decodes. -/

namespace Sys2Proof

/-! ### From an operand to its bytes and back -/

/-- The two bytes the decoder makes an operand of (R113): its bytes, 0 where it has fewer. -/
def operandPair (bytes : List Byte) : Byte × Byte := (bytes.getD 0 0, bytes.getD 1 0)

@[simp] theorem wordBytes_wordOf (h l : Byte) : wordBytes (wordOf h l) = [l, h] := by simp [wordBytes]

theorem memMode_bytes (m : MemMode) : memMode m.mode (operandPair m.bytes).1 (operandPair m.bytes).2 = some m := by
  cases m <;> simp [memMode, MemMode.mode, MemMode.bytes, wordBytes, operandPair]

theorem readOperand_mem (m : MemMode) (b1 b2 : Byte) :
    readOperand m.mode b1 b2 = (memMode m.mode b1 b2).map .mem := by
  cases m <;> rfl

theorem readOperand_bytes (o : ReadOperand) :
    readOperand o.mode (operandPair o.bytes).1 (operandPair o.bytes).2 = some o := by
  cases o with
  | imm value => rfl
  | mem m => exact (readOperand_mem m _ _).trans (congrArg _ (memMode_bytes m))

theorem shiftOperand_mem (m : MemMode) (b1 b2 : Byte) :
    shiftOperand m.mode b1 b2 = (memMode m.mode b1 b2).map .mem := by
  cases m <;> rfl

theorem shiftOperand_bytes (o : ShiftOperand) :
    shiftOperand o.mode (operandPair o.bytes).1 (operandPair o.bytes).2 = some o := by
  cases o with
  | acc => rfl
  | mem m => exact (shiftOperand_mem m _ _).trans (congrArg _ (memMode_bytes m))

theorem nopOperand_mem (m : MemMode) (b1 b2 : Byte) :
    nopOperand m.mode b1 b2 = (memMode m.mode b1 b2).map .mem := by
  cases m <;> rfl

theorem nopOperand_bytes (o : NopOperand) :
    nopOperand o.mode (operandPair o.bytes).1 (operandPair o.bytes).2 = some o := by
  cases o with
  | implied => rfl
  | imm value => rfl
  | mem m => exact (nopOperand_mem m _ _).trans (congrArg _ (memMode_bytes m))

theorem jumpOperand_bytes (o : JumpOperand) :
    jumpOperand o.mode (operandPair o.bytes).1 (operandPair o.bytes).2 = some o := by
  cases o <;> simp [jumpOperand, JumpOperand.mode, JumpOperand.bytes, wordBytes, operandPair]

/-- An instruction is what the decoder makes of its mnemonic, its mode, its opcode byte and its operand bytes. -/
theorem instrOf_operandBytes {i : Instr} {opcode : Byte} (h : i.opcode = some opcode) :
    instrOf i.mnemonic i.mode opcode (operandPair i.operandBytes).1 (operandPair i.operandBytes).2 = some i := by
  cases i with
  | lda o | ldx o | ldy o | adc o | sbc o | and o | ora o | eor o | cmp o | cpx o | cpy o =>
    exact congrArg (Option.map _) (readOperand_bytes o)
  | sta m | stx m | sty m | bit m | inc m | dec m | slo m | rla m | sre m | rra m | sax m | lax m | dcp m | isc m
  | sha m | tas m | shy m | shx m | las m =>
    exact congrArg (Option.map _) (memMode_bytes m)
  | asl o | lsr o | rol o | ror o => exact congrArg (Option.map _) (shiftOperand_bytes o)
  | jmp o => exact congrArg (Option.map _) (jumpOperand_bytes o)
  | jsr target => exact congrArg (some ∘ Instr.jsr) (wordOf_hiByte_loByte target)
  | nop carried o =>
    obtain ⟨-, ho⟩ := Option.ite_none_right_eq_some.1 h
    cases ho
    exact congrArg (Option.map _) (nopOperand_bytes o)
  | anc carried v | jam carried =>
    obtain ⟨-, ho⟩ := Option.ite_none_right_eq_some.1 h
    cases ho
    rfl
  | _ => rfl

/-! ### Splitting off the operand bytes -/

theorem splitInstr_append {opcode : Byte} {bytes : List Byte} (rest : List Byte)
    (h : bytes.length + 1 = (operation opcode).mode.length) :
    splitInstr opcode (bytes ++ rest) = some ((operandPair bytes).1, (operandPair bytes).2, rest) := by
  match bytes with
  | [] => exact splitInstr_one h.symm rest
  | [b1] => exact splitInstr_two h.symm b1 rest
  | [b1, b2] => exact splitInstr_three h.symm b1 b2 rest
  | _ :: _ :: _ :: _ =>
    rw [List.length_cons, List.length_cons, List.length_cons] at h
    rcases Mode.length_cases (operation opcode).mode with hl | hl | hl <;> omega

/-- The bytes split off are those the mode takes. -/
theorem splitInstr_some {opcode b1 b2 : Byte} {tail rest : List Byte}
    (h : splitInstr opcode tail = some (b1, b2, rest)) :
    tail = [b1, b2].take ((operation opcode).mode.length - 1) ++ rest := by
  unfold splitInstr at h
  split at h <;> cases h <;> simp [*]

theorem splitInstr_pair (opcode b1 b2 : Byte) (rest : List Byte) :
    ∃ c1 c2, splitInstr opcode (b1 :: b2 :: rest) =
      some (c1, c2, (b1 :: b2 :: rest).drop ((operation opcode).mode.length - 1)) := by
  rcases Mode.length_cases (operation opcode).mode with h | h | h
  · exact ⟨0, 0, by rw [splitInstr_one h, h]; rfl⟩
  · exact ⟨b1, 0, by rw [splitInstr_two h, h]; rfl⟩
  · exact ⟨b1, b2, by rw [splitInstr_three h, h]; rfl⟩

theorem decode_of_split {opcode b1 b2 : Byte} {tail rest : List Byte} {i : Instr}
    (hs : splitInstr opcode tail = some (b1, b2, rest)) (hi : decodeBytes opcode b1 b2 = some i) :
    decode (opcode :: tail) = .ok (i, rest) := by
  simp only [decode, hs, hi]

/-! ### The encoder's tables and the operation table -/

/-- The encoder's byte of every well-formed instruction has its mnemonic and its mode in the operation table. -/
theorem opcodeTable (i : Instr) : Laws.OpcodeTable.Statement i :=
  match i with
  | .lda o => Laws.OpcodeTable.lda o
  | .ldx o => Laws.OpcodeTable.ldx o
  | .ldy o => Laws.OpcodeTable.ldy o
  | .sta m => Laws.OpcodeTable.sta m
  | .stx m => Laws.OpcodeTable.stx m
  | .sty m => Laws.OpcodeTable.sty m
  | .tax => Laws.OpcodeTable.tax
  | .tay => Laws.OpcodeTable.tay
  | .txa => Laws.OpcodeTable.txa
  | .tya => Laws.OpcodeTable.tya
  | .tsx => Laws.OpcodeTable.tsx
  | .txs => Laws.OpcodeTable.txs
  | .adc o => Laws.OpcodeTable.adc o
  | .sbc o => Laws.OpcodeTable.sbc o
  | .and o => Laws.OpcodeTable.and o
  | .ora o => Laws.OpcodeTable.ora o
  | .eor o => Laws.OpcodeTable.eor o
  | .bit m => Laws.OpcodeTable.bit m
  | .cmp o => Laws.OpcodeTable.cmp o
  | .cpx o => Laws.OpcodeTable.cpx o
  | .cpy o => Laws.OpcodeTable.cpy o
  | .inc m => Laws.OpcodeTable.inc m
  | .dec m => Laws.OpcodeTable.dec m
  | .inx => Laws.OpcodeTable.inx
  | .iny => Laws.OpcodeTable.iny
  | .dex => Laws.OpcodeTable.dex
  | .dey => Laws.OpcodeTable.dey
  | .asl o => Laws.OpcodeTable.asl o
  | .lsr o => Laws.OpcodeTable.lsr o
  | .rol o => Laws.OpcodeTable.rol o
  | .ror o => Laws.OpcodeTable.ror o
  | .bcc off => Laws.OpcodeTable.bcc off
  | .bcs off => Laws.OpcodeTable.bcs off
  | .beq off => Laws.OpcodeTable.beq off
  | .bne off => Laws.OpcodeTable.bne off
  | .bmi off => Laws.OpcodeTable.bmi off
  | .bpl off => Laws.OpcodeTable.bpl off
  | .bvc off => Laws.OpcodeTable.bvc off
  | .bvs off => Laws.OpcodeTable.bvs off
  | .jmp o => Laws.OpcodeTable.jmp o
  | .jsr target => Laws.OpcodeTable.jsr target
  | .rts => Laws.OpcodeTable.rts
  | .rti => Laws.OpcodeTable.rti
  | .brk => Laws.OpcodeTable.brk
  | .pha => Laws.OpcodeTable.pha
  | .php => Laws.OpcodeTable.php
  | .pla => Laws.OpcodeTable.pla
  | .plp => Laws.OpcodeTable.plp
  | .clc => Laws.OpcodeTable.clc
  | .sec => Laws.OpcodeTable.sec
  | .cli => Laws.OpcodeTable.cli
  | .sei => Laws.OpcodeTable.sei
  | .cld => Laws.OpcodeTable.cld
  | .sed => Laws.OpcodeTable.sed
  | .clv => Laws.OpcodeTable.clv
  | .nop opcode o => Laws.OpcodeTable.nop opcode o
  | .slo m => Laws.OpcodeTable.slo m
  | .rla m => Laws.OpcodeTable.rla m
  | .sre m => Laws.OpcodeTable.sre m
  | .rra m => Laws.OpcodeTable.rra m
  | .sax m => Laws.OpcodeTable.sax m
  | .lax m => Laws.OpcodeTable.lax m
  | .dcp m => Laws.OpcodeTable.dcp m
  | .isc m => Laws.OpcodeTable.isc m
  | .anc opcode v => Laws.OpcodeTable.anc opcode v
  | .alr v => Laws.OpcodeTable.alr v
  | .arr v => Laws.OpcodeTable.arr v
  | .usbc v => Laws.OpcodeTable.usbc v
  | .ane v => Laws.OpcodeTable.ane v
  | .lxa v => Laws.OpcodeTable.lxa v
  | .sha m => Laws.OpcodeTable.sha m
  | .tas m => Laws.OpcodeTable.tas m
  | .shy m => Laws.OpcodeTable.shy m
  | .shx m => Laws.OpcodeTable.shx m
  | .las m => Laws.OpcodeTable.las m
  | .sbx v => Laws.OpcodeTable.sbx v
  | .jam opcode => Laws.OpcodeTable.jam opcode

/-- The mnemonic has this mode, and this byte for it, by the "Encoding" lines and the lists of R125, R128 and R319. -/
def Mnemonic.Encodes (mn : Mnemonic) (mode : Mode) (opcode : Byte) : Prop :=
  (mode, opcode) ∈ mn.encodings ∨ (mn = .NOP ∧ opcode ∈ nopBytes mode) ∨
    (mn = .ANC ∧ mode = .imm ∧ opcode ∈ ancBytes) ∨ (mn = .JAM ∧ mode = .imp ∧ opcode ∈ jamBytes)

/-- The operation table agrees with the "Encoding" lines, row by row (R120). -/
theorem operation_encodes (opcode : Byte) :
    (operation opcode).mnemonic.Encodes (operation opcode).mode opcode := by
  unfold Mnemonic.Encodes
  revert opcode
  decide

/-- A well-formed instruction of this mnemonic, mode and opcode byte; its operand bytes are the ones of the two that its
mode takes. -/
structure Instr.Has (i : Instr) (mn : Mnemonic) (mode : Mode) (opcode b1 b2 : Byte) : Prop where
  mnemonic : i.mnemonic = mn
  mode_eq  : i.mode = mode
  opcode   : i.opcode = some opcode
  wf       : i.wf = true
  bytes    : i.operandBytes = [b1, b2].take (mode.length - 1)

/-- Each encoding of a mnemonic is decoded; NOP, ANC and JAM carry theirs. The bytes of a word come back in their order,
low byte first. -/
theorem instrOf_of_encoding (mn : Mnemonic) (b1 b2 : Byte) :
    ∀ p ∈ mn.encodings, ∃ i, instrOf mn p.1 p.2 b1 b2 = some i ∧ i.Has mn p.1 p.2 b1 b2 := by
  cases mn with
  | NOP | ANC | JAM => exact List.forall_mem_nil _
  | _ =>
    simp only [Mnemonic.encodings, List.forall_mem_cons, List.not_mem_nil, false_imp_iff, implies_true, and_true]
    and_intros
    all_goals exact ⟨_, rfl, rfl, rfl, rfl, rfl, by
      simp [Instr.operandBytes, ReadOperand.bytes, ShiftOperand.bytes, JumpOperand.bytes, MemMode.bytes, Mode.length]⟩

theorem instrOf_nop {mode : Mode} {opcode : Byte} (h : opcode ∈ nopBytes mode) (b1 b2 : Byte) :
    ∃ i, instrOf .NOP mode opcode b1 b2 = some i ∧ i.Has .NOP mode opcode b1 b2 := by
  have hw : (nopBytes mode).contains opcode = true := List.contains_iff_mem.2 h
  cases mode with
  | imp | imm | zpa | zpx => exact ⟨_, rfl, rfl, rfl, if_pos hw, hw, rfl⟩
  | abs | abx => exact ⟨_, rfl, rfl, rfl, if_pos hw, hw, wordBytes_wordOf b2 b1⟩
  | _ => cases h

/-- A row of the operation table that the encoder's tables hold is decoded, whatever its operand bytes are. -/
theorem instrOf_of_encodes {mn : Mnemonic} {mode : Mode} {opcode : Byte} (h : mn.Encodes mode opcode) (b1 b2 : Byte) :
    ∃ i, instrOf mn mode opcode b1 b2 = some i ∧ i.Has mn mode opcode b1 b2 := by
  rcases h with h | ⟨rfl, h⟩ | ⟨rfl, rfl, h⟩ | ⟨rfl, rfl, h⟩
  · exact instrOf_of_encoding mn b1 b2 _ h
  · exact instrOf_nop h b1 b2
  · have hw : ancBytes.contains opcode = true := List.contains_iff_mem.2 h
    exact ⟨.anc opcode b1, rfl, rfl, rfl, if_pos hw, hw, rfl⟩
  · have hw : jamBytes.contains opcode = true := List.contains_iff_mem.2 h
    exact ⟨.jam opcode, rfl, rfl, rfl, if_pos hw, hw, rfl⟩

/-- No opcode byte is reserved, and what it decodes to is the instruction its bytes encode. -/
theorem decodeBytes_has (opcode b1 b2 : Byte) :
    ∃ i, decodeBytes opcode b1 b2 = some i ∧
      i.Has (operation opcode).mnemonic (operation opcode).mode opcode b1 b2 :=
  instrOf_of_encodes (operation_encodes opcode) b1 b2

/-- Settles O1: the operation table gives the encoder's byte the mnemonic and the mode of the instruction, and the two
with the operand bytes are the instruction. -/
theorem encodeThenDecodeGivesBack : Obligations.EncodeThenDecodeGivesBack := by
  unfold Obligations.EncodeThenDecodeGivesBack
  intro i rest hwf
  obtain ⟨opcode, hop, hmn, hmode, hlen⟩ := opcodeTable i hwf
  refine ⟨opcode :: i.operandBytes, by simp [encode, hop], hlen, ?_⟩
  refine decode_of_split (splitInstr_append rest (hlen.trans (congrArg _ hmode.symm))) ?_
  rw [decodeBytes, hmn, hmode]
  exact instrOf_operandBytes hop

/-- Settles O2: the bytes split off are the operand bytes of the instruction they are decoded to. -/
theorem decodeThenEncodeGivesBack : Obligations.DecodeThenEncodeGivesBack := by
  unfold Obligations.DecodeThenEncodeGivesBack
  intro bs rest i h
  obtain ⟨opcode, tail, b1, b2, rfl, hs, hd⟩ := decode_ok h
  obtain ⟨j, hj, hi⟩ := decodeBytes_has opcode b1 b2
  obtain rfl : j = i := Option.some.inj (hj.symm.trans hd)
  refine ⟨hi.wf, opcode :: j.operandBytes, by simp [encode, hi.opcode], ?_⟩
  rw [hi.bytes, splitInstr_some hs, List.cons_append]

/-- Settles O3: the row of the operation table is among the encodings of its mnemonic. -/
theorem everyOpcodeDecodes : Obligations.EveryOpcodeDecodes := by
  unfold Obligations.EveryOpcodeDecodes
  intro opcode b1 b2 rest
  obtain ⟨c1, c2, hs⟩ := splitInstr_pair opcode b1 b2 rest
  obtain ⟨i, hd, hi⟩ := decodeBytes_has opcode c1 c2
  refine ⟨i, ?_, hi.mode_eq, hi.mnemonic, hi.wf⟩
  have hdrop : (opcode :: b1 :: b2 :: rest).drop i.mode.length =
      (b1 :: b2 :: rest).drop ((operation opcode).mode.length - 1) := by
    rw [hi.mode_eq]
    rcases Mode.length_cases (operation opcode).mode with h | h | h <;> rw [h] <;> rfl
  rw [hdrop]
  exact decode_of_split hs hd

/-- Settles O4: each word is its opcode byte's row of the table with the operand bytes that follow it. -/
theorem sampleWordsDecode : Obligations.SampleWordsDecode := by
  unfold Obligations.SampleWordsDecode
  exact ⟨rfl, rfl, rfl, rfl, rfl, rfl, rfl, rfl, rfl, rfl, rfl, rfl, rfl, rfl⟩

end Sys2Proof
end

section
/-! PROOFS. The clocks an instruction consumes, and SBX under its parameter. -/

namespace Sys2Proof

/-- The operand in memory of a read operand. -/
def ReadOperand.memory : ReadOperand → Option MemMode
  | .imm _ => none
  | .mem m => some m

/-- The operand in memory of a shift operand. -/
def ShiftOperand.memory : ShiftOperand → Option MemMode
  | .acc => none
  | .mem m => some m

end Sys2Proof

namespace Sys2Proof.Machine

/-! ### The opcode stays latched -/

theorem Blind.opc {op : State → Except Fault State} (hop : Blind op) {s t : State} (h : op s = .ok t) :
    t.opc = s.opc :=
  (hop s t s.internal h).2

theorem State.Agrees.opc {s t : State} (h : s.Agrees t) : t.opc = s.opc := by
  obtain ⟨-, -, -, -, -, -, hopc, -⟩ := h.fields
  exact hopc

theorem jsrOp_opc {low : Byte} {s t : State} (h : jsrOp low s = .ok t) : t.opc = s.opc := by
  obtain ⟨⟨high, u⟩, hr, h⟩ := bind_ok h
  cases h
  exact (((State.Agrees.refl s).pushPair _ _).busRead hr).opc

theorem rtsOp_opc {s t : State} (h : rtsOp s = .ok t) : t.opc = s.opc := by
  obtain ⟨⟨l, u⟩, h1, h⟩ := bind_ok h
  obtain ⟨⟨high, v⟩, h2, h⟩ := bind_ok h
  cases h
  exact (State.pull_opc h2).trans (State.pull_opc h1)

theorem returnFromInterrupt_opc {s t : State} (h : s.returnFromInterrupt = .ok t) : t.opc = s.opc := by
  obtain ⟨⟨q, u⟩, h1, h⟩ := bind_ok h
  obtain ⟨⟨l, v⟩, h2, h⟩ := bind_ok h
  obtain ⟨⟨high, w⟩, h3, h⟩ := bind_ok h
  cases h
  exact (State.pull_opc h3).trans ((State.pull_opc h2).trans (State.pull_opc h1))

theorem readIndirect_opc {s t : State} {ptr target : Word} (h : s.readIndirect ptr = .ok (target, t)) :
    t.opc = s.opc := by
  obtain ⟨⟨l, u⟩, h1, h⟩ := bind_ok h
  obtain ⟨⟨high, v⟩, h2, h⟩ := bind_ok h
  cases h
  exact (((State.Agrees.refl s).busRead h1).busRead h2).opc

theorem brkOp_opc {s t : State} (h : brkOp s = .ok t) : t.opc = s.opc := by
  obtain ⟨⟨target, u⟩, he, h⟩ := bind_ok h
  cases h
  obtain ⟨-, -, hbus⟩ := State.takeException_ok he
  simpa [State.frame] using hbus.agrees.opc

/-- The read of M is made at the address the mode computes. -/
theorem accessMem_resolves {m : MemMode} {s t : State} {r : Resolved} {v : Byte} (h : accessMem m s = .ok (r, v, t)) :
    ∃ u, resolve m s = .ok (r, u) ∧ t.opc = s.opc := by
  obtain ⟨⟨r, u⟩, hr, h⟩ := bind_ok h
  obtain ⟨⟨b, w⟩, hb, h⟩ := bind_ok h
  cases h
  exact ⟨u, hr, ((resolve_agrees hr).busRead hb).opc⟩

/-! ### The clocks consumed -/

/-- `u` ends an instruction that started at `s`, with this operand in memory if it has one: the two previous counts add
up to the declared count of the opcode and, where its mode computes an address, the page penalty of that address. -/
def State.ConsumesClocks (s u : State) : Option MemMode → Prop
  | none => u.prevAmCycles + u.prevOpCycles = s.clocks false
  | some m => ∀ r t, resolve m s = .ok (r, t) → u.prevAmCycles + u.prevOpCycles = s.clocks r.crossed

theorem State.complete_clocks {s w : State} (hw : w.opc = s.opc) (crossed : Bool) :
    (w.complete (w.clocks crossed)).prevAmCycles + (w.complete (w.clocks crossed)).prevOpCycles = s.clocks crossed := by
  rw [State.complete_sum, State.clocks, State.clocks, hw]

theorem State.ConsumesClocks.of_resolve {s w t : State} {m : MemMode} {r : Resolved} (hr : resolve m s = .ok (r, t))
    (hw : w.opc = s.opc) : s.ConsumesClocks (w.complete (w.clocks r.crossed)) (some m) := by
  intro r' t' hr'
  rw [hr] at hr'
  cases hr'
  exact State.complete_clocks hw r.crossed

theorem readInstr_consumesClocks {o : ReadOperand} {op : Byte → State → Except Fault State} {s u : State}
    {operand : Option MemMode} (hm : operand = o.memory) (hop : ∀ v, Blind (op v)) (h : readInstr o op s = .next u) :
    s.ConsumesClocks u operand := by
  subst hm
  obtain ⟨v, crossed, t, w, ha, hw, rfl⟩ := readInstr_ok h
  cases o with
  | imm value =>
    cases ha
    exact State.complete_clocks ((hop v).opc hw) false
  | mem m =>
    obtain ⟨⟨r, b, x⟩, ha, hr⟩ := bind_ok ha
    cases hr
    obtain ⟨y, hr, ht⟩ := accessMem_resolves ha
    exact .of_resolve hr (((hop v).opc hw).trans ht)

theorem writeInstr_consumesClocks {m : MemMode} {value : State → Except Fault Byte} {s u : State}
    (h : writeInstr m value s = .next u) : s.ConsumesClocks u (some m) := by
  obtain ⟨r, t, v, hr, -, rfl⟩ := writeInstr_ok h
  exact .of_resolve hr (resolve_agrees hr).opc

theorem rmwInstr_consumesClocks {m : MemMode} {op : Word → Byte → State → Except Fault State} {s u : State}
    (hop : ∀ ea v, Blind (op ea v)) (h : rmwInstr m op s = .next u) : s.ConsumesClocks u (some m) := by
  obtain ⟨r, v, t, w, ha, hw, rfl⟩ := rmwInstr_ok h
  obtain ⟨y, hr, ht⟩ := accessMem_resolves ha
  exact .of_resolve hr (((hop r.ea v).opc hw).trans ht)

theorem impliedInstr_consumesClocks {op : State → Except Fault State} {s u : State}
    (hop : ∀ {w}, op s = .ok w → w.opc = s.opc) (h : impliedInstr op s = .next u) : s.ConsumesClocks u none := by
  obtain ⟨w, hw, rfl⟩ := impliedInstr_ok h
  exact State.complete_clocks (hop hw) false

theorem shiftInstr_consumesClocks {o : ShiftOperand} {onA : State → Except Fault State}
    {onMem : Word → Byte → State → Except Fault State} {s u : State} {operand : Option MemMode}
    (hm : operand = o.memory) (onA_blind : Blind onA) (onMem_blind : ∀ ea v, Blind (onMem ea v))
    (h : shiftInstr o onA onMem s = .next u) : s.ConsumesClocks u operand := by
  subst hm
  cases o with
  | acc => exact impliedInstr_consumesClocks onA_blind.opc h
  | mem m => exact rmwInstr_consumesClocks onMem_blind h

theorem jmp_consumesClocks {o : JumpOperand} {s u : State} (h : exec (.jmp o) s = .next u) :
    s.ConsumesClocks u none := by
  cases o with
  | abs target =>
    cases h
    exact State.complete_clocks rfl false
  | ind ptr =>
    obtain ⟨⟨target, t⟩, hr, h⟩ := bind_ok (finish_next.1 (show finish _ = .next u from h))
    cases h
    have ht := readIndirect_opc hr
    exact State.complete_clocks (s := s) (w := t.setPc target) ht false

/-- What an instruction other than JAM and the branches consumes, by its skeleton. -/
theorem exec_consumesClocks {i : Instr} {s u : State} (hj : i.isJam = false) (hb : i.isBranch = false)
    (h : exec i s = .next u) : s.ConsumesClocks u i.memOperand := by
  cases i with
  | lda o => exact readInstr_consumesClocks (by cases o <;> rfl) ldaOp_blind h
  | ldx o => exact readInstr_consumesClocks (by cases o <;> rfl) ldxOp_blind h
  | ldy o => exact readInstr_consumesClocks (by cases o <;> rfl) ldyOp_blind h
  | adc o => exact readInstr_consumesClocks (by cases o <;> rfl) adcOp_blind h
  | sbc o => exact readInstr_consumesClocks (by cases o <;> rfl) sbcOp_blind h
  | and o => exact readInstr_consumesClocks (by cases o <;> rfl) andOp_blind h
  | ora o => exact readInstr_consumesClocks (by cases o <;> rfl) oraOp_blind h
  | eor o => exact readInstr_consumesClocks (by cases o <;> rfl) eorOp_blind h
  | cmp o => exact readInstr_consumesClocks (by cases o <;> rfl) cmpOp_blind h
  | cpx o => exact readInstr_consumesClocks (by cases o <;> rfl) cpxOp_blind h
  | cpy o => exact readInstr_consumesClocks (by cases o <;> rfl) cpyOp_blind h
  | bit m => exact readInstr_consumesClocks rfl bitOp_blind h
  | lax m => exact readInstr_consumesClocks rfl laxOp_blind h
  | las m => exact readInstr_consumesClocks rfl unstableOp_blind h
  | anc opcode v => exact readInstr_consumesClocks rfl ancOp_blind h
  | alr v => exact readInstr_consumesClocks rfl alrOp_blind h
  | arr v => exact readInstr_consumesClocks rfl arrOp_blind h
  | usbc v => exact readInstr_consumesClocks rfl sbcOp_blind h
  | sbx v => exact readInstr_consumesClocks rfl sbxOp_blind h
  | ane v => exact readInstr_consumesClocks (o := .imm v) rfl unstableOp_blind h
  | lxa v => exact readInstr_consumesClocks (o := .imm v) rfl unstableOp_blind h
  | nop opcode o =>
    cases o with
    | implied => exact impliedInstr_consumesClocks nopOp_blind.opc h
    | imm v => exact readInstr_consumesClocks (o := .imm v) rfl nopReadOp_blind h
    | mem m => exact readInstr_consumesClocks rfl nopReadOp_blind h
  | sta m | stx m | sty m | sax m | sha m | tas m | shy m | shx m => exact writeInstr_consumesClocks h
  | inc m => exact rmwInstr_consumesClocks incOp_blind h
  | dec m => exact rmwInstr_consumesClocks decOp_blind h
  | slo m => exact rmwInstr_consumesClocks sloOp_blind h
  | rla m => exact rmwInstr_consumesClocks rlaOp_blind h
  | sre m => exact rmwInstr_consumesClocks sreOp_blind h
  | rra m => exact rmwInstr_consumesClocks rraOp_blind h
  | dcp m => exact rmwInstr_consumesClocks dcpOp_blind h
  | isc m => exact rmwInstr_consumesClocks iscOp_blind h
  | asl o => exact shiftInstr_consumesClocks (by cases o <;> rfl) (shiftAcc_blind aslByte) (shiftMem_blind aslByte) h
  | lsr o => exact shiftInstr_consumesClocks (by cases o <;> rfl) (shiftAcc_blind lsrByte) (shiftMem_blind lsrByte) h
  | rol o => exact shiftInstr_consumesClocks (by cases o <;> rfl) (rotateAcc_blind rolByte) (rotateMem_blind rolByte) h
  | ror o => exact shiftInstr_consumesClocks (by cases o <;> rfl) (rotateAcc_blind rorByte) (rotateMem_blind rorByte) h
  | tax => exact impliedInstr_consumesClocks taxOp_blind.opc h
  | tay => exact impliedInstr_consumesClocks tayOp_blind.opc h
  | txa => exact impliedInstr_consumesClocks txaOp_blind.opc h
  | tya => exact impliedInstr_consumesClocks tyaOp_blind.opc h
  | tsx => exact impliedInstr_consumesClocks tsxOp_blind.opc h
  | txs => exact impliedInstr_consumesClocks txsOp_blind.opc h
  | inx => exact impliedInstr_consumesClocks inxOp_blind.opc h
  | iny => exact impliedInstr_consumesClocks inyOp_blind.opc h
  | dex => exact impliedInstr_consumesClocks dexOp_blind.opc h
  | dey => exact impliedInstr_consumesClocks deyOp_blind.opc h
  | clc => exact impliedInstr_consumesClocks clcOp_blind.opc h
  | sec => exact impliedInstr_consumesClocks secOp_blind.opc h
  | cli => exact impliedInstr_consumesClocks cliOp_blind.opc h
  | sei => exact impliedInstr_consumesClocks seiOp_blind.opc h
  | cld => exact impliedInstr_consumesClocks cldOp_blind.opc h
  | sed => exact impliedInstr_consumesClocks sedOp_blind.opc h
  | clv => exact impliedInstr_consumesClocks clvOp_blind.opc h
  | pha => exact impliedInstr_consumesClocks phaOp_blind.opc h
  | php => exact impliedInstr_consumesClocks phpOp_blind.opc h
  | pla => exact impliedInstr_consumesClocks plaOp_blind.opc h
  | plp => exact impliedInstr_consumesClocks plpOp_blind.opc h
  | jsr target => exact impliedInstr_consumesClocks jsrOp_opc h
  | rts => exact impliedInstr_consumesClocks rtsOp_opc h
  | rti => exact impliedInstr_consumesClocks returnFromInterrupt_opc h
  | brk => exact impliedInstr_consumesClocks brkOp_opc h
  | jmp o => exact jmp_consumesClocks h
  | bcc off | bcs off | beq off | bne off | bmi off | bpl off | bvc off | bvs off => cases hb
  | jam opcode => cases hj

theorem State.clocks_eq (s : State) (crossed : Bool) :
    s.clocks crossed =
      declaredCycles s.opc + (if (operation s.opc).pagePenalty = true ∧ crossed = true then 1 else 0) := by
  simp [State.clocks, bitOf]

/-- Settles O13: the declared count, and the page penalty of the address the mode computes. -/
theorem declaredCyclesConsumed : Obligations.DeclaredCyclesConsumed := by
  unfold Obligations.DeclaredCyclesConsumed
  intro i s u hj hb h
  have hc := exec_consumesClocks hj hb h
  refine ⟨fun hm => ?_, fun m r t hm hr => ?_⟩
  · rw [hm] at hc
    exact hc.trans (by simp [State.clocks_eq])
  · rw [hm] at hc
    exact (hc r t hr).trans (s.clocks_eq r.crossed)

/-! ### SBX -/

theorem sbxOp_of_unsupported {s : State} (hm : s.params.sbxMode = .unsupported) (v : Byte) :
    sbxOp v s = .error s.unsupported := by
  simp [sbxOp, hm]

theorem sbxOp_of_silicon {s : State} (hm : s.params.sbxMode = .silicon) (ha : Cell.a ∉ s.unwritten)
    (hx : Cell.x ∉ s.unwritten) (v : Byte) :
    sbxOp v s = .ok (((s.setC (decide (v.toNat ≤ (s.a &&& s.x).toNat))).setX ((s.a &&& s.x) - v)).setNZ
      ((s.a &&& s.x) - v)) := by
  simp [sbxOp, hm, readA_of_written ha, readX_of_written hx]

/-- SBX executes under `SBX_MODE = silicon` only (R328). -/
theorem sbx_executes {v : Byte} {params : Config.Params} :
    (Instr.sbx v).executes params = true ↔ params.sbxMode = .silicon := by
  simp [Instr.executes, Instr.mnemonic, Mnemonic.unstable]

/-- Settles O50: the operation under each value of the parameter, on an operand that makes no access. -/
theorem sbxByMode : Obligations.SbxByMode := by
  unfold Obligations.SbxByMode
  intro s v
  refine ⟨fun hm => ?_, fun hc => ?_⟩
  · exact finish_fault.2 (by simp [accessOperand, sbxOp_of_unsupported hm, State.unsupported])
  · obtain ⟨hexec, written, -⟩ := hc
    have hm : s.params.sbxMode = .silicon := sbx_executes.1 hexec
    refine ⟨hm, fun t ht => ?_⟩
    subst ht
    have hop := sbxOp_of_silicon hm (written .a (by simp [Instr.reads])) (written .x (by simp [Instr.reads])) v
    exact .readImm hop ((((State.Agrees.refl s).setC _).setX _).setNZ _)

end Sys2Proof.Machine
end

section
/-! PROOFS. How each instruction runs, in terms of the cycle level's tables: the clocks of an instruction or an
interrupt entry end in the state of the step (R160, R162), and completion converges (R150). -/

namespace Sys2Proof.Machine

/-! ### How an instruction runs -/

theorem saxValue_internal {s : State} (d : Internal) {v : Byte} (h : saxValue s = .ok v) :
    saxValue (s.withInternal d) = .ok v := by
  obtain ⟨a, ha, h⟩ := bind_ok h
  obtain ⟨x, hx, h⟩ := bind_ok h
  exact bind_of_ok (readA_internal d ha) (bind_of_ok (readX_internal d hx) h)

/-- How an instruction runs: the skeleton of its class, with the operation that the cycle level's tables have for its
mnemonic (blind to the internal cells), on the operand that its bytes are. The jumps, JAM and the special instructions
other than PHA, PHP, PLA and PLP stand for themselves. -/
inductive RunsAs (i : Instr) : Prop
  | read (o : ReadOperand) (op : Byte → State → Except Fault State) (run : exec i = readInstr o op)
      (table : readOp i.mnemonic = some op) (operand : i.mode = o.mode ∧ i.operandBytes = o.bytes)
      (blind : ∀ v, Blind (op v))
  | write (m : MemMode) (value : State → Except Fault Byte) (run : exec i = writeInstr m value)
      (table : writeValue i.mnemonic = some value) (operand : i.mode = m.mode ∧ i.operandBytes = m.bytes)
      (blind : ∀ s v d, value s = .ok v → value (State.withInternal s d) = .ok v)
  | modify (m : MemMode) (op : Word → Byte → State → Except Fault State) (run : exec i = rmwInstr m op)
      (table : rmwOp i.mnemonic = some op) (operand : i.mode = m.mode ∧ i.operandBytes = m.bytes)
      (blind : ∀ ea v, Blind (op ea v))
  | implied (op : State → Except Fault State) (run : exec i = impliedInstr op)
      (table : impliedOp i.mnemonic = some op) (operand : i.mode = .imp ∨ i.mode = .acc) (blind : Blind op)
  | branch (cell : Cell) (flag : Status → Bool) (want : Bool) (penalty : Config.BranchPagePenalty → Bool) (off : Byte)
      (run : exec i = branchInstr cell flag want penalty off)
      (table : ∀ s, branchCondition s i.mnemonic =
        some ⟨cell, flag s.p == want, penalty s.params.branchPagePenalty⟩)
      (operand : i.mode = .rel ∧ i.operandBytes = [off])
  | jmp (o : JumpOperand) (self : i = .jmp o)
  | jsr (target : Word) (self : i = .jsr target)
  | rts (self : i = .rts)
  | rti (self : i = .rti)
  | brk (self : i = .brk)
  | jam (opcode : Byte) (self : i = .jam opcode)

/-- Every arm of `exec` runs the operation that the last clock of its schedule runs. -/
theorem exec_runsAs (i : Instr) : RunsAs i := by
  cases i with
  | lda o => exact .read o _ rfl rfl ⟨rfl, rfl⟩ ldaOp_blind
  | ldx o => exact .read o _ rfl rfl ⟨rfl, rfl⟩ ldxOp_blind
  | ldy o => exact .read o _ rfl rfl ⟨rfl, rfl⟩ ldyOp_blind
  | adc o => exact .read o _ rfl rfl ⟨rfl, rfl⟩ adcOp_blind
  | sbc o => exact .read o _ rfl rfl ⟨rfl, rfl⟩ sbcOp_blind
  | and o => exact .read o _ rfl rfl ⟨rfl, rfl⟩ andOp_blind
  | ora o => exact .read o _ rfl rfl ⟨rfl, rfl⟩ oraOp_blind
  | eor o => exact .read o _ rfl rfl ⟨rfl, rfl⟩ eorOp_blind
  | cmp o => exact .read o _ rfl rfl ⟨rfl, rfl⟩ cmpOp_blind
  | cpx o => exact .read o _ rfl rfl ⟨rfl, rfl⟩ cpxOp_blind
  | cpy o => exact .read o _ rfl rfl ⟨rfl, rfl⟩ cpyOp_blind
  | bit m => exact .read (.mem m) _ rfl rfl ⟨rfl, rfl⟩ bitOp_blind
  | lax m => exact .read (.mem m) _ rfl rfl ⟨rfl, rfl⟩ laxOp_blind
  | las m => exact .read (.mem m) _ rfl rfl ⟨rfl, rfl⟩ unstableOp_blind
  | anc opcode v => exact .read (.imm v) _ rfl rfl ⟨rfl, rfl⟩ ancOp_blind
  | alr v => exact .read (.imm v) _ rfl rfl ⟨rfl, rfl⟩ alrOp_blind
  | arr v => exact .read (.imm v) _ rfl rfl ⟨rfl, rfl⟩ arrOp_blind
  | usbc v => exact .read (.imm v) _ rfl rfl ⟨rfl, rfl⟩ sbcOp_blind
  | sbx v => exact .read (.imm v) _ rfl rfl ⟨rfl, rfl⟩ sbxOp_blind
  | ane v | lxa v => exact .read (.imm v) _ rfl rfl ⟨rfl, rfl⟩ unstableOp_blind
  | nop opcode o =>
    cases o with
    | implied => exact .implied _ rfl rfl (.inl rfl) nopOp_blind
    | imm v => exact .read (.imm v) _ rfl rfl ⟨rfl, rfl⟩ nopReadOp_blind
    | mem m => exact .read (.mem m) _ rfl rfl ⟨rfl, rfl⟩ nopReadOp_blind
  | sta m => exact .write m _ rfl rfl ⟨rfl, rfl⟩ fun _ _ d => readA_internal d
  | stx m => exact .write m _ rfl rfl ⟨rfl, rfl⟩ fun _ _ d => readX_internal d
  | sty m => exact .write m _ rfl rfl ⟨rfl, rfl⟩ fun _ _ d => readY_internal d
  | sax m => exact .write m _ rfl rfl ⟨rfl, rfl⟩ fun _ _ d => saxValue_internal d
  | sha m | tas m | shy m | shx m => exact .write m _ rfl rfl ⟨rfl, rfl⟩ fun _ _ _ h => nomatch h
  | inc m => exact .modify m _ rfl rfl ⟨rfl, rfl⟩ incOp_blind
  | dec m => exact .modify m _ rfl rfl ⟨rfl, rfl⟩ decOp_blind
  | slo m => exact .modify m _ rfl rfl ⟨rfl, rfl⟩ sloOp_blind
  | rla m => exact .modify m _ rfl rfl ⟨rfl, rfl⟩ rlaOp_blind
  | sre m => exact .modify m _ rfl rfl ⟨rfl, rfl⟩ sreOp_blind
  | rra m => exact .modify m _ rfl rfl ⟨rfl, rfl⟩ rraOp_blind
  | dcp m => exact .modify m _ rfl rfl ⟨rfl, rfl⟩ dcpOp_blind
  | isc m => exact .modify m _ rfl rfl ⟨rfl, rfl⟩ iscOp_blind
  | asl o =>
    cases o with
    | acc => exact .implied _ rfl rfl (.inr rfl) (shiftAcc_blind aslByte)
    | mem m => exact .modify m _ rfl rfl ⟨rfl, rfl⟩ (shiftMem_blind aslByte)
  | lsr o =>
    cases o with
    | acc => exact .implied _ rfl rfl (.inr rfl) (shiftAcc_blind lsrByte)
    | mem m => exact .modify m _ rfl rfl ⟨rfl, rfl⟩ (shiftMem_blind lsrByte)
  | rol o =>
    cases o with
    | acc => exact .implied _ rfl rfl (.inr rfl) (rotateAcc_blind rolByte)
    | mem m => exact .modify m _ rfl rfl ⟨rfl, rfl⟩ (rotateMem_blind rolByte)
  | ror o =>
    cases o with
    | acc => exact .implied _ rfl rfl (.inr rfl) (rotateAcc_blind rorByte)
    | mem m => exact .modify m _ rfl rfl ⟨rfl, rfl⟩ (rotateMem_blind rorByte)
  | tax => exact .implied _ rfl rfl (.inl rfl) taxOp_blind
  | tay => exact .implied _ rfl rfl (.inl rfl) tayOp_blind
  | txa => exact .implied _ rfl rfl (.inl rfl) txaOp_blind
  | tya => exact .implied _ rfl rfl (.inl rfl) tyaOp_blind
  | tsx => exact .implied _ rfl rfl (.inl rfl) tsxOp_blind
  | txs => exact .implied _ rfl rfl (.inl rfl) txsOp_blind
  | inx => exact .implied _ rfl rfl (.inl rfl) inxOp_blind
  | iny => exact .implied _ rfl rfl (.inl rfl) inyOp_blind
  | dex => exact .implied _ rfl rfl (.inl rfl) dexOp_blind
  | dey => exact .implied _ rfl rfl (.inl rfl) deyOp_blind
  | clc => exact .implied _ rfl rfl (.inl rfl) clcOp_blind
  | sec => exact .implied _ rfl rfl (.inl rfl) secOp_blind
  | cli => exact .implied _ rfl rfl (.inl rfl) cliOp_blind
  | sei => exact .implied _ rfl rfl (.inl rfl) seiOp_blind
  | cld => exact .implied _ rfl rfl (.inl rfl) cldOp_blind
  | sed => exact .implied _ rfl rfl (.inl rfl) sedOp_blind
  | clv => exact .implied _ rfl rfl (.inl rfl) clvOp_blind
  | pha => exact .implied _ rfl rfl (.inl rfl) phaOp_blind
  | php => exact .implied _ rfl rfl (.inl rfl) phpOp_blind
  | pla => exact .implied _ rfl rfl (.inl rfl) plaOp_blind
  | plp => exact .implied _ rfl rfl (.inl rfl) plpOp_blind
  | bcc off | bcs off | beq off | bne off | bmi off | bpl off | bvc off | bvs off =>
    exact .branch _ _ _ _ off rfl (fun _ => rfl) ⟨rfl, rfl⟩
  | jmp o => exact .jmp o rfl
  | jsr target => exact .jsr target rfl
  | rts => exact .rts rfl
  | rti => exact .rti rfl
  | brk => exact .brk rfl
  | jam opcode => exact .jam opcode rfl

/-! ### The row of a fetched instruction -/

/-- What the decoder makes of an opcode byte and two bytes has the row of that opcode and its operand bytes. -/
theorem has_of_decodeBytes {opcode b1 b2 : Byte} {i : Instr} (h : some i = decodeBytes opcode b1 b2) :
    i.Has (operation opcode).mnemonic (operation opcode).mode opcode b1 b2 := by
  obtain ⟨j, hj, hi⟩ := decodeBytes_has opcode b1 b2
  cases h.trans hj
  exact hi

theorem memMode_take (mode : Mode) (b1 b2 : Byte) :
    memMode mode (operandPair ([b1, b2].take (mode.length - 1))).1 (operandPair ([b1, b2].take (mode.length - 1))).2 =
      memMode mode b1 b2 := by
  cases mode <;> rfl

theorem memMode_of_bytes {m : MemMode} {b1 b2 : Byte} (h : m.bytes = [b1, b2].take (m.mode.length - 1)) :
    memMode m.mode b1 b2 = some m := by
  rw [← memMode_take, ← h, memMode_bytes]

theorem jumpOperand_of_bytes {o : JumpOperand} {b1 b2 : Byte} (h : o.bytes = [b1, b2]) :
    jumpOperand o.mode b1 b2 = some o := by
  have ho := jumpOperand_bytes o
  rw [h] at ho
  exact ho

theorem addressing_mode (m : MemMode) : addressing m.mode = true := by cases m <;> rfl

/-- The class of a row is that of the cycle level's table with its mnemonic, the implied and accumulator forms apart. -/
theorem cls_of_readOp : ∀ opcode : Byte, (readOp (operation opcode).mnemonic).isSome = true →
    (operation opcode).mode = .imm ∨ addressing (operation opcode).mode = true →
    (operation opcode).cls = .read := by decide

theorem cls_of_writeValue : ∀ opcode : Byte, (writeValue (operation opcode).mnemonic).isSome = true →
    (operation opcode).cls = .write := by decide

theorem cls_of_rmwOp : ∀ opcode : Byte, (rmwOp (operation opcode).mnemonic).isSome = true →
    addressing (operation opcode).mode = true → (operation opcode).cls = .rmw := by decide

theorem cls_of_rel : ∀ opcode : Byte, (operation opcode).mode = .rel → (operation opcode).cls = .branch := by decide

theorem cls_of_jmp : ∀ opcode : Byte, (operation opcode).mnemonic = .JMP → (operation opcode).cls = .jump := by decide

/-- Of the implied operations, the pushes and the pulls are special. -/
theorem cls_of_impliedOp : ∀ opcode : Byte, (impliedOp (operation opcode).mnemonic).isSome = true →
    (operation opcode).mode = .imp ∨ (operation opcode).mode = .acc →
    (operation opcode).cls = .implied ∨ ((operation opcode).cls = .special ∧
      ((operation opcode).mnemonic = .PHA ∨ (operation opcode).mnemonic = .PHP ∨
        (operation opcode).mnemonic = .PLA ∨ (operation opcode).mnemonic = .PLP)) := by decide

theorem cls_of_special : ∀ opcode : Byte, (operation opcode).mnemonic ∈ [Mnemonic.JSR, .RTS, .RTI, .BRK] →
    (operation opcode).cls = .special := by decide

/-! ### The clocks of a fetched instruction -/

section
variable {s t t1 r : State} {opc : Byte} {i : Instr}

theorem Fetched.has (h : Fetched s opc t i t1) :
    ∃ b1 b2, i.Has (operation opc).mnemonic (operation opc).mode opc b1 b2 := by
  obtain ⟨b1, b2, hi, -⟩ := State.fetchOperands_ok h.operands
  exact ⟨b1, b2, has_of_decodeBytes hi⟩

/-- The operand in memory is the decoder's, whatever bytes the instruction was decoded from. -/
theorem memMode_of_decodeBytes {m : MemMode} (operand : i.mode = m.mode ∧ i.operandBytes = m.bytes) :
    ∀ b1 b2, some i = decodeBytes opc b1 b2 → memMode (operation opc).mode b1 b2 = some m := by
  obtain ⟨hmode, hbytes⟩ := operand
  intro b1 b2 hi
  have hhas := has_of_decodeBytes hi
  have hm : (operation opc).mode = m.mode := hhas.mode_eq.symm.trans hmode
  rw [hm]
  exact memMode_of_bytes (by rw [← hbytes, hhas.bytes, hm])

/-- The operand byte of a two-byte instruction. -/
theorem first_of_decodeBytes {b : Byte} (hlen : i.mode.length = 2) (hbytes : i.operandBytes = [b]) :
    ∀ b1 b2, some i = decodeBytes opc b1 b2 → b1 = b := by
  intro b1 b2 hi
  have hhas := has_of_decodeBytes hi
  have hb := hhas.bytes
  rw [hbytes, ← hhas.mode_eq, hlen] at hb
  exact (List.cons.inj hb).1.symm

theorem Fetched.refines_read {o : ReadOperand} {op : Byte → State → Except Fault State} (h : Fetched s opc t i t1)
    (table : readOp i.mnemonic = some op) (operand : i.mode = o.mode ∧ i.operandBytes = o.bytes)
    (blind : ∀ v, Blind (op v)) (hr : readInstr o op t1 = .next r) :
    Refined s r (r.prevAmCycles + r.prevOpCycles) := by
  obtain ⟨_, _, hhas⟩ := h.has
  have hop : readOp (operation opc).mnemonic = some op := hhas.mnemonic ▸ table
  have hmode : (operation opc).mode = o.mode := hhas.mode_eq.symm.trans operand.1
  have hcls := cls_of_readOp opc (by simp [hop])
  cases o with
  | imm v =>
    exact h.readImm (hcls (.inl hmode)) hmode hop blind (first_of_decodeBytes (by rw [operand.1]; rfl) operand.2) hr
  | mem m =>
    have haddr : addressing (operation opc).mode = true := hmode ▸ addressing_mode m
    exact h.read (hcls (.inr haddr)) haddr hop blind (memMode_of_decodeBytes operand) hr

theorem Fetched.refines_implied {op : State → Except Fault State} (h : Fetched s opc t i t1)
    (table : impliedOp i.mnemonic = some op) (operand : i.mode = .imp ∨ i.mode = .acc) (blind : Blind op)
    (hr : impliedInstr op t1 = .next r) : Refined s r (r.prevAmCycles + r.prevOpCycles) := by
  obtain ⟨_, _, hhas⟩ := h.has
  have hop : impliedOp (operation opc).mnemonic = some op := hhas.mnemonic ▸ table
  rcases cls_of_impliedOp opc (by simp [hop]) (hhas.mode_eq ▸ operand) with hcls | ⟨hcls, hmn⟩
  · exact h.implied hcls hop blind hr
  · exact h.stack hcls hmn hop blind hr

theorem Fetched.refines_jmp {o : JumpOperand} (h : Fetched s opc t (.jmp o) t1)
    (hr : execJmp o t1 = .next r) : Refined s r (r.prevAmCycles + r.prevOpCycles) := by
  obtain ⟨_, _, hhas⟩ := h.has
  refine h.jump (cls_of_jmp opc hhas.mnemonic.symm) (fun b1 b2 hi => ?_) hr
  have hhas := has_of_decodeBytes hi
  have hmode : (operation opc).mode = o.mode := hhas.mode_eq.symm
  rw [hmode]
  exact jumpOperand_of_bytes (hhas.bytes.trans (by rw [hmode]; cases o <;> rfl))

theorem Fetched.refines_jsr {target : Word} (h : Fetched s opc t (.jsr target) t1)
    (hr : execJsr target t1 = .next r) : Refined s r (r.prevAmCycles + r.prevOpCycles) := by
  obtain ⟨_, _, hhas⟩ := h.has
  refine h.jsr (cls_of_special opc (by simp [← hhas.mnemonic, Instr.mnemonic])) hhas.mnemonic.symm
    (fun b1 b2 hi => ?_) hr
  have hhas := has_of_decodeBytes hi
  have hb : wordBytes target = [b1, b2].take ((operation opc).mode.length - 1) := hhas.bytes
  rw [← hhas.mode_eq] at hb
  exact (List.cons.inj hb).1

/-- The clocks of a fetched instruction that completes. -/
theorem Fetched.refines (h : Fetched s opc t i t1) (hj : i.isJam = false) (hr : exec i t1 = .next r) :
    Refined s r (r.prevAmCycles + r.prevOpCycles) := by
  obtain ⟨_, _, hhas⟩ := h.has
  have special (hmn : i.mnemonic ∈ [Mnemonic.JSR, .RTS, .RTI, .BRK]) : (operation opc).cls = .special :=
    cls_of_special opc (hhas.mnemonic ▸ hmn)
  cases exec_runsAs i with
  | read o op run table operand blind =>
    exact h.refines_read table operand blind (run ▸ hr)
  | write m value run table operand blind =>
    have hop : writeValue (operation opc).mnemonic = some value := hhas.mnemonic ▸ table
    exact h.write (cls_of_writeValue opc (by simp [hop])) hop blind (memMode_of_decodeBytes operand) (run ▸ hr)
  | modify m op run table operand blind =>
    have hop : rmwOp (operation opc).mnemonic = some op := hhas.mnemonic ▸ table
    have haddr : addressing (operation opc).mode = true := hhas.mode_eq ▸ operand.1 ▸ addressing_mode m
    exact h.rmw (cls_of_rmwOp opc (by simp [hop]) haddr) hop blind (memMode_of_decodeBytes operand) (run ▸ hr)
  | implied op run table operand blind =>
    exact h.refines_implied table operand blind (run ▸ hr)
  | branch cell flag want penalty off run table operand =>
    exact h.branch (cls_of_rel opc (hhas.mode_eq ▸ operand.1)) (hhas.mnemonic ▸ table)
      (first_of_decodeBytes (by rw [operand.1]; rfl) operand.2) (run ▸ hr)
  | jmp o self => subst self; exact h.refines_jmp hr
  | jsr target self => subst self; exact h.refines_jsr hr
  | rts self => subst self; exact h.rts (special (by decide)) hhas.mnemonic.symm hr
  | rti self => subst self; exact h.rti (special (by decide)) hhas.mnemonic.symm hr
  | brk self => subst self; exact h.brk (special (by decide)) hhas.mnemonic.symm hr
  | jam opcode self => subst self; cases hj

end

/-! ### The refinement -/

/-- An instruction other than JAM leaves `jammed` alone. -/
theorem exec_jammed {i : Instr} {s t : State} (hj : i.isJam = false) (hdb : Cell.db ∉ s.unwritten)
    (h : exec i s = .next t) : t.jammed = s.jammed := by
  obtain ⟨w, n, rfl, hw⟩ := exec_completesAs hj hdb h
  exact hw.latches.2.1

/-- The fetch of an instruction leaves `jammed` alone. -/
theorem fetchInstr_jammed {o : Option Instr} {s t : State} (h : s.fetchInstr = .ok (o, t)) :
    Cell.db ∉ t.unwritten ∧ t.jammed = s.jammed := by
  obtain ⟨hw, hdb, -⟩ := fetchInstr_effect h
  exact ⟨hdb, hw.latches.2.1⟩

/-- The clocks of an instruction, counted as the statement counts them. -/
theorem refined_instruction {s u t : State} {i : Instr} (hs : s.BoundaryInv) (hj : s.jammed = false)
    (hn : s.force.interruptTaken = none) (hf : s.force.fetchInstr = .ok (some i, u)) (hx : exec i u = .next t) :
    Refined s t (if t.jammed then 1 else t.prevAmCycles + t.prevOpCycles) := by
  obtain ⟨opc, v, ho, hops⟩ := State.fetchInstr_ok hf
  have h : Fetched s opc v i u := ⟨hs, hj, hn, ho, hops⟩
  cases hjam : i.isJam with
  | true =>
    obtain ⟨opcode, rfl⟩ := isJam_iff.1 hjam
    obtain ⟨_, _, hhas⟩ := h.has
    have hr := h.jam hhas.mnemonic.symm hhas.mode_eq.symm hx
    cases hx
    exact hr
  | false =>
    obtain ⟨hdb, hju⟩ := fetchInstr_jammed hf
    have htj : t.jammed = false := (exec_jammed hjam hdb hx).trans (hju.trans hj)
    rw [htj]
    exact h.refines hjam hx

/-- The clocks of an interrupt entry, counted as the statement counts them. -/
theorem refined_entry {s t : State} {k : Interrupt} (hs : s.BoundaryInv) (hj : s.jammed = false)
    (hk : s.force.interruptTaken = some k) (he : s.force.enterInterrupt k = .ok t) :
    Refined s t (if t.jammed then 1 else t.prevAmCycles + t.prevOpCycles) := by
  have hr := refined_interrupt hs hj hk he
  obtain ⟨target, u, hw, rfl⟩ := enterInterrupt_ok he
  have htj : ((u.commitEntry k target).complete 7).jammed = false := hw.latches.2.1.trans hj
  rw [htj]
  exact hr.latched

/-- Settles O10: the step is an interrupt entry or runs the instruction fetched at PC, and the clocks of either end in
the state it ends in. -/
theorem clocksRefineStep : Obligations.ClocksRefineStep := by
  unfold Obligations.ClocksRefineStep
  intro s t hs hj h
  have hr : Refined s t (if t.jammed then 1 else t.prevAmCycles + t.prevOpCycles) := by
    obtain ⟨-, -, -, -, ⟨k, hk, he⟩ | ⟨hn, i, u, hf, hx⟩⟩ := step_cases h
    · exact refined_entry hs hj hk he
    · exact refined_instruction hs hj hn hf hx
  obtain ⟨w, hw, hobs, hquiet⟩ := hr
  exact ⟨_, w, hw, hobs, rfl, hquiet⟩

/-! ### Completion -/

/-- An instruction other than JAM ends in `Complete()`. -/
theorem exec_completes {i : Instr} {s u : State} (hj : i.isJam = false) (h : exec i s = .next u) :
    ∃ (w : State) (n : Nat), u = w.complete n := by
  cases exec_runsAs i with
  | read o op run =>
    obtain ⟨v, crossed, t, w, -, -, rfl⟩ := readInstr_ok (run ▸ h)
    exact ⟨w, _, rfl⟩
  | write m value run =>
    obtain ⟨q, t, v, -, -, rfl⟩ := writeInstr_ok (run ▸ h)
    exact ⟨_, _, rfl⟩
  | modify m op run =>
    obtain ⟨q, v, t, w, -, -, rfl⟩ := rmwInstr_ok (run ▸ h)
    exact ⟨w, _, rfl⟩
  | implied op run =>
    obtain ⟨w, -, rfl⟩ := impliedInstr_ok (run ▸ h)
    exact ⟨w, _, rfl⟩
  | branch cell flag want penalty off run =>
    obtain ⟨w, n, hu, -⟩ := branchInstr_ok (run ▸ h)
    exact ⟨w, n, hu⟩
  | jmp o self =>
    subst self
    cases o with
    | abs target => cases h; exact ⟨_, _, rfl⟩
    | ind ptr =>
      obtain ⟨target, t, n, -, hu⟩ := jumpIndirect_ok h
      exact ⟨_, n, hu⟩
  | jsr target self =>
    subst self
    obtain ⟨w, -, rfl⟩ := impliedInstr_ok h
    exact ⟨w, _, rfl⟩
  | rts self | rti self | brk self =>
    subst self
    obtain ⟨w, -, rfl⟩ := impliedInstr_ok h
    exact ⟨w, _, rfl⟩
  | jam opcode self => subst self; cases hj

/-- Settles O12: what `Complete()` leaves in the driver. -/
theorem completionConverges : Obligations.CompletionConverges := by
  unfold Obligations.CompletionConverges
  intro i s u hj h
  obtain ⟨w, n, rfl⟩ := exec_completes hj h
  obtain ⟨hab, ham, hop, hamc, hopc, -⟩ := w.complete_driver n
  exact ⟨hab, ham, hop, hamc, hopc⟩

end Sys2Proof.Machine
end

section
/-! PROOFS. The fetch of an instruction from bytes that RAM holds (R143, R180), and the step that runs it. -/

namespace Sys2Proof.Machine

/-! ### What a fetch latches -/

/-- `t` is `r` but for the bookkeeping, after a fetch has written the cells DB, PC and opc. -/
structure State.Latched (r t : State) : Prop where
  agrees : r.Agrees t
  marks  : ∀ cell, cell ∈ t.unwritten ↔ cell ∈ r.unwritten ∧ cell ∉ [Cell.db, .pc, .opc]

theorem State.Latched.peek {r t : State} (h : r.Latched t) (a : Word) : t.peek a = r.peek a := by
  obtain ⟨-, -, -, -, -, -, -, -, hdev, -⟩ := h.agrees.fields
  exact State.peek_congr hdev a

theorem State.Latched.pc {r t : State} (h : r.Latched t) : t.pc = r.pc := by
  obtain ⟨-, -, -, -, hpc, -⟩ := h.agrees.fields
  exact hpc

/-- A fetched byte moves PC and writes DB and PC. -/
theorem fetchByte_marks {s t : State} {v : Byte} (h : s.fetchByte = .ok (v, t)) :
    State.Agrees { s with pc := s.pc + 1 } t ∧
      ∀ cell, cell ∈ t.unwritten ↔ cell ∈ s.unwritten ∧ cell ∉ [Cell.db, .pc] := by
  obtain ⟨u, hr, rfl⟩ := State.fetchByte_ok h
  obtain ⟨-, -, -, -, hu⟩ := State.busRead_ok hr
  refine ⟨((State.Agrees.refl s).busRead hr).setPc (s.pc + 1), fun cell => ?_⟩
  rw [State.setPc, mem_wrote, hu]
  simp [and_assoc]

/-- The opcode fetch latches the byte read at PC, with its address (R143). -/
theorem fetchOpcode_latched {s t : State} {v : Byte} (h : s.fetchOpcode = .ok (v, t)) :
    State.Latched { s with pc := s.pc + 1, opc := v, pc0 := s.pc } t := by
  obtain ⟨u, hf, rfl⟩ := State.fetchOpcode_ok h
  obtain ⟨hu, hmarks⟩ := fetchByte_marks hf
  refine ⟨?_, fun cell => ?_⟩
  · unfold State.Agrees at hu ⊢
    rw [hu]
    rfl
  · show cell ∈ (u.wrote [.opc]).unwritten ↔ _
    rw [mem_wrote, hmarks]
    simp [and_assoc]

/-- An operand byte moves PC and writes no cell that the opcode fetch has not written. -/
theorem State.Latched.fetchByte {r t u : State} {v : Byte} (h : r.Latched t) (hf : t.fetchByte = .ok (v, u)) :
    State.Latched { r with pc := r.pc + 1 } u := by
  obtain ⟨hu, hmarks⟩ := fetchByte_marks hf
  refine ⟨?_, fun cell => ?_⟩
  · rw [h.pc] at hu
    have hr := h.agrees
    unfold State.Agrees at hu hr ⊢
    rw [hu, hr]
    rfl
  · rw [hmarks, h.marks]
    exact and_iff_left_of_imp fun ⟨_, hn⟩ hm => hn (List.mem_append_left [Cell.opc] hm)

/-! ### Bytes that RAM holds -/

theorem fetchByte_of_peek {s : State} {v : Byte} (h : s.peek s.pc = some v) : ∃ t, s.fetchByte = .ok (v, t) := by
  obtain ⟨t, hr⟩ := State.busRead_of_peek h
  exact ⟨_, bind_of_ok hr rfl⟩

theorem fetchOpcode_of_peek {s : State} {v : Byte} (h : s.peek s.pc = some v) : ∃ t, s.fetchOpcode = .ok (v, t) := by
  obtain ⟨t, hf⟩ := fetchByte_of_peek (s := { s with pc0 := s.pc }) h
  exact ⟨_, bind_of_ok hf rfl⟩

section
variable {s t u : State} {opcode b1 b2 : Byte}

theorem fetchOperands_one (hl : (operation opcode).mode.length = 1) :
    s.fetchOperands opcode = .ok (decodeBytes opcode 0 0, s) := by
  unfold State.fetchOperands
  rw [hl]
  rfl

theorem fetchOperands_two (hl : (operation opcode).mode.length = 2) (h1 : s.fetchByte = .ok (b1, t)) :
    s.fetchOperands opcode = .ok (decodeBytes opcode b1 0, t) := by
  unfold State.fetchOperands
  rw [hl]
  exact bind_of_ok h1 rfl

theorem fetchOperands_three (hl : (operation opcode).mode.length = 3) (hj : (operation opcode).mnemonic ≠ .JSR)
    (h1 : s.fetchByte = .ok (b1, t)) (h2 : t.fetchByte = .ok (b2, u)) :
    s.fetchOperands opcode = .ok (decodeBytes opcode b1 b2, u) := by
  unfold State.fetchOperands
  rw [hl]
  exact bind_of_ok h1 ((if_neg hj).trans (bind_of_ok h2 rfl))

/-- JSR's third byte is asked for, and the read is not kept (log 10). -/
theorem fetchOperands_jsr (hl : (operation opcode).mode.length = 3) (hj : (operation opcode).mnemonic = .JSR)
    (h1 : s.fetchByte = .ok (b1, t)) (h2 : t.busRead t.pc = .ok (b2, u)) :
    s.fetchOperands opcode = .ok (decodeBytes opcode b1 b2, t) := by
  unfold State.fetchOperands
  rw [hl]
  exact bind_of_ok h1 ((if_pos hj).trans (bind_of_ok h2 rfl))

end

theorem fetched_of_jsr {i : Instr} (h : i.mnemonic = .JSR) : i.fetched = 2 := if_pos h

theorem fetched_of_not_jsr {i : Instr} (h : i.mnemonic ≠ .JSR) : i.fetched = i.mode.length := if_neg h

theorem length_of_jsr {i : Instr} (h : i.mnemonic = .JSR) : i.mode.length = 3 := by
  cases i with
  | jsr target => rfl
  | _ => cases h

theorem fetched_of_short {i : Instr} (h : i.mode.length ≠ 3) : i.fetched = i.mode.length :=
  fetched_of_not_jsr fun hj => h (length_of_jsr hj)

/-- The operand fetch gives the instruction its bytes stand for, with PC past them, past the first alone for JSR (R180,
R271). -/
theorem fetchOperands_of_peeks {r t : State} {opcode b1 b2 : Byte} {i : Instr} {rest : List Byte} (h : r.Latched t)
    (hd : decode [opcode, b1, b2] = .ok (i, rest)) (h1 : 1 < i.mode.length → r.peek r.pc = some b1)
    (h2 : 2 < i.mode.length → r.peek (r.pc + 1) = some b2) :
    ∃ u, t.fetchOperands opcode = .ok (some i, u) ∧
      State.Latched { r with pc := r.pc + BitVec.ofNat 16 (i.fetched - 1) } u := by
  obtain ⟨opcode, tail, c1, c2, hbs, hs, hi⟩ := decode_ok hd
  cases hbs
  have hhas := has_of_decodeBytes hi.symm
  have hmn : (operation opcode).mnemonic = i.mnemonic := hhas.mnemonic.symm
  have hmode : (operation opcode).mode = i.mode := hhas.mode_eq.symm
  have first (hlt : 1 < i.mode.length) :
      ∃ u, t.fetchByte = .ok (b1, u) ∧ State.Latched { r with pc := r.pc + 1 } u := by
    obtain ⟨u, hf⟩ := fetchByte_of_peek (s := t) (v := b1) (by rw [h.peek, h.pc, h1 hlt])
    exact ⟨u, hf, h.fetchByte hf⟩
  rcases Mode.length_cases i.mode with hl | hl | hl
  · rw [fetched_of_short (by omega), hl]
    rw [splitInstr_one (hmode ▸ hl)] at hs
    cases hs
    exact ⟨t, by rw [fetchOperands_one (hmode ▸ hl), hi], by simpa using h⟩
  · rw [fetched_of_short (by omega), hl]
    rw [splitInstr_two (hmode ▸ hl)] at hs
    cases hs
    obtain ⟨u, hf, hu⟩ := first (by omega)
    exact ⟨u, by rw [fetchOperands_two (hmode ▸ hl) hf, hi], hu⟩
  · rw [splitInstr_three (hmode ▸ hl)] at hs
    cases hs
    obtain ⟨u, hf, hu⟩ := first (by omega)
    have hp : u.peek u.pc = some b2 := by
      rw [hu.peek, hu.pc]
      exact h2 (by omega)
    by_cases hj : i.mnemonic = .JSR
    · obtain ⟨w, hr⟩ := State.busRead_of_peek hp
      rw [fetched_of_jsr hj]
      exact ⟨u, by rw [fetchOperands_jsr (hmode ▸ hl) (hmn ▸ hj) hf hr, hi], hu⟩
    · obtain ⟨w, hg⟩ := fetchByte_of_peek hp
      have hw := hu.fetchByte hg
      rw [fetched_of_not_jsr hj, hl]
      rw [BitVec.add_assoc] at hw
      exact ⟨w, by rw [fetchOperands_three (hmode ▸ hl) (hmn ▸ hj) hf hg, hi], hw⟩

theorem fetched_pos (i : Instr) : 1 ≤ i.fetched := by
  unfold Instr.fetched
  split
  · omega
  · rcases Mode.length_cases i.mode with h | h | h <;> omega

/-- PC past the opcode byte and then past the operand bytes fetched. -/
theorem pc_past_fetched (pc : Word) (i : Instr) :
    pc + 1 + BitVec.ofNat 16 (i.fetched - 1) = pc + BitVec.ofNat 16 i.fetched := by
  have h : 1#16 + BitVec.ofNat 16 (i.fetched - 1) = BitVec.ofNat 16 i.fetched := by
    rw [← BitVec.ofNat_add, Nat.add_sub_cancel' (fetched_pos i)]
  exact (BitVec.add_assoc ..).trans (congrArg (pc + ·) h)

/-- The fetch of an instruction whose bytes RAM holds at PC. -/
theorem fetchInstr_of_peeks {s : State} {opcode b1 b2 : Byte} {i : Instr} {rest : List Byte}
    (hd : decode [opcode, b1, b2] = .ok (i, rest)) (h0 : s.peek s.pc = some opcode)
    (h1 : 1 < i.mode.length → s.peek (s.pc + 1) = some b1) (h2 : 2 < i.mode.length → s.peek (s.pc + 2) = some b2) :
    ∃ t, s.fetchInstr = .ok (some i, t) ∧
      State.Latched { s with pc := s.pc + BitVec.ofNat 16 i.fetched, opc := opcode, pc0 := s.pc } t := by
  obtain ⟨u, hu⟩ := fetchOpcode_of_peek h0
  have two : s.pc + 1 + 1 = s.pc + 2 := BitVec.add_assoc ..
  obtain ⟨t, ht, hl⟩ := fetchOperands_of_peeks (fetchOpcode_latched hu) hd h1 (two ▸ h2)
  dsimp only at hl
  rw [pc_past_fetched] at hl
  exact ⟨t, bind_of_ok hu ht, hl⟩

/-! ### The step of a running core -/

/-- Where no interrupt is taken, the step runs what the fetch reads. -/
theorem stepIdle_of_fetch {s t : State} {i : Instr} (hn : s.interruptTaken = none)
    (hf : s.fetchInstr = .ok (some i, t)) : stepIdle s = exec i t := by
  simp [stepIdle, hn, hf]

/-- Settles O5: the step runs what the fetch reads in the state with R and I forced; where RAM holds the bytes, the
fetch reads those. -/
theorem stepRunsDecodedInstruction : Obligations.StepRunsDecodedInstruction := by
  unfold Obligations.StepRunsDecodedInstruction
  intro s hpc hf hj hi hn
  have runs (i : Instr) (t : State) (h : s.force.fetchInstr = .ok (some i, t)) : step s = exec i t := by
    rw [step_of_running hpc hf hj hi]
    exact stepIdle_of_fetch (by rw [State.force_interruptTaken, hn]; rfl) h
  refine ⟨fun opcode b1 b2 i rest hd h0 h1 h2 => ?_, runs⟩
  obtain ⟨t, ht, hl⟩ := fetchInstr_of_peeks (s := s.force) hd h0 h1 h2
  exact ⟨t, runs i t ht, hl.agrees, hl.marks⟩

end Sys2Proof.Machine
end

section
/-! PROOFS. Effective addresses, the operand M, and the instructions whose results are their address's: the shifts of
memory, the branches and the jumps. -/

namespace Sys2Proof

/-! ### Bytes and words as numbers -/

theorem zext16_toNat (b : Byte) : (zext16 b).toNat = b.toNat :=
  BitVec.toNat_setWidth_of_le (by decide)

theorem hiByte_toNat (w : Word) : (hiByte w).toNat = w.toNat / 256 := by
  have := w.isLt
  rw [hiByte, BitVec.extractLsb'_toNat, Nat.shiftRight_eq_div_pow]
  omega

theorem wordOf_toNat (h l : Byte) : (wordOf h l).toNat = h.toNat * 256 + l.toNat := by
  rw [wordOf, BitVec.toNat_append, ← Nat.shiftLeft_add_eq_or_of_lt l.isLt, Nat.shiftLeft_eq]

namespace Machine

/-! ### Indexed addresses -/

/-- Zero-page indexing wraps in page zero. -/
theorem zext16_add_toNat (base index : Byte) : (zext16 (base + index)).toNat = (base.toNat + index.toNat) % 256 := by
  rw [zext16_toNat, BitVec.toNat_add]

/-- Indexing a word wraps at 2^16. -/
theorem indexed_ea_toNat (base : Word) (index : Byte) :
    (Resolved.indexed base index).ea.toNat = (base.toNat + index.toNat) % 65536 := by
  rw [Resolved.indexed, BitVec.toNat_add, zext16_toNat]

/-- An indexed address crosses a page when it lies in another page than its base. -/
theorem indexed_crossed_iff (base : Word) (index : Byte) :
    (Resolved.indexed base index).crossed = true ↔
      base.toNat / 256 ≠ (Resolved.indexed base index).ea.toNat / 256 := by
  rw [← hiByte_toNat, ← hiByte_toNat, Ne, BitVec.toNat_inj]
  exact bne_iff_ne

/-! ### The modes that read no memory -/

section
variable {s : State}

theorem resolve_zpx (zp : Byte) (hx : Cell.x ∉ s.unwritten) :
    resolve (.zpx zp) s = .ok (.fixed (zext16 (zp + s.x)), s) :=
  bind_of_ok (readX_of_written hx) rfl

theorem resolve_zpy (zp : Byte) (hy : Cell.y ∉ s.unwritten) :
    resolve (.zpy zp) s = .ok (.fixed (zext16 (zp + s.y)), s) :=
  bind_of_ok (readY_of_written hy) rfl

theorem resolve_abx (addr : Word) (hx : Cell.x ∉ s.unwritten) :
    resolve (.abx addr) s = .ok (.indexed addr s.x, s) :=
  bind_of_ok (readX_of_written hx) rfl

theorem resolve_aby (addr : Word) (hy : Cell.y ∉ s.unwritten) :
    resolve (.aby addr) s = .ok (.indexed addr s.y, s) :=
  bind_of_ok (readY_of_written hy) rfl

end

/-- Settles O21: each mode's address is its operand, or its operand indexed in page zero or over all addresses. -/
theorem directAddresses : Obligations.DirectAddresses := by
  unfold Obligations.DirectAddresses
  intro s zp addr
  refine ⟨rfl, rfl, fun hx => ⟨?_, ?_⟩, fun hy => ⟨?_, ?_⟩⟩
  · exact ⟨_, resolve_zpx zp hx, zext16_add_toNat zp s.x, rfl⟩
  · exact ⟨_, resolve_abx addr hx, indexed_ea_toNat addr s.x, indexed_crossed_iff addr s.x⟩
  · exact ⟨_, resolve_zpy zp hy, zext16_add_toNat zp s.y, rfl⟩
  · exact ⟨_, resolve_aby addr hy, indexed_ea_toNat addr s.y, indexed_crossed_iff addr s.y⟩

/-! ### The modes that read a pointer -/

/-- After a read no cell is unwritten that was written before it, nor is DB. -/
theorem busRead_written {s t : State} {a : Word} {v : Byte} (h : s.busRead a = .ok (v, t)) :
    Cell.db ∉ t.unwritten ∧ ∀ cell, cell ∉ s.unwritten → cell ∉ t.unwritten := by
  obtain ⟨-, -, -, -, hu⟩ := State.busRead_ok h
  rw [hu]
  exact ⟨by simp, fun cell hc hm => hc (List.mem_of_mem_filter hm)⟩

/-- A read leaves every RAM byte alone. -/
theorem busRead_peek {s t : State} {a : Word} {v : Byte} (h : s.busRead a = .ok (v, t)) (b : Word) :
    t.peek b = s.peek b := by
  obtain ⟨-, -, -, -, -, -, -, -, hdev, -⟩ := ((State.Agrees.refl s).busRead h).fields
  exact State.peek_congr hdev b

section
variable {s t u : State} {l h : Byte}

theorem readZeroPagePointer_of_reads {ptr : Byte} (h1 : s.busRead (zext16 ptr) = .ok (l, t))
    (h2 : t.busRead (zext16 (ptr + 1)) = .ok (h, u)) : s.readZeroPagePointer ptr = .ok (wordOf h l, u) :=
  bind_of_ok h1 (bind_of_ok h2 rfl)

theorem resolve_izx {ptr : Byte} (hx : Cell.x ∉ s.unwritten) (h1 : s.busRead (zext16 (ptr + s.x)) = .ok (l, t))
    (h2 : t.busRead (zext16 (ptr + s.x + 1)) = .ok (h, u)) :
    resolve (.izx ptr) s = .ok (.fixed (wordOf h l), u) :=
  bind_of_ok (readX_of_written hx) (bind_of_ok (readZeroPagePointer_of_reads h1 h2) rfl)

/-- Y is read after the pointer, whose two reads leave it alone. -/
theorem resolve_izy {ptr : Byte} (hy : Cell.y ∉ s.unwritten) (h1 : s.busRead (zext16 ptr) = .ok (l, t))
    (h2 : t.busRead (zext16 (ptr + 1)) = .ok (h, u)) :
    resolve (.izy ptr) s = .ok (.indexed (wordOf h l) s.y, u) := by
  have hyu : Cell.y ∉ u.unwritten := (busRead_written h2).2 _ ((busRead_written h1).2 _ hy)
  obtain ⟨-, -, yu, -⟩ := (((State.Agrees.refl s).busRead h1).busRead h2).fields
  rw [← yu]
  exact bind_of_ok (readZeroPagePointer_of_reads h1 h2) (bind_of_ok (readY_of_written hyu) rfl)

/-- The page of the base of IZY is the high byte of the pointer. -/
theorem indexed_wordOf_crossed_iff (h l index : Byte) :
    (Resolved.indexed (wordOf h l) index).crossed = true ↔
      h.toNat ≠ (Resolved.indexed (wordOf h l) index).ea.toNat / 256 := by
  rw [indexed_crossed_iff, ← hiByte_toNat, hiByte_wordOf]

/-- A read that DB or a plain RAM lets answer. -/
theorem busRead_answers {a : Word} (ha : Cell.db ∉ s.unwritten ∨ (s.peek a).isSome) :
    ∃ v t, s.busRead a = .ok (v, t) := by
  rcases ha with hdb | hp
  · exact State.busRead_completes a hdb
  · obtain ⟨b, hb⟩ := Option.isSome_iff_exists.1 hp
    obtain ⟨t, ht⟩ := State.busRead_of_peek hb
    exact ⟨b, t, ht⟩

/-- Two reads, one after the other, answer with the bytes of RAM wherever RAM holds them. -/
theorem readPair_answers (a b : Word) (ha : Cell.db ∉ s.unwritten ∨ (s.peek a).isSome) :
    ∃ l h t u, s.busRead a = .ok (l, t) ∧ t.busRead b = .ok (h, u) ∧
      (∀ v, s.peek a = some v → l = v) ∧ (∀ v, s.peek b = some v → h = v) := by
  obtain ⟨l, t, h1⟩ := busRead_answers ha
  obtain ⟨h, u, h2⟩ := State.busRead_completes b (busRead_written h1).1
  exact ⟨l, h, t, u, h1, h2, fun v => busRead_eq_of_peek h1,
    fun v hv => busRead_eq_of_peek h2 ((busRead_peek h1 b).trans hv)⟩

end

/-- Settles O22: the pointer is the word of the two bytes read; the first read leaves DB written, so the second is
answered. -/
theorem pointerAddresses : Obligations.PointerAddresses := by
  unfold Obligations.PointerAddresses
  intro s ptr
  refine ⟨fun hx l h t u h1 h2 => ?_, fun hy l h t u h1 h2 => ?_,
    fun first hfirst => readPair_answers _ _ hfirst⟩
  · exact ⟨((State.Agrees.refl s).busRead h1).busRead h2, _, resolve_izx hx h1 h2, wordOf_toNat h l, rfl⟩
  · refine ⟨((State.Agrees.refl s).busRead h1).busRead h2, _, resolve_izy hy h1 h2, ?_,
      indexed_wordOf_crossed_iff h l s.y⟩
    rw [indexed_ea_toNat, wordOf_toNat]

/-! ### The operand M -/

section
variable {m : MemMode} {s t u : State} {r : Resolved} {v : Byte}

theorem accessMem_of_read (hr : resolve m s = .ok (r, t)) (hb : t.busRead r.ea = .ok (v, u)) :
    accessMem m s = .ok (r, v, u) :=
  bind_of_ok hr (bind_of_ok hb rfl)

theorem accessOperand_of_read (hr : resolve m s = .ok (r, t)) (hb : t.busRead r.ea = .ok (v, u)) :
    accessOperand (.mem m) s = .ok (v, r.crossed, u) :=
  bind_of_ok (accessMem_of_read hr hb) rfl

end

/-- Settles O23: M is what one read at the mode's address answers, and the mode leaves every RAM byte alone. -/
theorem operandIsByteAtEffectiveAddress : Obligations.OperandIsByteAtEffectiveAddress := by
  unfold Obligations.OperandIsByteAtEffectiveAddress
  refine ⟨fun value s => rfl, fun m s t r hr => ⟨fun v u hb => ?_, fun v hv => ?_⟩⟩
  · exact ⟨accessMem_of_read hr hb, accessOperand_of_read hr hb⟩
  · have hmode := resolve_agrees hr
    obtain ⟨-, -, -, -, -, -, -, -, hdev, -⟩ := hmode.fields
    obtain ⟨u, hb⟩ := State.busRead_of_peek ((State.peek_congr hdev r.ea).trans hv)
    obtain ⟨-, hab, hrw, hdb, -⟩ := State.busRead_ok hb
    exact ⟨u, accessMem_of_read hr hb, hmode.busRead hb, hab, hrw, hdb⟩

/-! ### Shifts of memory -/

/-- A rotate is the shift by the carry it reads. -/
theorem rotateMem_of_written {s : State} (f : Byte → Bool → Byte × Bool) (ea : Word) (v : Byte)
    (hc : Cell.c ∉ s.unwritten) : rotateMem f ea v s = shiftMem (fun m => f m s.p.c) ea v s :=
  bind_of_ok (readC_of_written hc) rfl

section
variable {m : MemMode} {s : State} {op : Word → Byte → State → Except Fault State} {f : Byte → Byte × Bool}

/-- A read-modify-write instruction whose operation is a shift in every state its mode can leave. -/
theorem rmwInstr_shift (hdb : Cell.db ∉ s.unwritten) (hm : ∀ cell ∈ m.reads, cell ∉ s.unwritten)
    (hop : ∀ ea v t, s.BusOnly t → op ea v t = shiftMem f ea v t) :
    ∃ r v t, accessMem m s = .ok (r, v, t) ∧
      LeadsTo (rmwInstr m op s) s { s with p := { s.p.withNZ (f v).1 with c := (f v).2 } } [(r.ea, (f v).1)] := by
  obtain ⟨r, v, t, ha, ht⟩ := accessMem_completes hdb hm
  exact ⟨r, v, t, ha, .modify ha (hop r.ea v t ht) (((ht.agrees.stored r.ea (f v).1).setC (f v).2).setNZ (f v).1)⟩

/-- The same of a rotate, by the carry that was there before it. -/
theorem rmwInstr_rotate {g : Byte → Bool → Byte × Bool} (hdb : Cell.db ∉ s.unwritten)
    (hm : ∀ cell ∈ m.reads, cell ∉ s.unwritten) (hc : Cell.c ∉ s.unwritten) :
    ∃ r v t, accessMem m s = .ok (r, v, t) ∧
      LeadsTo (rmwInstr m (rotateMem g) s) s
        { s with p := { s.p.withNZ (g v s.p.c).1 with c := (g v s.p.c).2 } } [(r.ea, (g v s.p.c).1)] := by
  refine rmwInstr_shift (f := fun v => g v s.p.c) hdb hm fun ea v t ht => ?_
  obtain ⟨-, -, -, -, -, hp, -, -, -, -, hu, -, -⟩ := ht.fields
  rw [rotateMem_of_written g ea v (hu ▸ hc), hp]

end

/-- Settles O37: each is a shift of M, the rotates by the carry that was there. -/
theorem memoryShiftResults : Obligations.MemoryShiftResults := by
  unfold Obligations.MemoryShiftResults
  intro s m
  refine ⟨fun h => ?_, fun h => ?_, fun h => ?_, fun h => ?_⟩
  all_goals
    have hdb := h.written .db (by simp)
    have hm : ∀ cell ∈ m.reads, cell ∉ s.unwritten := fun cell hc => h.written cell (by simp [Instr.reads, hc])
  · exact rmwInstr_shift (f := aslByte) hdb hm fun _ _ _ _ => rfl
  · exact rmwInstr_shift (f := lsrByte) hdb hm fun _ _ _ _ => rfl
  · obtain ⟨r, v, t, ha, hl⟩ := rmwInstr_rotate (g := rolByte) hdb hm (h.written .c (by simp [Instr.reads]))
    rw [rolByte_eq] at hl
    exact ⟨r, v, t, ha, fun w hw => hw ▸ hl⟩
  · obtain ⟨r, v, t, ha, hl⟩ := rmwInstr_rotate (g := rorByte) hdb hm (h.written .c (by simp [Instr.reads]))
    rw [rorByte_eq] at hl
    exact ⟨r, v, t, ha, fun w hw => hw ▸ hl⟩

/-! ### Branches -/

/-- The branch target is the one word that is PC plus the signed offset, modulo 2^16. -/
theorem branchTarget_unique {pc target : Word} {off : Byte}
    (h : (target.toNat : Int) = (pc.toNat + off.toInt) % 65536) : branchTarget pc off = target :=
  BitVec.eq_of_toNat_eq (Int.ofNat.inj ((branchTarget_toNat pc off).trans h.symm))

section
variable {cell : Cell} {flag : Status → Bool} {want : Bool} {penalty : Config.BranchPagePenalty → Bool} {off : Byte}
  {s : State}

theorem branchInstr_next (hc : cell ∉ s.unwritten) : ∃ n, branchInstr cell flag want penalty off s =
    .next ((if flag s.p == want then s.setPc (branchTarget s.pc off) else s).complete n) :=
  ⟨_, congrArg finish (bind_of_ok (need_of_written hc) rfl)⟩

/-- A branch whose flag is written goes to its target or stays, and changes nothing else. -/
theorem branchInstr_leadsTo (hc : cell ∉ s.unwritten) : LeadsTo (branchInstr cell flag want penalty off s) s
    { s with pc := if flag s.p = want then branchTarget s.pc off else s.pc } [] := by
  obtain ⟨n, hn⟩ := branchInstr_next hc
  refine .intro hn (State.Agrees.complete ?_ n) .nil
  by_cases taken : flag s.p = want
  · rw [if_pos taken, if_pos (beq_iff_eq.2 taken)]
    exact (State.Agrees.refl s).setPc _
  · rw [if_neg taken, if_neg (mt beq_iff_eq.1 taken)]
    exact .refl s

end

/-- Settles O38: each of the eight is `branchInstr` on the flag cell it reads. -/
theorem branchResults : Obligations.BranchResults := by
  unfold Obligations.BranchResults
  intro branch flag want hmem off s hcomp target htarget
  rw [← branchTarget_unique htarget]
  simp only [List.mem_cons, List.not_mem_nil, or_false, Prod.mk.injEq] at hmem
  rcases hmem with ⟨rfl, rfl, rfl⟩ | ⟨rfl, rfl, rfl⟩ | ⟨rfl, rfl, rfl⟩ | ⟨rfl, rfl, rfl⟩ | ⟨rfl, rfl, rfl⟩ |
    ⟨rfl, rfl, rfl⟩ | ⟨rfl, rfl, rfl⟩ | ⟨rfl, rfl, rfl⟩
  all_goals exact branchInstr_leadsTo (hcomp.written _ (List.mem_cons_of_mem _ List.mem_cons_self))

/-! ### Jumps -/

theorem readIndirect_of_reads {s t u : State} {ptr : Word} {l h : Byte} (h1 : s.busRead ptr = .ok (l, t))
    (h2 : t.busRead (indirectHigh ptr) = .ok (h, u)) : s.readIndirect ptr = .ok (wordOf h l, u) :=
  bind_of_ok h1 (bind_of_ok h2 rfl)

theorem jumpAbsolute_leadsTo (s : State) (target : Word) :
    LeadsTo (exec (.jmp (.abs target)) s) s { s with pc := target } [] :=
  .intro rfl (((State.Agrees.refl s).setPc target).complete _) .nil

theorem jumpIndirect_leadsTo {s t u : State} {ptr : Word} {l h : Byte} (h1 : s.busRead ptr = .ok (l, t))
    (h2 : t.busRead (indirectHigh ptr) = .ok (h, u)) :
    LeadsTo (exec (.jmp (.ind ptr)) s) s { s with pc := wordOf h l } [] :=
  .intro (congrArg finish (bind_of_ok (readIndirect_of_reads h1 h2) rfl))
    (((((State.Agrees.refl s).busRead h1).busRead h2).setPc (wordOf h l)).complete _) .nil

/-- Settles O39: JMP ABS takes its operand, and JMP IND the word of its pointer's two bytes. -/
theorem jumpResults : Obligations.JumpResults := by
  unfold Obligations.JumpResults
  intro s
  refine ⟨fun target _ => jumpAbsolute_leadsTo s target, fun ptr hc => ?_⟩
  obtain ⟨l, h, t, u, h1, h2, hl, hh⟩ := readPair_answers ptr (indirectHigh ptr) (.inl (hc.written .db (by simp)))
  exact ⟨l, h, t, u, h1, h2, jumpIndirect_leadsTo h1 h2, hl, hh⟩

end Machine

end Sys2Proof
end

section
/-! PROOFS. The loads, and the register transfers. -/

namespace Sys2Proof.Machine

/-! ### Loads -/

section
variable {o : ReadOperand} {m : MemMode} {op : Byte → State → Except Fault State} {s : State} {result : Byte → State}

/-- A read instruction whose mode completes and whose operation, on any M and in any state the access can leave,
reaches the result of that M. -/
theorem readInstr_results (hdb : Cell.db ∉ s.unwritten) (ho : ∀ cell ∈ o.reads, cell ∉ s.unwritten)
    (hop : ∀ v t, s.BusOnly t → ∃ w, op v t = .ok w ∧ State.Agrees { result v with devices := s.devices } w) :
    ∃ v crossed t, accessOperand o s = .ok (v, crossed, t) ∧ LeadsTo (readInstr o op s) s (result v) [] := by
  obtain ⟨v, crossed, t, ha, ht⟩ := accessOperand_completes hdb ho
  obtain ⟨w, hw, agrees⟩ := hop v t ht
  exact ⟨v, crossed, t, ha, .read ha hw agrees⟩

/-- The same of a read instruction that has no immediate form. -/
theorem readInstr_mem_results (hdb : Cell.db ∉ s.unwritten) (hm : ∀ cell ∈ m.reads, cell ∉ s.unwritten)
    (hop : ∀ v t, s.BusOnly t → ∃ w, op v t = .ok w ∧ State.Agrees { result v with devices := s.devices } w) :
    ∃ r v t, accessMem m s = .ok (r, v, t) ∧ LeadsTo (readInstr (.mem m) op s) s (result v) [] := by
  obtain ⟨r, v, t, ha, ht⟩ := accessMem_completes hdb hm
  obtain ⟨w, hw, agrees⟩ := hop v t ht
  exact ⟨r, v, t, ha, .readMem ha hw agrees⟩

end

/-- Settles O26: each load commits M to its registers, then N and Z, in the state its access leaves. -/
theorem loadResults : Obligations.LoadResults := by
  unfold Obligations.LoadResults
  intro s
  refine ⟨fun o h => ?_, fun o h => ?_, fun o h => ?_, fun m h => ?_⟩
  all_goals
    have hdb := h.written .db List.mem_cons_self
    have hmode := fun cell hc => h.written cell (List.mem_cons_of_mem _ hc)
  · exact readInstr_results (op := ldaOp) hdb hmode fun v t ht => ⟨_, rfl, (ht.agrees.setA v).setNZ v⟩
  · exact readInstr_results (op := ldxOp) hdb hmode fun v t ht => ⟨_, rfl, (ht.agrees.setX v).setNZ v⟩
  · exact readInstr_results (op := ldyOp) hdb hmode fun v t ht => ⟨_, rfl, (ht.agrees.setY v).setNZ v⟩
  · exact readInstr_mem_results (op := laxOp) hdb hmode fun v t ht =>
      ⟨_, rfl, ((ht.agrees.setA v).setX v).setNZ v⟩

/-! ### Transfers -/

section
variable {s : State}

theorem taxOp_of_written (h : Cell.a ∉ s.unwritten) : taxOp s = .ok ((s.setX s.a).setNZ s.a) :=
  bind_of_ok (readA_of_written h) rfl

theorem tayOp_of_written (h : Cell.a ∉ s.unwritten) : tayOp s = .ok ((s.setY s.a).setNZ s.a) :=
  bind_of_ok (readA_of_written h) rfl

theorem txaOp_of_written (h : Cell.x ∉ s.unwritten) : txaOp s = .ok ((s.setA s.x).setNZ s.x) :=
  bind_of_ok (readX_of_written h) rfl

theorem tyaOp_of_written (h : Cell.y ∉ s.unwritten) : tyaOp s = .ok ((s.setA s.y).setNZ s.y) :=
  bind_of_ok (readY_of_written h) rfl

theorem txsOp_of_written (h : Cell.x ∉ s.unwritten) : txsOp s = .ok (s.setSp s.x) :=
  bind_of_ok (readX_of_written h) rfl

end

/-- Settles O28: each transfer is the commit of the register it reads; TSX alone reads SP, and tests no cell. -/
theorem transferResults : Obligations.TransferResults := by
  unfold Obligations.TransferResults
  intro s
  have same := State.Agrees.refl s
  refine ⟨fun h => ?_, fun h => ?_, fun h => ?_, fun h => ?_, fun _ => ?_, fun h => ?_⟩
  · exact .implied (taxOp_of_written (h.written .a (by simp [Instr.reads]))) ((same.setX s.a).setNZ s.a)
  · exact .implied (tayOp_of_written (h.written .a (by simp [Instr.reads]))) ((same.setY s.a).setNZ s.a)
  · exact .implied (txaOp_of_written (h.written .x (by simp [Instr.reads]))) ((same.setA s.x).setNZ s.x)
  · exact .implied (tyaOp_of_written (h.written .y (by simp [Instr.reads]))) ((same.setA s.y).setNZ s.y)
  · exact .implied (op := tsxOp) rfl ((same.setX s.sp).setNZ s.sp)
  · exact .implied (txsOp_of_written (h.written .x (by simp [Instr.reads]))) (same.setSp s.x)

end Sys2Proof.Machine
end

section
/-! PROOFS. The adder, and the results of the arithmetic and logic instructions in binary and in decimal mode. -/

namespace Sys2Proof.Machine

/-! ### The adder -/

/-- Bit 7 of a byte, as the sign-overflow tests of R220 and R224 take it. -/
theorem signBit_eq_msb (b : Byte) : ((b &&& 0x80#8) != 0#8) = b.msb := by
  revert b; decide

theorem bitOf_le_one (f : Bool) : bitOf f ≤ 1 := by
  cases f <;> decide

section
variable (a m : Byte) (cin : Bool)

theorem add_r_toNat : (add a m cin).r.toNat = (a.toNat + m.toNat + bitOf cin) % 256 :=
  BitVec.toNat_ofNat _ _

/-- V is set when the sum has another sign than both operands. -/
theorem add_v_iff_msb :
    (add a m cin).v = true ↔ a.msb ≠ (add a m cin).r.msb ∧ m.msb ≠ (add a m cin).r.msb := by
  have hv : (add a m cin).v = ((a ^^^ (add a m cin).r) &&& (m ^^^ (add a m cin).r)).msb := signBit_eq_msb _
  rw [hv, BitVec.msb_and, BitVec.msb_xor, BitVec.msb_xor, Bool.and_eq_true, bne_iff_ne, bne_iff_ne]

/-- V is set exactly when the signed sum is no byte. -/
theorem add_v_iff :
    (add a m cin).v = true ↔ a.toInt + m.toInt + bitOf cin < -128 ∨ 127 < a.toInt + m.toInt + bitOf cin := by
  have hr := add_r_toNat a m cin
  have hcin := bitOf_le_one cin
  have ha := a.isLt
  have hm := m.isLt
  rw [add_v_iff_msb]
  simp only [BitVec.msb_eq_decide, BitVec.toInt_eq_toNat_cond, ne_eq, decide_eq_decide]
  split <;> split <;> omega

/-- The difference of SBC is the sum with the complement, less 256 (R224). -/
theorem subtract_eq_add : subtract a m cin = add a (~~~m) cin := by
  have hnot : (~~~m).toNat = 255 - m.toNat := BitVec.toNat_not
  have hcin := bitOf_le_one cin
  have hm := m.isLt
  have hr : (subtract a m cin).r = (add a (~~~m) cin).r := by
    apply BitVec.eq_of_toNat_eq
    rw [add_r_toNat, hnot]
    simp only [subtract, BitVec.toNat_ofInt]
    omega
  have hc : (subtract a m cin).c = (add a (~~~m) cin).c := by
    simp only [subtract, add, hnot, decide_eq_decide]
    omega
  have hv : (subtract a m cin).v = (add a (~~~m) cin).v :=
    congrArg (fun r => (((a ^^^ r) &&& (~~~m ^^^ r)) &&& 0x80#8) != 0#8) hr
  exact (Sum.mk.injEq ..).mpr ⟨hr, hc, hv⟩

end

/-- Settles O24: the sign-overflow formula compares signs, and the complement of M is 255 less M. -/
theorem adderAndSubtracter : Obligations.AdderAndSubtracter := by
  unfold Obligations.AdderAndSubtracter
  intro a m cin
  have carry : (if cin then 1 else 0 : Int) = bitOf cin := (Nat.cast_ite ..).symm
  refine ⟨add_r_toNat a m cin, decide_eq_true_iff, rfl, ?_, subtract_eq_add a m cin⟩
  rw [carry]
  exact add_v_iff a m cin

/-! ### Reading a register or a flag after an access -/

section
variable {s t : State} (ht : s.BusOnly t)
include ht

theorem State.BusOnly.readA (h : Cell.a ∉ s.unwritten) : t.readA = .ok s.a := by
  obtain ⟨ta, -, -, -, -, -, -, -, -, -, tu, -⟩ := ht.fields
  rw [← ta]
  exact readA_of_written (tu ▸ h)

theorem State.BusOnly.readX (h : Cell.x ∉ s.unwritten) : t.readX = .ok s.x := by
  obtain ⟨-, tx, -, -, -, -, -, -, -, -, tu, -⟩ := ht.fields
  rw [← tx]
  exact readX_of_written (tu ▸ h)

theorem State.BusOnly.readY (h : Cell.y ∉ s.unwritten) : t.readY = .ok s.y := by
  obtain ⟨-, -, ty, -, -, -, -, -, -, -, tu, -⟩ := ht.fields
  rw [← ty]
  exact readY_of_written (tu ▸ h)

theorem State.BusOnly.readC (h : Cell.c ∉ s.unwritten) : t.readC = .ok s.p.c := by
  obtain ⟨-, -, -, -, -, tp, -, -, -, -, tu, -⟩ := ht.fields
  rw [← tp]
  exact readC_of_written (tu ▸ h)

theorem State.BusOnly.needBinary (h : Cell.d ∉ s.unwritten) (hd : s.p.d = false) : t.needBinary = .ok () := by
  obtain ⟨-, -, -, -, -, tp, -, -, -, -, tu, -⟩ := ht.fields
  exact needBinary_of_binary (tu ▸ h) (tp ▸ hd)

theorem State.BusOnly.needBinary_decimal (h : Cell.d ∉ s.unwritten) (hd : s.p.d = true) :
    t.needBinary = .error t.unsupported := by
  obtain ⟨-, -, -, -, -, tp, -, -, -, -, tu, -⟩ := ht.fields
  exact needBinary_of_decimal (tu ▸ h) (tp ▸ hd)

end

/-! ### Binary mode -/

section
variable {s t : State} (ht : s.BusOnly t) (v : Byte)
  (hd : Cell.d ∉ s.unwritten) (hb : s.p.d = false) (ha : Cell.a ∉ s.unwritten) (hc : Cell.c ∉ s.unwritten)
include ht hd hb ha hc

theorem adcOp_of_binary : adcOp v t = .ok (t.setSum (add s.a v s.p.c)) :=
  bind_of_ok (ht.needBinary hd hb) (bind_of_ok (ht.readA ha) (bind_of_ok (ht.readC hc) rfl))

theorem sbcOp_of_binary : sbcOp v t = .ok (t.setSum (subtract s.a v s.p.c)) :=
  bind_of_ok (ht.needBinary hd hb) (bind_of_ok (ht.readA ha) (bind_of_ok (ht.readC hc) rfl))

end

/-- The cells of an instruction that reads M: DB, those of its mode, and those of its operation. -/
theorem written_split {s : State} {mode cells : List Cell}
    (h : ∀ cell ∈ Cell.db :: (mode ++ cells), cell ∉ s.unwritten) :
    Cell.db ∉ s.unwritten ∧ (∀ cell ∈ mode, cell ∉ s.unwritten) ∧ ∀ cell ∈ cells, cell ∉ s.unwritten := by
  rwa [List.forall_mem_cons, List.forall_mem_append] at h

/-- Settles O30: each commits the sum or the difference of A, M and C, as they were before the access. -/
theorem addAndSubtractResults : Obligations.AddAndSubtractResults := by
  unfold Obligations.AddAndSubtractResults
  intro s
  refine ⟨fun o h => ?_, fun o h => ?_, fun v h => ?_⟩
  all_goals
    have hd := h.written .d (by simp [Instr.reads])
    have ha := h.written .a (by simp [Instr.reads])
    have hc := h.written .c (by simp [Instr.reads])
    have hb := h.binary rfl
  · obtain ⟨hdb, hmode, -⟩ := written_split h.written
    exact readInstr_results (op := adcOp) hdb hmode fun v t ht =>
      ⟨_, adcOp_of_binary ht v hd hb ha hc, ht.agrees.setSum _⟩
  · obtain ⟨hdb, hmode, -⟩ := written_split h.written
    exact readInstr_results (op := sbcOp) hdb hmode fun v t ht =>
      ⟨_, sbcOp_of_binary ht v hd hb ha hc, ht.agrees.setSum _⟩
  · exact .readImm (sbcOp_of_binary (.refl s) v hd hb ha hc) ((State.Agrees.refl s).setSum _)

/-! ### Decimal mode -/

theorem bind_of_error {α β : Type} {x : Except Fault α} {e : Fault} (h : x = .error e) (f : α → Except Fault β) :
    x >>= f = .error e := by
  rw [h, error_bind]

/-- The fault of an operation after an access that only reads. -/
theorem State.BusOnly.unsupported {s t : State} (ht : s.BusOnly t) :
    t.unsupported = .unsupported s.opc s.pc0 { t with fault := .unsupported s.opc s.pc0 } := by
  obtain ⟨-, -, -, -, -, -, topc, tpc0, -⟩ := ht.fields
  rw [State.unsupported, topc, tpc0]

section
variable {s t : State} (ht : s.BusOnly t) {v : Byte}
include ht

/-- A read instruction whose operation stops with `Unsupported`. -/
theorem readInstr_unsupported {o : ReadOperand} {op : Byte → State → Except Fault State} {crossed : Bool}
    (h : accessOperand o s = .ok (v, crossed, t)) (hop : op v t = .error t.unsupported) :
    readInstr o op s = .fault (.unsupported s.opc s.pc0 { t with fault := .unsupported s.opc s.pc0 }) :=
  finish_fault.2 (bind_of_ok h (bind_of_error (hop.trans (congrArg _ ht.unsupported)) _))

/-- A read-modify-write instruction whose operation stops with `Unsupported`. -/
theorem rmwInstr_unsupported {m : MemMode} {op : Word → Byte → State → Except Fault State} {r : Resolved}
    (h : accessMem m s = .ok (r, v, t)) (hop : op r.ea v t = .error t.unsupported) :
    rmwInstr m op s = .fault (.unsupported s.opc s.pc0 { t with fault := .unsupported s.opc s.pc0 }) :=
  finish_fault.2 (bind_of_ok h (bind_of_error (hop.trans (congrArg _ ht.unsupported)) _))

end

/-- Settles O31: the decimal test is the first thing each operation does after its access. -/
theorem decimalModeFaults : Obligations.DecimalModeFaults := by
  unfold Obligations.DecimalModeFaults
  intro s hdb hd hdec
  refine ⟨fun o ho => ?_, fun m hm => ?_, fun v => ?_⟩
  · obtain ⟨v, crossed, t, ha, ht⟩ := accessOperand_completes hdb ho
    have stop := ht.needBinary_decimal hd hdec
    exact ⟨v, crossed, t, ha, ht.agrees, readInstr_unsupported (op := adcOp) ht ha (bind_of_error stop _),
      readInstr_unsupported (op := sbcOp) ht ha (bind_of_error stop _)⟩
  · obtain ⟨r, v, t, ha, ht⟩ := accessMem_completes hdb hm
    have stop := ht.needBinary_decimal hd hdec
    exact ⟨r, v, t, ha, ht.agrees, rmwInstr_unsupported (op := rraOp) ht ha (bind_of_error stop _),
      rmwInstr_unsupported (op := iscOp) ht ha (bind_of_error stop _)⟩
  · have stop := (State.BusOnly.refl s).needBinary_decimal hd hdec
    exact ⟨readInstr_unsupported (o := .imm v) (op := sbcOp) (.refl s) rfl (bind_of_error stop _),
      readInstr_unsupported (o := .imm v) (op := arrOp) (.refl s) rfl (bind_of_error stop _)⟩

/-! ### Logic and compare -/

/-- Settles O32: each reads A, which its access leaves alone. -/
theorem logicResults : Obligations.LogicResults := by
  unfold Obligations.LogicResults
  intro s
  refine ⟨fun o h => ?_, fun o h => ?_, fun o h => ?_, fun m h => ?_⟩
  all_goals
    obtain ⟨hdb, hmode, hcells⟩ := written_split h.written
    have ha := hcells .a List.mem_cons_self
  · exact readInstr_results (op := andOp) hdb hmode fun v t ht =>
      ⟨_, bind_of_ok (ht.readA ha) rfl, (ht.agrees.setA _).setNZ _⟩
  · exact readInstr_results (op := oraOp) hdb hmode fun v t ht =>
      ⟨_, bind_of_ok (ht.readA ha) rfl, (ht.agrees.setA _).setNZ _⟩
  · exact readInstr_results (op := eorOp) hdb hmode fun v t ht =>
      ⟨_, bind_of_ok (ht.readA ha) rfl, (ht.agrees.setA _).setNZ _⟩
  · exact readInstr_mem_results (op := bitOp) hdb hmode fun v t ht =>
      ⟨_, bind_of_ok (ht.readA ha) rfl, (ht.agrees.setFlagsNZ _ _).setV _⟩

/-- Settles O33: the comparator on the register each reads, which its access leaves alone. -/
theorem compareResults : Obligations.CompareResults := by
  unfold Obligations.CompareResults
  intro s o
  refine ⟨fun h => ?_, fun h => ?_, fun h => ?_⟩
  all_goals
    obtain ⟨hdb, hmode, hcells⟩ := written_split h.written
    have hreg := hcells _ List.mem_cons_self
  · exact readInstr_results (op := cmpOp) hdb hmode fun v t ht =>
      ⟨_, bind_of_ok (ht.readA hreg) rfl, ht.agrees.compare s.a v⟩
  · exact readInstr_results (op := cpxOp) hdb hmode fun v t ht =>
      ⟨_, bind_of_ok (ht.readX hreg) rfl, ht.agrees.compare s.x v⟩
  · exact readInstr_results (op := cpyOp) hdb hmode fun v t ht =>
      ⟨_, bind_of_ok (ht.readY hreg) rfl, ht.agrees.compare s.y v⟩

/-! ### Increment and decrement -/

/-- Settles O34: one store at the address of the read, then N and Z. -/
theorem memoryIncrementResults : Obligations.MemoryIncrementResults := by
  unfold Obligations.MemoryIncrementResults
  intro s m
  refine ⟨fun h => ?_, fun h => ?_⟩
  all_goals
    obtain ⟨hdb, hmode⟩ := List.forall_mem_cons.1 h.written
    obtain ⟨r, v, t, ha, ht⟩ := accessMem_completes hdb hmode
  · exact ⟨r, v, t, ha, .modify (op := incOp) ha rfl ((ht.agrees.stored r.ea (v + 1)).setNZ (v + 1))⟩
  · exact ⟨r, v, t, ha, .modify (op := decOp) ha rfl ((ht.agrees.stored r.ea (v - 1)).setNZ (v - 1))⟩

/-- Settles O35: each commits the register it reads, one more or one less. -/
theorem registerIncrementResults : Obligations.RegisterIncrementResults := by
  unfold Obligations.RegisterIncrementResults
  intro s
  have same := State.Agrees.refl s
  refine ⟨fun h => ?_, fun h => ?_, fun h => ?_, fun h => ?_⟩
  all_goals have hreg := h.written _ (List.mem_cons_of_mem _ List.mem_cons_self)
  · exact .implied (op := inxOp) (bind_of_ok (readX_of_written hreg) rfl) ((same.setX _).setNZ _)
  · exact .implied (op := inyOp) (bind_of_ok (readY_of_written hreg) rfl) ((same.setY _).setNZ _)
  · exact .implied (op := dexOp) (bind_of_ok (readX_of_written hreg) rfl) ((same.setX _).setNZ _)
  · exact .implied (op := deyOp) (bind_of_ok (readY_of_written hreg) rfl) ((same.setY _).setNZ _)

end Sys2Proof.Machine
end

section
/-! PROOFS. When an instruction completes: exactly where the cells it reads are written and its decimal test passes. -/

namespace Sys2Proof.Machine

/-! ### When an operation completes -/

/-- The cells are written, and D is 0 where it is tested. -/
def State.Meets (s : State) (cells : List Cell) (decimal : Bool) : Prop :=
  (∀ cell ∈ cells, cell ∉ s.unwritten) ∧ (decimal = true → s.p.d = false)

/-- Where D is not tested. -/
theorem State.meets_of_written {s : State} {cells : List Cell} (h : ∀ cell ∈ cells, cell ∉ s.unwritten) :
    s.Meets cells false :=
  ⟨h, Bool.noConfusion⟩

theorem State.meets_nil (s : State) : s.Meets [] false := State.meets_of_written (by simp)

theorem State.meets_append {s : State} {cs ds : List Cell} {d e : Bool} :
    s.Meets (cs ++ ds) (d || e) ↔ s.Meets cs d ∧ s.Meets ds e := by
  simp only [State.Meets, List.forall_mem_append, Bool.or_eq_true, or_imp]
  exact and_and_and_comm

theorem State.meets_congr {s t : State} {cells : List Cell} {decimal : Bool}
    (hu : ∀ cell ∈ cells, cell ∈ t.unwritten ↔ cell ∈ s.unwritten) (hd : t.p.d = s.p.d) :
    t.Meets cells decimal ↔ s.Meets cells decimal :=
  and_congr (forall₂_congr fun cell hc => not_congr (hu cell hc)) (by rw [hd])

theorem State.BusOnly.meets {s t : State} (h : s.BusOnly t) (cells : List Cell) (decimal : Bool) :
    t.Meets cells decimal ↔ s.Meets cells decimal := by
  obtain ⟨-, -, -, -, -, hp, -, -, -, -, hu, -⟩ := h.fields
  exact State.meets_congr (fun cell _ => by rw [hu]) (by rw [hp])

/-- The operation completes exactly where these cells are written and, if `decimal`, D is 0. -/
def CompletesWhen {α : Type} (cells : List Cell) (decimal : Bool) (op : State → Except Fault α) : Prop :=
  ∀ s, (∃ v, op s = .ok v) ↔ s.Meets cells decimal

section
variable {α β : Type} {cs ds : List Cell} {d e : Bool}

theorem CompletesWhen.pure (f : State → α) : CompletesWhen [] false (fun s => .ok (f s)) :=
  fun s => ⟨fun _ => s.meets_nil, fun _ => ⟨f s, rfl⟩⟩

theorem CompletesWhen.need (cell : Cell) : CompletesWhen [cell] false (fun s => s.need cell) := fun _ =>
  ⟨fun ⟨_, h⟩ => State.meets_of_written (List.forall_mem_singleton.2 (need_ok h)),
    fun h => ⟨(), need_of_written (h.1 cell List.mem_cons_self)⟩⟩

/-- A read of the state, and then an operation. -/
theorem CompletesWhen.bind {x : State → Except Fault α} {op : α → State → Except Fault β}
    (hx : CompletesWhen cs d x) (hop : ∀ a, CompletesWhen ds e (op a)) :
    CompletesWhen (cs ++ ds) (d || e) (fun s => x s >>= fun a => op a s) := by
  intro s
  rw [State.meets_append, ← hx s]
  constructor
  · rintro ⟨v, h⟩
    obtain ⟨a, ha, h⟩ := bind_ok h
    exact ⟨⟨a, ha⟩, (hop a s).1 ⟨v, h⟩⟩
  · rintro ⟨⟨a, ha⟩, h⟩
    obtain ⟨v, hv⟩ := (hop a s).2 h
    exact ⟨v, bind_of_ok ha hv⟩

/-- A read of the state after a store, which marks DB only. -/
theorem CompletesWhen.stored {x : State → Except Fault α} (hx : CompletesWhen cs d x) (hdb : Cell.db ∉ cs)
    (ea : Word) (v : Byte) : CompletesWhen cs d (fun s => x (s.busWrite ea v)) := fun s =>
  (hx (s.busWrite ea v)).trans <| State.meets_congr
    (fun cell hc => by simp [show cell ≠ .db from fun h => hdb (h ▸ hc)]) rfl

end

theorem readA_completesWhen : CompletesWhen [.a] false State.readA := (CompletesWhen.need .a).bind fun _ => .pure _
theorem readX_completesWhen : CompletesWhen [.x] false State.readX := (CompletesWhen.need .x).bind fun _ => .pure _
theorem readY_completesWhen : CompletesWhen [.y] false State.readY := (CompletesWhen.need .y).bind fun _ => .pure _
theorem readC_completesWhen : CompletesWhen [.c] false State.readC := (CompletesWhen.need .c).bind fun _ => .pure _

theorem needStatus_completesWhen : CompletesWhen statusCells false State.needStatus := fun _ =>
  ⟨fun ⟨_, h⟩ => State.meets_of_written (needStatus_ok h), fun h => ⟨(), needStatus_of_written h.1⟩⟩

theorem needBinary_completesWhen : CompletesWhen [.d] true State.needBinary := fun _ =>
  ⟨fun ⟨_, h⟩ => ⟨List.forall_mem_singleton.2 (needBinary_ok h).1, fun _ => (needBinary_ok h).2⟩,
    fun h => ⟨(), needBinary_of_binary (h.1 .d List.mem_cons_self) (h.2 rfl)⟩⟩

/-- An operation on A. -/
theorem CompletesWhen.onA {α : Type} (f : Byte → State → α) :
    CompletesWhen [.a] false (fun s => s.readA >>= fun a => .ok (f a s)) :=
  readA_completesWhen.bind fun a => .pure (f a)

/-- An operation on X. -/
theorem CompletesWhen.onX {α : Type} (f : Byte → State → α) :
    CompletesWhen [.x] false (fun s => s.readX >>= fun x => .ok (f x s)) :=
  readX_completesWhen.bind fun x => .pure (f x)

/-- An operation on Y. -/
theorem CompletesWhen.onY {α : Type} (f : Byte → State → α) :
    CompletesWhen [.y] false (fun s => s.readY >>= fun y => .ok (f y s)) :=
  readY_completesWhen.bind fun y => .pure (f y)

/-- An operation on A and C. -/
theorem CompletesWhen.onAC {α : Type} (f : Byte → Bool → State → α) :
    CompletesWhen [.a, .c] false (fun s => s.readA >>= fun a => s.readC >>= fun c => .ok (f a c s)) :=
  readA_completesWhen.bind fun a => readC_completesWhen.bind fun c => .pure (f a c)

/-- An operation on A and C, after the decimal test. -/
theorem CompletesWhen.binary {α : Type} (f : Byte → Bool → State → α) : CompletesWhen [.d, .a, .c] true
    (fun s => s.needBinary >>= fun _ => s.readA >>= fun a => s.readC >>= fun c => .ok (f a c s)) :=
  needBinary_completesWhen.bind fun _ => .onAC f

/-! ### The composites, which store before they read A -/

section
variable (ea : Word) (v : Byte)

/-- A read of A after a store. -/
theorem readA_stored_completesWhen : CompletesWhen [.a] false (fun s => (s.busWrite ea v).readA) :=
  readA_completesWhen.stored (by decide) ea v

/-- A read of C after a store. -/
theorem readC_stored_completesWhen : CompletesWhen [.c] false (fun s => (s.busWrite ea v).readC) :=
  readC_completesWhen.stored (by decide) ea v

theorem sloOp_completesWhen : CompletesWhen [.a] false (sloOp ea v) :=
  (readA_stored_completesWhen ea _).bind fun _ => .pure _

theorem sreOp_completesWhen : CompletesWhen [.a] false (sreOp ea v) :=
  (readA_stored_completesWhen ea _).bind fun _ => .pure _

theorem dcpOp_completesWhen : CompletesWhen [.a] false (dcpOp ea v) :=
  (readA_stored_completesWhen ea _).bind fun _ => .pure _

theorem rlaOp_completesWhen : CompletesWhen [.c, .a] false (rlaOp ea v) :=
  readC_completesWhen.bind fun _ => (readA_stored_completesWhen ea _).bind fun _ => .pure _

theorem rraOp_completesWhen : CompletesWhen [.d, .c, .a] true (rraOp ea v) :=
  needBinary_completesWhen.bind fun _ => readC_completesWhen.bind fun _ =>
    (readA_stored_completesWhen ea _).bind fun _ => .pure _

theorem iscOp_completesWhen : CompletesWhen [.d, .a, .c] true (iscOp ea v) :=
  needBinary_completesWhen.bind fun _ => (readA_stored_completesWhen ea _).bind fun _ =>
    (readC_stored_completesWhen ea _).bind fun _ => .pure _

end

theorem saxValue_completesWhen : CompletesWhen [.a, .x] false saxValue :=
  readA_completesWhen.bind fun _ => .onX _

theorem phpOp_completesWhen : CompletesWhen statusCells false phpOp :=
  needStatus_completesWhen.bind fun _ => .pure _

/-- SBX reads its two registers where its parameter lets it execute (R328). -/
theorem sbxOp_completes_iff {s : State} (v : Byte) (hm : s.params.sbxMode = .silicon) :
    (∃ w, sbxOp v s = .ok w) ↔ s.Meets [.a, .x] false := by
  constructor
  · rintro ⟨w, h⟩
    rw [sbxOp, hm] at h
    obtain ⟨a, ha, h⟩ := bind_ok h
    obtain ⟨x, hx, -⟩ := bind_ok h
    exact State.meets_of_written (by simp [(readA_ok ha).1, (readX_ok hx).1])
  · rintro ⟨written, -⟩
    exact ⟨_, sbxOp_of_silicon hm (written .a (by simp)) (written .x (by simp)) v⟩

/-- BRK reads P after two pushes, which mark none of its flags. -/
theorem brkOp_completesWhen : CompletesWhen statusCells false brkOp := by
  intro s
  constructor
  · rintro ⟨w, h⟩
    obtain ⟨⟨target, t⟩, he, -⟩ := bind_ok h
    have written := (State.takeException_ok he).1
    refine State.meets_of_written fun cell hc hm => written cell hc ?_
    have unmarked : ∀ cell ∈ statusCells, cell ≠ .db ∧ cell ≠ .sp := by decide
    simp [hm, unmarked cell hc]
  · rintro ⟨written, -⟩
    obtain ⟨target, t, he, -⟩ := State.takeException_completes (s.pc + 1) Status.packBrk brkVector written
    exact ⟨_, bind_of_ok he rfl⟩

/-! ### The skeletons -/

section
variable {s : State} {cells : List Cell} {decimal : Bool} (hdb : Cell.db ∉ s.unwritten)

section
include hdb

/-- A read instruction completes where its mode and, in the state its access leaves, its operation do. -/
theorem readInstr_completes_iff {o : ReadOperand} {op : Byte → State → Except Fault State}
    (hop : ∀ v t, s.BusOnly t → ((∃ w, op v t = .ok w) ↔ t.Meets cells decimal)) :
    (∃ u, readInstr o op s = .next u) ↔ s.Meets (o.reads ++ cells) decimal := by
  rw [← Bool.false_or decimal, State.meets_append]
  constructor
  · rintro ⟨u, h⟩
    obtain ⟨v, crossed, t, w, ha, hw, -⟩ := readInstr_ok h
    obtain ⟨ht, ho⟩ := accessOperand_only hdb ha
    exact ⟨State.meets_of_written ho, (ht.meets ..).1 ((hop v t ht).1 ⟨w, hw⟩)⟩
  · rintro ⟨⟨ho, -⟩, h⟩
    obtain ⟨v, crossed, t, ha, ht⟩ := accessOperand_completes hdb ho
    obtain ⟨w, hw⟩ := (hop v t ht).2 ((ht.meets ..).2 h)
    exact ⟨_, readInstr_next ha hw⟩

theorem rmwInstr_completes_iff {m : MemMode} {op : Word → Byte → State → Except Fault State}
    (hop : ∀ ea v, CompletesWhen cells decimal (op ea v)) :
    (∃ u, rmwInstr m op s = .next u) ↔ s.Meets (m.reads ++ cells) decimal := by
  rw [← Bool.false_or decimal, State.meets_append]
  constructor
  · rintro ⟨u, h⟩
    obtain ⟨r, v, t, w, ha, hw, -⟩ := rmwInstr_ok h
    obtain ⟨ht, hm⟩ := accessMem_only hdb ha
    exact ⟨State.meets_of_written hm, (ht.meets ..).1 ((hop r.ea v t).1 ⟨w, hw⟩)⟩
  · rintro ⟨⟨hm, -⟩, h⟩
    obtain ⟨r, v, t, ha, ht⟩ := accessMem_completes hdb hm
    obtain ⟨w, hw⟩ := (hop r.ea v t).2 ((ht.meets ..).2 h)
    exact ⟨_, rmwInstr_next ha hw⟩

theorem writeInstr_completes_iff {m : MemMode} {value : State → Except Fault Byte}
    (hv : CompletesWhen cells decimal value) :
    (∃ u, writeInstr m value s = .next u) ↔ s.Meets (m.reads ++ cells) decimal := by
  rw [← Bool.false_or decimal, State.meets_append]
  constructor
  · rintro ⟨u, h⟩
    obtain ⟨r, t, v, hr, hw, -⟩ := writeInstr_ok h
    obtain ⟨ht, hm⟩ := resolve_only hdb hr
    exact ⟨State.meets_of_written hm, (ht.meets ..).1 ((hv t).1 ⟨v, hw⟩)⟩
  · rintro ⟨⟨hm, -⟩, h⟩
    obtain ⟨r, t, hr, ht⟩ := resolve_completes hdb hm
    obtain ⟨v, hw⟩ := (hv t).2 ((ht.meets ..).2 h)
    exact ⟨_, writeInstr_next hr hw⟩

end

theorem impliedInstr_completes_iff {op : State → Except Fault State}
    (hop : CompletesWhen cells decimal op) : (∃ u, impliedInstr op s = .next u) ↔ s.Meets cells decimal := by
  rw [← hop s]
  constructor
  · rintro ⟨u, h⟩
    obtain ⟨w, hw, -⟩ := impliedInstr_ok h
    exact ⟨w, hw⟩
  · rintro ⟨w, hw⟩
    exact ⟨_, impliedInstr_next hw⟩

/-- An instruction that reads no cell. -/
theorem completes_iff_of_completes {i : Instr} (h : ∃ u, exec i s = .next u) :
    (∃ u, exec i s = .next u) ↔ s.Meets [] false :=
  ⟨fun _ => s.meets_nil, fun _ => h⟩

theorem branchInstr_completes_iff {cell : Cell} {flag : Status → Bool} {want : Bool}
    {penalty : Config.BranchPagePenalty → Bool} {off : Byte} :
    (∃ u, branchInstr cell flag want penalty off s = .next u) ↔ s.Meets [cell] false := by
  constructor
  · rintro ⟨u, h⟩
    obtain ⟨_, hc, -⟩ := bind_ok (finish_next.1 h)
    exact State.meets_of_written (List.forall_mem_singleton.2 (need_ok hc))
  · rintro ⟨written, -⟩
    obtain ⟨n, h⟩ := branchInstr_next (written cell List.mem_cons_self)
    exact ⟨_, h⟩

end

/-! ### Every instruction -/

/-- An instruction that completes is none of those that always stop. -/
theorem executes_of_completes {i : Instr} {s u : State} (h : exec i s = .next u) : i.executes s.params = true := by
  cases i with
  | sbx v =>
    obtain ⟨_, _, t, w, ha, hw, -⟩ := readInstr_ok (o := .imm v) (op := sbxOp) h
    cases ha
    cases hm : s.params.sbxMode with
    | unsupported => rw [sbxOp_of_unsupported hm] at hw; cases hw
    | silicon => exact sbx_executes.2 hm
  | ane v | lxa v =>
    obtain ⟨_, _, t, w, -, hw, -⟩ := readInstr_ok (o := .imm v) (op := unstableOp) h
    cases hw
  | las m =>
    obtain ⟨_, _, t, w, -, hw, -⟩ := readInstr_ok (op := unstableOp) h
    cases hw
  | sha m | tas m | shy m | shx m =>
    obtain ⟨r, t, v, -, hv, -⟩ := writeInstr_ok h
    cases hv
  | _ => rfl

section
variable {s : State} (hdb : Cell.db ∉ s.unwritten)
include hdb

/-- A load or a NOP on an operand: nothing is read but by the mode. -/
theorem readInstr_total {o : ReadOperand} {op : Byte → State → Except Fault State} {f : Byte → State → State}
    (hop : ∀ v t, op v t = .ok (f v t)) : (∃ u, readInstr o op s = .next u) ↔ s.Meets o.reads false := by
  rw [readInstr_completes_iff hdb fun v t _ => ⟨fun _ => t.meets_nil, fun _ => ⟨_, hop v t⟩⟩, List.append_nil]

/-- A read-modify-write instruction that reads nothing but by its mode. -/
theorem rmwInstr_total {m : MemMode} {op : Word → Byte → State → Except Fault State}
    {f : Word → Byte → State → State} (hop : ∀ ea v t, op ea v t = .ok (f ea v t)) :
    (∃ u, rmwInstr m op s = .next u) ↔ s.Meets m.reads false := by
  rw [rmwInstr_completes_iff hdb fun ea v t => ⟨fun _ => t.meets_nil, fun _ => ⟨_, hop ea v t⟩⟩, List.append_nil]

/-- A read instruction whose operation completes on its own cells, whatever M is. -/
theorem readInstr_when {o : ReadOperand} {op : Byte → State → Except Fault State} {cells : List Cell} {decimal : Bool}
    (hop : ∀ v, CompletesWhen cells decimal (op v)) :
    (∃ u, readInstr o op s = .next u) ↔ s.Meets (o.reads ++ cells) decimal :=
  readInstr_completes_iff hdb fun v t _ => hop v t

/-- A pull completes, and DB is written after it. -/
theorem pull_completes_written : ∃ v t, s.pull = .ok (v, t) ∧ Cell.db ∉ t.unwritten := by
  obtain ⟨v, t, h⟩ := State.pull_completes hdb
  obtain ⟨-, -, -, hu⟩ := State.pull_spec h
  exact ⟨v, t, h, by simp [hu]⟩

theorem rts_completes : ∃ u, exec .rts s = .next u := by
  obtain ⟨l, t, h1, ht⟩ := pull_completes_written hdb
  obtain ⟨h, u, h2, -⟩ := pull_completes_written ht
  exact ⟨_, impliedInstr_next (op := rtsOp) (bind_of_ok h1 (bind_of_ok h2 rfl))⟩

theorem rti_completes : ∃ u, exec .rti s = .next u := by
  obtain ⟨q, t, h1, ht⟩ := pull_completes_written hdb
  obtain ⟨l, u, h2, hu⟩ := pull_completes_written ht
  obtain ⟨h, w, h3, -⟩ := pull_completes_written hu
  exact ⟨_, impliedInstr_next (op := State.returnFromInterrupt) (bind_of_ok h1 (bind_of_ok h2 (bind_of_ok h3 rfl)))⟩

theorem pla_completes : ∃ u, exec .pla s = .next u := by
  obtain ⟨v, t, h, -⟩ := pull_completes_written hdb
  exact ⟨_, impliedInstr_next (op := plaOp) (bind_of_ok h rfl)⟩

theorem plp_completes : ∃ u, exec .plp s = .next u := by
  obtain ⟨v, t, h, -⟩ := pull_completes_written hdb
  exact ⟨_, impliedInstr_next (op := plpOp) (bind_of_ok h rfl)⟩

theorem jumpIndirect_completes (ptr : Word) : ∃ u, exec (.jmp (.ind ptr)) s = .next u := by
  obtain ⟨w, t, h, -⟩ := State.readIndirect_completes ptr hdb
  exact ⟨_, congrArg finish (bind_of_ok h rfl)⟩

end

/-- JSR reads its high byte after two pushes, which leave DB written. -/
theorem jsr_completes (s : State) (target : Word) : ∃ u, exec (.jsr target) s = .next u := by
  obtain ⟨h, t, hr⟩ := State.busRead_completes s.pc (State.push_db_written (s.push (hiByte s.pc)) (loByte s.pc))
  exact ⟨_, impliedInstr_next (op := jsrOp (loByte target)) (jsrOp_eq hr)⟩

/-- DB being written, an instruction that executes completes exactly where the cells it reads are written and, if it
tests D, D is 0. -/
theorem exec_completes_iff {i : Instr} {s : State} (hdb : Cell.db ∉ s.unwritten)
    (he : i.executes s.params = true) :
    (∃ u, exec i s = .next u) ↔ s.Meets i.reads i.mnemonic.decimalUnsupported := by
  cases i with
  | lda o | ldx o | ldy o => exact readInstr_total hdb fun _ _ => rfl
  | lax m => exact readInstr_total (o := .mem m) hdb fun _ _ => rfl
  | adc o | sbc o => exact readInstr_when hdb fun _ => .binary _
  | usbc v => exact readInstr_when (o := .imm v) hdb fun _ => .binary _
  | arr v => exact readInstr_when (o := .imm v) hdb fun _ => .binary _
  | and o | ora o | eor o | cmp o => exact readInstr_when hdb fun _ => .onA _
  | bit m => exact readInstr_when (o := .mem m) hdb fun _ => .onA _
  | anc opcode v => exact readInstr_when (o := .imm v) hdb fun _ => .onA _
  | alr v => exact readInstr_when (o := .imm v) hdb fun _ => .onA _
  | cpx o => exact readInstr_when hdb fun _ => .onX _
  | cpy o => exact readInstr_when hdb fun _ => .onY _
  | sbx v =>
    refine readInstr_completes_iff (o := .imm v) hdb fun v t ht => sbxOp_completes_iff v ?_
    obtain ⟨-, -, -, -, -, -, -, -, -, hparams, -⟩ := ht.fields
    exact hparams ▸ sbx_executes.1 he
  | nop opcode o =>
    cases o with
    | implied => exact completes_iff_of_completes ⟨_, rfl⟩
    | imm v => exact readInstr_total (o := .imm v) (op := nopReadOp) hdb fun _ _ => rfl
    | mem m => exact readInstr_total (o := .mem m) hdb fun _ _ => rfl
  | sta m => exact writeInstr_completes_iff hdb readA_completesWhen
  | stx m => exact writeInstr_completes_iff hdb readX_completesWhen
  | sty m => exact writeInstr_completes_iff hdb readY_completesWhen
  | sax m => exact writeInstr_completes_iff hdb saxValue_completesWhen
  | inc m | dec m => exact rmwInstr_total hdb fun _ _ _ => rfl
  | slo m => exact rmwInstr_completes_iff hdb sloOp_completesWhen
  | rla m => exact rmwInstr_completes_iff hdb rlaOp_completesWhen
  | sre m => exact rmwInstr_completes_iff hdb sreOp_completesWhen
  | rra m => exact rmwInstr_completes_iff hdb rraOp_completesWhen
  | dcp m => exact rmwInstr_completes_iff hdb dcpOp_completesWhen
  | isc m => exact rmwInstr_completes_iff hdb iscOp_completesWhen
  | asl o | lsr o =>
    cases o with
    | acc => exact impliedInstr_completes_iff (.onA _)
    | mem m => exact rmwInstr_total hdb fun _ _ _ => rfl
  | rol o | ror o =>
    cases o with
    | acc => exact impliedInstr_completes_iff (.onAC _)
    | mem m => exact rmwInstr_completes_iff hdb fun _ _ => readC_completesWhen.bind fun _ => .pure _
  | tax | tay | pha => exact impliedInstr_completes_iff (.onA _)
  | txa | txs | inx | dex => exact impliedInstr_completes_iff (.onX _)
  | tya | iny | dey => exact impliedInstr_completes_iff (.onY _)
  | php => exact impliedInstr_completes_iff phpOp_completesWhen
  | brk => exact impliedInstr_completes_iff brkOp_completesWhen
  | bcc off | bcs off | beq off | bne off | bmi off | bpl off | bvc off | bvs off => exact branchInstr_completes_iff
  | tsx | clc | sec | cli | sei | cld | sed | clv | jam opcode => exact completes_iff_of_completes ⟨_, rfl⟩
  | pla => exact completes_iff_of_completes (pla_completes hdb)
  | plp => exact completes_iff_of_completes (plp_completes hdb)
  | rts => exact completes_iff_of_completes (rts_completes hdb)
  | rti => exact completes_iff_of_completes (rti_completes hdb)
  | jsr target => exact completes_iff_of_completes (jsr_completes s target)
  | jmp o =>
    cases o with
    | abs target => exact completes_iff_of_completes ⟨_, rfl⟩
    | ind ptr => exact completes_iff_of_completes (jumpIndirect_completes hdb ptr)
  | ane v | lxa v | sha m | tas m | shy m | shx m | las m => cases he

/-- Settles O11: the exact condition of an instruction that executes, and those that do not execute never complete. -/
theorem instructionsComplete : Obligations.InstructionsComplete := by
  unfold Obligations.InstructionsComplete
  refine fun i s => ⟨fun ⟨executes, written, binary⟩ => ?_, fun hdb ⟨u, h⟩ => ?_⟩
  · obtain ⟨hdb, reads⟩ := List.forall_mem_cons.1 written
    exact (exec_completes_iff hdb executes).2 ⟨reads, binary⟩
  · have executes := executes_of_completes h
    obtain ⟨reads, binary⟩ := (exec_completes_iff hdb executes).1 ⟨u, h⟩
    exact ⟨executes, List.forall_mem_cons.2 ⟨hdb, reads⟩, binary⟩

end Sys2Proof.Machine
end

section
/-! PROOFS. The shifts and rotates of the accumulator. -/

namespace Sys2Proof.Machine

section
variable {s : State} (ha : Cell.a ∉ s.unwritten)
include ha

/-- A shift of A, where A is written. -/
theorem shiftAcc_leadsTo (f : Byte → Byte × Bool) : LeadsTo (impliedInstr (shiftAcc f) s) s
    { s with a := (f s.a).1, p := { s.p.withNZ (f s.a).1 with c := (f s.a).2 } } [] :=
  .implied (bind_of_ok (readA_of_written ha) rfl)
    ((((State.Agrees.refl s).setA (f s.a).1).setC (f s.a).2).setNZ (f s.a).1)

/-- A rotate of A, where C is written too: the shift by the carry that was there before it. -/
theorem rotateAcc_leadsTo (hc : Cell.c ∉ s.unwritten) (g : Byte → Bool → Byte × Bool) :
    LeadsTo (impliedInstr (rotateAcc g) s) s
      { s with a := (g s.a s.p.c).1, p := { s.p.withNZ (g s.a s.p.c).1 with c := (g s.a s.p.c).2 } } [] :=
  .implied (bind_of_ok (readA_of_written ha) (bind_of_ok (readC_of_written hc) rfl))
    ((((State.Agrees.refl s).setA (g s.a s.p.c).1).setC (g s.a s.p.c).2).setNZ (g s.a s.p.c).1)

end

/-- Settles O36: each is a shift of A, the rotates by the carry that was there. -/
theorem accumulatorShiftResults : Obligations.AccumulatorShiftResults := by
  unfold Obligations.AccumulatorShiftResults
  intro s
  refine ⟨fun h => ?_, fun h => ?_, fun h r hr => ?_, fun h r hr => ?_⟩
  all_goals have ha := h.written .a (by simp [Instr.reads])
  · exact shiftAcc_leadsTo ha aslByte
  · exact shiftAcc_leadsTo ha lsrByte
  · have rotated := rotateAcc_leadsTo ha (h.written .c (by simp [Instr.reads])) rolByte
    rw [rolByte_eq] at rotated
    exact hr ▸ rotated
  · have rotated := rotateAcc_leadsTo ha (h.written .c (by simp [Instr.reads])) rorByte
    rw [rorByte_eq] at rotated
    exact hr ▸ rotated

end Sys2Proof.Machine
end

section
/-! PROOFS. The return from a subroutine, and BRK. -/

namespace Sys2Proof.Machine

/-! ### The return from a subroutine -/

/-- What RTS does, by its two pulls. -/
theorem rtsOp_of_pulls {s t u : State} {l h : Byte} (h1 : s.pull = .ok (l, t)) (h2 : t.pull = .ok (h, u)) :
    rtsOp s = .ok (u.setPc (wordOf h l + 1)) :=
  bind_of_ok h1 (bind_of_ok h2 rfl)

/-- Settles O41: two pulls, the second one byte above the first, and PC after the address they hold. -/
theorem subroutineReturnResults : Obligations.SubroutineReturnResults := by
  unfold Obligations.SubroutineReturnResults
  intro s hc
  obtain ⟨l, t, h1⟩ := State.pull_completes (hc.written .db (by simp))
  obtain ⟨tdb, tsp, tpeek⟩ := pull_effect h1
  obtain ⟨h, u, h2⟩ := State.pull_completes tdb
  have two : s.sp + 1 + 1 = s.sp + 2 := BitVec.add_assoc ..
  refine ⟨l, h, t, u, h1, h2, ?_, fun b => pull_eq_of_peek h1, fun b hb => ?_⟩
  · have pulled := ((State.Agrees.refl s).pull h1).pull h2
    dsimp only at pulled
    rw [two] at pulled
    exact .implied (op := rtsOp) (rtsOp_of_pulls h1 h2) (pulled.setPc (wordOf h l + 1))
  · exact pull_eq_of_peek h2 (by rw [tpeek, tsp, two, hb])

/-! ### BRK -/

section
variable {s : State} {a : Word} (ha : 0x0200 ≤ a.toNat)
include ha

/-- A push leaves every byte above the stack page alone. -/
theorem State.peek_push_above (v : Byte) : (s.push v).peek a = s.peek a :=
  State.peek_write_other (State.push_devices s v) fun h => (stackAddr_lt s.sp).not_ge (h ▸ ha)

/-- An exception's frame leaves every byte above the stack page alone. -/
theorem State.peek_frame_above (returnTo : Word) (frameOf : Status → Byte) :
    (s.frame returnTo frameOf).peek a = s.peek a :=
  (State.peek_push_above ha _).trans ((State.peek_push_above ha _).trans (State.peek_push_above ha _))

end

/-- What BRK does, by the two reads of its vector after the frame. -/
theorem brkOp_of_reads {s t u : State} {l h : Byte} (written : ∀ cell ∈ statusCells, cell ∉ s.unwritten)
    (h1 : (s.frame (s.pc + 1) Status.packBrk).busRead brkVector = .ok (l, t))
    (h2 : t.busRead (brkVector + 1) = .ok (h, u)) :
    brkOp s = .ok (((u.setB false).setI true).setPc (wordOf h l)) := by
  obtain ⟨target, v, taken, read, -⟩ :=
    State.takeException_completes (s.pc + 1) Status.packBrk brkVector written
  rw [readVector_of_reads h1 h2] at read
  cases read
  exact bind_of_ok taken rfl

/-- Settles O43: the frame's three pushes, two reads of the vector, which lies above the stack page, and B, I, PC. -/
theorem breakResults : Obligations.BreakResults := by
  unfold Obligations.BreakResults
  intro s hc
  obtain ⟨l, h, t, u, h1, h2, hl, hh⟩ := readPair_answers brkVector (brkVector + 1)
    (.inl (State.frame_db_written s (s.pc + 1) Status.packBrk))
  have framed := (State.Agrees.refl s).frame (s.pc + 1) Status.packBrk
  have committed := ((((framed.busRead h1).busRead h2).setB false).setI true).setPc (wordOf h l)
  have run := brkOp_of_reads (fun cell hm => hc.written cell (List.mem_cons_of_mem _ hm)) h1 h2
  refine ⟨l, h, t, u, h1, h2, .pushes (op := brkOp) run committed (frame_distinct _ _ _ _), fun b hb => hl b ?_,
    fun b hb => hh b ?_⟩
  · exact (State.peek_frame_above (by decide) _ _).trans hb
  · exact (State.peek_frame_above (by decide) _ _).trans hb

end Sys2Proof.Machine
end

section
/-! PROOFS. The pulls, the flag instructions, and NOP. -/

namespace Sys2Proof.Machine

/-! ### PLA and PLP -/

/-- An implied instruction that commits the byte of one pull: it leads to the result of that byte, which is the RAM's
where a plain RAM owns the stack byte. -/
theorem pullInstr_results {op : State → Except Fault State} {s : State} {result : Byte → State}
    (hdb : Cell.db ∉ s.unwritten)
    (hop : ∀ v t, s.pull = .ok (v, t) → State.Agrees { s with sp := s.sp + 1 } t →
      ∃ w, op s = .ok w ∧ State.Agrees { result v with devices := s.devices } w) :
    ∃ v t, s.pull = .ok (v, t) ∧ LeadsTo (impliedInstr op s) s (result v) [] ∧
      ∀ b, s.peek (stackAddr (s.sp + 1)) = some b → v = b := by
  obtain ⟨v, t, hp⟩ := State.pull_completes hdb
  obtain ⟨w, hw, agrees⟩ := hop v t hp ((State.Agrees.refl s).pull hp)
  exact ⟨v, t, hp, .implied hw agrees, fun b => pull_eq_of_peek hp⟩

/-- Settles O45: one pull, then A with N and Z of the byte for PLA, and the status restored from it for PLP. -/
theorem pullResults : Obligations.PullResults := by
  unfold Obligations.PullResults
  intro s
  refine ⟨fun h => ?_, fun h => ?_⟩
  all_goals have hdb := h.written .db List.mem_cons_self
  · exact pullInstr_results (op := plaOp) hdb fun v t hp pulled =>
      ⟨_, bind_of_ok hp rfl, (pulled.setA v).setNZ v⟩
  · exact pullInstr_results (op := plpOp) hdb fun v t hp pulled =>
      ⟨_, bind_of_ok hp rfl, pulled.setStatus (Status.restore v)⟩

/-! ### The flag instructions -/

/-- Settles O46: each is the commit of its one flag, and tests no cell. -/
theorem flagInstructionResults : Obligations.FlagInstructionResults := by
  unfold Obligations.FlagInstructionResults
  intro s
  have same := State.Agrees.refl s
  refine ⟨fun _ => ?_, fun _ => ?_, fun _ => ?_, fun _ => ?_, fun _ => ?_, fun _ => ?_, fun _ => ?_⟩
  · exact .implied (op := clcOp) rfl (same.setC false)
  · exact .implied (op := secOp) rfl (same.setC true)
  · exact .implied (op := cliOp) rfl (same.setI false)
  · exact .implied (op := seiOp) rfl (same.setI true)
  · exact .implied (op := cldOp) rfl (same.setD false)
  · exact .implied (op := sedOp) rfl (same.setD true)
  · exact .implied (op := clvOp) rfl (same.setV false)

/-! ### NOP -/

/-- A NOP that reads M completes only through that read, and leaves the bus as the read does. -/
theorem nopMem_access {opcode : Byte} {m : MemMode} {s u : State} (h : exec (.nop opcode (.mem m)) s = .next u) :
    ∃ r v t, accessMem m s = .ok (r, v, t) ∧ u.db = v ∧ u.BusAs t := by
  obtain ⟨v, crossed, t, w, ha, -, -⟩ := readInstr_ok (op := nopReadOp) h
  obtain ⟨⟨r, v, t⟩, hm, -⟩ := bind_ok ha
  obtain ⟨hdb, -, -⟩ := accessMem_effect hm
  have bus : u.BusAs t := readInstr_mem_bus nopReadOp_commits hm h
  exact ⟨r, v, t, hm, bus.1.trans hdb, bus⟩

/-- Settles O47: the state is left as it was by the implied form and the immediate, and by the read of M but for the
bookkeeping. -/
theorem nopResults : Obligations.NopResults := by
  unfold Obligations.NopResults
  intro s opcode o
  refine ⟨fun h => ?_, fun m u ho hu => nopMem_access (ho ▸ hu)⟩
  cases o with
  | implied => exact .implied (op := nopOp) rfl (.refl s)
  | imm value => exact .readImm (v := value) (op := nopReadOp) rfl (.refl s)
  | mem m =>
    obtain ⟨r, v, t, ha, ht⟩ := accessMem_completes (h.written .db List.mem_cons_self)
      fun cell hc => h.written cell (List.mem_cons_of_mem _ hc)
    exact .readMem (op := nopReadOp) ha rfl ht.agrees

end Sys2Proof.Machine
end

section
/-! PROOFS. The undocumented opcodes: the composites, the unstable opcodes, and JAM. -/

namespace Sys2Proof.Machine

/-! ### The composites that store -/

section
variable {s t : State} (ht : s.BusOnly t) (ea : Word) (v : Byte)
include ht

/-- A store leaves A alone. -/
theorem State.BusOnly.readA_stored (ha : Cell.a ∉ s.unwritten) : (t.busWrite ea v).readA = .ok s.a := by
  obtain ⟨ta, -, -, -, -, -, -, -, -, -, tu, -⟩ := ht.fields
  rw [← ta]
  exact readA_of_written (by simp [tu, ha])

/-- A store leaves C alone. -/
theorem State.BusOnly.readC_stored (hc : Cell.c ∉ s.unwritten) : (t.busWrite ea v).readC = .ok s.p.c := by
  obtain ⟨-, -, -, -, -, tp, -, -, -, -, tu, -⟩ := ht.fields
  rw [← tp]
  exact readC_of_written (by simp [tu, hc])

end

/-! What each composite does after its access, by A and C as they were before it. -/

section
variable {s t : State} (ht : s.BusOnly t) (ea : Word) (v : Byte) (ha : Cell.a ∉ s.unwritten)
include ht ha

theorem sloOp_of_written :
    sloOp ea v t = .ok ((((t.busWrite ea (v <<< 1)).setA (s.a ||| v <<< 1)).setC (v.getLsbD 7)).setNZ
      (s.a ||| v <<< 1)) :=
  bind_of_ok (ht.readA_stored ea _ ha) rfl

theorem sreOp_of_written :
    sreOp ea v t = .ok ((((t.busWrite ea (v >>> 1)).setA (s.a ^^^ v >>> 1)).setC (v.getLsbD 0)).setNZ
      (s.a ^^^ v >>> 1)) :=
  bind_of_ok (ht.readA_stored ea _ ha) rfl

theorem dcpOp_of_written : dcpOp ea v t = .ok ((t.busWrite ea (v - 1)).compare s.a (v - 1)) :=
  bind_of_ok (ht.readA_stored ea _ ha) rfl

section
variable (hc : Cell.c ∉ s.unwritten)
include hc

theorem rlaOp_of_written :
    rlaOp ea v t = .ok ((((t.busWrite ea (rolByte v s.p.c).1).setA (s.a &&& (rolByte v s.p.c).1)).setC
      (rolByte v s.p.c).2).setNZ (s.a &&& (rolByte v s.p.c).1)) :=
  bind_of_ok (ht.readC hc) (bind_of_ok (ht.readA_stored ea _ ha) rfl)

section
variable (hd : Cell.d ∉ s.unwritten) (hb : s.p.d = false)
include hd hb

theorem rraOp_of_binary :
    rraOp ea v t = .ok ((t.busWrite ea (rorByte v s.p.c).1).setSum
      (add s.a (rorByte v s.p.c).1 (rorByte v s.p.c).2)) :=
  bind_of_ok (ht.needBinary hd hb) (bind_of_ok (ht.readC hc) (bind_of_ok (ht.readA_stored ea _ ha) rfl))

theorem iscOp_of_binary :
    iscOp ea v t = .ok ((t.busWrite ea (v + 1)).setSum (subtract s.a (v + 1) s.p.c)) :=
  bind_of_ok (ht.needBinary hd hb)
    (bind_of_ok (ht.readA_stored ea _ ha) (bind_of_ok (ht.readC_stored ea _ hc) rfl))

end
end
end

/-- Settles O48: each stores one byte at the address of its read, then commits A or the flags from the byte stored. -/
theorem compositeResults : Obligations.CompositeResults := by
  unfold Obligations.CompositeResults
  intro s m
  refine ⟨fun h => ?_, fun h => ?_, fun h => ?_, fun h => ?_, fun h => ?_, fun h => ?_⟩
  all_goals
    obtain ⟨hdb, hmode, hcells⟩ := written_split h.written
    have ha := hcells .a (by simp)
    obtain ⟨r, v, t, access, ht⟩ := accessMem_completes hdb hmode
    have stored := ht.agrees.stored r.ea
  · exact ⟨r, v, t, access, .modify access (sloOp_of_written ht r.ea v ha) ((((stored _).setA _).setC _).setNZ _)⟩
  · refine ⟨r, v, t, access, fun w hw => ?_⟩
    obtain rfl : w = (rolByte v s.p.c).1 := by rw [rolByte_eq, hw]
    exact .modify access (rlaOp_of_written ht r.ea v ha (hcells .c (by simp))) ((((stored _).setA _).setC _).setNZ _)
  · exact ⟨r, v, t, access, .modify access (sreOp_of_written ht r.ea v ha) ((((stored _).setA _).setC _).setNZ _)⟩
  · refine ⟨r, v, t, access, fun w sum hw hsum => ?_⟩
    obtain rfl : w = (rorByte v s.p.c).1 := by rw [rorByte_eq, hw]
    subst hsum
    exact .modify access (rraOp_of_binary ht r.ea v ha (hcells .c (by simp)) (hcells .d (by simp)) (h.binary rfl))
      ((stored _).setSum _)
  · exact ⟨r, v, t, access, .modify access (dcpOp_of_written ht r.ea v ha) ((stored _).compare s.a _)⟩
  · refine ⟨r, v, t, access, fun diff hdiff => ?_⟩
    subst hdiff
    exact .modify access (iscOp_of_binary ht r.ea v ha (hcells .c (by simp)) (hcells .d (by simp)) (h.binary rfl))
      ((stored _).setSum _)

/-! ### The immediate composites -/

/-- Settles O49: each commits to A, with its flags, what it makes of A and its operand. -/
theorem immediateCompositeResults : Obligations.ImmediateCompositeResults := by
  unfold Obligations.ImmediateCompositeResults
  rintro s opcode v _ rfl
  have same := State.Agrees.refl s
  refine ⟨fun h => ?_, fun h => ?_, fun h r hr => ?_⟩
  all_goals have ha := h.written .a (by simp [Instr.reads])
  · exact .readImm (op := ancOp) (bind_of_ok (readA_of_written ha) rfl) (((same.setA _).setNZ _).setC _)
  · exact .readImm (op := alrOp) (bind_of_ok (readA_of_written ha) rfl) (((same.setA _).setC _).setNZ _)
  · have hd := h.written .d (by simp [Instr.reads])
    have hc := h.written .c (by simp [Instr.reads])
    have rotated : r = (rorByte (s.a &&& v) s.p.c).1 := by rw [rorByte_eq, hr]
    rw [rotated]
    exact .readImm (op := arrOp)
      (bind_of_ok (needBinary_of_binary hd (h.binary rfl))
        (bind_of_ok (readA_of_written ha) (bind_of_ok (readC_of_written hc) rfl)))
      ((((same.setA _).setNZ _).setC _).setV _)

/-! ### A mode whose index register was never written -/

theorem readX_of_unwritten {s : State} (h : Cell.x ∈ s.unwritten) : s.readX = .error (s.unwrittenRead .x) :=
  bind_of_error (need_of_unwritten h) _

theorem readY_of_unwritten {s : State} (h : Cell.y ∈ s.unwritten) : s.readY = .error (s.unwrittenRead .y) :=
  bind_of_error (need_of_unwritten h) _

section
variable {m : MemMode} {s : State} {cell : Cell} (hdb : Cell.db ∉ s.unwritten) (hc : cell ∈ m.reads)
  (hu : cell ∈ s.unwritten)
include hdb hc hu

/-- The mode faults at its index register: at once, or for IZY after the two reads of its pointer. -/
theorem resolve_of_unwritten : ∃ left, resolve m s = .error (.unwrittenRead cell left) := by
  cases m with
  | zpa zp | abs addr => cases hc
  | zpx zp | abx addr | izx ptr =>
    cases List.mem_singleton.1 hc
    exact ⟨_, bind_of_error (readX_of_unwritten hu) _⟩
  | zpy zp | aby addr =>
    cases List.mem_singleton.1 hc
    exact ⟨_, bind_of_error (readY_of_unwritten hu) _⟩
  | izy ptr =>
    cases List.mem_singleton.1 hc
    obtain ⟨base, t, pointer, ht⟩ := State.readZeroPagePointer_completes ptr hdb
    obtain ⟨-, -, -, -, -, -, -, -, -, -, tu, -⟩ := ht.fields
    exact ⟨_, bind_of_ok pointer (bind_of_error (readY_of_unwritten (tu ▸ hu)) _)⟩

/-- A write instruction faults with its mode, before it forms its value. -/
theorem writeInstr_of_unwritten (value : State → Except Fault Byte) :
    ∃ left, writeInstr m value s = .fault (.unwrittenRead cell left) := by
  obtain ⟨left, stop⟩ := resolve_of_unwritten hdb hc hu
  exact ⟨left, finish_fault.2 (bind_of_error stop _)⟩

/-- A read instruction faults with its mode, before its read of M. -/
theorem readInstr_of_unwritten (op : Byte → State → Except Fault State) :
    ∃ left, readInstr (.mem m) op s = .fault (.unwrittenRead cell left) := by
  obtain ⟨left, stop⟩ := resolve_of_unwritten hdb hc hu
  exact ⟨left, finish_fault.2 (bind_of_error (bind_of_error (bind_of_error stop _) _) _)⟩

end

/-! ### The unstable opcodes -/

/-- The unstable stores share one meaning. -/
theorem exec_unstable_store (m : MemMode) (s : State) :
    ∀ i ∈ [Instr.sha m, .tas m, .shy m, .shx m], exec i s = writeInstr m unstableValue s := by
  simp only [List.forall_mem_cons]
  exact ⟨rfl, rfl, rfl, rfl, List.forall_mem_nil _⟩

/-- A write instruction whose value stops with `Unsupported` writes nothing. -/
theorem writeInstr_unsupported {m : MemMode} {value : State → Except Fault Byte} {s t : State} {r : Resolved}
    (ht : s.BusOnly t) (h : resolve m s = .ok (r, t)) (hv : value t = .error t.unsupported) :
    writeInstr m value s = .fault (.unsupported s.opc s.pc0 { t with fault := .unsupported s.opc s.pc0 }) :=
  finish_fault.2 (bind_of_ok h (bind_of_error (hv.trans (congrArg _ ht.unsupported)) _))

/-- Settles O51: each stops with `Unsupported` after its accesses, or before it with its mode, where the index register
was never written. -/
theorem unstableOpcodesFault : Obligations.UnstableOpcodesFault := by
  unfold Obligations.UnstableOpcodesFault
  intro s hdb
  refine ⟨fun v => ⟨rfl, rfl⟩, fun m hm => ?_, fun m hm => ?_, fun m cell hc hu i hi => ?_⟩
  · obtain ⟨r, t, mode, ht⟩ := resolve_completes hdb hm
    refine ⟨r, t, mode, ht.agrees, fun i hi => ?_⟩
    rw [exec_unstable_store m s i hi]
    exact writeInstr_unsupported ht mode rfl
  · obtain ⟨r, v, t, access, ht⟩ := accessMem_completes hdb hm
    exact ⟨r, v, t, access, ht.agrees, readInstr_unsupported (o := .mem m) (op := unstableOp) ht
      (bind_of_ok access rfl) rfl⟩
  · have parts : i ∈ [Instr.sha m, .tas m, .shy m, .shx m] ++ [.las m] := hi
    rcases List.mem_append.1 parts with store | las
    · rw [exec_unstable_store m s i store]
      exact writeInstr_of_unwritten hdb hc hu unstableValue
    · rw [List.mem_singleton.1 las]
      exact readInstr_of_unwritten hdb hc hu unstableOp

/-! ### JAM -/

/-- However many clocks a jammed core takes, they force R and I and do nothing else. -/
theorem clocks_of_jammed {s : State} (hpc : Cell.pc ∉ s.unwritten) (hf : s.fault = .none) (hj : s.jammed = true)
    (n : Nat) : clocks (n + 1) s = .next s.force := by
  induction n generalizing s with
  | zero => simp only [clocks, clock_of_jammed hpc hf hj]
  | succ n ih =>
    rw [clocks, clock_of_jammed hpc hf hj]
    exact ih (s := s.force) hpc hf hj

/-- Settles O52: JAM's own assignments, the clocks of a jammed core, and the part of `RES()` before PC is loaded. -/
theorem jamHalts : Obligations.JamHalts := by
  unfold Obligations.JamHalts
  intro s opcode
  refine ⟨rfl, fun hj hpc hf n => clocks_of_jammed hpc hf hj n, fun vector t h => ?_⟩
  cases h
  exact ⟨rfl, rfl⟩

end Sys2Proof.Machine
end

section
/-! PROOFS. Branch timing, and the interrupt inputs: IRQ, the edges of NMI, and the entry of an NMI. -/

namespace Sys2Proof.Machine

/-! ### Branch timing -/

/-- A branch consumes its clocks, whichever way it goes. -/
theorem branchInstr_clocks {cell : Cell} {flag : Status → Bool} {want : Bool}
    {penalty : Config.BranchPagePenalty → Bool} {off : Byte} {s u : State}
    (h : branchInstr cell flag want penalty off s = .next u) :
    u.prevAmCycles + u.prevOpCycles = branchClocks (declaredCycles s.opc) (flag s.p == want)
      (penalty s.params.branchPagePenalty) s.pc (branchTarget s.pc off) := by
  obtain ⟨_, -, h⟩ := bind_ok (finish_next.1 h)
  cases h
  exact State.complete_sum _ _

/-- The chain 2, 3, 4 of R512. -/
theorem branchClocks_of_two (flag want penalty : Bool) (next target : Word) :
    branchClocks 2 (flag == want) penalty next target =
      if flag ≠ want then 2 else if penalty = true ∧ hiByte next ≠ hiByte target then 4 else 3 := by
  by_cases taken : flag = want
  · by_cases page : hiByte next = hiByte target
    · cases penalty <;> simp [branchClocks, bitOf, taken, page]
    · cases penalty <;> simp [branchClocks, bitOf, taken, page]
  · simp [branchClocks, bitOf, taken]

/-- Settles O14: each of the eight is `branchInstr` on its flag and its penalty. -/
theorem branchCycles : Obligations.BranchCycles := by
  unfold Obligations.BranchCycles
  refine ⟨rfl, fun branch flag want penalty hmem off s u hd h => ?_⟩
  have clocks : ∀ cell, branchInstr cell flag want penalty off s = .next u → u.prevAmCycles + u.prevOpCycles =
      if flag s.p ≠ want then 2
      else if penalty s.params.branchPagePenalty = true ∧ hiByte s.pc ≠ hiByte (s.pc + sext16 off) then 4
      else 3 := fun cell hx => by
    rw [branchInstr_clocks hx, hd, branchClocks_of_two]
    rfl
  simp only [List.mem_cons, List.not_mem_nil, or_false, Prod.mk.injEq] at hmem
  rcases hmem with ⟨rfl, rfl, rfl, rfl⟩ | ⟨rfl, rfl, rfl, rfl⟩ | ⟨rfl, rfl, rfl, rfl⟩ | ⟨rfl, rfl, rfl, rfl⟩ |
    ⟨rfl, rfl, rfl, rfl⟩ | ⟨rfl, rfl, rfl, rfl⟩ | ⟨rfl, rfl, rfl, rfl⟩ | ⟨rfl, rfl, rfl, rfl⟩
  all_goals exact clocks _ h

/-! ### The host's two inputs -/

theorem setIrq_of_present {s : State} (h : s.params.irqNmiPresent = true) (level : Bool) :
    s.setIrq level = .next { s with irqLine := level } := if_pos h

theorem setNmi_of_present {s : State} (h : s.params.irqNmiPresent = true) (level : Bool) :
    s.setNmi level = .next { s with
      nmiPending := s.nmiPending || (level && !s.nmiLine)
      nmiAgain := s.nmiAgain || ((level && !s.nmiLine) && s.entering == some .nmi)
      nmiLine := level } := if_pos h

theorem setIrq_of_absent {s : State} (h : s.params.irqNmiPresent = false) (level : Bool) :
    s.setIrq level = .refused .noInterruptInputs := by simp [State.setIrq, h]

theorem setNmi_of_absent {s : State} (h : s.params.irqNmiPresent = false) (level : Bool) :
    s.setNmi level = .refused .noInterruptInputs := by simp [State.setNmi, h]

/-- Settles O54: I is forced before the boundary looks at the lines, so only a pending NMI can be taken. -/
theorem irqNeverTaken : Obligations.IrqNeverTaken := by
  unfold Obligations.IrqNeverTaken
  refine fun s => ⟨s.force_interruptTaken, fun level h => setIrq_of_present h level, fun hpc hf hj hi hn => ?_⟩
  refine clock_of_fetch hpc hf hj hi ?_
  rw [s.force_interruptTaken, hn]
  rfl

/-! ### An edge during an NMI entry -/

/-- The first clock of an NMI entry. -/
theorem inEntry_first {s : State} (hs : s.BoundaryInv) (hj : s.jammed = false)
    (hk : s.force.interruptTaken = some .nmi) (written : ∀ cell ∈ statusCells, cell ∉ s.unwritten) :
    ∃ v, clocks 1 s = .next v ∧ InEntry 1 v ∧ v.params = s.params := by
  obtain ⟨hf, hpc⟩ := hs.running
  obtain ⟨-, ham, hop⟩ := hs.idle hj
  have hidle : s.idle = true := by simp [State.idle, ham, hop]
  refine ⟨s.force.firstInterruptClock .nmi, by rw [clocks, clock_of_interrupt hpc hf hj hidle hk]; rfl, ?_, rfl⟩
  exact {
    running := ⟨hpc, hf, hj⟩
    busy := by simp [State.idle, State.firstInterruptClock, State.beginEntry, State.setPerformed]
    entering := rfl
    clocks := State.performed_setPerformed s.force.beginEntry 1
    status := written
    latched := nofun }

/-- The clocks of an NMI entry before its last. -/
theorem inEntry_reached {s : State} (hs : s.BoundaryInv) (hj : s.jammed = false)
    (hk : s.force.interruptTaken = some .nmi) (written : ∀ cell ∈ statusCells, cell ∉ s.unwritten) {k : Nat}
    (h0 : 1 ≤ k) (h7 : k < 7) : ∃ v, clocks k s = .next v ∧ InEntry k v ∧ v.params = s.params := by
  induction k, h0 using Nat.le_induction with
  | base => exact inEntry_first hs hj hk written
  | succ k h0 ih =>
    obtain ⟨v, hv, entry, hp⟩ := ih (by omega)
    obtain ⟨w, hw, entry', -, hp'⟩ := entry.more h0 (by omega)
    exact ⟨w, by rw [clocks_add hv, clocks, hw]; rfl, entry', hp'.trans hp⟩

/-- From clock `k` on an NMI entry ends idle, with the edge that came during it pending. -/
theorem inEntry_ends {n k : Nat} {s : State} (h : InEntry k s) (h1 : 1 ≤ k) (hn : k + n = 6) :
    ∃ u, clocks (n + 1) s = .next u ∧ u.idle = true ∧ u.nmiPending = s.nmiAgain ∧ u.params = s.params := by
  induction n generalizing k s with
  | zero =>
    obtain rfl : k = 6 := hn
    obtain ⟨u, hu, ended⟩ := h.last
    exact ⟨u, by rw [clocks, hu]; rfl, ended⟩
  | succ n ih =>
    obtain ⟨t, ht, entry, hagain, hparams⟩ := h.more h1 (by omega)
    obtain ⟨u, hu, idle, pending, params⟩ := ih entry (by omega) (by omega)
    exact ⟨u, by rw [clocks, ht]; exact hu, idle, pending.trans hagain, params.trans hparams⟩

/-- A fall and a rise of the line between two clocks of an NMI entry note an edge, and the entry goes on. -/
theorem inEntry_edge {k : Nat} {v : State} (h : InEntry k v) (hp : v.params.irqNmiPresent = true) :
    ∃ w x, v.setNmi false = .next w ∧ w.setNmi true = .next x ∧ InEntry k x ∧ x.nmiAgain = true ∧
      x.params = v.params := by
  refine ⟨_, _, setNmi_of_present hp false, setNmi_of_present (by exact hp) true, ?_, ?_, rfl⟩
  · exact ⟨h.running, h.busy, h.entering, h.clocks, h.status, h.latched⟩
  · simp [h.entering]

/-- Settles O55: what `SetNMI` assigns, and an edge noted during an entry, which its last clock leaves pending. -/
theorem nmiEdgeLatched : Obligations.NmiEdgeLatched := by
  unfold Obligations.NmiEdgeLatched
  refine fun s level => ⟨fun hp => ?_, fun hp => ⟨setNmi_of_absent hp level, setIrq_of_absent hp level⟩,
    fun hs hj hp hn written k h0 h7 => ?_⟩
  · exact ⟨_, setNmi_of_present hp level, rfl, by simp, by simp [and_assoc]⟩
  · have taken : s.force.interruptTaken = some .nmi := by simp [s.force_interruptTaken, hp, hn]
    obtain ⟨v, hv, entry, vparams⟩ := inEntry_reached hs hj taken written h0 h7
    obtain ⟨w, x, hw, hx, entry', again, xparams⟩ := inEntry_edge entry (vparams ▸ hp)
    obtain ⟨u, hu, idle, pending, uparams⟩ := inEntry_ends entry' (n := 6 - k) h0 (by omega)
    have later : u.nmiPending = true := pending.trans again
    refine ⟨v, w, x, u, hv, hw, hx, ?_, idle, later, ?_⟩
    · rwa [show 7 - k = 6 - k + 1 by omega]
    · rw [u.force_interruptTaken, uparams, xparams, vparams, hp, later]
      rfl

/-! ### The entry of an NMI -/

/-- What an interrupt entry pushes is P with B clear and R set (R412). -/
theorem Status.packInterrupt_eq (p : Status) : p.packInterrupt = { p with b := false, r := true }.pack := by
  obtain ⟨n, v, r, b, d, i, z, c⟩ := p
  revert n v r b d i z c
  decide

/-- A bus read, and the forcing of R and I with the start of an entry, do not meet. -/
theorem busRead_beginEntry {s t : State} {a : Word} {v : Byte} (h : s.busRead a = .ok (v, t)) :
    s.force.beginEntry.busRead a = .ok (v, t.force.beginEntry) := by
  cases ho : firstOwner s.devices a with
  | none =>
    unfold State.busRead at h ⊢
    simp only [State.driveRead_devices, show s.force.beginEntry.devices = s.devices from rfl, ho] at h ⊢
    split at h
    · cases h
    · rename_i hc
      cases h
      exact if_neg hc
  | some e =>
    rw [State.busRead_of_owner ho] at h
    cases h
    exact State.busRead_of_owner (s := s.force.beginEntry) ho

/-- The commit of an NMI entry: I and PC, and the latch, which keeps what came during the entry. -/
theorem State.Agrees.commitNmi {r u : State} (h : r.Agrees u) (target : Word) :
    State.Agrees { r with p := { r.p with i := true }, pc := target, nmiPending := r.nmiAgain, nmiAgain := false }
      (u.commitEntry .nmi target) := by
  unfold State.Agrees at h ⊢
  rw [h]
  rfl

/-- The forcing of R and I and the start of an entry. -/
theorem beginEntry_agrees (s : State) :
    State.Agrees { s with p := { s.p with r := true, i := true }, nmiAgain := false } s.force.beginEntry := rfl

/-- A boundary with an NMI pending enters it (R411, R414). -/
theorem step_of_nmi {s : State} (hpc : Cell.pc ∉ s.unwritten) (hf : s.fault = .none) (hj : s.jammed = false)
    (hi : s.idle = true) (hp : s.params.irqNmiPresent = true) (hn : s.nmiPending = true) :
    step s = finish (s.force.enterInterrupt .nmi) := by
  rw [step_of_running hpc hf hj hi, stepIdle, show s.force.interruptTaken = some .nmi by
    simp [s.force_interruptTaken, hp, hn]]

/-- An interrupt entry, by its two reads of the vector after the frame. -/
theorem enterInterrupt_of_reads {s t v : State} {k : Interrupt} {l h : Byte}
    (written : ∀ cell ∈ statusCells, cell ∉ s.unwritten)
    (h1 : (s.beginEntry.frame s.pc Status.packInterrupt).busRead k.vector = .ok (l, t))
    (h2 : t.busRead (k.vector + 1) = .ok (h, v)) :
    s.enterInterrupt k = .ok ((v.commitEntry k (wordOf h l)).complete 7) := by
  obtain ⟨target, w, taken, read, -⟩ :=
    State.takeException_completes (s := s.beginEntry) s.pc Status.packInterrupt k.vector written
  rw [readVector_of_reads h1 h2] at read
  cases read
  exact bind_of_ok taken rfl

theorem commitEntry_bus (s : State) (k : Interrupt) (target : Word) : (s.commitEntry k target).BusAs s :=
  ⟨rfl, rfl, rfl⟩

theorem beginEntry_bus (s : State) : s.force.beginEntry.BusAs s := ⟨rfl, rfl, rfl⟩

/-- The frame of an entry from a boundary: the pushes, and the forcing with the start of the entry, do not meet. -/
theorem beginEntry_frame (s : State) (frameOf : Status → Byte) :
    s.force.beginEntry.frame s.pc frameOf =
      (((s.push (hiByte s.pc)).push (loByte s.pc)).push (frameOf s.force.p)).force.beginEntry := rfl

/-- Settles O53: the frame's three pushes, two reads of the vector, which lies above the stack page, and the commit. -/
theorem nmiEntry : Obligations.NmiEntry := by
  unfold Obligations.NmiEntry
  intro s hpc hf hj hi hp hn written
  have packed : s.force.p.packInterrupt = { s.p with b := false, r := true, i := true }.pack :=
    Status.packInterrupt_eq s.force.p
  rw [← packed]
  obtain ⟨l, h, t, v, h1, h2, hl, hh⟩ := readPair_answers 0xFFFA 0xFFFB
    (.inl (State.push_db_written ((s.push (hiByte s.pc)).push (loByte s.pc)) s.force.p.packInterrupt))
  have above : ∀ a : Word, 0x0200 ≤ a.toNat → ∀ b, s.peek a = some b →
      (((s.push (hiByte s.pc)).push (loByte s.pc)).push s.force.p.packInterrupt).peek a = some b :=
    fun a ha b hb => (State.peek_push_above ha _).trans
      ((State.peek_push_above ha _).trans ((State.peek_push_above ha _).trans hb))
  have r1 := busRead_beginEntry h1
  have r2 := busRead_beginEntry h2
  rw [← beginEntry_frame] at r1
  have run := (step_of_nmi hpc hf hj hi hp hn).trans
    (congrArg finish (enterInterrupt_of_reads (s := s.force) written r1 r2))
  have committed := ((((beginEntry_agrees s).frame s.pc Status.packInterrupt).busRead r1).busRead r2).commitNmi
    (wordOf h l)
  refine ⟨l, h, t, v, h1, h2, .intro run (committed.complete 7) (frame_distinct _ _ _ _),
    fun b hb => hl b (above _ (by decide) b hb), fun b hb => hh b (above _ (by decide) b hb), fun u hu => ?_⟩
  rw [run] at hu
  cases hu
  exact ⟨State.complete_sum _ _, rfl, ((commitEntry_bus _ _ _).trans (beginEntry_bus v)).complete 7⟩

end Sys2Proof.Machine
end

section
/-! PROOFS. The reads of registers and flags in their order: where an operation stops at a cell never written, and in
which state (R403, R408). -/

namespace Sys2Proof.Machine

/-! ### Reads in their order -/

/-- The first of these cells that was never written. -/
abbrev State.firstUnwritten (s : State) (cells : List Cell) : Option Cell :=
  cells.find? (fun read => s.unwritten.contains read)

/-- The first of these reads whose cell was never written in `s`: the cell, and the state in which it is read. -/
def State.firstStop (s : State) (reads : List (Cell × State)) : Option (Cell × State) :=
  reads.find? (fun read => s.unwritten.contains read.1)

/-- `x` reads these cells, each in its state, in this order: it stops at the first one that `s` has as never written,
and completes where there is none. -/
structure State.Reads {α : Type} (s : State) (reads : List (Cell × State)) (x : Except Fault α) : Prop where
  stops     : ∀ cell t, s.firstStop reads = some (cell, t) → x = .error (t.unwrittenRead cell)
  completes : s.firstStop reads = none → ∃ v, x = .ok v

theorem State.firstUnwritten_eq (s : State) (reads : List (Cell × State)) :
    s.firstUnwritten (reads.map Prod.fst) = (s.firstStop reads).map Prod.fst := List.find?_map ..

theorem State.firstStop_append (s : State) (cs ds : List (Cell × State)) :
    s.firstStop (cs ++ ds) = (s.firstStop cs).or (s.firstStop ds) := List.find?_append ..

theorem State.firstUnwritten_eq_none {s : State} {cells : List Cell} :
    s.firstUnwritten cells = none ↔ ∀ cell ∈ cells, cell ∉ s.unwritten := by
  simp [State.firstUnwritten]

section
variable {α β : Type} {s t : State} {cell : Cell} {cs ds : List (Cell × State)}

/-- What reads nothing completes. -/
theorem State.Reads.ok (v : α) : s.Reads [] (.ok v) :=
  ⟨fun _ _ h => (Option.some_ne_none _ h.symm).elim, fun _ => ⟨v, rfl⟩⟩

/-- One read after the other. -/
theorem State.Reads.bind {x : Except Fault α} {f : α → Except Fault β} (hx : s.Reads cs x)
    (hf : ∀ v, x = .ok v → s.Reads ds (f v)) : s.Reads (cs ++ ds) (x >>= f) := by
  cases hc : s.firstStop cs with
  | some stop =>
    obtain ⟨cell, t⟩ := stop
    have stopped := hx.stops cell t hc
    constructor
    · intro cell' t' h
      rw [State.firstStop_append, hc] at h
      cases h
      exact bind_of_error stopped f
    · intro h
      rw [State.firstStop_append, hc] at h
      cases h
  | none =>
    obtain ⟨v, hv⟩ := hx.completes hc
    rw [bind_of_ok hv rfl]
    constructor
    · intro cell t h
      rw [State.firstStop_append, hc] at h
      exact (hf v hv).stops cell t h
    · intro h
      rw [State.firstStop_append, hc] at h
      exact (hf v hv).completes h

/-- The read of one cell, in a state that has its mark as `s` has it. -/
theorem State.Reads.need (mark : cell ∈ t.unwritten ↔ cell ∈ s.unwritten) : s.Reads [(cell, t)] (t.need cell) := by
  by_cases unwritten : cell ∈ s.unwritten
  · refine ⟨fun cell' t' h => ?_, fun h => ?_⟩
    · simp only [State.firstStop, List.find?_cons, List.contains_eq_mem, unwritten, decide_true] at h
      cases h
      exact need_of_unwritten (mark.2 unwritten)
    · simp [State.firstStop, unwritten] at h
  · refine ⟨fun cell' t' h => ?_, fun _ => ⟨(), need_of_written (mt mark.1 unwritten)⟩⟩
    simp [State.firstStop, unwritten] at h

theorem State.Reads.a (mark : Cell.a ∈ t.unwritten ↔ Cell.a ∈ s.unwritten) : s.Reads [(.a, t)] t.readA :=
  (State.Reads.need mark).bind fun _ _ => .ok _

theorem State.Reads.x (mark : Cell.x ∈ t.unwritten ↔ Cell.x ∈ s.unwritten) : s.Reads [(.x, t)] t.readX :=
  (State.Reads.need mark).bind fun _ _ => .ok _

theorem State.Reads.y (mark : Cell.y ∈ t.unwritten ↔ Cell.y ∈ s.unwritten) : s.Reads [(.y, t)] t.readY :=
  (State.Reads.need mark).bind fun _ _ => .ok _

theorem State.Reads.c (mark : Cell.c ∈ t.unwritten ↔ Cell.c ∈ s.unwritten) : s.Reads [(.c, t)] t.readC :=
  (State.Reads.need mark).bind fun _ _ => .ok _

/-- Pushing P reads its five flags (R408). -/
theorem State.Reads.status (mark : ∀ cell ∈ statusCells, cell ∈ t.unwritten ↔ cell ∈ s.unwritten) :
    s.Reads (statusCells.map (·, t)) t.needStatus :=
  (State.Reads.need (mark .c (by decide))).bind fun _ _ => (State.Reads.need (mark .z (by decide))).bind fun _ _ =>
    (State.Reads.need (mark .d (by decide))).bind fun _ _ => (State.Reads.need (mark .v (by decide))).bind fun _ _ =>
      .need (mark .n (by decide))

end

/-- An exception reads P's flags after the pushes of its return address, which mark none of them. -/
theorem State.Reads.exception (s : State) (returnTo : Word) (frameOf : Status → Byte) (vector : Word) :
    s.Reads (statusCells.map (·, (s.push (hiByte returnTo)).push (loByte returnTo)))
      (s.takeException returnTo frameOf vector) := by
  have unmarked : ∀ cell ∈ statusCells, cell ≠ .db ∧ cell ≠ .sp := by decide
  have status : s.Reads _ ((s.push (hiByte returnTo)).push (loByte returnTo)).needStatus :=
    .status fun cell hc => by simp [unmarked cell hc]
  rw [State.takeException_eq]
  refine ⟨fun cell t h => bind_of_error (status.stops cell t h) _, fun h => ?_⟩
  obtain ⟨_, hs⟩ := status.completes h
  obtain ⟨target, t, hv, -⟩ := State.readVector_completes vector (State.frame_db_written s returnTo frameOf)
  exact ⟨_, bind_of_ok hs hv⟩

/-! ### Where an operation stops -/

/-- `x` raises `UnwrittenRead` at the first of these reads whose cell was never written, unless it tests D and D = 1
stops it before A or C; and it raises it nowhere else. -/
structure State.StopsAt {α : Type} (s : State) (reads : List (Cell × State)) (decimal : Bool) (x : Except Fault α) :
    Prop where
  first : ∀ cell t, s.firstStop reads = some (cell, t) →
    (decimal = true → cell = .a ∨ cell = .c → s.p.d = false) → x = .error (t.unwrittenRead cell)
  only  : ∀ cell left, x = .error (.unwrittenRead cell left) →
    ∃ t, s.firstStop reads = some (cell, t) ∧ left = { t with fault := .unwrittenRead cell }

section
variable {α : Type} {s : State} {reads : List (Cell × State)} {decimal : Bool}

theorem State.Reads.stopsAt {x : Except Fault α} (h : s.Reads reads x) : s.StopsAt reads decimal x := by
  refine ⟨fun cell t hf _ => h.stops cell t hf, fun cell left hx => ?_⟩
  cases hf : s.firstStop reads with
  | none =>
    obtain ⟨v, hv⟩ := h.completes hf
    cases hv.symm.trans hx
  | some stop =>
    cases (h.stops _ _ hf).symm.trans hx
    exact ⟨_, rfl, rfl⟩

/-- What stops with `Unsupported` reads nothing. -/
theorem State.StopsAt.unsupported (t : State) : s.StopsAt [] decimal (.error t.unsupported : Except Fault α) :=
  ⟨fun _ _ h => (Option.some_ne_none _ h.symm).elim, fun _ _ h => by cases h⟩

/-- The decimal test, and then A and C (R221). -/
theorem State.Reads.binary {f : Unit → Except Fault α} (h : s.Reads reads (f ()))
    (after : ∀ read ∈ reads, read.1 = .a ∨ read.1 = .c) :
    s.StopsAt ((.d, s) :: reads) true (s.needBinary >>= f) := by
  by_cases hd : Cell.d ∈ s.unwritten
  · have stop : s.needBinary = .error (s.unwrittenRead .d) := bind_of_error (need_of_unwritten hd) _
    have found : s.firstStop ((.d, s) :: reads) = some (.d, s) := by simp [State.firstStop, hd]
    rw [bind_of_error stop]
    refine ⟨fun cell t hf _ => ?_, fun cell left hx => ?_⟩
    · cases found.symm.trans hf
      rfl
    · cases hx
      exact ⟨s, found, rfl⟩
  · have found : s.firstStop ((.d, s) :: reads) = s.firstStop reads := by simp [State.firstStop, hd]
    cases decimal : s.p.d with
    | false =>
      rw [needBinary_of_binary hd decimal, ok_bind]
      have stops : s.StopsAt reads true (f ()) := h.stopsAt
      exact ⟨fun cell t hf => stops.first cell t (found ▸ hf), fun cell left hx => found ▸ stops.only cell left hx⟩
    | true =>
      rw [needBinary_of_decimal hd decimal, error_bind]
      refine ⟨fun cell t hf guard => ?_, fun _ _ h => by cases h⟩
      have later := after _ (List.mem_of_find?_eq_some (found ▸ hf))
      exact absurd (guard rfl later) (by simp [decimal])

end

end Sys2Proof.Machine
end

section
/-! PROOFS. An instruction that reads a cell never written: where it stops, and what it leaves (R403, R408). -/

namespace Sys2Proof.Machine

/-! ### What a stop leaves -/

theorem State.Agrees.faulted {r u : State} (h : r.Agrees u) (record : FaultRecord) :
    State.Agrees { r with fault := record } { u with fault := record } := by
  unfold State.Agrees at h ⊢
  rw [h]
  rfl

theorem State.faulted_bus (s : State) (record : FaultRecord) : State.BusAs { s with fault := record } s :=
  ⟨rfl, rfl, rfl⟩

/-- A state that agrees with `r` and its stores, at distinct addresses, is what `Leaves` asks for. -/
theorem State.Agrees.leaves {s r u : State} {stored : List (Word × Byte)}
    (hu : State.Agrees { r with devices := stored.foldl storeTo s.devices } u)
    (hd : stored.Pairwise (fun v w => v.1 ≠ w.1)) : Leaves u s r stored := by
  obtain ⟨_, h, left⟩ := LeadsTo.intro (outcome := .next u) rfl hu hd
  cases h
  exact left

/-- Where an instruction other than BRK stops at a cell never written, with the state it leaves: in its mode, at a read
of its operation before any store, or at a read after the store of a composite. -/
inductive StopsWith (i : Instr) (s : State) (cell : Cell) (left : State) : Prop
  | inMode (after : i.afterOperand s = .error (.unwrittenRead cell left)) (plain : i.storedBefore cell s.p.c = none)
      (same : State.Agrees { s with fault := .unwrittenRead cell } left)
  | beforeStore (t : State) (after : i.afterOperand s = .ok t) (plain : i.storedBefore cell s.p.c = none)
      (same : s.BusOnly t) (is : left = { t with fault := .unwrittenRead cell })
  | afterStore (m : MemMode) (result : Byte → Byte) (r : Resolved) (v : Byte) (t : State)
      (access : accessMem m s = .ok (r, v, t)) (stored : i.storedBefore cell s.p.c = some (m, result))
      (same : s.BusOnly t) (is : left = { t.busWrite r.ea (result v) with fault := .unwrittenRead cell })

section
variable {i : Instr} {s left : State} {cell : Cell} (h : StopsWith i s cell left)
include h

/-- Where a composite has stored its byte, that byte is the only change. -/
theorem StopsWith.stored {m : MemMode} {result : Byte → Byte} (stored : i.storedBefore cell s.p.c = some (m, result)) :
    ∃ r v t, accessMem m s = .ok (r, v, t) ∧
      Leaves left s { s with fault := .unwrittenRead cell } [(r.ea, result v)] ∧
      left.BusAs (t.busWrite r.ea (result v)) := by
  cases h with
  | inMode _ plain => cases plain.symm.trans stored
  | beforeStore t _ plain => cases plain.symm.trans stored
  | afterStore m' result' r v t access stored' same is =>
    cases stored'.symm.trans stored
    subst is
    exact ⟨r, v, t, access, ((same.agrees.stored r.ea (result v)).faulted _).leaves (List.pairwise_singleton _ _),
      State.faulted_bus ..⟩

/-- Before any store nothing changes, and the bus is as the accesses so far leave it. -/
theorem StopsWith.plain (plain : i.storedBefore cell s.p.c = none) :
    Leaves left s { s with fault := .unwrittenRead cell } [] ∧ (∀ t, i.afterOperand s = .ok t → left.BusAs t) ∧
      ∀ fault, i.afterOperand s = .error fault → fault = .unwrittenRead cell left := by
  cases h with
  | inMode after _ same =>
    refine ⟨same.leaves .nil, fun t ht => ?_, fun fault hfault => ?_⟩
    · cases after.symm.trans ht
    · cases after.symm.trans hfault
      rfl
  | beforeStore t after _ same is =>
    subst is
    refine ⟨(same.agrees.faulted _).leaves .nil, fun u hu => ?_, fun fault hfault => ?_⟩
    · cases after.symm.trans hu
      exact State.faulted_bus ..
    · cases after.symm.trans hfault
  | afterStore m result r v t access stored => cases plain.symm.trans stored

end

/-- The instruction raises `UnwrittenRead` for the first cell it reads that was never written, with the exceptions of
R408, and for no other; `left` says what it leaves then. -/
structure FaultsInOrder (i : Instr) (s : State) (left : Cell → State → Prop) : Prop where
  raises : ∀ cell, s.firstUnwritten i.reads = some cell →
    (i.executes s.params = true ∨ i.mnemonic.unstable = true) →
    (i.mnemonic.decimalUnsupported = true → cell = .a ∨ cell = .c → s.p.d = false) →
    ∃ l, exec i s = .fault (.unwrittenRead cell l)
  leaves : ∀ cell l, exec i s = .fault (.unwrittenRead cell l) → s.firstUnwritten i.reads = some cell ∧ left cell l

/-! ### The accesses before the operation -/

/-- The accesses `acc` of an instruction stop at the index register of its mode, which is the cells `mode`, or leave
`after b`. -/
structure AccessOf {β : Type} (s : State) (mode : List Cell) (acc : Except Fault β) (after : β → State) : Prop where
  stops : ∀ f, acc = .error f → ∃ cell left, f = .unwrittenRead cell left ∧ s.firstUnwritten mode = some cell ∧
    (cell = .x ∨ cell = .y) ∧ State.Agrees { s with fault := .unwrittenRead cell } left
  done  : ∀ b, acc = .ok b → s.BusOnly (after b) ∧ s.firstUnwritten mode = none

/-- No access. -/
theorem AccessOf.nothing (s : State) : AccessOf s [] (.ok s) id :=
  ⟨fun _ h => (nomatch h), fun _ h => by cases h; exact ⟨.refl s, rfl⟩⟩

section
variable {m : MemMode} {s : State} (hdb : Cell.db ∉ s.unwritten)
include hdb

/-- The mode's accesses: its read of the index register is the only thing that stops them. -/
theorem AccessOf.mode : AccessOf s m.reads (resolve m s) Prod.snd := by
  have index : ∀ {r t}, resolve m s = .ok (r, t) → s.firstUnwritten m.reads = none :=
    fun h => State.firstUnwritten_eq_none.2 (resolve_only hdb h).2
  refine ⟨fun f h => ?_, fun ⟨r, t⟩ h => ⟨(resolve_only hdb h).1, index h⟩⟩
  have unwritten : ∃ cell ∈ m.reads, cell ∈ s.unwritten := by
    by_contra written
    obtain ⟨r, t, ok, -⟩ := resolve_completes hdb fun cell hc hu => written ⟨cell, hc, hu⟩
    cases ok.symm.trans h
  cases m with
  | zpa zp | abs addr => cases h
  | zpx zp | abx addr | izx ptr =>
    have hx : Cell.x ∈ s.unwritten := by simpa [MemMode.reads] using unwritten
    cases (bind_of_error (readX_of_unwritten hx) _).symm.trans h
    exact ⟨.x, _, rfl, by simp [MemMode.reads, hx], .inl rfl, (State.Agrees.refl s).faulted _⟩
  | zpy zp | aby addr =>
    have hy : Cell.y ∈ s.unwritten := by simpa [MemMode.reads] using unwritten
    cases (bind_of_error (readY_of_unwritten hy) _).symm.trans h
    exact ⟨.y, _, rfl, by simp [MemMode.reads, hy], .inr rfl, (State.Agrees.refl s).faulted _⟩
  | izy ptr =>
    have hy : Cell.y ∈ s.unwritten := by simpa [MemMode.reads] using unwritten
    obtain ⟨base, t, pointer, ht⟩ := State.readZeroPagePointer_completes ptr hdb
    cases (bind_of_ok pointer (bind_of_error (readY_of_unwritten (ht.2 ▸ hy)) _)).symm.trans h
    exact ⟨.y, _, rfl, by simp [MemMode.reads, hy], .inr rfl, ht.agrees.faulted _⟩

/-- The mode's accesses and the read of M, which stops nothing. -/
theorem AccessOf.read : AccessOf s m.reads (accessMem m s) (fun b => b.2.2) := by
  refine ⟨fun f h => ?_, fun ⟨r, v, t⟩ h => ?_⟩
  · cases hr : resolve m s with
    | error g =>
      cases (bind_of_error hr _).symm.trans h
      exact (AccessOf.mode hdb).stops _ hr
    | ok b =>
      obtain ⟨r, v, t, ok, -⟩ := accessMem_completes hdb (resolve_only (r := b.1) (t := b.2) hdb hr).2
      cases ok.symm.trans h
  · obtain ⟨ht, hm⟩ := accessMem_only hdb h
    exact ⟨ht, State.firstUnwritten_eq_none.2 hm⟩

theorem AccessOf.operand {o : ReadOperand} : AccessOf s o.reads (accessOperand o s) (fun b => b.2.2) := by
  refine ⟨fun f h => ?_, fun ⟨v, crossed, t⟩ h => ?_⟩
  · cases o with
    | imm v => cases h
    | mem m =>
      cases ha : accessMem m s with
      | error g =>
        cases (bind_of_error ha _).symm.trans h
        exact (AccessOf.read hdb).stops _ ha
      | ok b => cases (bind_of_ok ha rfl).symm.trans h
  · obtain ⟨ht, ho⟩ := accessOperand_only hdb h
    exact ⟨ht, State.firstUnwritten_eq_none.2 ho⟩

end

/-! The state after them, as `afterOperand` says it. The store class is the one whose table gives a value. -/

theorem afterOperand_of_store {i : Instr} {m : MemMode} (hm : i.memOperand = some m)
    (hw : (writeValue i.mnemonic).isSome = true) (s : State) :
    i.afterOperand s = resolve m s >>= fun b => .ok b.2 := by
  cases i with
  | sta m' | stx m' | sty m' | sax m' | sha m' | tas m' | shy m' | shx m' => cases hm; rfl
  | _ => cases hw

theorem afterOperand_of_mem {i : Instr} {m : MemMode} (hm : i.memOperand = some m)
    (hw : writeValue i.mnemonic = none) (s : State) : i.afterOperand s = accessMem m s >>= fun b => .ok b.2.2 := by
  cases i with
  | sta m' | stx m' | sty m' | sax m' | sha m' | tas m' | shy m' | shx m' => cases hw
  | _ => simp only [Instr.afterOperand, hm]

theorem afterOperand_of_register {i : Instr} (hm : i.memOperand = none) (s : State) : i.afterOperand s = .ok s := by
  cases i with
  | sta m | stx m | sty m | sax m | sha m | tas m | shy m | shx m => cases hm
  | _ => simp only [Instr.afterOperand, hm]

theorem afterOperand_of_operand {i : Instr} {o : ReadOperand} (hm : i.memOperand = o.memory)
    (hw : writeValue i.mnemonic = none) (s : State) :
    i.afterOperand s = accessOperand o s >>= fun b => .ok b.2.2 := by
  cases o with
  | imm v => exact afterOperand_of_register hm s
  | mem m =>
    rw [afterOperand_of_mem hm hw]
    cases h : accessMem m s with
    | error f =>
      rw [show accessOperand (.mem m) s = .error f from bind_of_error h _]
      rfl
    | ok b =>
      rw [show accessOperand (.mem m) s = .ok (b.2.1, b.1.crossed, b.2.2) from bind_of_ok h rfl]
      rfl

/-! ### An instruction: its accesses, then its operation -/

/-- An operation reads this cell in this state: before the store of its composite, or after it. -/
def ReadIn (i : Instr) (s t : State) (cell : Cell) (u : State) : Prop :=
  match i.storedBefore cell s.p.c with
  | none => u = t
  | some (m, result) => ∃ r v, accessMem m s = .ok (r, v, t) ∧ u = t.busWrite r.ea (result v)

/-- No composite has stored when its mode reads an index register. -/
theorem storedBefore_index (i : Instr) {cell : Cell} (h : cell = .x ∨ cell = .y) (carry : Bool) :
    i.storedBefore cell carry = none := by
  rcases h with rfl | rfl <;> cases i <;> rfl

/-- What is only mapped on stops where it stops. -/
theorem error_of_bind_ok {α β : Type} {x : Except Fault α} {g : α → β} {f : Fault}
    (h : (x >>= fun a => .ok (g a)) = .error f) : x = .error f := by
  cases x with
  | error e => cases h; rfl
  | ok a => cases h

/-- The operation, after the accesses that left `t`, reads these cells in this order. -/
def OperationOf {α : Type} (i : Instr) (s t : State) (cells : List Cell) (x : Except Fault α) : Prop :=
  ∃ reads, reads.map Prod.fst = cells ∧ t.StopsAt reads i.mnemonic.decimalUnsupported x ∧
    ∀ read ∈ reads, ReadIn i s t read.1 read.2

/-- Accesses and then an operation: the reads are those of the mode, then those of the operation. -/
theorem FaultsInOrder.of_access {β γ : Type} {i : Instr} {s : State} {mode cells : List Cell} {acc : Except Fault β}
    {after : β → State} {op : β → Except Fault γ} {k : β → γ → State}
    (run : exec i s = finish (acc >>= fun b => op b >>= fun w => .ok (k b w)))
    (reads : i.reads = mode ++ cells) (operand : i.afterOperand s = acc >>= fun b => .ok (after b))
    (access : AccessOf s mode acc after) (operation : ∀ b, acc = .ok b → OperationOf i s (after b) cells (op b)) :
    FaultsInOrder i s (StopsWith i s) := by
  have split : s.firstUnwritten i.reads = (s.firstUnwritten mode).or (s.firstUnwritten cells) := by
    rw [reads]
    exact List.find?_append ..
  cases hacc : acc with
  | error f =>
    obtain ⟨cell, left, rfl, found, index, same⟩ := access.stops f hacc
    rw [found, Option.some_or] at split
    have stop : exec i s = .fault (.unwrittenRead cell left) := by rw [run, hacc]; rfl
    refine ⟨fun cell' h _ _ => ?_, fun cell' left' h => ?_⟩
    · cases split.symm.trans h
      exact ⟨left, stop⟩
    · cases stop.symm.trans h
      exact ⟨split, .inMode (by rw [operand, hacc]; rfl) (storedBefore_index i index _) same⟩
  | ok b =>
    obtain ⟨same, written⟩ := access.done b hacc
    obtain ⟨list, rfl, stops, states⟩ := operation b hacc
    obtain ⟨-, -, -, -, -, tp, -, -, -, -, tu, -⟩ := same.fields
    have first : s.firstUnwritten i.reads = ((after b).firstStop list).map Prod.fst := by
      rw [split, written, Option.none_or, s.firstUnwritten_eq, State.firstStop, State.firstStop, tu]
    have run : exec i s = finish (op b >>= fun w => .ok (k b w)) := by rw [run, hacc]; rfl
    refine ⟨fun cell h _ guard => ?_, fun cell left h => ?_⟩
    · rw [first, Option.map_eq_some_iff] at h
      obtain ⟨⟨_, t⟩, h, rfl⟩ := h
      exact ⟨_, run.trans (finish_fault.2 (bind_of_error (stops.first _ t h (tp ▸ guard)) _))⟩
    · have stopped := error_of_bind_ok (finish_fault.1 (run.symm.trans h))
      obtain ⟨t, found, is⟩ := stops.only cell left stopped
      refine ⟨by rw [first, found]; rfl, ?_⟩
      have state := states _ (List.mem_of_find?_eq_some found)
      have after' : i.afterOperand s = .ok (after b) := by rw [operand, hacc]; rfl
      unfold ReadIn at state
      split at state
      · next plain =>
        subst state
        exact .beforeStore _ after' plain same is
      · next m result stored =>
        obtain ⟨r, v, ha, rfl⟩ := state
        exact .afterStore m result r v _ ha stored same is

end Sys2Proof.Machine
end

section
/-! PROOFS. Every instruction stops at the first cell it reads that was never written (R403, R408). -/

namespace Sys2Proof.Machine

/-! ### Which instructions store before a read: by the cycle level's tables -/

theorem storedBefore_of_register {i : Instr} (hm : i.memOperand = none) (cell : Cell) (carry : Bool) :
    i.storedBefore cell carry = none := by
  cases i with
  | slo m | rla m | sre m | rra m | dcp m | isc m => cases hm
  | _ => rfl

theorem storedBefore_of_store {i : Instr} (hw : (writeValue i.mnemonic).isSome = true) (cell : Cell) (carry : Bool) :
    i.storedBefore cell carry = none := by
  cases i with
  | slo m | rla m | sre m | rra m | dcp m | isc m => cases hw
  | _ => rfl

theorem storedBefore_of_read {i : Instr} (hr : (readOp i.mnemonic).isSome = true) (cell : Cell) (carry : Bool) :
    i.storedBefore cell carry = none := by
  cases i with
  | slo m | rla m | sre m | rra m | dcp m | isc m => cases hr
  | _ => rfl

theorem writeValue_of_read {i : Instr} (hr : (readOp i.mnemonic).isSome = true) : writeValue i.mnemonic = none := by
  cases i with
  | sta m | stx m | sty m | sax m | sha m | tas m | shy m | shx m => cases hr
  | _ => rfl

/-! ### The skeletons -/

theorem ReadIn.before {i : Instr} {s : State} {cell : Cell} (plain : i.storedBefore cell s.p.c = none) (t : State) :
    ReadIn i s t cell t := by
  rw [ReadIn, plain]

theorem ReadIn.after {i : Instr} {s t : State} {cell : Cell} {m : MemMode} {result : Byte → Byte} {r : Resolved}
    {v b : Byte} (stored : i.storedBefore cell s.p.c = some (m, result)) (access : accessMem m s = .ok (r, v, t))
    (hb : b = result v) : ReadIn i s t cell (t.busWrite r.ea b) := by
  rw [ReadIn, stored]
  exact ⟨r, v, access, by rw [hb]⟩

/-- An operation that reads before any store. -/
theorem OperationOf.plain {α : Type} {i : Instr} {s t : State} {cells : List Cell} {x : Except Fault α}
    (plain : ∀ cell carry, i.storedBefore cell carry = none)
    (h : t.StopsAt (cells.map (·, t)) i.mnemonic.decimalUnsupported x) : OperationOf i s t cells x := by
  refine ⟨_, by simp [Function.comp_def], h, fun read hr => ?_⟩
  obtain ⟨cell, -, rfl⟩ := List.mem_map.1 hr
  exact .before (plain cell _) t

section
variable {i : Instr} {s : State} {cells : List Cell}

/-- An instruction without accesses: implied, or a branch. -/
theorem FaultsInOrder.register {γ : Type} {op : Except Fault γ} {k : γ → State} (hm : i.memOperand = none)
    (run : exec i s = finish (op >>= fun w => .ok (k w))) (reads : i.reads = cells)
    (hop : s.StopsAt (cells.map (·, s)) i.mnemonic.decimalUnsupported op) : FaultsInOrder i s (StopsWith i s) :=
  .of_access (mode := []) (acc := .ok s) (after := id) (op := fun _ => op) (k := fun _ => k) run reads
    (afterOperand_of_register hm s) (.nothing s)
    fun _ h => by
      cases h
      exact .plain (storedBefore_of_register hm) hop

theorem FaultsInOrder.implied {op : State → Except Fault State} (hm : i.memOperand = none)
    (run : exec i = impliedInstr op) (reads : i.reads = cells)
    (hop : s.StopsAt (cells.map (·, s)) i.mnemonic.decimalUnsupported (op s)) : FaultsInOrder i s (StopsWith i s) :=
  .register (op := op s) (k := fun w => w.complete (w.clocks false)) hm (congrFun run s) reads hop

variable (hdb : Cell.db ∉ s.unwritten)
include hdb

theorem FaultsInOrder.read {o : ReadOperand} {op : Byte → State → Except Fault State}
    (run : exec i = readInstr o op) (table : (readOp i.mnemonic).isSome = true) (hm : i.memOperand = o.memory)
    (reads : i.reads = o.reads ++ cells) (hop : ∀ v t, s.BusOnly t →
      t.StopsAt (cells.map (·, t)) i.mnemonic.decimalUnsupported (op v t)) : FaultsInOrder i s (StopsWith i s) :=
  .of_access (acc := accessOperand o s) (op := fun b => op b.1 b.2.2) (k := fun b w => w.complete (w.clocks b.2.1))
    (congrFun run s) reads (afterOperand_of_operand hm (writeValue_of_read table) s) (.operand hdb) fun _ h =>
      .plain (storedBefore_of_read table) (hop _ _ (accessOperand_only hdb h).1)

theorem FaultsInOrder.write {m : MemMode} {value : State → Except Fault Byte}
    (run : exec i = writeInstr m value) (table : (writeValue i.mnemonic).isSome = true) (hm : i.memOperand = some m)
    (reads : i.reads = m.reads ++ cells)
    (hop : ∀ t : State, t.StopsAt (cells.map (·, t)) i.mnemonic.decimalUnsupported (value t)) :
    FaultsInOrder i s (StopsWith i s) :=
  .of_access (acc := resolve m s) (op := fun b => value b.2)
    (k := fun b v => (b.2.busWrite b.1.ea v).complete ((b.2.busWrite b.1.ea v).clocks b.1.crossed))
    (congrFun run s) reads (afterOperand_of_store hm table s) (.mode hdb) fun _ _ =>
      .plain (storedBefore_of_store table) (hop _)

theorem FaultsInOrder.modify {m : MemMode} {op : Word → Byte → State → Except Fault State}
    (run : exec i = rmwInstr m op) (table : writeValue i.mnemonic = none) (hm : i.memOperand = some m)
    (reads : i.reads = m.reads ++ cells) (hop : ∀ r v t, accessMem m s = .ok (r, v, t) → s.BusOnly t →
      OperationOf i s t cells (op r.ea v t)) : FaultsInOrder i s (StopsWith i s) :=
  .of_access (acc := accessMem m s) (op := fun b => op b.1.ea b.2.1 b.2.2)
    (k := fun b w => w.complete (w.clocks b.1.crossed)) (congrFun run s) reads (afterOperand_of_mem hm table s)
    (.read hdb) fun _ h => hop _ _ _ h (accessMem_only hdb h).1

end

/-- An instruction that reads no cell and completes. -/
theorem FaultsInOrder.of_completes {i : Instr} {s : State} {left : Cell → State → Prop} (reads : i.reads = [])
    (h : ∃ u, exec i s = .next u) : FaultsInOrder i s left := by
  obtain ⟨u, hu⟩ := h
  constructor
  · intro cell h
    rw [reads] at h
    cases h
  · intro cell l h
    cases hu.symm.trans h

/-! ### The operations that read after an access -/

section
variable {α : Type} (t : State)

theorem State.Reads.onA (f : Byte → α) : t.Reads [(.a, t)] (t.readA >>= fun a => .ok (f a)) :=
  (State.Reads.a .rfl).bind fun _ _ => .ok _

theorem State.Reads.onX (f : Byte → α) : t.Reads [(.x, t)] (t.readX >>= fun x => .ok (f x)) :=
  (State.Reads.x .rfl).bind fun _ _ => .ok _

theorem State.Reads.onY (f : Byte → α) : t.Reads [(.y, t)] (t.readY >>= fun y => .ok (f y)) :=
  (State.Reads.y .rfl).bind fun _ _ => .ok _

theorem State.Reads.onAX (f : Byte → Byte → α) :
    t.Reads [(.a, t), (.x, t)] (t.readA >>= fun a => t.readX >>= fun x => .ok (f a x)) :=
  (State.Reads.a .rfl).bind fun a _ => .onX t (f a)

theorem State.Reads.onAC (f : Byte → Bool → α) :
    t.Reads [(.a, t), (.c, t)] (t.readA >>= fun a => t.readC >>= fun c => .ok (f a c)) :=
  (State.Reads.a .rfl).bind fun _ _ => (State.Reads.c .rfl).bind fun _ _ => .ok _

/-- The decimal test, and then A and C. -/
theorem State.StopsAt.onBinary (f : Byte → Bool → α) : t.StopsAt [(.d, t), (.a, t), (.c, t)] true
    (t.needBinary >>= fun _ => t.readA >>= fun a => t.readC >>= fun c => .ok (f a c)) :=
  State.Reads.binary (.onAC t f) (by simp)

/-- A read of A after a store, which leaves A's mark alone. -/
theorem State.Reads.onStoredA (ea : Word) (v : Byte) (f : Byte → α) :
    t.Reads [(.a, t.busWrite ea v)] ((t.busWrite ea v).readA >>= fun a => .ok (f a)) :=
  (State.Reads.a (by simp)).bind fun _ _ => .ok _

/-- Reads of A and C after a store. -/
theorem State.Reads.onStoredAC (ea : Word) (v : Byte) (f : Byte → Bool → α) :
    t.Reads [(.a, t.busWrite ea v), (.c, t.busWrite ea v)]
      ((t.busWrite ea v).readA >>= fun a => (t.busWrite ea v).readC >>= fun c => .ok (f a c)) :=
  (State.Reads.a (by simp)).bind fun _ _ => (State.Reads.c (by simp)).bind fun _ _ => .ok _

/-- A read of C, the store of a byte made from it, and a read of A. -/
theorem State.Reads.onCStoredA (ea : Word) (stored : Bool → Byte) (f : Bool → Byte → α) :
    t.Reads [(.c, t), (.a, t.busWrite ea (stored t.p.c))]
      (t.readC >>= fun c => (t.busWrite ea (stored c)).readA >>= fun a => .ok (f c a)) :=
  (State.Reads.c .rfl).bind fun c hc => by
    rw [(readC_ok hc).2]
    exact .onStoredA t ea _ _

end

/-! ### The composites -/

section
variable {s t : State} {m : MemMode} {r : Resolved} {v : Byte} (access : accessMem m s = .ok (r, v, t))
include access

theorem sloOp_operation : OperationOf (.slo m) s t [.a] (sloOp r.ea v t) :=
  ⟨_, rfl, (State.Reads.onStoredA t r.ea (v <<< 1) _).stopsAt, List.forall_mem_singleton.2 (.after rfl access rfl)⟩

theorem sreOp_operation : OperationOf (.sre m) s t [.a] (sreOp r.ea v t) :=
  ⟨_, rfl, (State.Reads.onStoredA t r.ea (v >>> 1) _).stopsAt, List.forall_mem_singleton.2 (.after rfl access rfl)⟩

theorem dcpOp_operation : OperationOf (.dcp m) s t [.a] (dcpOp r.ea v t) :=
  ⟨_, rfl, (State.Reads.onStoredA t r.ea (v - 1) _).stopsAt, List.forall_mem_singleton.2 (.after rfl access rfl)⟩

theorem iscOp_operation : OperationOf (.isc m) s t [.d, .a, .c] (iscOp r.ea v t) := by
  refine ⟨_, rfl, (State.Reads.onStoredAC t r.ea (v + 1) _).binary (by simp), ?_⟩
  simp only [List.forall_mem_cons]
  exact ⟨.before rfl t, .after rfl access rfl, .after rfl access rfl, List.forall_mem_nil _⟩

variable (same : s.BusOnly t)
include same

theorem rlaOp_operation : OperationOf (.rla m) s t [.c, .a] (rlaOp r.ea v t) := by
  obtain ⟨-, -, -, -, -, tp, -⟩ := same.fields
  refine ⟨_, rfl, (State.Reads.onCStoredA t r.ea (fun c => (rolByte v c).1) _).stopsAt, ?_⟩
  simp only [List.forall_mem_cons]
  exact ⟨.before rfl t, .after rfl access (by rw [rolByte_eq, tp]), List.forall_mem_nil _⟩

theorem rraOp_operation : OperationOf (.rra m) s t [.d, .c, .a] (rraOp r.ea v t) := by
  obtain ⟨-, -, -, -, -, tp, -⟩ := same.fields
  refine ⟨_, rfl, (State.Reads.onCStoredA t r.ea (fun c => (rorByte v c).1) _).binary (by simp), ?_⟩
  simp only [List.forall_mem_cons]
  exact ⟨.before rfl t, .before rfl t, .after rfl access (by rw [rorByte_eq, tp]), List.forall_mem_nil _⟩

end

/-! ### Every instruction -/

/-- SBX reads A and X where its parameter lets it execute, and no cell where it does not (R328). -/
theorem sbx_faultsInOrder {s : State} (hdb : Cell.db ∉ s.unwritten) (v : Byte) :
    FaultsInOrder (.sbx v) s (StopsWith (.sbx v) s) := by
  cases hm : s.params.sbxMode with
  | unsupported =>
    have stop : exec (.sbx v) s = .fault s.unsupported :=
      finish_fault.2 (bind_of_error (sbxOp_of_unsupported hm v) _)
    refine ⟨fun cell _ he _ => ?_, fun cell l h => ?_⟩
    · rcases he with executes | unstable
      · cases hm.symm.trans (sbx_executes.1 executes)
      · cases unstable
    · cases stop.symm.trans h
  | silicon =>
    refine .read (o := .imm v) hdb rfl rfl rfl rfl fun v t ht => ?_
    obtain ⟨-, -, -, -, -, -, -, -, -, hparams, -⟩ := ht.fields
    rw [sbxOp, hparams, hm]
    exact (State.Reads.onAX t _).stopsAt

/-- DB being written, every instruction but BRK stops at the first cell it reads that was never written, with what
`StopsWith` says. -/
theorem exec_faultsInOrder {i : Instr} {s : State} (hdb : Cell.db ∉ s.unwritten) (hb : i ≠ .brk) :
    FaultsInOrder i s (StopsWith i s) := by
  cases i with
  | lda o | ldx o | ldy o =>
    exact .read hdb rfl rfl (by cases o <;> rfl) (List.append_nil _).symm fun _ _ _ => (State.Reads.ok _).stopsAt
  | lax m =>
    exact .read (o := .mem m) hdb rfl rfl rfl (List.append_nil _).symm fun _ _ _ => (State.Reads.ok _).stopsAt
  | adc o | sbc o => exact .read hdb rfl rfl (by cases o <;> rfl) rfl fun _ t _ => .onBinary t _
  | usbc v | arr v => exact .read (o := .imm v) hdb rfl rfl rfl rfl fun _ t _ => .onBinary t _
  | and o | ora o | eor o | cmp o =>
    exact .read hdb rfl rfl (by cases o <;> rfl) rfl fun _ t _ => (State.Reads.onA t _).stopsAt
  | bit m => exact .read (o := .mem m) hdb rfl rfl rfl rfl fun _ t _ => (State.Reads.onA t _).stopsAt
  | anc opcode v | alr v =>
    exact .read (o := .imm v) hdb rfl rfl rfl rfl fun _ t _ => (State.Reads.onA t _).stopsAt
  | cpx o => exact .read hdb rfl rfl (by cases o <;> rfl) rfl fun _ t _ => (State.Reads.onX t _).stopsAt
  | cpy o => exact .read hdb rfl rfl (by cases o <;> rfl) rfl fun _ t _ => (State.Reads.onY t _).stopsAt
  | ane v | lxa v => exact .read (o := .imm v) hdb rfl rfl rfl rfl fun _ t _ => .unsupported t
  | las m => exact .read (o := .mem m) hdb rfl rfl rfl (List.append_nil _).symm fun _ t _ => .unsupported t
  | sbx v => exact sbx_faultsInOrder hdb v
  | nop opcode o =>
    cases o with
    | implied => exact .of_completes rfl ⟨_, rfl⟩
    | imm v => exact .of_completes rfl ⟨_, rfl⟩
    | mem m =>
      exact .read (o := .mem m) hdb rfl rfl rfl (List.append_nil _).symm fun _ _ _ => (State.Reads.ok _).stopsAt
  | sta m => exact .write hdb rfl rfl rfl rfl fun t => (State.Reads.a .rfl).stopsAt
  | stx m => exact .write hdb rfl rfl rfl rfl fun t => (State.Reads.x .rfl).stopsAt
  | sty m => exact .write hdb rfl rfl rfl rfl fun t => (State.Reads.y .rfl).stopsAt
  | sax m => exact .write hdb rfl rfl rfl rfl fun t => (State.Reads.onAX t _).stopsAt
  | sha m | tas m | shy m | shx m =>
    exact .write hdb rfl rfl rfl (List.append_nil _).symm fun t => .unsupported t
  | inc m | dec m =>
    exact .modify hdb rfl rfl rfl (List.append_nil _).symm fun _ _ _ _ _ =>
      .plain (fun _ _ => rfl) (State.Reads.ok _).stopsAt
  | slo m => exact .modify hdb rfl rfl rfl rfl fun _ _ _ access _ => sloOp_operation access
  | rla m => exact .modify hdb rfl rfl rfl rfl fun _ _ _ access same => rlaOp_operation access same
  | sre m => exact .modify hdb rfl rfl rfl rfl fun _ _ _ access _ => sreOp_operation access
  | rra m => exact .modify hdb rfl rfl rfl rfl fun _ _ _ access same => rraOp_operation access same
  | dcp m => exact .modify hdb rfl rfl rfl rfl fun _ _ _ access _ => dcpOp_operation access
  | isc m => exact .modify hdb rfl rfl rfl rfl fun _ _ _ access _ => iscOp_operation access
  | asl o | lsr o =>
    cases o with
    | acc => exact .implied rfl rfl rfl (State.Reads.onA s _).stopsAt
    | mem m =>
      exact .modify hdb rfl rfl rfl (List.append_nil _).symm fun _ _ _ _ _ =>
        .plain (fun _ _ => rfl) (State.Reads.ok _).stopsAt
  | rol o | ror o =>
    cases o with
    | acc => exact .implied rfl rfl rfl (State.Reads.onAC s _).stopsAt
    | mem m =>
      exact .modify hdb rfl rfl rfl rfl fun _ _ _ _ _ =>
        .plain (fun _ _ => rfl) ((State.Reads.c .rfl).bind fun _ _ => .ok _).stopsAt
  | tax | tay | pha => exact .implied rfl rfl rfl (State.Reads.onA s _).stopsAt
  | txa | txs | inx | dex => exact .implied rfl rfl rfl (State.Reads.onX s _).stopsAt
  | tya | iny | dey => exact .implied rfl rfl rfl (State.Reads.onY s _).stopsAt
  | php =>
    exact .implied rfl rfl rfl ((State.Reads.status fun _ _ => .rfl).bind (ds := []) fun _ _ => .ok _).stopsAt
  | bcc off | bcs off | beq off | bne off | bmi off | bpl off | bvc off | bvs off =>
    exact .register rfl rfl rfl (State.Reads.need .rfl).stopsAt
  | tsx | clc | sec | cli | sei | cld | sed | clv | jam opcode => exact .of_completes rfl ⟨_, rfl⟩
  | pla => exact .of_completes rfl (pla_completes hdb)
  | plp => exact .of_completes rfl (plp_completes hdb)
  | rts => exact .of_completes rfl (rts_completes hdb)
  | rti => exact .of_completes rfl (rti_completes hdb)
  | jsr target => exact .of_completes rfl (jsr_completes s target)
  | jmp o =>
    cases o with
    | abs target => exact .of_completes rfl ⟨_, rfl⟩
    | ind ptr => exact .of_completes rfl (jumpIndirect_completes hdb ptr)
  | brk => exact absurd rfl hb

end Sys2Proof.Machine
end

section
/-! PROOFS. Unwritten cells: the frame of an exception, and the statement over every instruction and the NMI entry. -/

namespace Sys2Proof.Machine

/-! ### The frame of an exception -/

/-- Reads of several cells in one state. -/
theorem State.firstStop_map (s t : State) (cells : List Cell) :
    s.firstStop (cells.map (·, t)) = (s.firstUnwritten cells).map (·, t) := List.find?_map ..

/-- An exception stops at P with its return address pushed. -/
theorem takeException_of_unwritten {s : State} {cell : Cell} (h : s.firstUnwritten statusCells = some cell)
    (returnTo : Word) (frameOf : Status → Byte) (vector : Word) :
    s.takeException returnTo frameOf vector =
      .error (((s.push (hiByte returnTo)).push (loByte returnTo)).unwrittenRead cell) :=
  (State.Reads.exception s returnTo frameOf vector).stops cell _ (by rw [s.firstStop_map, h]; rfl)

/-- BRK stops at P with pc0 + 2 pushed. -/
theorem brk_faultsInOrder (s : State) : FaultsInOrder .brk s fun cell left =>
    left = { (s.push (hiByte (s.pc + 1))).push (loByte (s.pc + 1)) with fault := .unwrittenRead cell } := by
  have stop : ∀ cell, s.firstUnwritten statusCells = some cell → exec .brk s =
      .fault (((s.push (hiByte (s.pc + 1))).push (loByte (s.pc + 1))).unwrittenRead cell) := fun cell h =>
    finish_fault.2 (bind_of_error (bind_of_error (takeException_of_unwritten h _ _ _) _) _)
  refine ⟨fun cell h _ _ => ⟨_, stop cell h⟩, fun cell left h => ?_⟩
  cases found : s.firstUnwritten statusCells with
  | none =>
    obtain ⟨u, hu⟩ := (impliedInstr_completes_iff brkOp_completesWhen).2
      (State.meets_of_written (State.firstUnwritten_eq_none.1 found))
    cases hu.symm.trans h
  | some cell' =>
    cases (stop cell' found).symm.trans h
    exact ⟨found, rfl⟩

/-- An NMI entry stops at P with PC pushed. -/
theorem step_of_nmi_unwritten {s : State} {cell : Cell} (hpc : Cell.pc ∉ s.unwritten) (hf : s.fault = .none)
    (hj : s.jammed = false) (hi : s.idle = true) (hp : s.params.irqNmiPresent = true) (hn : s.nmiPending = true)
    (h : s.firstUnwritten statusCells = some cell) :
    step s = .fault (((s.force.beginEntry.push (hiByte s.pc)).push (loByte s.pc)).unwrittenRead cell) := by
  rw [step_of_nmi hpc hf hj hi hp hn]
  exact finish_fault.2
    (bind_of_error (takeException_of_unwritten (s := s.force.beginEntry) h s.pc Status.packInterrupt _) _)

/-! ### The obligation -/

/-- Settles O57: the reads of every instruction in their order, and the state in which each is made. -/
theorem unwrittenReadFaults : Obligations.UnwrittenReadFaults := by
  unfold Obligations.UnwrittenReadFaults
  refine ⟨fun i s hdb => ?_, fun s cell hpc hf hj hi hp hn h => ?_⟩
  · by_cases hb : i = .brk
    · subst hb
      have order := brk_faultsInOrder s
      refine ⟨order.raises, fun cell left h => ?_⟩
      obtain ⟨found, rfl⟩ := order.leaves cell left h
      have pushed := ((State.Agrees.refl s).pushPair (hiByte (s.pc + 1)) (loByte (s.pc + 1))).faulted
        (.unwrittenRead cell)
      refine ⟨found, fun _ => ⟨?_, State.faulted_bus ..⟩, fun m result stored => ?_, fun other => absurd rfl other⟩
      · exact pushed.leaves (pair_distinct _ _ _)
      · cases stored
    · have order := exec_faultsInOrder hdb hb
      refine ⟨order.raises, fun cell left h => ?_⟩
      obtain ⟨found, stops⟩ := order.leaves cell left h
      refine ⟨found, fun brk => absurd brk hb, fun m result stored => ?_, fun _ plain => ?_⟩
      · exact stops.stored stored
      · exact stops.plain plain
  · refine ⟨_, step_of_nmi_unwritten hpc hf hj hi hp hn h, ?_, ?_⟩
    · exact (((beginEntry_agrees s).pushPair (hiByte s.pc) (loByte s.pc)).faulted (.unwrittenRead cell)).leaves
        (pair_distinct _ _ _)
    · exact State.faulted_bus ..

end Sys2Proof.Machine
end
